-- ==== Sys2Proof/Word.lean ====
section
/-! DEFINITION. The widths of the machine's data (R7, R10, Table 1-1) and the key-ordered list used for sparse state. -/

namespace Sys2Proof

/-- A 64-bit scalar register, descriptor, instruction word or record word. -/
abbrev Word := BitVec 64

/-- One lane-file word. -/
abbrev LWord := BitVec 32

/-- One byte of memory. -/
abbrev Byte := BitVec 8

/-- One bit for each window lane, lane n at bit n; a virtual window has at most 128 × 128 lanes (R51, R77). -/
abbrev Lanes := BitVec 16384

/-- Sparse data by key: keys strictly rising, one entry a key. -/
abbrev Map (α : Type) := List (Nat × α)

end Sys2Proof
end

