-- ==== Sys2Proof/Syntax.lean ====
section
/-! DEFINITION. The instructions and events: one constructor for each row of the opcode table (Tables 8-1 to 8-10, and the part's other steps). -/

namespace Sys2Proof

/-- A 7-bit operand selector as read (R158): a register number below 64, a latch, or a value that names nothing. -/
inductive Sel where
  | reg (n : BitVec 6)
  | bl (n : BitVec 2)
  | bad (v : BitVec 7)
  deriving DecidableEq, Repr

/-- The common part of an instruction word but for OP (Table 8-2). -/
structure Common where
  dist : BitVec 3
  setf : BitVec 4
  nwb : BitVec 1
  lat : BitVec 2
  pred : BitVec 3
  pneg : BitVec 1
  deriving DecidableEq, Repr

/-- A clause header (Table 8-1). -/
structure Header where
  cls : BitVec 3
  count : BitVec 4
  wait : BitVec 12
  any : BitVec 1
  yield : BitVec 1
  noPartner : BitVec 1
  deriving DecidableEq, Repr

/-- Operands of a class-1 operation with one source, lane or plane form (R160). -/
inductive Un where
  | lane (ty : BitVec 4) (rnd : BitVec 2) (sat : BitVec 1) (d a : Sel)
  | plane (ty : BitVec 4) (rnd : BitVec 2) (sat : BitVec 1) (pd pa : BitVec 4)
  deriving DecidableEq, Repr

/-- Operands of a class-1 operation with two sources; `planeS` is the scalar B form (R203). -/
inductive Bin where
  | lane (ty : BitVec 4) (rnd : BitVec 2) (sat : BitVec 1) (d a b : Sel)
  | plane (ty : BitVec 4) (rnd : BitVec 2) (sat : BitVec 1) (pd pa pb : BitVec 4)
  | planeS (ty : BitVec 4) (rnd : BitVec 2) (sat : BitVec 1) (pd pa sb : BitVec 4)
  deriving DecidableEq, Repr

/-- Operands of a class-1 operation with three sources. -/
inductive Tern where
  | lane (ty : BitVec 4) (rnd : BitVec 2) (sat : BitVec 1) (d a b c : Sel)
  | plane (ty : BitVec 4) (rnd : BitVec 2) (sat : BitVec 1) (pd pa pb pc : BitVec 4)
  deriving DecidableEq, Repr

/-- FSGN sub-operation (R209). -/
inductive SgnOp where
  | abs | neg | copy
  deriving DecidableEq, Repr

/-- FOLD and SCAN operator (R219). -/
inductive FoldOp where
  | add | max | min | and | or
  deriving DecidableEq, Repr

/-- Operation of ATOM, ATOMS, RED and REDS (Table 11-5). -/
inductive AtomOp where
  | add | min | max | and | or | xor | exch | cas
  deriving DecidableEq, Repr

/-- MRED sub-operation (Table 10-6). -/
inductive MredOp where
  | any | all | count | first
  deriving DecidableEq, Repr

/-- Mode of NBR (R216). -/
inductive NbrMode where
  | zero | clamp | const | wrap
  deriving DecidableEq, Repr

/-- Edge of SHIFT (R64). -/
inductive Edge where
  | zero | clamp | const
  deriving DecidableEq, Repr

/-- What LANEIDX and INDEX write (R217, R220). -/
inductive IdxSel where
  | whole | row | col
  deriving DecidableEq, Repr

/-- Block length of QUANT (R223). -/
inductive BlockLen where
  | l16 | l32 | l64
  deriving DecidableEq, Repr

/-- Mode of ACCEPT (R224). -/
inductive AcceptMode where
  | plain | mask | flag | trap
  deriving DecidableEq, Repr

/-- Kind of a FENCE (R245). -/
inductive FenceKind where
  | acq | rel | full
  deriving DecidableEq, Repr

/-- Scope field (R164). -/
inductive Scope where
  | strand | core | cluster | die | package | fabric
  deriving DecidableEq, Repr

/-- Field of SEGLIM (R184). -/
inductive SegField where
  | lim | base | attr | win
  deriving DecidableEq, Repr

/-- Field of XBSTAT (Table 12-7). -/
inductive XbField where
  | alpha | gamma | g | sigma | state | cals
  deriving DecidableEq, Repr

/-- Operands of a plain memory instruction (M format, R229). -/
structure MemArgs where
  ty : BitVec 4
  d : Sel
  seg : BitVec 4
  x : Sel
  disp : BitVec 16
  deriving DecidableEq, Repr

/-- Operands of an atomic or reduction (R240, R241). -/
structure AtomArgs where
  op : AtomOp
  ty : BitVec 4
  scope : Scope
  ord : BitVec 1
  d : Sel
  seg : BitVec 4
  x : Sel
  disp : BitVec 12
  deriving DecidableEq, Repr

/-- Operands of LDP, STP and QST: the plane is named by a 4-bit field. -/
structure PlaneMemArgs where
  ty : BitVec 4
  pd : BitVec 4
  seg : BitVec 4
  x : Sel
  disp : BitVec 16
  deriving DecidableEq, Repr

/-- The timeline of an E-format instruction: MOD[17] and TL (R257). -/
abbrev TlArg := Option (BitVec 3)

/-- A peer packet: its header words w0–w2 of Table 23-1, the rest of the header, and its payload (R377). -/
structure Packet where
  port : Nat
  w0 : Word
  w1 : Word
  w2 : Word
  rest : List Word
  payload : List Byte
  deriving DecidableEq, Repr

/-- A mesh packet (Table 23-2), as received: the fields of its header, the payload in 4-byte units, whether its CRC-16 holds. -/
structure MeshPacket where
  dst : Nat
  src : Nat
  escape : Bool
  kind : Nat
  seq : Nat
  tag : Word
  payload : List LWord
  crcOk : Bool
  deriving DecidableEq, Repr

/-- A queue-feed datagram: header words, encrypted body words, tag words (R383). -/
structure Datagram where
  w0 : Word
  w1 : Word
  w2 : Word
  w3 : Word
  body : List Word
  tag : List Word
  deriving DecidableEq, Repr

/-- What power-on finds in flash: two copies of the firmware image and of the configuration record, each with its signature (R387); the identity key's helper data and its certificate chain (R388). -/
structure Flash where
  images : List (List Word × List Word)
  records : List (List Word × List Word)
  helper : List Word
  certificate : List Word
  deriving DecidableEq, Repr

/-- What a patrol scrub reads (R365). -/
inductive ScrubTarget where
  /-- a line at its home in HBM4E -/
  | line (addr : Nat) (bad : Bool)
  /-- a line that a die's slice holds -/
  | slice (die slice addr : Nat) (bad : Bool)
  | scratch (addr : Nat) (bad : Bool)
  | code (core part idx : Nat) (bad : Bool)
  deriving DecidableEq, Repr

/-- The instructions and events of the part. Word instructions first, by class; `c` is the common part. -/
inductive Instr where
  | clauseIssue (h : Header)
  -- class 0
  | nop (c : Common)
  | mov (c : Common) (ty : BitVec 4) (d a : Sel)
  | movGetst (c : Common) (d : Sel)
  | movSetst (c : Common) (a : Sel)
  | movi (c : Common) (d : Sel) (imm : BitVec 28)
  | movhi (c : Common) (d a : Sel) (imm : BitVec 28)
  | add (c : Common) (ty : BitVec 4) (d a b : Sel)
  | addi (c : Common) (d a : Sel) (imm : BitVec 28)
  | sub (c : Common) (ty : BitVec 4) (d a b : Sel)
  | mul (c : Common) (ty : BitVec 4) (hi : BitVec 1) (d a b : Sel)
  | div (c : Common) (ty : BitVec 4) (d a b : Sel)
  | rem (c : Common) (ty : BitVec 4) (d a b : Sel)
  | and (c : Common) (ty : BitVec 4) (d a b : Sel)
  | or (c : Common) (ty : BitVec 4) (d a b : Sel)
  | xor (c : Common) (ty : BitVec 4) (d a b : Sel)
  | andi (c : Common) (d a : Sel) (imm : BitVec 28)
  | ori (c : Common) (d a : Sel) (imm : BitVec 28)
  | xori (c : Common) (d a : Sel) (imm : BitVec 28)
  | shl (c : Common) (ty : BitVec 4) (d a b : Sel)
  | shr (c : Common) (ty : BitVec 4) (d a b : Sel)
  | shli (c : Common) (d a : Sel) (n : BitVec 6)
  | shri (c : Common) (ar : BitVec 1) (d a : Sel) (n : BitVec 6)
  | rot (c : Common) (ty : BitVec 4) (right : BitVec 1) (d a b : Sel)
  | clz (c : Common) (ty : BitVec 4) (d a : Sel)
  | popc (c : Common) (ty : BitVec 4) (d a : Sel)
  | cmp (c : Common) (ty : BitVec 4) (cond : BitVec 3) (d a b : Sel)
  | sel (c : Common) (d a b t : Sel)
  | min (c : Common) (ty : BitVec 4) (d a b : Sel)
  | max (c : Common) (ty : BitVec 4) (d a b : Sel)
  | extr (c : Common) (ty : BitVec 4) (d a : Sel) (pos lenM1 : BitVec 6)
  | ins (c : Common) (d a : Sel) (pos lenM1 : BitVec 6)
  | lea (c : Common) (scale : BitVec 2) (d : Sel) (seg : BitVec 4) (b : Sel)
  | seglim (c : Common) (field : SegField) (d : Sel) (seg : BitVec 4)
  | lparam (c : Common) (d : Sel) (off : BitVec 28)
  | getid (c : Common) (d : Sel) (which : BitVec 28)
  | clockCore (c : Common) (d : Sel)
  | clockPkg (c : Common) (d : Sel)
  | wintr (c : Common) (seg : BitVec 4)
  | br (c : Common) (disp : BitVec 31)
  | brc (c : Common) (cond : BitVec 4) (a : Sel) (disp : BitVec 31)
  | loop (c : Common) (a : Sel) (disp : BitVec 31)
  | call (c : Common) (disp : BitVec 31)
  | ret (c : Common) (a : Sel)
  | callo (c : Common) (ovl : BitVec 12) (entry : BitVec 16)
  | split (c : Common) (ma mb : BitVec 3) (t0 t1 t2 t3 : BitVec 9)
  | merge (c : Common)
  | exit (c : Common)
  | yield (c : Common)
  | trap (c : Common) (code : BitVec 16)
  | nmret (c : Common)
  | ovld (c : Common) (d : Sel) (ovl : BitVec 12)
  | ovlInstall (op : Nat)
  | ovlq (c : Common) (d : Sel) (ovl : BitVec 12)
  | ovlpin (c : Common) (ovl : BitVec 12)
  | ovlunpin (c : Common) (ovl : BitVec 12)
  | overlayMissLoad (strand split : Nat)
  | join (c : Common) (a : Sel)
  | leave (c : Common)
  | gbar (c : Common)
  | ginfo (c : Common) (d : Sel)
  | spawn (c : Common) (d a b : Sel)
  | msgsend (c : Common) (n : BitVec 4) (d a b : Sel)
  | spawnMergerClose (cluster index : Nat)
  -- class 1
  | fadd (c : Common) (x : Bin)
  | fsub (c : Common) (x : Bin)
  | fmul (c : Common) (x : Bin)
  | fma (c : Common) (x : Tern)
  | fmin (c : Common) (x : Bin)
  | fmax (c : Common) (x : Bin)
  | fsgn (c : Common) (op : SgnOp) (x : Bin)
  | fcmp (c : Common) (cond : BitVec 3) (ty : BitVec 4) (part : BitVec 2) (d a b : Sel)
  | fclass (c : Common) (x : Un)
  | frcp (c : Common) (x : Un)
  | frsq (c : Common) (x : Un)
  | fsqrt (c : Common) (x : Un)
  | fexp2 (c : Common) (x : Un)
  | flog2 (c : Common) (x : Un)
  | fcvt (c : Common) (part : BitVec 2) (ts : BitVec 4) (x : Un)
  | frint (c : Common) (x : Un)
  | iadd (c : Common) (x : Bin)
  | isub (c : Common) (x : Bin)
  | imul (c : Common) (hi : BitVec 1) (x : Bin)
  | imad (c : Common) (x : Tern)
  | imin (c : Common) (x : Bin)
  | imax (c : Common) (x : Bin)
  | iand (c : Common) (x : Bin)
  | ior (c : Common) (x : Bin)
  | ixor (c : Common) (x : Bin)
  | ishl (c : Common) (x : Bin)
  | ishr (c : Common) (x : Bin)
  | icmp (c : Common) (cond : BitVec 3) (ty : BitVec 4) (part : BitVec 2) (d a b : Sel)
  | ibits (c : Common) (clz : BitVec 1) (x : Un)
  | select (c : Common) (d a b m : Sel)
  | move (c : Common) (x : Un)
  | fill (c : Common) (x : Un)
  | iaddi (c : Common) (d a : Sel) (imm : BitVec 28)
  | fmuli (c : Common) (d a : Sel) (imm : BitVec 28)
  | faddi (c : Common) (d a : Sel) (imm : BitVec 28)
  | mand (c : Common) (d a b : Sel)
  | mor (c : Common) (d a b : Sel)
  | mxor (c : Common) (d a b : Sel)
  | mnot (c : Common) (d a : Sel)
  | mfrom (c : Common) (d a : Sel)
  | mtov (c : Common) (ones : BitVec 1) (d a : Sel)
  | mred (c : Common) (op : MredOp) (d a : Sel)
  | mlead (c : Common) (d a : Sel)
  | nbr (c : Common) (axis : BitVec 1) (mode : NbrMode) (d a b : Sel) (dist : BitVec 7)
  | laneidx (c : Common) (which : IdxSel) (d : Sel)
  | shift (c : Common) (ty : BitVec 4) (axis : BitVec 1) (edge : Edge) (pd pa sc : BitVec 4) (dist : BitVec 16)
  | rotPlane (c : Common) (ty : BitVec 4) (axis : BitVec 1) (edge : BitVec 2) (pd pa : BitVec 4) (dist : BitVec 16)
  | spread (c : Common) (ty : BitVec 4) (axis : BitVec 1) (pd pa : BitVec 4)
  | fold (c : Common) (ty : BitVec 4) (axis : BitVec 1) (op : FoldOp) (rnd : BitVec 2) (sat : BitVec 1) (pd pa : BitVec 4)
  | scan (c : Common) (ty : BitVec 4) (axis : BitVec 1) (op : FoldOp) (rnd : BitVec 2) (sat : BitVec 1) (pd pa : BitVec 4)
  | refold (c : Common) (ty : BitVec 4) (pd pa : BitVec 4)
  | transp (c : Common) (ty : BitVec 4) (pd pa : BitVec 4)
  | planeComplete (op : Nat)
  | index (c : Common) (ty : BitVec 4) (which : IdxSel) (pd sa : BitVec 4)
  | pdset (c : Common) (pd sa : BitVec 4)
  | pdget (c : Common) (bound : BitVec 1) (sd pa : BitVec 4)
  | winset (c : Common) (sa : BitVec 4)
  | quant (c : Common) (ty : BitVec 4) (len : BlockLen) (pd pa pb sc : BitVec 4)
  | accept (c : Common) (ty : BitVec 4) (mode : AcceptMode) (pd pa sb mc : BitVec 4)
  | bound (c : Common) (ty : BitVec 4) (pd pa sb : BitVec 4)
  | zskip (c : Common) (d a b : Sel)
  -- class 2
  | ld (c : Common) (x : MemArgs)
  | st (c : Common) (x : MemArgs)
  | ldp (c : Common) (x : PlaneMemArgs)
  | stp (c : Common) (x : PlaneMemArgs)
  | lds (c : Common) (x : MemArgs)
  | sts (c : Common) (x : MemArgs)
  | ldacq (c : Common) (scope : Scope) (x : MemArgs)
  | strel (c : Common) (scope : Scope) (x : MemArgs)
  | qst (c : Common) (x : PlaneMemArgs)
  | atom (c : Common) (x : AtomArgs)
  | atoms (c : Common) (x : AtomArgs)
  | red (c : Common) (x : AtomArgs)
  | reds (c : Common) (x : AtomArgs)
  | homeAtomicPerform (op lane : Nat)
  | matchAddr (c : Common) (x : MemArgs)
  | ldx (c : Common) (x : MemArgs)
  | lapw (c : Common) (d : Sel) (seg : BitVec 4) (x : Sel) (disp : BitVec 16)
  | fence (c : Common) (kind : FenceKind) (scope : Scope)
  | waita (c : Common) (four : BitVec 1) (d : Sel) (seg : BitVec 4) (x : Sel) (disp : BitVec 16)
  | waitaTimeout (op : Nat)
  | cpy (c : Common) (d a o : Sel) (tl : TlArg)
  | copyComplete (op : Nat)
  | pref (c : Common) (ty : BitVec 4) (seg : BitVec 4) (x : Sel) (disp : BitVec 16)
  | qpush (c : Common) (try_ : BitVec 1) (d : Sel) (q : BitVec 4) (x : Sel)
  | qpop (c : Common) (try_ : BitVec 1) (d : Sel) (q : BitVec 4) (x : Sel)
  | qstat (c : Common) (d : Sel) (q : BitVec 4)
  | tlwait (c : Common) (d : Sel) (tl : BitVec 3)
  | tlread (c : Common) (d : Sel) (tl : BitVec 3)
  | tladv (c : Common) (d : Sel) (tl : BitVec 3)
  | chadv (c : Common) (d x : Sel)
  | memoryAccessComplete (op : Nat)
  | visitorWriteApply (die write : Nat)
  | sweptAdmission (op lane : Nat)
  | lapStart (part region : Nat)
  | tumblerRowService (part region slice row : Nat)
  -- class 3
  | xbmv (c : Common) (arr : BitVec 2) (pd pa : BitVec 4) (o : Sel) (tl : TlArg)
  | xbmvComplete (op : Nat)
  | xbprog (c : Common) (arr : BitVec 2) (d a : Sel) (tl : TlArg)
  | xbcal (c : Common) (arr : BitVec 2) (d : Sel) (tl : TlArg)
  | xbstat (c : Common) (arr : BitVec 2) (field : XbField) (d : Sel) (tl : TlArg)
  | xbbind (c : Common) (arr : BitVec 2) (d : Sel) (tl : TlArg)
  | xbbindRel (c : Common) (arr : BitVec 2) (d : Sel) (tl : TlArg)
  | crossbarDriftPending (cluster arr : Nat)
  | backgroundCalibration (cluster arr : Nat)
  | accmov (c : Common) (slot : BitVec 5) (pd : BitVec 4) (o : Sel) (tl : TlArg)
  | accmovIn (c : Common) (slot : BitVec 5) (pd : BitVec 4) (o : Sel) (tl : TlArg)
  | acczero (c : Common) (slot : BitVec 5) (tl : TlArg)
  | nmcall (c : Common) (d a : Sel) (tl : TlArg)
  | routineStart (w : Nat)
  | routineEnd (w : Nat)
  | tileRecordTake (cluster : Nat)
  | tileTaskIssue (cluster index engine : Nat)
  | tileTaskComplete (cluster index : Nat)
  -- class 4
  | sysrd (c : Common) (num : BitVec 12) (d : Sel)
  | syswr (c : Common) (num : BitVec 12) (a : Sel)
  | genup (c : Common) (a : Sel)
  | resume (c : Common)
  | resumeEnd (c : Common)
  | tret (c : Common)
  | ctxsave (c : Common) (st a : Sel)
  | ctxload (c : Common) (st a : Sel)
  | accspill (c : Common) (st : Sel) (slot : BitVec 5) (a : Sel)
  | accfill (c : Common) (st : Sel) (slot : BitVec 5) (a : Sel)
  -- events
  | trapQueuePost (part : Nat)
  | drevarResume (core slot : Nat)
  | drevarResumeEnd (core slot : Nat)
  | pageRequestPost (part : Nat)
  | pageRequestReply (part tag : Nat) (refuse : Bool)
  | launchAppendPort (part chain addr : Nat)
  | chainTimelineWrite (part chain ct value : Nat)
  | launchDispatch (part chain : Nat)
  | strandPlace (part chain : Nat)
  | preemptRequest (part chain : Nat)
  | strandSuspend (strand : Nat)
  | strandResume (strand : Nat)
  | launchEndRequest (launch : Nat)
  | watchdogFire (launch : Nat)
  | scalarInstructionComplete (op : Nat)
  | crossbarOperationComplete (op : Nat)
  | accumulatorMoveComplete (op : Nat)
  | systemInstructionComplete (op : Nat)
  | translationInvalidateComplete (part : Nat)
  | partitionDisableComplete (part : Nat)
  | sweptCreateComplete (part region : Nat)
  | sweptDestroyComplete (part region : Nat)
  | entryOverlayLoaded (strand : Nat)
  | partitionEnable (part : Nat)
  | partitionDisable (part : Nat)
  | stage2GenerationRaise (part : Nat)
  | invalidatePort (part : Nat) (whole : Bool) (asid : Nat)
  | timelineFeed (part : Nat) (value : Word)
  | queueFeed (part : Nat) (handle : Word)
  | sweptCreate (part region : Nat) (die base mask len : Nat)
  | sweptDestroy (part region : Nat)
  | registerWrite (addr : Nat) (value : Word)
  | patrolScrub (t : ScrubTarget)
  | budgetPeriodStart
  | fabricFrameReceive (port : Nat) (ok : Bool)
  | frameRetransmit (port : Nat) (ok : Bool)
  | portDown (port : Nat)
  | wavelengthPark (port : Nat)
  | wavelengthWake (port : Nat)
  | peerRead (p : Packet)
  | peerWrite (p : Packet)
  | peerAtomic (p : Packet)
  | peerReduction (p : Packet)
  | peerReply (p : Packet)
  | peerRefusal (p : Packet)
  | peerAcknowledgement (p : Packet)
  | peerQueuePush (p : Packet)
  | peerTimelineFeed (p : Packet)
  | d2dFlitReplay (link : Nat) (ok : Bool)
  | packageFault
  | meshCommand (p : MeshPacket)
  | meshCompletion (p : MeshPacket)
  | meshOverlayRead (p : MeshPacket)
  | meshOverlayData (p : MeshPacket)
  | meshMaintenance (p : MeshPacket)
  | meshEscape (src dst seq : Nat)
  | meshResend (src dst seq : Nat)
  | feedLaunchRecords (g : Datagram)
  | feedDataWrite (g : Datagram)
  | feedTimelineAdvance (g : Datagram)
  | powerOnReset (f : Flash)
  | antiRollbackRaise
  | keySlotLoad (feed : Bool) (part slot : Nat) (wrapped : List Word)
  | spdmRequest (index : Nat)
  | thermalThrottle (die temp : Nat)
  | thermalRestore (die temp : Nat)
  | thermalShutdown (die temp : Nat)
  | xbDriftInject (cluster arr : Nat)
  | nmInjectParity (w ovl word : Nat)
  | crossbarAllocation (cluster arr part : Nat)
  | crossbarRetirement (cluster arr : Nat)
  | drevarMemoryWrite (addr : Nat) (bytes : List Byte)
  | voltageDroopEvent (core : Nat)
  | feedDatagramDiscard (g : Datagram)
  | peerReservedPacket (p : Packet)
  deriving DecidableEq, Repr

end Sys2Proof
end

