-- ==== Sys2Proof/WellFormed.lean ====
section
/-! DEFINITION. Which instructions a word can hold: reserved fields and codes (Table 8-11, order 3) and selectors valid for their positions (order 6, Table 8-3). Events are well-formed as they stand. -/

namespace Sys2Proof

/-- A scalar source: s0–s31 or a latch (Table 8-3). -/
def Sel.scalarSrc : Sel → Bool
  | .reg n => n.toNat < 32
  | .bl _ => true
  | .bad _ => false

/-- A lane source: v0–v63 or a latch (Table 8-3). -/
def Sel.laneSrc : Sel → Bool
  | .reg _ => true
  | .bl _ => true
  | .bad _ => false

/-- A mask position: m0–m7 (Table 8-3). -/
def Sel.maskPos : Sel → Bool
  | .reg n => n.toNat < 8
  | _ => false

/-- A scalar destination: s0–s31 (Table 8-3). -/
def Sel.scalarDst : Sel → Bool
  | .reg n => n.toNat < 32
  | _ => false

/-- A lane destination: v0–v63 (Table 8-3). -/
def Sel.laneDst : Sel → Bool
  | .reg _ => true
  | _ => false

/-- The selector field holds zero. -/
def Sel.isZero : Sel → Bool
  | .reg n => n == 0
  | _ => false

/-- SETF names no flag or cf0–cf11 (R91). -/
def Common.flagOk (c : Common) : Bool := c.setf.toNat ≤ 12

/-- A fixed-latency result: LAT and NWB are free (R93). -/
def Common.fixed (c : Common) : Bool := c.flagOk

/-- LAT and NWB reserved: variable latency, P format, or a mask destination (R157). -/
def Common.noLatch (c : Common) : Bool := c.flagOk && c.nwb == 0 && c.lat == 0

/-- No result: SETF, LAT and NWB reserved (Table 9-1). -/
def Common.noResult (c : Common) : Bool := c.setf == 0 && c.nwb == 0 && c.lat == 0

/-- Rounding and saturate fields of a form. -/
def Un.rnd : Un → BitVec 2
  | .lane _ r _ _ _ => r
  | .plane _ r _ _ _ => r
def Un.sat : Un → BitVec 1
  | .lane _ _ s _ _ => s
  | .plane _ _ s _ _ => s
def Un.ty : Un → BitVec 4
  | .lane t _ _ _ _ => t
  | .plane t _ _ _ _ => t
def Un.isPlane : Un → Bool
  | .lane .. => false
  | .plane .. => true
def Bin.rnd : Bin → BitVec 2
  | .lane _ r _ _ _ _ => r
  | .plane _ r _ _ _ _ => r
  | .planeS _ r _ _ _ _ => r
def Bin.sat : Bin → BitVec 1
  | .lane _ _ s _ _ _ => s
  | .plane _ _ s _ _ _ => s
  | .planeS _ _ s _ _ _ => s
def Bin.isPlane : Bin → Bool
  | .lane .. => false
  | .plane .. => true
  | .planeS .. => true
def Tern.rnd : Tern → BitVec 2
  | .lane _ r _ _ _ _ _ => r
  | .plane _ r _ _ _ _ _ => r
def Tern.sat : Tern → BitVec 1
  | .lane _ _ s _ _ _ _ => s
  | .plane _ _ s _ _ _ _ => s
def Tern.isPlane : Tern → Bool
  | .lane .. => false
  | .plane .. => true

/-- The latch fields of a form that may be lane or plane: a P-format word has none (R157). -/
def Common.form (c : Common) (plane : Bool) : Bool := if plane then c.noLatch else c.fixed

/-- Codes of the integer and floating formats (Table 2-1). -/
def tyIsInt (t : BitVec 4) : Bool := 5 ≤ t.toNat && t.toNat ≤ 12
def tyIsFloat (t : BitVec 4) : Bool := 1 ≤ t.toNat && t.toNat ≤ 3

/-- ab32 and ab16: their elements are f32 and f16 (R45). -/
def tyIsBounded (t : BitVec 4) : Bool := t.toNat = 13 || t.toNat = 14

/-- The second source is unused: its field is reserved (R209). -/
def Bin.noB : Bin → Bool
  | .lane _ _ _ _ _ b => b.isZero
  | .plane _ _ _ _ _ pb => pb == 0
  | .planeS .. => false

def Bin.notScalarB : Bin → Bool
  | .planeS .. => false
  | _ => true

/-- Rounding of FOLD and SCAN applies to .add on floating types, bounded ones included, saturation to .add on integer types (R219). A type field of 0 leaves the type to the descriptor. -/
def foldFieldsOk (ty : BitVec 4) (op : FoldOp) (rnd : BitVec 2) (sat : BitVec 1) : Bool :=
  if op = .add then
    (rnd == 0 || ty == 0 || tyIsFloat ty || tyIsBounded ty) && (sat == 0 || ty == 0 || tyIsInt ty)
  else rnd == 0 && sat == 0

/-- The operation is one the instruction and type allow (Table 11-5). -/
def AtomArgs.opOk (x : AtomArgs) (returns : Bool) : Bool :=
  match x.op with
  | .and | .or | .xor => tyIsInt x.ty
  | .exch | .cas => returns
  | _ => true

/-- Reserved fields and codes hold what they must (Table 8-11, order 3). -/
def Instr.fieldsOk : Instr → Bool
  | .nop c | .br c _ | .loop c _ _ | .call c _ | .ret c _ | .callo c _ _ | .split c .. | .merge c | .exit c
  | .yield c | .trap c _ | .nmret c | .ovlpin c _ | .ovlunpin c _ => c.noResult
  | .brc c cond a _ => c.noResult && 1 ≤ cond.toNat && cond.toNat ≤ 7 && (cond.toNat < 5 || a.maskPos)
  | .mov c .. | .movGetst c _ | .movSetst c _ | .movi c .. | .movhi c .. | .add c .. | .addi c .. | .sub c .. | .mul c ..
  | .div c .. | .rem c .. | .and c .. | .or c .. | .xor c .. | .andi c .. | .ori c .. | .xori c ..
  | .shl c .. | .shr c .. | .shli c .. | .shri c .. | .rot c .. | .clz c .. | .popc c .. | .cmp c ..
  | .sel c .. | .min c .. | .max c .. | .extr c .. | .ins c .. | .lea c .. | .seglim c .. | .lparam c ..
  | .getid c .. => c.fixed
  | .clockCore c _ | .clockPkg c _ | .wintr c _ | .ovld c .. | .ovlq c .. | .join c _ | .leave c | .gbar c
  | .ginfo c _ | .spawn c .. => c.noLatch
  | .msgsend c n .. => c.noLatch && n.toNat ≤ 8
  | .fadd c x | .fsub c x | .fmul c x => c.form x.isPlane && x.sat == 0
  | .fma c x => c.form x.isPlane && x.sat == 0
  | .fmin c x | .fmax c x => c.form x.isPlane && x.sat == 0 && x.rnd == 0
  | .fsgn c op x => c.form x.isPlane && x.sat == 0 && x.rnd == 0 && x.notScalarB && (op = .copy || x.noB)
  | .fcmp c _ _ _ _ _ _ => c.noLatch
  | .icmp c _ _ _ _ _ _ => c.noLatch
  | .fclass c x => c.form x.isPlane && x.sat == 0 && x.rnd == 0
  | .frcp c x | .frsq c x | .fsqrt c x | .fexp2 c x | .flog2 c x | .frint c x => c.form x.isPlane && x.sat == 0
  | .fcvt c part ts x =>
    c.form x.isPlane &&
      (if x.isPlane then part == 0 && ts == 0 else x.sat == 0 || (tyIsInt x.ty && tyIsInt ts))
  | .iadd c x | .isub c x => c.form x.isPlane && x.rnd == 0
  | .imul c hi x => c.form x.isPlane && x.rnd == 0 && (hi == 0 || x.sat == 0)
  | .imad c x => c.form x.isPlane && x.rnd == 0
  | .imin c x | .imax c x | .iand c x | .ior c x | .ixor c x | .ishl c x | .ishr c x =>
    c.form x.isPlane && x.rnd == 0 && x.sat == 0
  | .ibits c _ x => c.form x.isPlane && x.rnd == 0 && x.sat == 0
  | .select c .. => c.fixed
  | .move c x => c.form x.isPlane && x.rnd == 0 && x.sat == 0 && (x.isPlane || x.ty == 0)
  | .fill c x => c.form x.isPlane && x.rnd == 0 && x.sat == 0
  | .iaddi c .. | .fmuli c .. | .faddi c .. => c.fixed
  | .mand c .. | .mor c .. | .mxor c .. | .mnot c .. | .mfrom c .. | .mlead c .. => c.noLatch
  | .mtov c .. | .mred c .. | .laneidx c .. => c.fixed
  | .nbr c _ mode _ _ b _ => c.fixed && (mode = .const || b.isZero)
  | .shift c _ _ edge _ _ sc _ => c.noLatch && (edge = .const || sc == 0)
  | .rotPlane c .. | .spread c .. | .refold c .. | .transp c .. | .index c .. | .pdset c .. | .pdget c ..
  | .winset c .. | .quant c .. => c.noLatch
  | .fold c ty _ op rnd sat _ _ | .scan c ty _ op rnd sat _ _ => c.noLatch && foldFieldsOk ty op rnd sat
  | .accept c _ mode _ _ sb mc =>
    c.noLatch && (mode ≠ .plain || sb == 0) && (if mode = .mask then mc.toNat < 8 else mc == 0)
  | .bound c .. => c.noLatch
  | .zskip c .. => c.noLatch
  | .ld c _ | .st c _ | .ldp c _ | .stp c _ | .lds c _ | .sts c _ | .ldacq c _ _ | .strel c _ _
  | .matchAddr c _ | .ldx c _ | .lapw c .. | .fence c .. | .waita c .. | .cpy c .. | .qstat c ..
  | .tlwait c .. | .tlread c .. | .tladv c .. | .chadv c .. | .qst c _ => c.noLatch
  | .atom c x | .atoms c x => c.noLatch && x.opOk true
  | .red c x | .reds c x => c.noLatch && x.opOk false
  | .pref c .. => c.noResult
  | .qpush c t _ _ x | .qpop c t _ _ x => c.noLatch && (t == 1 || x.isZero)
  | .xbmv c .. | .xbprog c .. | .xbcal c .. | .xbstat c .. | .xbbind c .. | .xbbindRel c .. | .accmov c ..
  | .accmovIn c .. | .acczero c .. | .nmcall c .. => c.noLatch
  | .sysrd c .. | .syswr c .. | .genup c _ | .resume c | .resumeEnd c | .tret c | .ctxsave c .. | .ctxload c ..
  | .accspill c .. | .accfill c .. => c.noLatch
  | .clauseIssue h => h.cls.toNat ≤ 4
  | _ => true

def Un.selsOk : Un → Bool
  | .lane _ _ _ d a => d.laneDst && a.laneSrc
  | .plane .. => true
def Bin.selsOk : Bin → Bool
  | .lane _ _ _ d a b => d.laneDst && a.laneSrc && b.laneSrc
  | _ => true
def Tern.selsOk : Tern → Bool
  | .lane _ _ _ d a b c => d.laneDst && a.laneSrc && b.laneSrc && c.laneSrc
  | _ => true

/-- Every selector names a register of its position's kind (Table 8-11, order 6). -/
def Instr.selsOk : Instr → Bool
  | .mov _ _ d a | .clz _ _ d a | .popc _ _ d a => d.scalarDst && a.scalarSrc
  | .movGetst _ d | .movi _ d _ | .seglim _ _ d _ | .lparam _ d _ | .getid _ d _ | .clockCore _ d
  | .clockPkg _ d | .ovld _ d _ | .ovlq _ d _ | .ginfo _ d => d.scalarDst
  | .movSetst _ a | .ret _ a | .join _ a => a.scalarSrc
  | .movhi _ d a _ | .addi _ d a _ | .andi _ d a _ | .ori _ d a _ | .xori _ d a _ | .shli _ d a _
  | .shri _ _ d a _ | .extr _ _ d a _ _ | .ins _ d a _ _ => d.scalarDst && a.scalarSrc
  | .add _ _ d a b | .sub _ _ d a b | .mul _ _ _ d a b | .div _ _ d a b | .rem _ _ d a b | .and _ _ d a b
  | .or _ _ d a b | .xor _ _ d a b | .shl _ _ d a b | .shr _ _ d a b | .rot _ _ _ d a b | .cmp _ _ _ d a b
  | .min _ _ d a b | .max _ _ d a b | .spawn _ d a b | .msgsend _ _ d a b =>
    d.scalarDst && a.scalarSrc && b.scalarSrc
  | .sel _ d a b t => d.scalarDst && a.scalarSrc && b.scalarSrc && t.scalarSrc
  | .lea _ _ d _ b => d.scalarDst && b.scalarSrc
  | .brc _ cond a _ => if cond.toNat < 5 then a.scalarSrc else a.maskPos
  | .loop _ a _ => a.scalarDst
  | .fadd _ x | .fsub _ x | .fmul _ x | .fmin _ x | .fmax _ x | .fsgn _ _ x | .iadd _ x | .isub _ x
  | .imul _ _ x | .imin _ x | .imax _ x | .iand _ x | .ior _ x | .ixor _ x | .ishl _ x | .ishr _ x => x.selsOk
  | .fma _ x | .imad _ x => x.selsOk
  | .fclass _ x | .frcp _ x | .frsq _ x | .fsqrt _ x | .fexp2 _ x | .flog2 _ x | .fcvt _ _ _ x | .frint _ x
  | .ibits _ _ x | .move _ x => x.selsOk
  | .fill _ x =>
    match x with
    | .lane _ _ _ d a => d.laneDst && a.scalarSrc
    | .plane .. => true
  | .fcmp _ _ _ _ d a b | .icmp _ _ _ _ d a b => d.maskPos && a.laneSrc && b.laneSrc
  | .select _ d a b m => d.laneDst && a.laneSrc && b.laneSrc && m.maskPos
  | .iaddi _ d a _ | .fmuli _ d a _ | .faddi _ d a _ => d.laneDst && a.laneSrc
  | .mand _ d a b | .mor _ d a b | .mxor _ d a b => d.maskPos && a.maskPos && b.maskPos
  | .mnot _ d a | .mlead _ d a => d.maskPos && a.maskPos
  | .mfrom _ d a => d.maskPos && a.laneSrc
  | .mtov _ _ d a => d.laneDst && a.maskPos
  | .mred _ _ d a => d.scalarDst && a.maskPos
  | .nbr _ _ _ d a b _ => d.laneDst && a.laneSrc && b.scalarSrc
  | .laneidx _ _ d => d.laneDst
  | .zskip _ d a b => d.scalarDst && a.scalarDst && b.scalarSrc
  | .ld _ x | .matchAddr _ x | .ldx _ x => x.d.laneDst && x.x.laneSrc
  | .st _ x => x.d.laneSrc && x.x.laneSrc
  | .ldp _ x | .stp _ x | .qst _ x => x.x.scalarSrc
  | .lds _ x | .ldacq _ _ x => x.d.scalarDst && x.x.scalarSrc
  | .sts _ x | .strel _ _ x => x.d.scalarSrc && x.x.scalarSrc
  | .atom _ x => x.d.laneDst && x.x.laneSrc
  | .atoms _ x => x.d.scalarDst && x.x.scalarSrc
  | .red _ x => x.d.laneSrc && x.x.laneSrc
  | .reds _ x => x.d.scalarSrc && x.x.scalarSrc
  | .lapw _ d _ x _ => d.scalarSrc && x.scalarSrc
  | .waita _ _ d _ x _ => d.scalarDst && x.scalarSrc
  | .cpy _ d a o _ => d.laneDst && a.laneSrc && o.laneSrc
  | .pref _ _ _ x _ => x.laneSrc
  | .qpush _ t d _ x => d.scalarSrc && (if t == 1 then x.scalarDst else x.isZero)
  | .qpop _ t d _ x => d.scalarDst && (if t == 1 then x.scalarDst else x.isZero)
  | .qstat _ d _ | .tlread _ d _ | .tladv _ d _ => d.scalarDst
  | .tlwait _ d _ => d.scalarSrc
  | .chadv _ d x => d.scalarSrc && x.scalarSrc
  | .xbmv _ _ _ _ o _ | .accmov _ _ _ o _ | .accmovIn _ _ _ o _ => o.scalarSrc
  | .xbprog _ _ d a _ => d.scalarDst && a.scalarSrc
  | .xbcal _ _ d _ | .xbstat _ _ _ d _ | .xbbind _ _ d _ | .xbbindRel _ _ d _ => d.scalarDst
  | .nmcall _ d a _ => d.laneDst && a.scalarSrc
  | .sysrd _ _ d => d.scalarDst
  | .syswr _ _ a => a.scalarSrc
  | .genup _ a => a.scalarDst
  | .ctxsave _ sd a | .ctxload _ sd a => sd.scalarDst && a.scalarSrc
  | .accspill _ sd _ a | .accfill _ sd _ a => sd.scalarDst && a.scalarSrc
  | _ => true

/-- An instruction that a legal word holds, or an event. -/
def Instr.wellFormed (i : Instr) : Bool := i.fieldsOk && i.selsOk

/-- `wellFormed` as a proposition. -/
abbrev WellFormed (i : Instr) : Prop := i.wellFormed = true

end Sys2Proof
end

