-- ==== Sys2Proof/Decode.lean ====
section
/-! DEFINITION. Clause headers and instruction words: the bits of Tables 8-1 to 8-10 and of each instruction's description, read (`parse`, `decodeWord`) and written (`encode`). -/

namespace Sys2Proof

/-- Why a word is no instruction (Table 8-11, orders 1, 3 and 6). -/
inductive DecodeError where
  | unassigned
  | reserved
  | selector
  deriving DecidableEq, Repr

/-- Bits [lo + n − 1 : lo] of a word. -/
def bitsAt (w : Word) (lo n : Nat) : BitVec n := w.extractLsb' lo n

/-! ## Clause headers -/

/-- The fields of a header, whatever its marker (Table 8-1). -/
def Header.ofWord (w : Word) : Header where
  cls := bitsAt w 53 3
  count := bitsAt w 49 4
  wait := bitsAt w 37 12
  any := bitsAt w 36 1
  yield := bitsAt w 35 1
  noPartner := bitsAt w 34 1

/-- The word of a header (Table 8-1). -/
def Header.toWord (h : Header) : Word :=
  (0xFF#8 ++ h.cls ++ h.count ++ h.wait ++ h.any ++ h.yield ++ h.noPartner ++ 0#34 : BitVec 64)

/-- Marker 0xFF, class 0–4, reserved bits zero; any other word where a header is due is none (R85, R156). -/
def decodeHeader (w : Word) : Option Header :=
  if bitsAt w 56 8 = 0xFF#8 ∧ bitsAt w 0 34 = 0#34 ∧ (Header.ofWord w).cls.toNat ≤ 4 then some (Header.ofWord w)
  else none

/-! ## Fields of an instruction word -/

/-- The common part of a word (Table 8-2). -/
def Common.ofWord (w : Word) : Common where
  dist := bitsAt w 53 3
  setf := bitsAt w 49 4
  nwb := bitsAt w 48 1
  lat := bitsAt w 46 2
  pred := bitsAt w 43 3
  pneg := bitsAt w 42 1

/-- OP, the common part and a payload make a word (Table 8-2). -/
def Common.word (c : Common) (op : BitVec 8) (payload : BitVec 42) : Word :=
  (op ++ c.dist ++ c.setf ++ c.nwb ++ c.lat ++ c.pred ++ c.pneg ++ payload : BitVec 64)

/-- A selector field as read (Table 8-3). -/
def Sel.ofBits (v : BitVec 7) : Sel :=
  if v.toNat < 64 then .reg (v.setWidth 6) else if v.toNat < 68 then .bl (v.setWidth 2) else .bad v

/-- The field that holds a selector. -/
def Sel.toBits : Sel → BitVec 7
  | .reg n => (0#1 ++ n : BitVec 7)
  | .bl n => (0b10000#5 ++ n : BitVec 7)
  | .bad v => v

/-- Payloads of Table 8-4. -/
def payS3 (d a b : Sel) (mod : BitVec 21) : BitVec 42 := (d.toBits ++ a.toBits ++ b.toBits ++ mod : BitVec 42)
def paySI (d a : Sel) (imm : BitVec 28) : BitVec 42 := (d.toBits ++ a.toBits ++ imm : BitVec 42)
def payL3 (d a b c : BitVec 7) (mod : BitVec 14) : BitVec 42 := (d ++ a ++ b ++ c ++ mod : BitVec 42)
def payP (pd pa pb pc : BitVec 4) (mod : BitVec 26) : BitVec 42 := (pd ++ pa ++ pb ++ pc ++ mod : BitVec 42)
def payM (d : BitVec 7) (seg : BitVec 4) (x : BitVec 7) (disp : BitVec 16) (mod : BitVec 8) : BitVec 42 :=
  (d ++ seg ++ x ++ disp ++ mod : BitVec 42)
def payB (cond : BitVec 4) (a : BitVec 7) (disp : BitVec 31) : BitVec 42 := (cond ++ a ++ disp : BitVec 42)
def payO (ovl : BitVec 12) (entry : BitVec 16) (mod : BitVec 14) : BitVec 42 := (ovl ++ entry ++ mod : BitVec 42)
def payE (a c d : BitVec 7) (tl : TlArg) (mod : BitVec 17) : BitVec 42 :=
  match tl with
  | none => (a ++ c ++ d ++ 0#3 ++ 0#1 ++ mod : BitVec 42)
  | some t => (a ++ c ++ d ++ t ++ 1#1 ++ mod : BitVec 42)
def payY (num : BitVec 12) (r : BitVec 7) (mod : BitVec 23) : BitVec 42 := (num ++ r ++ mod : BitVec 42)

/-- MOD of a typed S3 instruction: type, condition or sub-operation, rest (Table 8-5). -/
def modS3 (ty : BitVec 4) (sub : BitVec 3) (rest : BitVec 14) : BitVec 21 := (ty ++ sub ++ rest : BitVec 21)
/-- MOD of an L3 instruction (Table 8-5). -/
def modL3 (ty : BitVec 4) (rnd : BitVec 2) (sat : BitVec 1) (sub : BitVec 3) (rest : BitVec 4) : BitVec 14 :=
  (ty ++ rnd ++ sat ++ sub ++ rest : BitVec 14)
/-- MOD of a P instruction (Table 8-5). -/
def modP (ty : BitVec 4) (rnd : BitVec 2) (sat axis : BitVec 1) (edge : BitVec 2) (rest : BitVec 16) : BitVec 26 :=
  (ty ++ rnd ++ sat ++ axis ++ edge ++ rest : BitVec 26)
/-- MOD of an M instruction (Table 8-5). -/
def modM (ty : BitVec 4) (scope : BitVec 3) (b : BitVec 1) : BitVec 8 := (ty ++ scope ++ b : BitVec 8)

/-- Selector fields by format. -/
def selD (w : Word) : Sel := .ofBits (bitsAt w 35 7)
def selA (w : Word) : Sel := .ofBits (bitsAt w 28 7)
def selB (w : Word) : Sel := .ofBits (bitsAt w 21 7)
def selC (w : Word) : Sel := .ofBits (bitsAt w 14 7)
def selX (w : Word) : Sel := .ofBits (bitsAt w 24 7)

/-- The type, sub-operation and immediate of S3, SI and LI. -/
def s3ty (w : Word) : BitVec 4 := bitsAt w 17 4
def s3sub (w : Word) : BitVec 3 := bitsAt w 14 3
def imm28 (w : Word) : BitVec 28 := bitsAt w 0 28

/-- The timeline of an E word: MOD[17], TL. -/
def tlOf (w : Word) : TlArg := if bitsAt w 17 1 = 1#1 then some (bitsAt w 18 3) else none

/-! ## Codes -/

def Scope.code : Scope → BitVec 3
  | .strand => 0 | .core => 1 | .cluster => 2 | .die => 3 | .package => 4 | .fabric => 5
def Scope.ofCode (v : BitVec 3) : Option Scope :=
  match v.toNat with
  | 0 => some .strand | 1 => some .core | 2 => some .cluster | 3 => some .die | 4 => some .package
  | 5 => some .fabric | _ => none
def AtomOp.code : AtomOp → BitVec 4
  | .add => 0 | .min => 1 | .max => 2 | .and => 3 | .or => 4 | .xor => 5 | .exch => 6 | .cas => 7
def AtomOp.ofCode (v : BitVec 4) : Option AtomOp :=
  match v.toNat with
  | 0 => some .add | 1 => some .min | 2 => some .max | 3 => some .and | 4 => some .or | 5 => some .xor
  | 6 => some .exch | 7 => some .cas | _ => none
def FoldOp.code : FoldOp → BitVec 3
  | .add => 0 | .max => 1 | .min => 2 | .and => 3 | .or => 4
def FoldOp.ofCode (v : BitVec 3) : Option FoldOp :=
  match v.toNat with
  | 0 => some .add | 1 => some .max | 2 => some .min | 3 => some .and | 4 => some .or | _ => none
def SgnOp.code : SgnOp → BitVec 3
  | .abs => 0 | .neg => 1 | .copy => 2
def SgnOp.ofCode (v : BitVec 3) : Option SgnOp :=
  match v.toNat with
  | 0 => some .abs | 1 => some .neg | 2 => some .copy | _ => none
def MredOp.code : MredOp → BitVec 3
  | .any => 0 | .all => 1 | .count => 2 | .first => 3
def MredOp.ofCode (v : BitVec 3) : Option MredOp :=
  match v.toNat with
  | 0 => some .any | 1 => some .all | 2 => some .count | 3 => some .first | _ => none
def NbrMode.code : NbrMode → BitVec 2
  | .zero => 0 | .clamp => 1 | .const => 2 | .wrap => 3
def NbrMode.ofCode (v : BitVec 2) : NbrMode :=
  match v.toNat with
  | 0 => .zero | 1 => .clamp | 2 => .const | _ => .wrap
def Edge.code : Edge → BitVec 2
  | .zero => 0 | .clamp => 1 | .const => 2
def Edge.ofCode (v : BitVec 2) : Option Edge :=
  match v.toNat with
  | 0 => some .zero | 1 => some .clamp | 2 => some .const | _ => none
def IdxSel.code : IdxSel → BitVec 3
  | .whole => 0 | .row => 1 | .col => 2
def IdxSel.ofCode (v : BitVec 3) : Option IdxSel :=
  match v.toNat with
  | 0 => some .whole | 1 => some .row | 2 => some .col | _ => none
def BlockLen.code : BlockLen → BitVec 2
  | .l16 => 1 | .l32 => 2 | .l64 => 3
def BlockLen.ofCode (v : BitVec 2) : Option BlockLen :=
  match v.toNat with
  | 1 => some .l16 | 2 => some .l32 | 3 => some .l64 | _ => none
def AcceptMode.code : AcceptMode → BitVec 2
  | .plain => 0 | .mask => 1 | .flag => 2 | .trap => 3
def AcceptMode.ofCode (v : BitVec 2) : AcceptMode :=
  match v.toNat with
  | 0 => .plain | 1 => .mask | 2 => .flag | _ => .trap
def FenceKind.code : FenceKind → BitVec 2
  | .acq => 1 | .rel => 2 | .full => 3
def FenceKind.ofCode (v : BitVec 2) : Option FenceKind :=
  match v.toNat with
  | 1 => some .acq | 2 => some .rel | 3 => some .full | _ => none
def SegField.code : SegField → BitVec 3
  | .lim => 0 | .base => 1 | .attr => 2 | .win => 3
def SegField.ofCode (v : BitVec 3) : Option SegField :=
  match v.toNat with
  | 0 => some .lim | 1 => some .base | 2 => some .attr | 3 => some .win | _ => none
def XbField.code : XbField → BitVec 3
  | .alpha => 0 | .gamma => 1 | .g => 2 | .sigma => 3 | .state => 4 | .cals => 5
def XbField.ofCode (v : BitVec 3) : Option XbField :=
  match v.toNat with
  | 0 => some .alpha | 1 => some .gamma | 2 => some .g | 3 => some .sigma | 4 => some .state | 5 => some .cals
  | _ => none

/-! ## Forms of class 1 -/

/-- The lane or plane form of a P/L3 opcode, by bit [0] (R160). -/
def Un.ofWord (w : Word) : Un :=
  if bitsAt w 0 1 = 0#1 then .lane (bitsAt w 10 4) (bitsAt w 8 2) (bitsAt w 7 1) (selD w) (selA w)
  else .plane (bitsAt w 22 4) (bitsAt w 20 2) (bitsAt w 19 1) (bitsAt w 38 4) (bitsAt w 34 4)
def Bin.ofWord (w : Word) : Bin :=
  if bitsAt w 0 1 = 0#1 then .lane (bitsAt w 10 4) (bitsAt w 8 2) (bitsAt w 7 1) (selD w) (selA w) (selB w)
  else if bitsAt w 18 1 = 0#1 then
    .plane (bitsAt w 22 4) (bitsAt w 20 2) (bitsAt w 19 1) (bitsAt w 38 4) (bitsAt w 34 4) (bitsAt w 30 4)
  else .planeS (bitsAt w 22 4) (bitsAt w 20 2) (bitsAt w 19 1) (bitsAt w 38 4) (bitsAt w 34 4) (bitsAt w 30 4)
def Tern.ofWord (w : Word) : Tern :=
  if bitsAt w 0 1 = 0#1 then
    .lane (bitsAt w 10 4) (bitsAt w 8 2) (bitsAt w 7 1) (selD w) (selA w) (selB w) (selC w)
  else .plane (bitsAt w 22 4) (bitsAt w 20 2) (bitsAt w 19 1) (bitsAt w 38 4) (bitsAt w 34 4) (bitsAt w 30 4)
    (bitsAt w 26 4)

/-- Payloads of the forms; `sub` is the L3 form's MOD[6:4], or PDC[2:0] of the P form (R203); `rest` the L3 form's MOD[3:1]. -/
def Un.pay (x : Un) (sub rest : BitVec 3) (c : BitVec 7) : BitVec 42 :=
  match x with
  | .lane ty rnd sat d a => payL3 d.toBits a.toBits 0#7 c (modL3 ty rnd sat sub (rest ++ 0#1))
  | .plane ty rnd sat pd pa => payP pd pa 0#4 (0#1 ++ sub) (modP ty rnd sat 0#1 0#2 1#16)
def Bin.pay (x : Bin) (sub : BitVec 3) : BitVec 42 :=
  match x with
  | .lane ty rnd sat d a b => payL3 d.toBits a.toBits b.toBits 0#7 (modL3 ty rnd sat sub 0#4)
  | .plane ty rnd sat pd pa pb => payP pd pa pb (0#1 ++ sub) (modP ty rnd sat 0#1 0#2 1#16)
  | .planeS ty rnd sat pd pa sb => payP pd pa sb (0#1 ++ sub) (modP ty rnd sat 1#1 0#2 1#16)
def Tern.pay (x : Tern) : BitVec 42 :=
  match x with
  | .lane ty rnd sat d a b c => payL3 d.toBits a.toBits b.toBits c.toBits (modL3 ty rnd sat 0#3 0#4)
  | .plane ty rnd sat pd pa pb pc => payP pd pa pb pc (modP ty rnd sat 0#1 0#2 1#16)

/-- The sub-operation of a P/L3 opcode that has one (R203). -/
def formSub (w : Word) : BitVec 3 := if bitsAt w 0 1 = 0#1 then bitsAt w 4 3 else bitsAt w 26 3

/-- M-format operands (Table 11-1). -/
def MemArgs.ofWord (w : Word) : MemArgs where
  ty := bitsAt w 4 4
  d := selD w
  seg := bitsAt w 31 4
  x := selX w
  disp := bitsAt w 8 16
def PlaneMemArgs.ofWord (w : Word) : PlaneMemArgs where
  ty := bitsAt w 4 4
  pd := bitsAt w 35 4
  seg := bitsAt w 31 4
  x := selX w
  disp := bitsAt w 8 16
def AtomArgs.ofWord (w : Word) : Option AtomArgs := do
  let op ← AtomOp.ofCode (bitsAt w 20 4)
  let sc ← Scope.ofCode (bitsAt w 1 3)
  pure { op := op, ty := bitsAt w 4 4, scope := sc, ord := bitsAt w 0 1, d := selD w, seg := bitsAt w 31 4,
         x := selX w, disp := bitsAt w 8 12 }
def MemArgs.pay (x : MemArgs) (scope : BitVec 3) : BitVec 42 :=
  payM x.d.toBits x.seg x.x.toBits x.disp (modM x.ty scope 0#1)
def PlaneMemArgs.pay (x : PlaneMemArgs) : BitVec 42 :=
  payM (0#3 ++ x.pd) x.seg x.x.toBits x.disp (modM x.ty 0#3 0#1)
def AtomArgs.pay (x : AtomArgs) : BitVec 42 :=
  payM x.d.toBits x.seg x.x.toBits (x.op.code ++ x.disp) (modM x.ty x.scope.code x.ord)

/-! ## Opcodes -/

/-- The 161 assigned opcodes (Tables 8-8 to 8-10, R165). -/
def assignedOp (op : Nat) : Bool :=
  op ≤ 0x22 || (0x28 ≤ op && op ≤ 0x3D) || (0x40 ≤ op && op ≤ 0x6C) || (0x70 ≤ op && op ≤ 0x7E) ||
  (0xA0 ≤ op && op ≤ 0xBA) || (0xD0 ≤ op && op ≤ 0xD7) || (0xF0 ≤ op && op ≤ 0xF8)

/-- The class of an assigned opcode (R165). -/
def opClass (op : Nat) : Nat :=
  if op < 0x40 then 0 else if op < 0x80 then 1 else if op < 0xD0 then 2 else if op < 0xF0 then 3 else 4

/-- BR, BRC, LOOP, CALL, RET, CALLO, SPLIT, MERGE and EXIT (after Table 8-8). -/
def opTransfer (op : Nat) : Bool := 0x28 ≤ op && op ≤ 0x30

/-- The fields of a class-0 word, by opcode (Tables 8-8, 9-2, 9-3, 9-5). None where the opcode is not of the class or a code is not listed. -/
def parse0 (op : Nat) (w : Word) : Option Instr :=
  let c := Common.ofWord w
  let d := selD w
  let a := selA w
  let b := selB w
  let ty := s3ty w
  let sub := s3sub w
  let imm := imm28 w
  let seg : BitVec 4 := bitsAt w 28 4
  let disp : BitVec 31 := bitsAt w 0 31
  let ovl : BitVec 12 := bitsAt w 30 12
  match op with
  | 0x00 => some (.nop c)
  | 0x01 =>
    match sub.toNat with
    | 0 => some (.mov c ty d a)
    | 1 => some (.movGetst c d)
    | 2 => some (.movSetst c a)
    | _ => none
  | 0x02 => some (.movi c d imm)
  | 0x03 => some (.movhi c d a imm)
  | 0x04 => some (.add c ty d a b)
  | 0x05 => some (.addi c d a imm)
  | 0x06 => some (.sub c ty d a b)
  | 0x07 => some (.mul c ty (bitsAt w 14 1) d a b)
  | 0x08 => some (.div c ty d a b)
  | 0x09 => some (.rem c ty d a b)
  | 0x0A => some (.and c ty d a b)
  | 0x0B => some (.or c ty d a b)
  | 0x0C => some (.xor c ty d a b)
  | 0x0D => some (.andi c d a imm)
  | 0x0E => some (.ori c d a imm)
  | 0x0F => some (.xori c d a imm)
  | 0x10 => some (.shl c ty d a b)
  | 0x11 => some (.shr c ty d a b)
  | 0x12 => some (.shli c d a (bitsAt w 0 6))
  | 0x13 => some (.shri c (bitsAt w 6 1) d a (bitsAt w 0 6))
  | 0x14 => some (.rot c ty (bitsAt w 14 1) d a b)
  | 0x15 => some (.clz c ty d a)
  | 0x16 => some (.popc c ty d a)
  | 0x17 => some (.cmp c ty sub d a b)
  | 0x18 => some (.sel c d a b (.ofBits (bitsAt w 7 7)))
  | 0x19 => some (.min c ty d a b)
  | 0x1A => some (.max c ty d a b)
  | 0x1B => some (.extr c ty d a (bitsAt w 8 6) (bitsAt w 2 6))
  | 0x1C => some (.ins c d a (bitsAt w 8 6) (bitsAt w 2 6))
  | 0x1D => some (.lea c (bitsAt w 0 2) d seg b)
  | 0x1E => (SegField.ofCode sub).map fun f => .seglim c f d seg
  | 0x1F => some (.lparam c d imm)
  | 0x20 => some (.getid c d imm)
  | 0x21 =>
    match sub.toNat with
    | 0 => some (.clockCore c d)
    | 1 => some (.clockPkg c d)
    | _ => none
  | 0x22 => some (.wintr c seg)
  | 0x28 => some (.br c disp)
  | 0x29 => some (.brc c (bitsAt w 38 4) (.ofBits (bitsAt w 31 7)) disp)
  | 0x2A => some (.loop c (.ofBits (bitsAt w 31 7)) disp)
  | 0x2B => some (.call c disp)
  | 0x2C => some (.ret c a)
  | 0x2D => some (.callo c ovl (bitsAt w 14 16))
  | 0x2E => some (.split c (bitsAt w 39 3) (bitsAt w 36 3) (bitsAt w 27 9) (bitsAt w 18 9) (bitsAt w 9 9) (bitsAt w 0 9))
  | 0x2F => some (.merge c)
  | 0x30 => some (.exit c)
  | 0x31 => some (.yield c)
  | 0x32 => some (.trap c (bitsAt w 0 16))
  | 0x33 => some (.nmret c)
  | 0x34 => some (.ovld c (.ofBits (bitsAt w 7 7)) ovl)
  | 0x35 => some (.ovlq c d (bitsAt w 0 12))
  | 0x36 => some (.ovlpin c ovl)
  | 0x37 => some (.ovlunpin c ovl)
  | 0x38 => some (.join c a)
  | 0x39 => some (.leave c)
  | 0x3A => some (.gbar c)
  | 0x3B => some (.ginfo c d)
  | 0x3C => some (.spawn c d a b)
  | 0x3D => some (.msgsend c (bitsAt w 10 4) d a b)
  | _ => none

/-- The fields of a class-1 word (Tables 8-9, 10-3, 10-5 to 10-7). The type field of INDEX, the movements, ACCEPT, BOUND and QUANT is read as the type of R202, though R218 and R220 do not name it among their fields (DESIGN CHOICE, notes/assumptions/84.md). -/
def parse1 (op : Nat) (w : Word) : Option Instr :=
  let c := Common.ofWord w
  let d := selD w
  let a := selA w
  let b := selB w
  let lty : BitVec 4 := bitsAt w 10 4
  let lsub : BitVec 3 := bitsAt w 4 3
  let part : BitVec 2 := bitsAt w 0 2
  let pty : BitVec 4 := bitsAt w 22 4
  let prnd : BitVec 2 := bitsAt w 20 2
  let psat : BitVec 1 := bitsAt w 19 1
  let axis : BitVec 1 := bitsAt w 18 1
  let edge : BitVec 2 := bitsAt w 16 2
  let dist : BitVec 16 := bitsAt w 0 16
  let pd : BitVec 4 := bitsAt w 38 4
  let pa : BitVec 4 := bitsAt w 34 4
  let pb : BitVec 4 := bitsAt w 30 4
  let pc : BitVec 4 := bitsAt w 26 4
  let un := Un.ofWord w
  let bi := Bin.ofWord w
  match op with
  | 0x40 => some (.fadd c bi)
  | 0x41 => some (.fsub c bi)
  | 0x42 => some (.fmul c bi)
  | 0x43 => some (.fma c (Tern.ofWord w))
  | 0x44 => some (.fmin c bi)
  | 0x45 => some (.fmax c bi)
  | 0x46 => (SgnOp.ofCode (formSub w)).map fun o => .fsgn c o bi
  | 0x47 => some (.fcmp c lsub lty part d a b)
  | 0x48 => some (.fclass c un)
  | 0x49 => some (.frcp c un)
  | 0x4A => some (.frsq c un)
  | 0x4B => some (.fsqrt c un)
  | 0x4C => some (.fexp2 c un)
  | 0x4D => some (.flog2 c un)
  | 0x4E =>
    if bitsAt w 0 1 = 0#1 then some (.fcvt c (bitsAt w 1 2) (bitsAt w 14 4) un) else some (.fcvt c 0#2 0#4 un)
  | 0x4F => some (.frint c un)
  | 0x50 => some (.iadd c bi)
  | 0x51 => some (.isub c bi)
  | 0x52 => some (.imul c ((formSub w).setWidth 1) bi)
  | 0x53 => some (.imad c (Tern.ofWord w))
  | 0x54 => some (.imin c bi)
  | 0x55 => some (.imax c bi)
  | 0x56 => some (.iand c bi)
  | 0x57 => some (.ior c bi)
  | 0x58 => some (.ixor c bi)
  | 0x59 => some (.ishl c bi)
  | 0x5A => some (.ishr c bi)
  | 0x5B => some (.icmp c lsub lty part d a b)
  | 0x5C => some (.ibits c ((formSub w).setWidth 1) un)
  | 0x5D => some (.select c d a b (selC w))
  | 0x5E => some (.move c un)
  | 0x5F => some (.fill c un)
  | 0x60 => some (.iaddi c d a (imm28 w))
  | 0x61 => some (.fmuli c d a (imm28 w))
  | 0x62 => some (.faddi c d a (imm28 w))
  | 0x63 => some (.mand c d a b)
  | 0x64 => some (.mor c d a b)
  | 0x65 => some (.mxor c d a b)
  | 0x66 => some (.mnot c d a)
  | 0x67 => some (.mfrom c d a)
  | 0x68 => some (.mtov c (bitsAt w 4 1) d a)
  | 0x69 => (MredOp.ofCode lsub).map fun o => .mred c o d a
  | 0x6A => some (.mlead c d a)
  | 0x6B => some (.nbr c (bitsAt w 3 1) (NbrMode.ofCode (bitsAt w 1 2)) d a b (bitsAt w 14 7))
  | 0x6C => (IdxSel.ofCode lsub).map fun o => .laneidx c o d
  | 0x70 => (Edge.ofCode edge).map fun e => .shift c pty axis e pd pa pc dist
  | 0x71 => some (.rotPlane c pty axis edge pd pa dist)
  | 0x72 => some (.spread c pty axis pd pa)
  | 0x73 => (FoldOp.ofCode (bitsAt w 0 3)).map fun o => .fold c pty axis o prnd psat pd pa
  | 0x74 => (FoldOp.ofCode (bitsAt w 0 3)).map fun o => .scan c pty axis o prnd psat pd pa
  | 0x75 => some (.refold c pty pd pa)
  | 0x76 => some (.transp c pty pd pa)
  | 0x77 => (IdxSel.ofCode ((bitsAt w 0 2).setWidth 3)).map fun o => .index c pty o pd pa
  | 0x78 => some (.pdset c pd pa)
  | 0x79 => some (.pdget c (bitsAt w 0 1) pd pa)
  | 0x7A => some (.winset c pa)
  | 0x7B => (BlockLen.ofCode (bitsAt w 0 2)).map fun l => .quant c pty l pd pa pb pc
  | 0x7C => some (.accept c pty (AcceptMode.ofCode (bitsAt w 0 2)) pd pa pb pc)
  | 0x7D => some (.bound c pty pd pa pb)
  | 0x7E => some (.zskip c d a b)
  | _ => none

/-- The fields of a class-2 word (Tables 8-10, 11-1, R247). -/
def parse2 (op : Nat) (w : Word) : Option Instr :=
  let c := Common.ofWord w
  let d := selD w
  let x := selX w
  let seg : BitVec 4 := bitsAt w 31 4
  let disp : BitVec 16 := bitsAt w 8 16
  let m := MemArgs.ofWord w
  let pm := PlaneMemArgs.ofWord w
  let tl : BitVec 3 := bitsAt w 31 3
  match op with
  | 0xA0 => some (.ld c m)
  | 0xA1 => some (.st c m)
  | 0xA2 => some (.ldp c pm)
  | 0xA3 => some (.stp c pm)
  | 0xA4 => some (.lds c m)
  | 0xA5 => some (.sts c m)
  | 0xA6 => (Scope.ofCode (bitsAt w 1 3)).map fun s => .ldacq c s m
  | 0xA7 => (Scope.ofCode (bitsAt w 1 3)).map fun s => .strel c s m
  | 0xA8 => some (.qst c pm)
  | 0xA9 => (AtomArgs.ofWord w).map fun y => .atom c y
  | 0xAA => (AtomArgs.ofWord w).map fun y => .atoms c y
  | 0xAB => (AtomArgs.ofWord w).map fun y => .red c y
  | 0xAC => (AtomArgs.ofWord w).map fun y => .reds c y
  | 0xAD => some (.matchAddr c m)
  | 0xAE => some (.ldx c m)
  | 0xAF => some (.lapw c d seg x disp)
  | 0xB0 => do
    let k ← FenceKind.ofCode (bitsAt w 35 2)
    let s ← Scope.ofCode (bitsAt w 1 3)
    pure (.fence c k s)
  | 0xB1 => some (.waita c (bitsAt w 0 1) d seg x disp)
  | 0xB2 => some (.cpy c (selB w) (.ofBits (bitsAt w 35 7)) (.ofBits (bitsAt w 28 7)) (tlOf w))
  | 0xB3 => some (.pref c (bitsAt w 4 4) seg x disp)
  | 0xB4 => some (.qpush c (bitsAt w 0 1) d seg x)
  | 0xB5 => some (.qpop c (bitsAt w 0 1) d seg x)
  | 0xB6 => some (.qstat c d seg)
  | 0xB7 => some (.tlwait c d tl)
  | 0xB8 => some (.tlread c d tl)
  | 0xB9 => some (.tladv c d tl)
  | 0xBA => some (.chadv c d x)
  | _ => none

/-- The fields of a class-3 word (Table 12-1). -/
def parse3 (op : Nat) (w : Word) : Option Instr :=
  let c := Common.ofWord w
  let a : Sel := .ofBits (bitsAt w 35 7)
  let o : Sel := .ofBits (bitsAt w 28 7)
  let d : Sel := .ofBits (bitsAt w 21 7)
  let pa : BitVec 4 := bitsAt w 35 4
  let pd : BitVec 4 := bitsAt w 21 4
  let arr : BitVec 2 := bitsAt w 0 2
  let slot : BitVec 5 := bitsAt w 0 5
  let tl := tlOf w
  match op with
  | 0xD0 => some (.xbmv c arr pd pa o tl)
  | 0xD1 => some (.xbprog c arr d a tl)
  | 0xD2 => some (.xbcal c arr d tl)
  | 0xD3 => (XbField.ofCode (bitsAt w 2 3)).map fun f => .xbstat c arr f d tl
  | 0xD4 => if bitsAt w 2 1 = 0#1 then some (.xbbind c arr d tl) else some (.xbbindRel c arr d tl)
  | 0xD5 => if bitsAt w 5 1 = 0#1 then some (.accmov c slot pd o tl) else some (.accmovIn c slot pd o tl)
  | 0xD6 => some (.acczero c slot tl)
  | 0xD7 => some (.nmcall c d a tl)
  | _ => none

/-- The fields of a class-4 word (R303 to R308). -/
def parse4 (op : Nat) (w : Word) : Option Instr :=
  let c := Common.ofWord w
  let num : BitVec 12 := bitsAt w 30 12
  let r : Sel := .ofBits (bitsAt w 23 7)
  let sd : Sel := .ofBits (bitsAt w 7 7)
  let slot : BitVec 5 := bitsAt w 0 5
  match op with
  | 0xF0 => some (.sysrd c num r)
  | 0xF1 => some (.syswr c num r)
  | 0xF2 => some (.genup c r)
  | 0xF3 => if bitsAt w 0 1 = 0#1 then some (.resume c) else some (.resumeEnd c)
  | 0xF4 => some (.tret c)
  | 0xF5 => some (.ctxsave c sd r)
  | 0xF6 => some (.ctxload c sd r)
  | 0xF7 => some (.accspill c sd slot r)
  | 0xF8 => some (.accfill c sd slot r)
  | _ => none

/-- The fields of a word by its opcode. None where the opcode is unassigned or a sub-operation is not listed. -/
def parseWord (w : Word) : Option Instr :=
  let op := (bitsAt w 56 8).toNat
  match opClass op with
  | 0 => parse0 op w
  | 1 => parse1 op w
  | 2 => parse2 op w
  | 3 => parse3 op w
  | _ => parse4 op w

/-! ## The encoder -/

def sz : Sel := .reg 0

/-- S3 with a type and no other field. -/
def encS3 (c : Common) (op : BitVec 8) (ty : BitVec 4) (sub : BitVec 3) (d a b : Sel) : Word :=
  c.word op (payS3 d a b (modS3 ty sub 0#14))
def encSI (c : Common) (op : BitVec 8) (d a : Sel) (imm : BitVec 28) : Word := c.word op (paySI d a imm)
/-- L3 with a sub-operation and untyped operands. -/
def encL (c : Common) (op : BitVec 8) (d a b m : Sel) (sub : BitVec 3) (rest : BitVec 4) : Word :=
  c.word op (payL3 d.toBits a.toBits b.toBits m.toBits (modL3 0#4 0#2 0#1 sub rest))
def segSel (g : BitVec 4) : BitVec 7 := (0#3 ++ g : BitVec 7)

/-- The word of an instruction (Tables 8-2 to 8-10 and each description's fields). Events have none and give 0. -/
def encode : Instr → Word
  | .clauseIssue h => h.toWord
  | .nop c => encS3 c 0x00#8 0#4 0#3 sz sz sz
  | .mov c ty d a => encS3 c 0x01#8 ty 0#3 d a sz
  | .movGetst c d => encS3 c 0x01#8 0#4 1#3 d sz sz
  | .movSetst c a => encS3 c 0x01#8 0#4 2#3 sz a sz
  | .movi c d imm => encSI c 0x02#8 d sz imm
  | .movhi c d a imm => encSI c 0x03#8 d a imm
  | .add c ty d a b => encS3 c 0x04#8 ty 0#3 d a b
  | .addi c d a imm => encSI c 0x05#8 d a imm
  | .sub c ty d a b => encS3 c 0x06#8 ty 0#3 d a b
  | .mul c ty hi d a b => encS3 c 0x07#8 ty (0#2 ++ hi) d a b
  | .div c ty d a b => encS3 c 0x08#8 ty 0#3 d a b
  | .rem c ty d a b => encS3 c 0x09#8 ty 0#3 d a b
  | .and c ty d a b => encS3 c 0x0A#8 ty 0#3 d a b
  | .or c ty d a b => encS3 c 0x0B#8 ty 0#3 d a b
  | .xor c ty d a b => encS3 c 0x0C#8 ty 0#3 d a b
  | .andi c d a imm => encSI c 0x0D#8 d a imm
  | .ori c d a imm => encSI c 0x0E#8 d a imm
  | .xori c d a imm => encSI c 0x0F#8 d a imm
  | .shl c ty d a b => encS3 c 0x10#8 ty 0#3 d a b
  | .shr c ty d a b => encS3 c 0x11#8 ty 0#3 d a b
  | .shli c d a n => encSI c 0x12#8 d a (0#22 ++ n)
  | .shri c ar d a n => encSI c 0x13#8 d a (0#21 ++ ar ++ n)
  | .rot c ty r d a b => encS3 c 0x14#8 ty (0#2 ++ r) d a b
  | .clz c ty d a => encS3 c 0x15#8 ty 0#3 d a sz
  | .popc c ty d a => encS3 c 0x16#8 ty 0#3 d a sz
  | .cmp c ty cond d a b => encS3 c 0x17#8 ty cond d a b
  | .sel c d a b t => c.word 0x18#8 (payS3 d a b (0#7 ++ t.toBits ++ 0#7))
  | .min c ty d a b => encS3 c 0x19#8 ty 0#3 d a b
  | .max c ty d a b => encS3 c 0x1A#8 ty 0#3 d a b
  | .extr c ty d a pos len => c.word 0x1B#8 (payS3 d a sz (ty ++ 0#3 ++ pos ++ len ++ 0#2))
  | .ins c d a pos len => c.word 0x1C#8 (payS3 d a sz (0#7 ++ pos ++ len ++ 0#2))
  | .lea c sc d seg b => c.word 0x1D#8 (d.toBits ++ segSel seg ++ b.toBits ++ (0#19 ++ sc : BitVec 21) : BitVec 42)
  | .seglim c f d seg => c.word 0x1E#8 (d.toBits ++ segSel seg ++ 0#7 ++ modS3 0#4 f.code 0#14 : BitVec 42)
  | .lparam c d imm => encSI c 0x1F#8 d sz imm
  | .getid c d imm => encSI c 0x20#8 d sz imm
  | .clockCore c d => encS3 c 0x21#8 0#4 0#3 d sz sz
  | .clockPkg c d => encS3 c 0x21#8 0#4 1#3 d sz sz
  | .wintr c seg => c.word 0x22#8 (0#7 ++ segSel seg ++ 0#7 ++ 0#21 : BitVec 42)
  | .br c disp => c.word 0x28#8 (payB 0#4 0#7 disp)
  | .brc c cond a disp => c.word 0x29#8 (payB cond a.toBits disp)
  | .loop c a disp => c.word 0x2A#8 (payB 0#4 a.toBits disp)
  | .call c disp => c.word 0x2B#8 (payB 0#4 0#7 disp)
  | .ret c a => encS3 c 0x2C#8 0#4 0#3 sz a sz
  | .callo c ovl entry => c.word 0x2D#8 (payO ovl entry 0#14)
  | .split c ma mb t0 t1 t2 t3 => c.word 0x2E#8 (ma ++ mb ++ t0 ++ t1 ++ t2 ++ t3 : BitVec 42)
  | .merge c => encS3 c 0x2F#8 0#4 0#3 sz sz sz
  | .exit c => encS3 c 0x30#8 0#4 0#3 sz sz sz
  | .yield c => encS3 c 0x31#8 0#4 0#3 sz sz sz
  | .trap c code => encSI c 0x32#8 sz sz (0#12 ++ code)
  | .nmret c => encS3 c 0x33#8 0#4 0#3 sz sz sz
  | .ovld c d ovl => c.word 0x34#8 (payO ovl 0#16 (d.toBits ++ 0#7))
  | .ovlq c d ovl => encSI c 0x35#8 d sz (0#16 ++ ovl)
  | .ovlpin c ovl => c.word 0x36#8 (payO ovl 0#16 0#14)
  | .ovlunpin c ovl => c.word 0x37#8 (payO ovl 0#16 0#14)
  | .join c a => encS3 c 0x38#8 0#4 0#3 sz a sz
  | .leave c => encS3 c 0x39#8 0#4 0#3 sz sz sz
  | .gbar c => encS3 c 0x3A#8 0#4 0#3 sz sz sz
  | .ginfo c d => encS3 c 0x3B#8 0#4 0#3 d sz sz
  | .spawn c d a b => encS3 c 0x3C#8 0#4 0#3 d a b
  | .msgsend c n d a b => c.word 0x3D#8 (payS3 d a b (0#7 ++ n ++ 0#10))
  | .fadd c x => c.word 0x40#8 (x.pay 0#3)
  | .fsub c x => c.word 0x41#8 (x.pay 0#3)
  | .fmul c x => c.word 0x42#8 (x.pay 0#3)
  | .fma c x => c.word 0x43#8 x.pay
  | .fmin c x => c.word 0x44#8 (x.pay 0#3)
  | .fmax c x => c.word 0x45#8 (x.pay 0#3)
  | .fsgn c o x => c.word 0x46#8 (x.pay o.code)
  | .fcmp c cond ty part d a b => c.word 0x47#8 (payL3 d.toBits a.toBits b.toBits 0#7 (modL3 ty 0#2 0#1 cond (0#2 ++ part)))
  | .fclass c x => c.word 0x48#8 (x.pay 0#3 0#3 0#7)
  | .frcp c x => c.word 0x49#8 (x.pay 0#3 0#3 0#7)
  | .frsq c x => c.word 0x4A#8 (x.pay 0#3 0#3 0#7)
  | .fsqrt c x => c.word 0x4B#8 (x.pay 0#3 0#3 0#7)
  | .fexp2 c x => c.word 0x4C#8 (x.pay 0#3 0#3 0#7)
  | .flog2 c x => c.word 0x4D#8 (x.pay 0#3 0#3 0#7)
  | .fcvt c part ts x => c.word 0x4E#8 (x.pay 0#3 (0#1 ++ part) (0#3 ++ ts))
  | .frint c x => c.word 0x4F#8 (x.pay 0#3 0#3 0#7)
  | .iadd c x => c.word 0x50#8 (x.pay 0#3)
  | .isub c x => c.word 0x51#8 (x.pay 0#3)
  | .imul c hi x => c.word 0x52#8 (x.pay (0#2 ++ hi))
  | .imad c x => c.word 0x53#8 x.pay
  | .imin c x => c.word 0x54#8 (x.pay 0#3)
  | .imax c x => c.word 0x55#8 (x.pay 0#3)
  | .iand c x => c.word 0x56#8 (x.pay 0#3)
  | .ior c x => c.word 0x57#8 (x.pay 0#3)
  | .ixor c x => c.word 0x58#8 (x.pay 0#3)
  | .ishl c x => c.word 0x59#8 (x.pay 0#3)
  | .ishr c x => c.word 0x5A#8 (x.pay 0#3)
  | .icmp c cond ty part d a b => c.word 0x5B#8 (payL3 d.toBits a.toBits b.toBits 0#7 (modL3 ty 0#2 0#1 cond (0#2 ++ part)))
  | .ibits c z x => c.word 0x5C#8 (x.pay (0#2 ++ z) 0#3 0#7)
  | .select c d a b m => encL c 0x5D#8 d a b m 0#3 0#4
  | .move c x => c.word 0x5E#8 (x.pay 0#3 0#3 0#7)
  | .fill c x => c.word 0x5F#8 (x.pay 0#3 0#3 0#7)
  | .iaddi c d a imm => encSI c 0x60#8 d a imm
  | .fmuli c d a imm => encSI c 0x61#8 d a imm
  | .faddi c d a imm => encSI c 0x62#8 d a imm
  | .mand c d a b => encL c 0x63#8 d a b sz 0#3 0#4
  | .mor c d a b => encL c 0x64#8 d a b sz 0#3 0#4
  | .mxor c d a b => encL c 0x65#8 d a b sz 0#3 0#4
  | .mnot c d a => encL c 0x66#8 d a sz sz 0#3 0#4
  | .mfrom c d a => encL c 0x67#8 d a sz sz 0#3 0#4
  | .mtov c ones d a => encL c 0x68#8 d a sz sz (0#2 ++ ones) 0#4
  | .mred c o d a => encL c 0x69#8 d a sz sz o.code 0#4
  | .mlead c d a => encL c 0x6A#8 d a sz sz 0#3 0#4
  | .nbr c axis mode d a b dist =>
    c.word 0x6B#8 (payL3 d.toBits a.toBits b.toBits dist (modL3 0#4 0#2 0#1 0#3 (axis ++ mode.code ++ 0#1)))
  | .laneidx c o d => encL c 0x6C#8 d sz sz sz o.code 0#4
  | .shift c ty axis e pd pa sc dist => c.word 0x70#8 (payP pd pa 0#4 sc (modP ty 0#2 0#1 axis e.code dist))
  | .rotPlane c ty axis e pd pa dist => c.word 0x71#8 (payP pd pa 0#4 0#4 (modP ty 0#2 0#1 axis e dist))
  | .spread c ty axis pd pa => c.word 0x72#8 (payP pd pa 0#4 0#4 (modP ty 0#2 0#1 axis 0#2 0#16))
  | .fold c ty axis o rnd sat pd pa => c.word 0x73#8 (payP pd pa 0#4 0#4 (modP ty rnd sat axis 0#2 (0#13 ++ o.code)))
  | .scan c ty axis o rnd sat pd pa => c.word 0x74#8 (payP pd pa 0#4 0#4 (modP ty rnd sat axis 0#2 (0#13 ++ o.code)))
  | .refold c ty pd pa => c.word 0x75#8 (payP pd pa 0#4 0#4 (modP ty 0#2 0#1 0#1 0#2 0#16))
  | .transp c ty pd pa => c.word 0x76#8 (payP pd pa 0#4 0#4 (modP ty 0#2 0#1 0#1 0#2 0#16))
  | .index c ty o pd sa => c.word 0x77#8 (payP pd sa 0#4 0#4 (modP ty 0#2 0#1 0#1 0#2 (0#13 ++ o.code)))
  | .pdset c pd sa => c.word 0x78#8 (payP pd sa 0#4 0#4 0#26)
  | .pdget c bnd sd pa => c.word 0x79#8 (payP sd pa 0#4 0#4 (0#25 ++ bnd))
  | .winset c sa => c.word 0x7A#8 (payP 0#4 sa 0#4 0#4 0#26)
  | .quant c ty l pd pa pb sc => c.word 0x7B#8 (payP pd pa pb sc (modP ty 0#2 0#1 0#1 0#2 (0#14 ++ l.code)))
  | .accept c ty mode pd pa sb mc => c.word 0x7C#8 (payP pd pa sb mc (modP ty 0#2 0#1 0#1 0#2 (0#14 ++ mode.code)))
  | .bound c ty pd pa sb => c.word 0x7D#8 (payP pd pa sb 0#4 (modP ty 0#2 0#1 0#1 0#2 0#16))
  | .zskip c d a b => encL c 0x7E#8 d a b sz 0#3 0#4
  | .ld c x => c.word 0xA0#8 (x.pay 0#3)
  | .st c x => c.word 0xA1#8 (x.pay 0#3)
  | .ldp c x => c.word 0xA2#8 x.pay
  | .stp c x => c.word 0xA3#8 x.pay
  | .lds c x => c.word 0xA4#8 (x.pay 0#3)
  | .sts c x => c.word 0xA5#8 (x.pay 0#3)
  | .ldacq c s x => c.word 0xA6#8 (x.pay s.code)
  | .strel c s x => c.word 0xA7#8 (x.pay s.code)
  | .qst c x => c.word 0xA8#8 x.pay
  | .atom c x => c.word 0xA9#8 x.pay
  | .atoms c x => c.word 0xAA#8 x.pay
  | .red c x => c.word 0xAB#8 x.pay
  | .reds c x => c.word 0xAC#8 x.pay
  | .matchAddr c x => c.word 0xAD#8 (x.pay 0#3)
  | .ldx c x => c.word 0xAE#8 (x.pay 0#3)
  | .lapw c d seg x disp => c.word 0xAF#8 (payM d.toBits seg x.toBits disp 0#8)
  | .fence c k s => c.word 0xB0#8 (payM (0#5 ++ k.code) 0#4 0#7 0#16 (modM 0#4 s.code 0#1))
  | .waita c four d seg x disp => c.word 0xB1#8 (payM d.toBits seg x.toBits disp (0#7 ++ four))
  | .cpy c d a o tl => c.word 0xB2#8 (payE a.toBits o.toBits d.toBits tl 0#17)
  | .pref c ty seg x disp => c.word 0xB3#8 (payM 0#7 seg x.toBits disp (modM ty 0#3 0#1))
  | .qpush c t d q x => c.word 0xB4#8 (payM d.toBits q x.toBits 0#16 (0#7 ++ t))
  | .qpop c t d q x => c.word 0xB5#8 (payM d.toBits q x.toBits 0#16 (0#7 ++ t))
  | .qstat c d q => c.word 0xB6#8 (payM d.toBits q 0#7 0#16 0#8)
  | .tlwait c d tl => c.word 0xB7#8 (payM d.toBits (0#1 ++ tl) 0#7 0#16 0#8)
  | .tlread c d tl => c.word 0xB8#8 (payM d.toBits (0#1 ++ tl) 0#7 0#16 0#8)
  | .tladv c d tl => c.word 0xB9#8 (payM d.toBits (0#1 ++ tl) 0#7 0#16 0#8)
  | .chadv c d x => c.word 0xBA#8 (payM d.toBits 0#4 x.toBits 0#16 0#8)
  | .xbmv c arr pd pa o tl => c.word 0xD0#8 (payE (0#3 ++ pa) o.toBits (0#3 ++ pd) tl (0#15 ++ arr))
  | .xbprog c arr d a tl => c.word 0xD1#8 (payE a.toBits 0#7 d.toBits tl (0#15 ++ arr))
  | .xbcal c arr d tl => c.word 0xD2#8 (payE 0#7 0#7 d.toBits tl (0#15 ++ arr))
  | .xbstat c arr f d tl => c.word 0xD3#8 (payE 0#7 0#7 d.toBits tl (0#12 ++ f.code ++ arr))
  | .xbbind c arr d tl => c.word 0xD4#8 (payE 0#7 0#7 d.toBits tl (0#15 ++ arr))
  | .xbbindRel c arr d tl => c.word 0xD4#8 (payE 0#7 0#7 d.toBits tl (0#14 ++ 1#1 ++ arr))
  | .accmov c slot pd o tl => c.word 0xD5#8 (payE 0#7 o.toBits (0#3 ++ pd) tl (0#12 ++ slot))
  | .accmovIn c slot pd o tl => c.word 0xD5#8 (payE 0#7 o.toBits (0#3 ++ pd) tl (0#11 ++ 1#1 ++ slot))
  | .acczero c slot tl => c.word 0xD6#8 (payE 0#7 0#7 0#7 tl (0#12 ++ slot))
  | .nmcall c d a tl => c.word 0xD7#8 (payE a.toBits 0#7 d.toBits tl 0#17)
  | .sysrd c num d => c.word 0xF0#8 (payY num d.toBits 0#23)
  | .syswr c num a => c.word 0xF1#8 (payY num a.toBits 0#23)
  | .genup c a => c.word 0xF2#8 (payY 0#12 a.toBits 0#23)
  | .resume c => c.word 0xF3#8 (payY 0#12 0#7 0#23)
  | .resumeEnd c => c.word 0xF3#8 (payY 0#12 0#7 1#23)
  | .tret c => c.word 0xF4#8 (payY 0#12 0#7 0#23)
  | .ctxsave c sd a => c.word 0xF5#8 (payY 0#12 a.toBits (0#9 ++ sd.toBits ++ 0#7))
  | .ctxload c sd a => c.word 0xF6#8 (payY 0#12 a.toBits (0#9 ++ sd.toBits ++ 0#7))
  | .accspill c sd slot a => c.word 0xF7#8 (payY 0#12 a.toBits (0#9 ++ sd.toBits ++ 0#2 ++ slot))
  | .accfill c sd slot a => c.word 0xF8#8 (payY 0#12 a.toBits (0#9 ++ sd.toBits ++ 0#2 ++ slot))
  | _ => 0#64

/-- The common part of a word instruction; none for a header and for an event. -/
def Instr.common? (i : Instr) : Option Common :=
  let w := encode i
  if assignedOp (bitsAt w 56 8).toNat && w ≠ 0#64 then some (Common.ofWord w) else
    match i with
    | .nop c => some c
    | _ => none

/-! ## Decoding -/

/-- The instruction a word holds, or why it holds none: an unassigned opcode, a reserved field or code, a selector invalid for its position (Table 8-11, orders 1, 3 and 6). A word with a nonzero unused field is not the word of the instruction its fields give. -/
def decodeWord (w : Word) : Except DecodeError Instr :=
  if assignedOp (bitsAt w 56 8).toNat then
    match parseWord w with
    | none => .error .reserved
    | some i =>
      if encode i = w ∧ i.fieldsOk = true then
        if i.selsOk = true then .ok i else .error .selector
      else .error .reserved
  else .error .unassigned

/-- Byte k of a word, least significant first (R7, R155). -/
def wordByte (w : Word) (k : Nat) : Byte := w.extractLsb' (8 * k) 8

/-- The 64-bit little-endian word of eight bytes. -/
def wordOfBytes (b : List Byte) : Word := b.foldr (fun x acc => (acc <<< 8) ||| x.setWidth 64) 0#64

/-- The instruction in the first eight bytes: a clause header where the top byte is 0xFF, else an instruction word. -/
def decodeBytes (b : List Byte) : Option Instr :=
  let w := wordOfBytes (b.take 8)
  if bitsAt w 56 8 = 0xFF#8 then (decodeHeader w).map Instr.clauseIssue
  else
    match decodeWord w with
    | .ok i => some i
    | .error _ => none

/-- The host's question: the instruction whose bits are `w`; every bit above `nbits` is 0. -/
def decodeTableWord (nbits w : Nat) : Option Instr :=
  let v : Word := BitVec.ofNat 64 (w % 2 ^ nbits)
  decodeBytes ((List.range 8).map (wordByte v))

end Sys2Proof
end

