-- ==== Sys2Proof/Config.lean ====
section
/-! DEFINITION. What the manual leaves open: free values, and what each part fixes for itself. No constant here has a body, so no proof can rest on a value of it. -/

namespace Sys2Proof.Config

/-- An unspecified 64-bit value (R5); applied to the State's counter `fresh`. -/
opaque freeWord : Nat → Word

/-- An unspecified 32-bit lane word (R5): seed, then lane or element. -/
opaque freeLane : Nat → Nat → LWord

/-- An unspecified byte (R5), as of a line read under another key (R354): seed, address. -/
opaque freeByte : Nat → Nat → Byte

/-- The offset of a core's own counter from the package timestamp (R183). -/
opaque clockOffset : Nat → Word

/-- Which of the results within the bound of Table 2-7 an approximated f32 function delivers (R43): function, operand bits. -/
opaque approxChoice : Nat → LWord → Nat

/-- The analogue error of an XBMV element (R274), before it is brought within the bound: fresh seed, depth plane, element. -/
opaque analogueNoise : Nat → Nat → Nat → Int

/-- The constants a calibration measures (R272): fresh seed. -/
opaque measuredAlpha : Nat → LWord
opaque measuredGamma : Nat → LWord

/-- The wear limit of a part's rows (R271). -/
opaque wearLimit : Nat

/-- Which of eight differing level-0 entries of a 64 KiB page an access uses (R344): page number. -/
opaque pageChoice : Nat → Nat

/-- Whether an AES-256-GCM tag verifies (R383): key, nonce, header words, body words, tag words. -/
opaque gcmVerifies : BitVec 256 → BitVec 96 → List Word → List Word → List Word → Bool

/-- The plaintext of an AES-256-GCM body (R383): key, nonce, body words. -/
opaque gcmOpen : BitVec 256 → BitVec 96 → List Word → List Word

/-- Whether a signature over an image verifies against the Celvotan key (R387). -/
opaque signatureVerifies : List Word → List Word → Bool

/-- Whether the partition owner's signature of a K overlay verifies (R301): partition, content hash. -/
opaque overlaySignatureVerifies : Nat → BitVec 128 → Bool

/-- RFC 3394 unwrap under the key-encryption key that an identity key gives (R389): none where the integrity check fails. -/
opaque unwrapKey : BitVec 384 → List Word → Option (BitVec 256)

/-- The private identity key that the hinge die's physical unclonable function gives with helper data (R388). -/
opaque identityKey : List Word → BitVec 384

/-- The public key of an identity key, as words (R388). -/
opaque publicKey : BitVec 384 → List Word

/-- M firmware's verification of a configuration record's link trims, and its training of every link from it, succeed (R387). -/
opaque linksTrain : List Word → Bool

/-- SHA-384 of measured data (R387, R390). -/
opaque sha384 : List Word → BitVec 384

/-- Slice cycles that the scrub of one line in a slice takes (R366). -/
opaque scrubCycles : Nat

/-- Which of the places in the log area that are free the result block of a recorded XBMV takes (R370): fresh seed. -/
opaque resultBlock : Nat → Nat

/-- Whether a destination word of a variable-latency plane instruction already holds its new value before completion (R76): fresh seed, lane-file key. -/
opaque earlyWrite : Nat → Nat → Bool

/-- The boot ROM and the first UEFI image, as they are measured (R387, R390). -/
opaque bootRom : List Word
opaque uefiImage : List Word

/-- Buffers of each channel at each input of a mesh router, less one (R381). -/
opaque meshBuffers : Nat

/-- The number the Drevar side gives this device (R377). -/
opaque deviceNumber : Nat

/-- The package ports that reach a device, in the order they are used (R377). -/
opaque routes : Nat → List Nat

end Sys2Proof.Config
end

