-- ==== Sys2Proof/Machine/Flags.lean ====
section
/-! DEFINITION. Numbers and status bits (02): element formats, rounding, TB8, block scales, conversions, the arithmetic of every class, and the status bits each sets. -/

namespace Sys2Proof.Machine

/-! ## Status bits (Table 2-3) -/

/-- Status bits, as Table 2-3 numbers them. -/
abbrev Status := BitVec 7

def stInvalid : Status := 0x01#7
def stDivZero : Status := 0x02#7
def stOverflow : Status := 0x04#7
def stUnderflow : Status := 0x08#7
def stInexact : Status := 0x10#7
def stClip : Status := 0x20#7
def stBound : Status := 0x40#7

/-- A result's bits and the status bits it sets. -/
abbrev Res := Nat × Status

/-! ## Formats (Tables 2-1, 2-2) -/

/-- Width in bits of a format code; 0 for codes that name no width. -/
def fmtWidth (t : Nat) : Nat :=
  match t with
  | 1 | 7 | 10 | 13 => 32
  | 2 | 3 | 6 | 9 | 14 => 16
  | 4 | 5 | 8 => 8
  | 11 | 12 => 64
  | _ => 0

def fmtBytes (t : Nat) : Nat := fmtWidth t / 8
def isFloat (t : Nat) : Bool := t = 1 || t = 2 || t = 3
def isInt (t : Nat) : Bool := 5 ≤ t && t ≤ 12
def isSigned (t : Nat) : Bool := t = 5 || t = 6 || t = 7 || t = 11
def isBounded (t : Nat) : Bool := t = 13 || t = 14

/-- The exact format that codes a bounded type's values (R45). -/
def exactOf (t : Nat) : Nat := if t = 13 then 1 else if t = 14 then 2 else t

/-- Precision p of an IEEE format. -/
def fpPrec (t : Nat) : Nat := if t = 1 then 24 else if t = 2 then 11 else 8
def fpBias (t : Nat) : Nat := if t = 2 then 15 else 127
/-- Exponent field of ±∞ and NaN. -/
def fpExpMax (t : Nat) : Nat := if t = 2 then 31 else 255
def fpEmin (t : Nat) : Int := 1 - (fpBias t : Int)
def fpSignBit (t : Nat) : Nat := 2 ^ (fmtWidth t - 1)
def fpInfBits (t : Nat) : Nat := fpExpMax t * 2 ^ (fpPrec t - 1)
/-- The canonical NaN (Table 2-2). -/
def fpNaN (t : Nat) : Nat := fpInfBits t + 2 ^ (fpPrec t - 2)

/-- A decoded value: NaN, infinity, or sign and magnitude m·2^e. -/
inductive FVal where
  | nan (signalling : Bool)
  | inf (neg : Bool)
  | num (neg : Bool) (m : Nat) (e : Int)
  deriving DecidableEq, Repr

def FVal.isNaN : FVal → Bool
  | .nan _ => true
  | _ => false
def FVal.isSNaN : FVal → Bool
  | .nan s => s
  | _ => false
def FVal.isZero : FVal → Bool
  | .num _ m _ => m = 0
  | _ => false
def FVal.neg : FVal → Bool
  | .nan _ => false
  | .inf n => n
  | .num n _ _ => n
/-- ±x. -/
def FVal.negate : FVal → FVal
  | .nan s => .nan s
  | .inf n => .inf (!n)
  | .num n m e => .num (!n) m e
def FVal.absV : FVal → FVal
  | .nan s => .nan s
  | .inf _ => .inf false
  | .num _ m e => .num false m e

/-- The value of an IEEE bit pattern (R25). -/
def decodeF (t : Nat) (b : Nat) : FVal :=
  let p := fpPrec t
  let neg := b / fpSignBit t % 2 = 1
  let x := b / 2 ^ (p - 1) % (fpExpMax t + 1)
  let f := b % 2 ^ (p - 1)
  if x = fpExpMax t then
    if f = 0 then .inf neg else .nan (f < 2 ^ (p - 2))
  else if x = 0 then .num neg f (fpEmin t - (p - 1 : Nat))
  else .num neg (f + 2 ^ (p - 1)) ((x : Int) - fpBias t - (p - 1 : Nat))

def signBits (t : Nat) (neg : Bool) : Nat := if neg then fpSignBit t else 0

/-- floor(log2 m), of m > 0. -/
def ilog2 (m : Nat) : Nat := Nat.log2 m

/-- Whether a discarded remainder rounds the magnitude up: `rem` of `2^sh`, in mode, with sign and the parity of the kept integer (R27). -/
def roundsUp (mode : Nat) (neg odd : Bool) (rem sh : Nat) : Bool :=
  match mode with
  | 0 => 2 ^ sh < 2 * rem || (2 ^ sh = 2 * rem && odd)
  | 1 => false
  | 2 => neg && 0 < rem
  | _ => !neg && 0 < rem

/-- `Round(x, t, mode)` of R27 for x = ±m·2^e: bits and status. A zero keeps its sign. -/
def roundF (t mode : Nat) (neg : Bool) (m : Nat) (e : Int) : Res :=
  if m = 0 then (signBits t neg, 0)
  else
    let p := fpPrec t
    let l : Int := (ilog2 m : Int) + e
    let ee := max l (fpEmin t)
    let qe := ee - (p : Int) + 1
    let sh := (qe - e).toNat
    let n0 := if qe ≤ e then m * 2 ^ (e - qe).toNat else m / 2 ^ sh
    let rem := if qe ≤ e then 0 else m % 2 ^ sh
    let n := if roundsUp mode neg (n0 % 2 = 1) rem sh then n0 + 1 else n0
    let mag := (ee + (fpBias t : Int) - 1).toNat * 2 ^ (p - 1) + n
    let st := (if rem = 0 then 0 else stInexact) ||| (if rem ≠ 0 ∧ l < fpEmin t then stUnderflow else 0)
    if fpInfBits t ≤ mag then
      let toInf := mode = 0 || (mode = 2 && neg) || (mode = 3 && !neg)
      (signBits t neg + (if toInf then fpInfBits t else fpInfBits t - 1), st ||| stOverflow ||| stInexact)
    else (signBits t neg + mag, st)

/-- Round a decoded value into a format; NaN becomes canonical, a signalling NaN sets invalid (R26, R29). -/
def roundVal (t mode : Nat) (v : FVal) : Res :=
  match v with
  | .nan s => (fpNaN t, if s then stInvalid else 0)
  | .inf n => (signBits t n + fpInfBits t, 0)
  | .num n m e => roundF t mode n m e

/-- The signed integer n·2^0 of a value scaled by 2^(−e0), for e0 at most its exponent. -/
def FVal.scaled (neg : Bool) (m : Nat) (e e0 : Int) : Int :=
  let k : Int := (m * 2 ^ (e - e0).toNat : Nat)
  if neg then -k else k

/-- The exact sum of two finite values; a zero sum has the sign R26 gives in `mode`. -/
def addExact (mode : Nat) (n1 : Bool) (m1 : Nat) (e1 : Int) (n2 : Bool) (m2 : Nat) (e2 : Int) : FVal :=
  let e0 := min e1 e2
  let s := FVal.scaled n1 m1 e1 e0 + FVal.scaled n2 m2 e2 e0
  if s = 0 then
    if m1 = 0 ∧ m2 = 0 ∧ n1 = n2 then .num n1 0 e0 else .num (mode = 2) 0 e0
  else .num (s < 0) s.natAbs e0

/-- a + b (R26). -/
def addVal (mode : Nat) (a b : FVal) : FVal × Status :=
  match a, b with
  | .nan s, .nan s' => (.nan false, if s || s' then stInvalid else 0)
  | .nan s, _ => (.nan false, if s then stInvalid else 0)
  | _, .nan s => (.nan false, if s then stInvalid else 0)
  | .inf n, .inf n' => if n = n' then (.inf n, 0) else (.nan false, stInvalid)
  | .inf n, .num .. => (.inf n, 0)
  | .num .., .inf n => (.inf n, 0)
  | .num n1 m1 e1, .num n2 m2 e2 => (addExact mode n1 m1 e1 n2 m2 e2, 0)

/-- a·b, exact (R26). -/
def mulVal (a b : FVal) : FVal × Status :=
  match a, b with
  | .nan s, .nan s' => (.nan false, if s || s' then stInvalid else 0)
  | .nan s, _ => (.nan false, if s then stInvalid else 0)
  | _, .nan s => (.nan false, if s then stInvalid else 0)
  | .inf n, .inf n' => (.inf (n != n'), 0)
  | .inf n, .num n' m _ => if m = 0 then (.nan false, stInvalid) else (.inf (n != n'), 0)
  | .num n' m _, .inf n => if m = 0 then (.nan false, stInvalid) else (.inf (n != n'), 0)
  | .num n m e, .num n' m' e' => (.num (n != n') (m * m') (e + e'), 0)

def resOr (r : Res) (s : Status) : Res := (r.1, r.2 ||| s)

/-- Round(a + b), Round(a − b), Round(a·b), Round(a·b + c) (Table 10-3). -/
def fAdd (t mode a b : Nat) : Res :=
  let (v, s) := addVal mode (decodeF t a) (decodeF t b)
  resOr (roundVal t mode v) s
def fSub (t mode a b : Nat) : Res :=
  let (v, s) := addVal mode (decodeF t a) (decodeF t b).negate
  resOr (roundVal t mode v) s
def fMul (t mode a b : Nat) : Res :=
  let (v, s) := mulVal (decodeF t a) (decodeF t b)
  resOr (roundVal t mode v) s
/-- a·b + c with one rounding (R39). A product ∞·0 sets invalid whatever the addend, a quiet NaN included: IEEE 754-2019 leaves that case to the implementation (DESIGN CHOICE, notes/assumptions/79.md). A NaN addend that signals sets invalid too. -/
def fmaVal (t mode : Nat) (a b c : FVal) : Res :=
  let (p, s) := mulVal a b
  let (v, s') := addVal mode p c
  resOr (roundVal t mode v) (s ||| s')
def fFma (t mode a b c : Nat) : Res := fmaVal t mode (decodeF t a) (decodeF t b) (decodeF t c)

/-- a < b on numbers; −0 and +0 are equal. -/
def FVal.lt (a b : FVal) : Bool :=
  match a, b with
  | .nan _, _ => false
  | _, .nan _ => false
  | .inf n, .inf n' => n && !n'
  | .inf n, .num .. => n
  | .num .., .inf n => !n
  | .num n m e, .num n' m' e' =>
    let e0 := min e e'
    FVal.scaled n m e e0 < FVal.scaled n' m' e' e0
def FVal.eqv (a b : FVal) : Bool := !a.isNaN && !b.isNaN && !a.lt b && !b.lt a

/-- minimumNumber and maximumNumber: one NaN yields the other operand, −0 orders below +0 (R26). -/
def fMinMax (wantMax : Bool) (t a b : Nat) : Res :=
  let va := decodeF t a
  let vb := decodeF t b
  let s : Status := if va.isSNaN || vb.isSNaN then stInvalid else 0
  if va.isNaN && vb.isNaN then (fpNaN t, s)
  else if va.isNaN then (b, s)
  else if vb.isNaN then (a, s)
  else
    let aLess := va.lt vb || (va.eqv vb && va.neg && !vb.neg)
    (if aLess != wantMax then a else b, s)

/-- A condition on two floating values (Table 8-6), with the invalid bit of FCMP (R213). -/
def fCond (cond : Nat) (t a b : Nat) : Bool × Status :=
  let va := decodeF t a
  let vb := decodeF t b
  let uo := va.isNaN || vb.isNaN
  let r := match cond with
    | 0 => va.eqv vb
    | 1 => !va.eqv vb
    | 2 => va.lt vb
    | 3 => va.lt vb || va.eqv vb
    | 4 => vb.lt va
    | 5 => vb.lt va || va.eqv vb
    | 6 => uo
    | _ => !uo
  let s := va.isSNaN || vb.isSNaN || (uo && 2 ≤ cond && cond ≤ 5)
  (r, if s then stInvalid else 0)

/-- A condition on two integers (Table 8-6): unordered is false, ordered true. -/
def iCond (cond : Nat) (a b : Int) : Bool :=
  match cond with
  | 0 => a = b
  | 1 => a ≠ b
  | 2 => a < b
  | 3 => a ≤ b
  | 4 => b < a
  | 5 => b ≤ a
  | 6 => false
  | _ => true

/-- FSGN (R209): 0 abs, 1 neg, 2 copy; a NaN becomes canonical with the computed sign. -/
def fSgn (op t a b : Nat) : Nat :=
  let sb := fpSignBit t
  let sa := a / sb % 2
  let s := match op with
    | 0 => 0
    | 1 => 1 - sa
    | _ => b / sb % 2
  let mag := if (decodeF t a).isNaN then fpNaN t else a % sb
  s * sb + mag

/-- FCLASS (R209): exactly one bit set. -/
def fClass (t a : Nat) : Nat :=
  match decodeF t a with
  | .nan s => if s then 2 ^ 8 else 2 ^ 9
  | .inf n => if n then 2 ^ 0 else 2 ^ 7
  | .num n m _ =>
    if m = 0 then (if n then 2 ^ 3 else 2 ^ 4)
    else if m < 2 ^ (fpPrec t - 1) then (if n then 2 ^ 2 else 2 ^ 5)
    else (if n then 2 ^ 1 else 2 ^ 6)

/-- Rounds m·2^e to an integer magnitude under a mode: the integer and whether a fraction was discarded. -/
def roundInt (mode : Nat) (neg : Bool) (m : Nat) (e : Int) : Nat × Bool :=
  if 0 ≤ e then (m * 2 ^ e.toNat, false)
  else
    let sh := (-e).toNat
    let n := m / 2 ^ sh
    let rem := m % 2 ^ sh
    (if roundsUp mode neg (n % 2 = 1) rem sh then n + 1 else n, rem ≠ 0)

/-- FRINT (R209): an integral value of the same format; never inexact. -/
def fRint (t mode a : Nat) : Res :=
  match decodeF t a with
  | .nan s => (fpNaN t, if s then stInvalid else 0)
  | .inf _ => (a, 0)
  | .num n m e =>
    let (k, _) := roundInt mode n m e
    ((roundF t mode n k 0).1, 0)

/-! ## Function units (R43, Table 2-7) -/

/-- floor(√m), one bit a step from bit k down. -/
def isqrtFrom : Nat → Nat → Nat → Nat
  | 0, m, r => if (r + 1) * (r + 1) ≤ m then r + 1 else r
  | k + 1, m, r =>
    let r' := r + 2 ^ (k + 1)
    isqrtFrom k m (if r' * r' ≤ m then r' else r)
def isqrt (m : Nat) : Nat := isqrtFrom (ilog2 m / 2 + 1) m 0

/-- 1/(m·2^e) to 80 bits with a sticky bit: magnitude and exponent. -/
def recipMag (m : Nat) (e : Int) : Nat × Int :=
  let k := ilog2 m + 80
  let q := 2 ^ k / m
  (2 * q + (if 2 ^ k % m = 0 then 0 else 1), -e - (k : Int) - 1)

/-- √(m·2^e) with a sticky bit. -/
def sqrtMag (m : Nat) (e : Int) : Nat × Int :=
  let odd := e % 2 ≠ 0
  let m1 := if odd then 2 * m else m
  let e1 := if odd then e - 1 else e
  let m2 := m1 * 2 ^ 120
  let r := isqrt m2
  (2 * r + (if r * r = m2 then 0 else 1), (e1 - 120) / 2 - 1)

/-- 1/√(m·2^e) with a sticky bit. -/
def rsqrtMag (m : Nat) (e : Int) : Nat × Int :=
  let odd := e % 2 ≠ 0
  let m1 := if odd then 2 * m else m
  let e1 := if odd then e - 1 else e
  let k := ilog2 m1 / 2 + 80
  let r := isqrt (2 ^ (2 * k) / m1)
  (2 * r + (if r * r * m1 = 2 ^ (2 * k) then 0 else 1), -(e1 / 2) - (k : Int) - 1)

/-- Fixed-point fraction bits of the logarithm and exponential below. -/
def fixP : Nat := 320

/-- The product of 2^(2^−i) over the set bits of a fraction `f` of `j` bits, most significant first; `root` is 2^(2^−i) at `fixP` bits. -/
def exp2Loop : Nat → Nat → Nat → Nat → Nat
  | 0, _, _, acc => acc
  | j + 1, f, root, acc =>
    let root' := isqrt (root * 2 ^ fixP)
    let acc' := if f / 2 ^ j % 2 = 1 then acc * root' / 2 ^ fixP else acc
    exp2Loop j f root' acc'

/-- 2^x for x = ±m·2^e with |x| < 2^9: magnitude (sticky unless x is an integer) and exponent. -/
def exp2Mag (neg : Bool) (m : Nat) (e : Int) : Nat × Int :=
  let j := (-e).toNat
  let x : Int := if 0 ≤ e then FVal.scaled neg m e 0 else (if neg then -(m : Int) else m)
  let ip : Int := x / (2 ^ j : Nat)
  let f := (x % (2 ^ j : Nat)).toNat
  if f = 0 then (1, ip)
  else (2 * exp2Loop j f (2 * 2 ^ fixP) (2 ^ fixP) + 1, ip - fixP - 1)

/-- log2 of a fixed-point x in [1, 2), n bits. -/
def log2Loop : Nat → Nat → Nat → Nat
  | 0, _, acc => acc
  | n + 1, x, acc =>
    let y := x * x / 2 ^ fixP
    if 2 * 2 ^ fixP ≤ y then log2Loop n (y / 2) (2 * acc + 1) else log2Loop n y (2 * acc)

/-- log2(m·2^e), m > 0: sign, magnitude (sticky unless a power of two) and exponent. -/
def log2Mag (m : Nat) (e : Int) : Bool × Nat × Int :=
  let l := ilog2 m
  let ip : Int := (l : Int) + e
  if m = 2 ^ l then (ip < 0, ip.natAbs, 0)
  else
    let f := log2Loop 100 (m * 2 ^ fixP / 2 ^ l) 0
    let v : Int := ip * (2 ^ 100 : Nat) + f
    -- the true value lies just above v: one sticky bit below
    let w := 2 * v + 1
    (w < 0, w.natAbs, -101)

/-- |candidate pattern − exact| ≤ k ulp of the exact magnitude m·2^e, for a candidate of format t below infinity. -/
def withinUlps (t k : Nat) (cand : Nat) (m : Nat) (e : Int) : Bool :=
  match decodeF t cand with
  | .num _ cm ce =>
    let ue := max ((ilog2 m : Int) + e) (fpEmin t) - (fpPrec t : Int) + 1
    let e0 := min (min e ce) ue
    let x := m * 2 ^ (e - e0).toNat
    let y := cm * 2 ^ (ce - e0).toNat
    let u := k * 2 ^ (ue - e0).toNat
    x ≤ y + u && y ≤ x + u
  | _ => false

/-- An approximated f32 result: one of the patterns within k ulp of ±m·2^e, by the free choice of Config (R43, R44). Out of range rounds to nearest. -/
def approxF32 (fn k : Nat) (bits : Nat) (neg : Bool) (m : Nat) (e : Int) : Res :=
  let near := roundF 1 0 false m e
  if near.1 ≥ fpInfBits 1 then (signBits 1 neg + near.1, near.2)
  else
    let lo := near.1 - 8
    let cands := ((List.range 17).map (lo + ·)).filter fun c => c < fpInfBits 1 && withinUlps 1 k c m e
    let c := cands.getD (Config.approxChoice fn (BitVec.ofNat 32 bits) % cands.length) near.1
    let tiny : Status := if (ilog2 m : Int) + e < fpEmin 1 then stUnderflow else 0
    (signBits 1 neg + c, stInexact ||| tiny)

/-- The function units. -/
inductive FUnit where
  | rcp | rsq | sqrt | exp2 | log2
  deriving DecidableEq, Repr

def FUnit.code : FUnit → Nat
  | .rcp => 0 | .rsq => 1 | .sqrt => 2 | .exp2 => 3 | .log2 => 4

/-- Special results of a function unit, by value class: bits of the special value in format t and status; none where the result is a rounded number (Table 2-7). FEXP2 overflows from 128 and underflows below −150 in every format and mode. -/
def unitSpecial (u : FUnit) (t : Nat) (v : FVal) : Option Res :=
  match v with
  | .nan s => some (fpNaN t, if s then stInvalid else 0)
  | .inf n =>
    match u with
    | .rcp => some (signBits t n, 0)
    | .rsq => some (if n then (fpNaN t, stInvalid) else (0, 0))
    | .sqrt => some (if n then (fpNaN t, stInvalid) else (fpInfBits t, 0))
    | .exp2 => some (if n then (0, 0) else (fpInfBits t, 0))
    | .log2 => some (if n then (fpNaN t, stInvalid) else (fpInfBits t, 0))
  | .num n m e =>
    if m = 0 then
      match u with
      | .rcp | .rsq => some (signBits t n + fpInfBits t, stDivZero)
      | .sqrt => some (signBits t n, 0)
      | .exp2 => some ((roundF t 0 false 1 0).1, 0)
      | .log2 => some (signBits t true + fpInfBits t, stDivZero)
    else if n && (u = .rsq || u = .sqrt || u = .log2) then some (fpNaN t, stInvalid)
    else if u = .exp2 ∧ ¬ n ∧ 7 ≤ (ilog2 m : Int) + e then some (fpInfBits t, stOverflow ||| stInexact)
    else if u = .exp2 ∧ FVal.lt v (.num true 150 0) then some (0, stUnderflow ||| stInexact)
    else none

/-- The exact result of a function unit on a finite nonzero value, with a sticky bit. -/
def unitExact (u : FUnit) (neg : Bool) (m : Nat) (e : Int) : Bool × Nat × Int :=
  match u with
  | .rcp => let (q, k) := recipMag m e; (neg, q, k)
  | .rsq => let (q, k) := rsqrtMag m e; (false, q, k)
  | .sqrt => let (q, k) := sqrtMag m e; (false, q, k)
  | .exp2 => let (q, k) := exp2Mag neg m e; (false, q, k)
  | .log2 => log2Mag m e

/-- The exact cases of Table 2-7: an f32 result that must be exact. FEXP2 of −150 is none of them: it gives +0 or the least subnormal, by the free choice of approxF32 (notes/assumptions/65.md). -/
def unitIsExact (u : FUnit) (m : Nat) (e : Int) : Bool :=
  let pow2 := m = 2 ^ ilog2 m
  match u with
  | .rcp | .log2 => pow2
  | .rsq => pow2 && ((ilog2 m : Int) + e) % 2 = 0
  | .exp2 => (m * 2 ^ e.toNat) % 2 ^ (-e).toNat = 0 && m * 2 ^ e.toNat < 150 * 2 ^ (-e).toNat
  | .sqrt => true

/-- ulp limit of an approximated f32 result (Table 2-7): FEXP2 and FLOG2 2, FRCP and FRSQ 1; a subnormal FEXP2 1. -/
def unitUlps (u : FUnit) (m : Nat) (e : Int) : Nat :=
  match u with
  | .exp2 => if (ilog2 m : Int) + e < fpEmin 1 then 1 else 2
  | .log2 => 2
  | _ => 1

/-- A function unit in f32 (Table 2-7). -/
def unitF32 (u : FUnit) (a : Nat) : Res :=
  let v := decodeF 1 a
  match unitSpecial u 1 v with
  | some r => r
  | none =>
    match v with
    | .num n m e =>
      let (rn, q, k) := unitExact u n m e
      if unitIsExact u m e then roundF 1 0 rn q k
      else approxF32 u.code (unitUlps u q k) a rn q k
    | _ => (fpNaN 1, 0)

/-- A function unit in any floating type (Table 2-7): FSQRT and f16 correctly rounded in `mode`; bf16 of the other units is the f32 result rounded. -/
def funit (u : FUnit) (t mode a : Nat) : Res :=
  if t = 2 || u = .sqrt then
    let v := decodeF t a
    match unitSpecial u t v with
    | some r => r
    | none =>
      match v with
      | .num n m e => let (rn, q, k) := unitExact u n m e; roundF t mode rn q k
      | _ => (fpNaN t, 0)
  else if t = 3 then
    let r := unitF32 u (a * 65536)
    resOr (roundVal 3 mode (decodeF 1 r.1)) r.2
  else unitF32 u a

/-! ## TB8 (R32 to R35) -/

/-- DecodeTB8 (R32); NaV decodes to a quiet NaN (R35). -/
def decodeTB8 (c : Nat) : FVal :=
  let s := c / 128 % 2 = 1
  let m := c % 128
  if m = 0 then (if s then .nan false else .num false 0 0)
  else
    let z := 6 - ilog2 m
    let we := if z ≤ 4 then 2 else if z = 5 then 1 else 0
    let wf := if z ≤ 4 then 4 - z else 0
    let f := m % 2 ^ wf
    let x : Nat := m / 2 ^ wf % 2 ^ we
    let e : Int :=
      if z ≤ 4 then
        (if x = 0 then -2 - 2 * (z : Int) else if x = 1 then -1 - 2 * (z : Int) else 2 * (z : Int) + (x : Int) - 2)
      else if z = 5 then (if x = 0 then -11 else 10)
      else -12
    .num s (2 ^ wf + f) (e - wf)

/-- The magnitude of code m in units of 2^−16. -/
def tb8Units (m : Nat) : Nat :=
  match decodeTB8 m with
  | .num _ k e => k * 2 ^ (e + 16).toNat
  | _ => 0

/-- Of two codes the one whose magnitude is nearer the target (R34), both units scaled alike. -/
def tb8Pick (a lo hi mlo mhi : Nat) : Nat :=
  if a - lo < hi - a then mlo
  else if hi - a < a - lo then mhi
  else if mlo % 2 = mhi % 2 then mhi
  else if mlo % 2 = 0 then mlo else mhi

/-- RoundTB8 (R34). -/
def roundTB8 (v : FVal) : Res :=
  match v with
  | .nan s => (0x80, if s then stInvalid else 0)
  | .inf n => ((if n then 128 else 0) + 3, stClip)
  | .num n m e =>
    -- magnitudes compared in units of 2^k, k = min(e, −16)
    let k := min e (-16)
    let a := m * 2 ^ (e - k).toNat
    let u := 2 ^ (-16 - k).toNat
    let s := if n then 128 else 0
    if 1024 * 65536 * u < a then (s + 3, stClip)
    else
      let codes := List.range 128
      let loM := codes.foldl (fun b c => if tb8Units c * u ≤ a && tb8Units b ≤ tb8Units c then c else b) 0
      let lo := tb8Units loM * u
      if lo = a then (if loM = 0 then 0 else s + loM, 0)
      else
        let hiM := codes.foldl (fun b c => if a < tb8Units c * u && tb8Units c < tb8Units b then c else b) 3
        let y := tb8Pick a lo (tb8Units hiM * u) loM hiM
        let st := stInexact ||| (if a < 16 * u then stUnderflow else 0)
        (if y = 0 then 0 else s + y, st)

/-! ## Integers -/

/-- The w low bits of x read as the type says (R176, R211). -/
def intOf (signed : Bool) (w : Nat) (x : Nat) : Int :=
  let y := x % 2 ^ w
  if signed && 2 ^ (w - 1) ≤ y then (y : Int) - (2 ^ w : Nat) else y

/-- The low w bits of an integer, as a pattern. -/
def intBits (w : Nat) (x : Int) : Nat := (x % (2 ^ w : Nat)).toNat

/-- Least and greatest value of an integer type. -/
def intMin (signed : Bool) (w : Nat) : Int := if signed then -(2 ^ (w - 1) : Nat) else 0
def intMax (signed : Bool) (w : Nat) : Int := if signed then (2 ^ (w - 1) : Nat) - 1 else (2 ^ w : Nat) - 1

/-- Reduced modulo 2^w, or clamped (R28, R211). -/
def intResult (signed sat : Bool) (w : Nat) (x : Int) : Nat :=
  if sat then intBits w (max (intMin signed w) (min (intMax signed w) x)) else intBits w x

/-- A pattern of w bits extended to 64, by the type's signedness (R176, R232). -/
def extend64 (signed : Bool) (w : Nat) (x : Nat) : Word := BitVec.ofInt 64 (intOf signed w x)

/-- Number of ones in the low n bits. -/
def popCount (n x : Nat) : Nat := (List.range n).foldl (fun a i => a + x / 2 ^ i % 2) 0

/-- Leading zeros of a w-bit pattern. -/
def leadZeros (w x : Nat) : Nat := if x % 2 ^ w = 0 then w else w - 1 - ilog2 (x % 2 ^ w)

/-- Two-operand integer operations shared by classes 0, 1 and 2. -/
inductive IOp where
  | add | sub | mulLo | mulHi | min | max | and | or | xor | shl | shr
  deriving DecidableEq, Repr

/-- Exact result of an integer operation on w-bit patterns (Tables 9-2, 10-5), before reduction. -/
def IOp.exact (op : IOp) (signed : Bool) (w a b : Nat) : Int :=
  let x := intOf signed w a
  let y := intOf signed w b
  let k : Nat := (b % 2 ^ w) % w
  match op with
  | .add => x + y
  | .sub => x - y
  | .mulLo => x * y
  | .mulHi => (x * y) / (2 ^ w : Nat)
  | .min => Min.min x y
  | .max => Max.max x y
  | .and => Int.ofNat ((a % 2 ^ w) &&& (b % 2 ^ w))
  | .or => Int.ofNat ((a % 2 ^ w) ||| (b % 2 ^ w))
  | .xor => Int.ofNat ((a % 2 ^ w) ^^^ (b % 2 ^ w))
  | .shl => x * Int.ofNat (2 ^ k)
  | .shr => x / Int.ofNat (2 ^ k)

def iop (op : IOp) (signed sat : Bool) (w a b : Nat) : Nat := intResult signed sat w (op.exact signed w a b)

/-- Rotation of a w-bit pattern (Table 9-2). -/
def rotBits (right : Bool) (w a b : Nat) : Nat :=
  let x := a % 2 ^ w
  let k : Nat := (b % 2 ^ w) % w
  let k' := if right then (w - k) % w else k
  (x * 2 ^ k' + x / 2 ^ (w - k')) % 2 ^ w

/-- DIV and REM with their borderline cases (R179). -/
def divBits (signed : Bool) (w a b : Nat) : Nat :=
  let x := intOf signed w a
  let y := intOf signed w b
  if y = 0 then 2 ^ w - 1 else intBits w (Int.tdiv x y)
def remBits (signed : Bool) (w a b : Nat) : Nat :=
  let x := intOf signed w a
  let y := intOf signed w b
  if y = 0 then a % 2 ^ w else intBits w (Int.tmod x y)

/-! ## Elements and conversions (R29, R112, R210) -/

/-- The value an element of an exact format holds. -/
def decodeElem (t b : Nat) : FVal :=
  if isFloat t then decodeF t b
  else if t = 4 then decodeTB8 b
  else
    let x := intOf (isSigned t) (fmtWidth t) b
    .num (x < 0) x.natAbs 0

/-- A value into an integer type: toward zero, saturating; invalid alone for NaN or saturation (R29). -/
def valToInt (signed : Bool) (w : Nat) (v : FVal) : Res :=
  match v with
  | .nan _ => (0, stInvalid)
  | .inf n => (intBits w (if n then intMin signed w else intMax signed w), stInvalid)
  | .num n m e =>
    let (k, frac) := roundInt 1 n m e
    let x : Int := if n then -(k : Int) else k
    if x < intMin signed w then (intBits w (intMin signed w), stInvalid)
    else if intMax signed w < x then (intBits w (intMax signed w), stInvalid)
    else (intBits w x, if frac then stInexact else 0)

/-- Conversion between exact formats (R29, R210): integer to integer keeps the low bits, or clamps under `sat`, as R210 has FCVT do; on a typed page or in a copy, where R29 has no row for it, the low bits are kept (DESIGN CHOICE, notes/assumptions/80.md). -/
def convertElem (src dst mode : Nat) (sat : Bool) (b : Nat) : Res :=
  if isFloat dst then roundVal dst mode (decodeElem src b)
  else if dst = 4 then roundTB8 (decodeElem src b)
  else if isInt src then
    (intResult (isSigned dst) sat (fmtWidth dst) (intOf (isSigned src) (fmtWidth src) b), 0)
  else valToInt (isSigned dst) (fmtWidth dst) (decodeElem src b)

/-- Conversion, except that an equal format passes raw bits (R112). -/
def convertRaw (src dst : Nat) (b : Nat) : Res :=
  if src = dst then (b % 2 ^ fmtWidth dst, 0) else convertElem src dst 0 false b

/-- The value of a scaled tb8 element: code times 2^(k−127); scale 255 is NaN (R36, R37). -/
def scaledVal (code k : Nat) : FVal :=
  if k = 255 then .nan false
  else
    match decodeTB8 code with
    | .num n m e => .num n m (e + k - 127)
    | v => v

/-- A scaled element delivered in type t (R37). -/
def loadScaled (t code k : Nat) : Res :=
  let v := scaledVal code k
  if isFloat t then roundVal t 0 v
  else if t = 4 then roundTB8 v
  else valToInt (isSigned t) (fmtWidth t) v

/-- floor(log2 |v|) and whether v is a power of two, of a finite nonzero value. -/
def valLog2 (m : Nat) (e : Int) : Int × Bool := ((ilog2 m : Int) + e, m = 2 ^ ilog2 m)

/-- The larger magnitude of a list of values, finite ones only. -/
def maxFinite (vs : List FVal) : FVal :=
  vs.foldl (fun b v => match v with
    | .num _ m e => if FVal.lt b (.num false m e) then .num false m e else b
    | _ => b) (.num false 0 0)

/-- QuantBlock (R38): scale, codes, clipped count, status. -/
def quantBlock (vs : List FVal) : Nat × List Nat × Nat × Status :=
  if vs.any FVal.isNaN then
    (255, vs.map fun _ => 0x80, 0, if vs.any FVal.isSNaN then stInvalid else 0)
  else
    let k : Nat := match maxFinite vs with
      | .num _ m e =>
        if m = 0 then 127
        else
          let (l, p2) := valLog2 m e
          let c := 117 + (if p2 then l else l + 1)
          (max 0 (min 254 c)).toNat
      | _ => 127
    let rs : List Res := vs.map fun v => match v with
      | .num n m e => roundTB8 (.num n m (e - k + 127))
      | v => roundTB8 v
    let clipped := vs.foldl (fun a v => match v with | .inf _ => a + 1 | _ => a) 0
    (k, rs.map (·.1), clipped, rs.foldl (fun a r => a ||| r.2) 0)

/-! ## Reduction orders (R40, R41) -/

/-- A reduction operator on patterns of a type. -/
def foldStep (op : Nat) (t mode : Nat) (sat : Bool) (a b : Nat) : Res :=
  if isFloat t then
    match op with
    | 0 => fAdd t mode a b
    | 1 => fMinMax true t a b
    | _ => fMinMax false t a b
  else
    let s := isSigned t
    let w := fmtWidth t
    match op with
    | 0 => (iop .add s sat w a b, 0)
    | 1 => (iop .max s false w a b, 0)
    | 2 => (iop .min s false w a b, 0)
    | 3 => (iop .and s false w a b, 0)
    | _ => (iop .or s false w a b, 0)

/-- One halving pass: the first half combined with the second, the middle kept (R40). -/
def foldPass (op t mode : Nat) (sat : Bool) (v : List Nat) : List Res :=
  let h := (v.length + 1) / 2
  (List.range h).map fun x =>
    if x + h < v.length then foldStep op t mode sat (v.getD x 0) (v.getD (x + h) 0) else (v.getD x 0, 0)

/-- Fold in halving order: result, status, and every intermediate or final sum (R40, R46); a middle element kept over a pass is no sum. -/
def foldAll (op t mode : Nat) (sat : Bool) : Nat → List Nat → Status → List Nat → Nat × Status × List Nat
  | 0, v, st, seen => (v.getD 0 0, st, seen)
  | k + 1, v, st, seen =>
    if v.length ≤ 1 then (v.getD 0 0, st, seen)
    else
      let r := foldPass op t mode sat v
      let v' := r.map (·.1)
      foldAll op t mode sat k v' (r.foldl (fun a x => a ||| x.2) st) (seen ++ v'.take (v.length - v'.length))

/-- Inclusive sequential scan (R41). -/
def scanAll (op t mode : Nat) (sat : Bool) : List Nat → Option Nat → List Res
  | [], _ => []
  | x :: xs, none => (x, 0) :: scanAll op t mode sat xs (some x)
  | x :: xs, some p =>
    let r := foldStep op t mode sat p x
    r :: scanAll op t mode sat xs (some r.1)

/-! ## Bounds (R45 to R49) -/

/-- HalfUlp(t, M) (R46), as an exact value; M = ±m·2^e. -/
def halfUlp (t : Nat) (m : Nat) (e : Int) : FVal :=
  if m = 0 then .num false 0 0
  else .num false 1 (max ((ilog2 m : Int) + e) (fpEmin t) - (fpPrec t : Int))

/-- ρ of a set of result patterns, or +∞ where one is not finite (R46). -/
def rhoOf (t : Nat) (rs : List Nat) : FVal :=
  let vs := rs.map (decodeF t)
  if vs.any (fun v => match v with | .num .. => false | _ => true) then .inf false
  else
    match maxFinite vs with
    | .num _ m e => halfUlp t m e
    | v => v

/-- A bound passed on over result patterns: +∞ where one of them is ±∞ or NaN (R46). -/
def boundOver (t : Nat) (rs : List Nat) (β : LWord) : LWord :=
  if rs.any fun r => match decodeF t r with | .num .. => false | _ => true then BitVec.ofNat 32 (fpInfBits 1) else β

/-- Sum of bound terms, exact. -/
def boundSum (vs : List FVal) : FVal := vs.foldl (fun a v => (addVal 0 a v).1) (.num false 0 0)

/-- A bound as its f32 register holds it: rounded upward; NaN becomes +∞ (R46). -/
def boundBits (v : FVal) : LWord :=
  match v with
  | .nan _ => BitVec.ofNat 32 (fpInfBits 1)
  | v => BitVec.ofNat 32 (roundVal 1 3 v).1

def boundVal (b : LWord) : FVal := decodeF 1 b.toNat

/-- The greater of two bounds. -/
def boundMax (a b : LWord) : LWord := if FVal.lt (boundVal a) (boundVal b) then b else a

/-- |c|·β, +∞ where the product is no number (R46). -/
def scaleBound (c β : FVal) : FVal :=
  match (mulVal c.absV β).1 with
  | .nan _ => .inf false
  | v => v

/-! ## Floating atomics (Table 11-5) -/

/-- The word an operation leaves (Table 11-5), for a type t of width w. -/
def atomResult (op : Nat) (t old v v2 : Nat) : Nat :=
  let w := fmtWidth t
  let s := isSigned t
  match op with
  | 0 => if isFloat t then (fAdd t 0 old v).1 else iop .add s false w old v
  | 1 => if isFloat t then (fMinMax false t old v).1 else iop .min s false w old v
  | 2 => if isFloat t then (fMinMax true t old v).1 else iop .max s false w old v
  | 3 => iop .and s false w old v
  | 4 => iop .or s false w old v
  | 5 => iop .xor s false w old v
  | 6 => v % 2 ^ w
  | _ => if old % 2 ^ w = v % 2 ^ w then v2 % 2 ^ w else old % 2 ^ w

/-! ## Checks of data (Table 22-1, R249) -/

/-- One bit of CRC-32C, reflected (PRESUMED, log entry 12: the Castagnoli polynomial). -/
def crcBit (c : Nat) : Nat := if c % 2 = 1 then (c / 2) ^^^ 0x82F63B78 else c / 2

/-- CRC-32C of a byte list. -/
def crc32c (bs : List Byte) : LWord :=
  let c := bs.foldl (fun c b => (List.range 8).foldl (fun c _ => crcBit c) (c ^^^ b.toNat)) 0xFFFFFFFF
  BitVec.ofNat 32 (c ^^^ 0xFFFFFFFF)

end Sys2Proof.Machine
end

