-- ==== Sys2Proof/Machine/State.lean ====
section
/-! DEFINITION. Everything the manual gives the machine, as plain data, and the machine right after reset. Strands are keyed core·16 + slot; routines on Wilnum cores 4096 + core. -/

namespace Sys2Proof.Machine

/-- Why the machine stops. A meaning of an instruction word never stops. -/
inductive Fault where
  /-- An event row was applied in a state where the conditions its rule states do not hold (the part does not take that step there). Raised by event meanings only. Safe: the part goes on with other steps, the model proves nothing about them from here. -/
  | notEnabled (event : String)
  deriving DecidableEq, Repr

/-- Why an instruction has no meaning here. -/
inductive Refusal where
  /-- The instruction is not modelled yet. Raised by Dispatch only. Safe. -/
  | notModelled (mnemonic : String)
  deriving DecidableEq, Repr

/-! ## Strands -/

/-- A segment's translation window (R109): frame address, length, the generations it was built under and the attributes of its pages. -/
structure Window where
  frame : Nat
  len : Nat
  gen : Nat
  gen2 : Nat
  cls : Nat
  fmt : Nat
  geom : Nat
  key : Nat
  rights : Nat
  deriving DecidableEq, Repr

/-- A segment register (Table 5-1) and its window. -/
structure Seg where
  base : Word
  limit : Word
  attr : BitVec 14
  win : Option Window
  deriving DecidableEq, Repr

/-- Why a lane's access is not performed: a page fault's request names its stage, access kind, page and virtual address (R348). -/
structure PageNeed where
  stage : Nat
  access : Nat
  page : Nat
  va : Nat
  deriving DecidableEq, Repr

/-- A lane that failed a check of its access: lane, virtual address, cause, and the page it needs. -/
structure LaneOut where
  lane : Nat
  va : Nat
  cause : Nat
  need : Option PageNeed
  deriving DecidableEq, Repr

/-- A write's release standing at one byte it wrote (R281): the write (0 on chip), what happens before it, the agent's core and die, the scope, and the later writes to the byte, each with whether an atomic or a reduction made it. -/
structure Release where
  addr : Nat
  id : Nat
  deps : List Nat
  core : Nat
  die : Nat
  scope : Nat
  later : List (Nat × Bool)
  deriving DecidableEq, Repr

/-- Updates that act on one strand's own state, as data: results waiting for their cycle or their completion. -/
inductive LUpd where
  /-- scalar register := value (s0 ignores it) -/
  | s (r : Nat) (v : Word)
  /-- the bits `on` of mask r := those of v (m0 ignores it) -/
  | m (r : Nat) (on v : Lanes)
  | pd (r : Nat) (v : Word)
  | pb (r : Nat) (v : LWord)
  | window (v : Word)
  /-- status bits set (sticky) -/
  | status (v : BitVec 7)
  /-- MOV.setst -/
  | setStatus (v : BitVec 7)
  /-- scalar part of a latch -/
  | latS (l : Nat) (v : Word)
  /-- a lane part of a latch -/
  | latL (l lane : Nat) (v : LWord)
  /-- the bits `on` of a lane-file word := those of v; the key is ((core·1024 + lane)·256 + word) -/
  | lane (k : Nat) (on v : LWord)
  /-- a flag's count falls, in cycle t -/
  | flagFall (f : Nat) (t : Nat)
  deriving DecidableEq, Repr

/-- What a split waits for, if anything (R100). -/
inductive Run where
  | ready
  /-- SETF = 0 and the operation is outstanding (R91) -/
  | hold (op : Nat)
  /-- at a MERGE of this overlay and word (R97) -/
  | merge (ovl word : Nat)
  /-- at an EXIT as the last live split (R191) -/
  | exiting
  /-- the entry overlay, or a CALLO's, is loading (R105, R327) -/
  | overlay (idx : Nat)
  /-- parked (R100): a frame or a pending trap names it -/
  | parked
  deriving DecidableEq, Repr

/-- The clause a split is in: its header word's index, the header, and the index of the next instruction (R85). -/
structure Clause where
  at_ : Nat
  hdr : Header
  idx : Nat
  yielded : Bool
  deriving DecidableEq, Repr

/-- A split of a strand (R95). `pc` is the word to be read next. -/
structure Split where
  num : Nat
  mask : Lanes
  ovl : Nat
  pc : Nat
  origin : List Nat
  clause : Option Clause
  run : Run
  lastIssue : Nat
  /-- its last clause ended with a yield (R88) -/
  yielded : Bool
  /-- a replay of kind 1 still to be issued: the unfinished lanes and the operation they belong to (R233) -/
  replay : Option (Lanes × Nat)
  /-- the cycle before which its word, held back, is not tried again (notes/assumptions/10.md) -/
  stall : Nat
  /-- outstanding operations before it in program order: its own, and those of the splits it came from (R277) -/
  prior : List Nat
  /-- writes that happen before its next access (R282) -/
  dep : List Nat
  /-- releases whose writes its loads have read: what an acquiring FENCE acquires (R280) -/
  seen : List Release
  /-- releasing FENCEs done, whose release its later stores carry: scope and writes (R280) -/
  fences : List (Nat × List Nat)
  /-- the instance of its strand's gang that its next GBAR is for (R196) -/
  gbars : Nat
  deriving DecidableEq, Repr

/-- A trap of a split (Table 18-5), with what the device keeps beside the frame to resume it. -/
structure Trap where
  split : Nat
  cause : Nat
  addrs : List Word
  more : Bool
  hdrSat : Bool
  idx : Nat
  clauseOvl : Nat
  clausePc : Nat
  w2 : Word
  detail : Word
  unfinished : Lanes
  /-- the operation a replay of kind 1 or 2 continues -/
  op : Nat
  /-- page-request tags not yet answered; refused ones, first posted first -/
  tags : List Nat
  refused : List Nat
  posted : Bool
  /-- the pages its park needs: stage, access kind, page, virtual address (R348) -/
  needs : List (Nat × Nat × Nat × Nat)
  /-- the flag that counts a word to be executed whole again: 0 none, else its number and one (R92) -/
  flag : Nat
  /-- what the split waited for, where the trap is of an operation it had issued earlier (R275) -/
  was : Run
  /-- the latches as the image keeps them, and the results on their way there (R315) -/
  latS : Map Word
  latL : Map LWord
  latSeed : Nat
  latOn : List (Nat × LUpd)
  deriving DecidableEq, Repr

/-- What a K handler was started for (R312, R317). -/
structure Handler where
  target : Nat
  resumed : Bool
  tile : Bool
  /-- it has executed TRET in its last split: a target still parked when it retires goes to the trap queue (R306) -/
  tret : Bool
  deriving DecidableEq, Repr

/-- The state of a strand (Table 4-1) and what the device keeps for it. -/
structure Strand where
  core : Nat
  slot : Nat
  s : Map Word
  m : Map Lanes
  pd : Map Word
  pb : Map LWord
  g : Map Seg
  cf : Map Nat
  cfFall : Map Nat
  latS : Map Word
  latL : Map LWord
  latSeed : Nat
  window : Word
  status : BitVec 7
  splits : List Split
  frame : Option Trap
  pending : List Trap
  launch : Nat
  number : Nat
  part : Nat
  asid : Nat
  level : Nat
  prio : Nat
  fpBase : Nat
  fpCount : Nat
  launchWin : Word
  params : List Word
  gang : Option Nat
  /-- the open instance of its gang: how many have completed (R196) -/
  gangAt : Nat
  callKeys : Map Nat
  pins : Map Nat
  entryKey : Option Nat
  delayed : List (Nat × LUpd)
  lastEnd : Nat
  lastIssue : Nat
  tgt : Nat
  handler : Option Handler
  suspended : Bool
  preempt : Bool
  placedAt : Nat
  /-- cycle up to which its fixed-latency movements hold the core's movement network (R75) -/
  moves : Nat
  /-- every write of the strand and its operations, and every one it has acquired: what its end releases (R287) -/
  dep : List Nat
  /-- writes of engine operations by the flag they named: what a header wait that observes the fall acquires (R280) -/
  flagDeps : Map (List Nat)
  /-- the routine's own data: range base and length, whether the range is writable -/
  routine : Option (Nat × Nat × Bool)
  /-- the code with which a routine has ended, if it has (R137, R148); 0 in a grid strand ended under R306 -/
  endCode : Option Nat
  /-- it has retired, and its launch counts it once the operations it left have ended (R287) -/
  owes : Bool
  deriving DecidableEq, Repr

/-! ## Operations outstanding -/

/-- Where one lane's access stands. -/
inductive LaneSt where
  | todo
  /-- admitted to a swept region in this lap (R125) -/
  | admitted (lap : Nat)
  /-- sent to a peer under this tag (R110) -/
  | sent (tag : Nat)
  /-- refused by its peer (R110), or by a region destroyed before it was admitted (R357) -/
  | refused (cause : Nat)
  | done
  deriving DecidableEq, Repr

/-- One element access of a memory operation: who, where, how wide, what page, and the data. -/
structure LaneReq where
  lane : Nat
  va : Nat
  pa : Nat
  bytes : Nat
  fmt : Nat
  geom : Nat
  cls : Nat
  key : Nat
  /-- peer device and address space of a remote access -/
  remote : Option Nat
  data : Word
  data2 : Word
  st : LaneSt
  val : Word
  lap : Nat
  /-- the register word or lane-file key the result goes to, and the field's bit offset -/
  dst : Nat
  off : Nat
  deriving DecidableEq, Repr

/-- What a memory operation does. -/
inductive MemKind where
  | load | store | atom (op : Nat) | red (op : Nat) | ldx
  deriving DecidableEq, Repr

/-- A memory operation (R232). -/
structure MemOp where
  kind : MemKind
  ty : Nat
  /-- results go to lane words or to one scalar register -/
  scalar : Bool
  /-- elements of a plane: only their field of a lane word is written (R237) -/
  plane : Bool
  /-- status bits of the conversions made, set at completion (R235) -/
  status : BitVec 7
  /-- the split stays at the instruction until every lane has performed or failed: a peer may refuse a lane (R110), or one has failed (R233) -/
  pinned : Bool
  /-- the split is held until every lane is admitted to its swept region (R125) -/
  gate : Bool
  /-- lanes that failed a check: the park they are for once the others have performed (R233) -/
  fails : List LaneOut
  acq : Bool
  rel : Bool
  scope : Nat
  reqs : List LaneReq
  deriving DecidableEq, Repr

/-- A copy as captured at issue (R247): record words, origin, expected CRC, plane descriptor and window, destination registers; and as it runs (R121): the elements read so far with their values, the destination words written, and their writes. -/
structure CopyOp where
  rec_ : List Word
  origin : List Int
  crc : LWord
  pd : Word
  window : Word
  leader : Nat
  dKey : Nat
  crcKey : Nat
  vals : List (List Nat × Nat)
  words : List Nat
  wrote : List Nat
  deriving DecidableEq, Repr

/-- A near-memory command (R141) as captured, with its physical target. -/
structure Cmd where
  op : Nat
  packet : List Word
  a4 : List Word
  slice : List (Nat × LWord)
  pa : Nat
  deriving DecidableEq, Repr

/-- What a variable-latency plane instruction reads its sources with, should other agents write them before it completes (R207): the instruction, its strand as at issue, the seed of its free choices, and each source word's key, the value read at issue and the value it had just after. -/
structure Again where
  i : Instr
  st : Strand
  seed : Nat
  src : List (Nat × LWord × LWord)
  deriving DecidableEq, Repr

/-- An XBPROG under way (R271): its scale, column origin, and the rows of codes still to be programmed. -/
structure ProgRun where
  sigma : LWord
  col : Nat
  rows : List (Nat × List (BitVec 8))
  deriving DecidableEq, Repr

/-- What an operation outstanding does when it completes. -/
inductive OpKind where
  /-- results written at completion (plane operations and movements): `net` marks one that holds the core's movement network (R75); `again` what they are computed from anew where a source has changed (R207) -/
  | results (net : Bool) (ups : List LUpd) (again : Option Again)
  | mem (x : MemOp)
  | fence (kind : FenceKind) (scope : Nat)
  /-- LAPW: partition, region, value (R244) -/
  | lapw (part region value : Nat)
  /-- WAITA: register, armed physical words and whether loads read them at home, lowest index fired if any, deadline or 0, external (R246) -/
  | waita (d : Nat) (armed : List (Nat × Bool)) (fired : Option Nat) (deadline : Nat) (external : Bool)
  | qpush (q : Nat) (v : Word) (try_ : Option Nat)
  | qpop (q : Nat) (d : Nat) (try_ : Option Nat)
  | qstat (q : Nat) (d : Nat)
  | tlwait (tl : Nat) (v : Nat)
  | tlread (tl : Nat) (d : Nat)
  | tladv (tl : Nat) (d : Nat)
  | chadv (handle addr : Nat)
  | copy (x : CopyOp)
  | xbmv (arr : Nat) (pd : Nat) (dsc : Word) (window : Word) (active : Lanes) (origin : Word) (src : List (List Nat)) (srcTy : Nat) (leader : Nat)
  /-- array, status register, offset of the record in scratch, and what is left of it once it runs -/
  | xbprog (arr : Nat) (d : Nat) (off : Nat) (run : Option ProgRun)
  | xbcal (arr : Nat) (d : Nat)
  | xbstat (arr : Nat) (d : Nat) (field : XbField)
  | xbbind (arr : Nat) (d : Nat) (release : Bool)
  | accOut (slot : Nat) (pd : Nat) (dsc : Word) (window : Word) (active : Lanes) (y0 x0 : Nat)
  | accIn (slot : Nat) (vals : List (Nat × LWord))
  | accZero (slot : Nat)
  | nmcall (dKey : Nat) (cmd : Cmd)
  /-- index, status register, and as at issue: the source address, and each source word with the writes a release there carried (R288) -/
  | ovld (idx : Nat) (d : Nat) (src : Nat) (old : List (Word × List Nat))
  | ovlq (idx : Nat) (d : Nat)
  /-- gang and instance, once every member has arrived the operations of the instance (R196), and whether the strand has left the gang after its arrival (R99) -/
  | gbar (gang : Option Nat) (at_ : Nat) (inst : List Nat) (left : Bool)
  | spawn (d : Nat) (rec_ : List Word) (template params : Nat) (msg : Option (Nat × List Word))
  /-- CLOCK's value, read at issue (R183) -/
  | clock (d : Nat) (v : Word)
  | wintr (seg : Nat)
  | sysrd (num d : Nat)
  | syswr (num : Nat) (v : Word)
  | genup (asid r : Nat)
  | resume
  /-- the strand ended -/
  | resumeEnd (k : Nat)
  | ctxsave (d : Nat) (addr : Nat)
  | ctxload (d : Nat) (addr : Nat)
  | accspill (slot d addr : Nat)
  | accfill (slot d addr : Nat)
  | zskip (d a : Nat) (v a' : Word)
  deriving DecidableEq, Repr

/-- An operation outstanding: who issued it, the flag and timeline it names, and the writes that happen before it. -/
structure Op where
  id : Nat
  owner : Nat
  split : Nat
  /-- overlay and word of the instruction -/
  ovl : Nat
  pc : Nat
  /-- the clause the instruction stands in -/
  clause : Option Clause
  flag : Nat
  tl : Option Nat
  issued : Nat
  /-- outstanding operations before it in program order (R277) -/
  prior : List Nat
  /-- writes that happen before its accesses (R282) -/
  dep : List Nat
  /-- releasing FENCEs whose release its stores carry (R280) -/
  fences : List (Nat × List Nat)
  leader : Nat
  /-- abandoned at a park until its replay (R92, R275) -/
  parked : Bool
  /-- page-request tags a copy waits for (R123) -/
  tags : List Nat
  /-- its strand has been killed: lane-file words it would write stay (R319) -/
  killed : Bool
  kind : OpKind
  deriving DecidableEq, Repr

/-! ## Code -/

/-- A resident overlay (R102, R318). -/
structure Overlay where
  core : Nat
  part : Nat
  idx : Nat
  routine : Bool
  granules : Nat
  hash : BitVec 128
  kbit : Bool
  code : List Word
  /-- the granules of the core's store it occupies, in order -/
  slots : List Nat
  lastCall : Nat
  /-- a word of it was found uncorrectable: no call finds it resident any more (Table 22-1, notes/assumptions/107.md) -/
  stale : Bool
  deriving DecidableEq, Repr

/-! ## Memory system -/

/-- A cached translation (R347). -/
structure Tlb where
  core : Nat
  part : Nat
  asid : Nat
  gen : Nat
  gen2 : Nat
  vpage : Nat
  gpage : Nat
  frame : Nat
  cls : Nat
  fmt : Nat
  geom : Nat
  key : Nat
  rights : Nat
  deriving DecidableEq, Repr

/-- A write not yet applied to a die's visitor copies (R284): the bytes before it, and the writes before it. -/
structure Pend where
  die : Nat
  id : Nat
  old : List Host.Cell
  deps : List Nat
  deriving DecidableEq, Repr

/-- A named queue (Table 5-5) and the dependencies its handles carry. -/
structure Queue where
  w0 : Word
  w1 : Word
  head : Nat
  tail : Nat
  deps : List (Nat × List Nat)
  deriving DecidableEq, Repr

/-- A launch or chain timeline (R21, R321): its count, and each arrival's dependencies. -/
structure Timeline where
  count : Nat
  arr : List (Nat × List Nat)
  deriving DecidableEq, Repr

/-! ## Engines -/

/-- A record of a tile-task chain (R392): where it lies and who appended it. -/
structure TileLink where
  addr : Nat
  owner : Nat
  number : Nat
  launch : Nat
  part : Nat
  asid : Nat
  level : Nat
  dep : List Nat
  tags : List Nat
  deriving DecidableEq, Repr

/-- A record held by the scheduler or running on an engine. -/
structure TileTask where
  link : TileLink
  rec_ : List Word
  slot : Nat
  engine : Nat
  held : Bool
  deriving DecidableEq, Repr

/-- A cluster's tile side (R261): its chain, the records held, the tasks running. -/
structure TileSched where
  chain : List TileLink
  held : List TileTask
  running : List TileTask
  deriving DecidableEq, Repr

/-- A crossbar array (R268, Table 12-5). -/
structure Xbar where
  allocated : Bool
  part : Nat
  bound : Option Nat
  codes : Map (BitVec 8)
  sigma : LWord
  g : LWord
  alpha : LWord
  gamma : LWord
  calibrated : Bool
  drift : Bool
  /-- cycle in which drift pending was last set (R275) -/
  driftAt : Nat
  /-- cycle in which the last operation in the array, or a background calibration, ended (R270) -/
  freeAt : Nat
  worn : Bool
  retired : Bool
  programming : Bool
  calibrating : Bool
  spares : Nat
  spareMap : List Nat
  wear : Map Nat
  cals : Nat
  rowsProg : Nat
  deriving DecidableEq, Repr

/-- An open merged launch of a spawn merger (R334). -/
structure OpenLaunch where
  template : Nat
  part : Nat
  asid : Nat
  chain : Nat
  level : Nat
  rec_ : List Word
  opened : Nat
  /-- each spawn: parameter block, ASID, the release it carries -/
  spawns : List (Nat × Nat × List Nat)
  deriving DecidableEq, Repr

/-- A Wilnum core (R136): its FIFO, the command running, the parity fault armed (R299). -/
structure Wilnum where
  fifo : List Cmd
  running : Option Cmd
  /-- commands taken so far -/
  seq : Nat
  /-- routines started so far -/
  starts : Nat
  /-- the parity fault armed: partition, routine overlay and word, and how many routines had started then -/
  parity : Option (Nat × Nat × Nat × Nat)
  /-- how the last command ended: its status word -/
  last : Option LWord
  /-- 4-byte words of the range the running routine has stored to, and those ordinary stores have, each with its value after (R152) -/
  own : Map LWord
  others : Map LWord
  deriving DecidableEq, Repr

/-! ## Launches and chains -/

/-- A launch (Table 8-15). -/
structure Launch where
  ident : Nat
  part : Nat
  chain : Nat
  asid : Nat
  recAddr : Nat
  rec_ : List Word
  level : Nat
  prio : Nat
  mask : BitVec 256
  count : Nat
  placed : Nat
  retired : Nat
  ended : Bool
  ext : BitVec 8
  idempotent : Bool
  record : Bool
  coresident : Bool
  /-- writes its strands start behind (R286) -/
  start : List Nat
  /-- parameter block of each strand where they differ (R198); payload of a message strand (R199) -/
  params : List Nat
  /-- ASID of each strand where they differ (R342) -/
  asids : List Nat
  /-- the release each strand's spawn carries (R200) -/
  spawnDeps : List (List Nat)
  payload : List Word
  message : Bool
  /-- writes of its strands that have retired: what its signal releases (R287) -/
  dep : List Nat
  /-- when it became the head: its dispatcher waits for a place from then (R331) -/
  waitSince : Option Nat
  /-- the first attempt to place a strand that failed, since one succeeded (R330) -/
  failedAt : Option Nat
  wdog : Nat
  /-- strands to be placed again after a kill, with their parameter snapshots (R319) -/
  again : List (Nat × List Word)
  /-- the segments its strands start with (R107) -/
  segs : Map Seg
  withhold : Bool
  replay : Bool
  deriving DecidableEq, Repr

/-- A launch chain (Table 19-1) and its dispatcher (R323, R328). -/
structure Chain where
  enabled : Bool
  halted : Bool
  refusal : Nat
  ceiling : Nat
  grant : Bool
  head : Nat
  tail : Nat
  refused : Nat
  mask : BitVec 256
  pointer : Nat
  current : Option Nat
  deps : List (Nat × List Nat)
  /-- records the device made itself: merged launches and message strands (R334, R335), by pseudo-address -/
  made : List (Nat × Launch)
  tags : List Nat
  deriving DecidableEq, Repr

/-- A trap-queue record waiting to be posted (R313). -/
structure TrapRec where
  w0 : Word
  w1 : Word
  w2 : Word
  w3 : Word
  w4 : Word
  strand : Option Nat
  deriving DecidableEq, Repr

/-- A page request (Table 20-5): outstanding, posted or not. -/
structure PageReq where
  tag : Nat
  w0 : Word
  w1 : Word
  w2 : Word
  w3 : Word
  posted : Bool
  strand : Option Nat
  deriving DecidableEq, Repr

/-- A request admitted to a swept region (R125, R126). -/
structure Admit where
  op : Nat
  lane : Nat
  slice : Nat
  row : Nat
  lap : Nat
  deriving DecidableEq, Repr

/-- A swept region (Table 20-7): its queue in admission order, and the rows served in the current lap. -/
structure Region where
  active : Bool
  busy : Bool
  failed : Bool
  die : Nat
  base : Nat
  len : Nat
  mask : BitVec 16
  lap : Nat
  lapStart : Nat
  queue : List Admit
  served : List (Nat × Nat)
  /-- requests of agents other than strands admitted in the current lap, by slice (R125) -/
  others : Map Nat
  /-- keys that the range's stage-2 leaves carried as its rows were loaded and its destruction began (R357) -/
  keys : List Nat
  deriving DecidableEq, Repr

/-- A partition (Tables 18-2 and 20-1, R371, R384). -/
structure Part where
  enabled : Bool
  busy : Bool
  s2root : Nat
  asidFirst : Nat
  asidCount : Nat
  asidTab : Nat
  plaintext : Bool
  keyFirst : Nat
  keyCount : Nat
  gen2 : Nat
  gens : Map Nat
  invBusy : Bool
  genBusy : Bool
  ktempl : Word
  trapq : Word
  pageq : Word
  accarea : Word
  ovltab : Word
  rtntab : Word
  quota : Nat
  pageTail : Nat
  pageHead : Nat
  trapTail : Nat
  trapHead : Nat
  poolBase : Nat
  poolEntries : Nat
  poolUsed : List (Nat × Nat)
  feedTarget : Nat
  feedResult : Nat
  feedIgnored : Nat
  chainAsid : Map Nat
  imports : Map Word
  regions : Map Region
  sched : Word
  traps : List TrapRec
  reqs : List PageReq
  nextTag : Nat
  nextIdent : Nat
  logBase : Nat
  logSize : Nat
  logHead : Nat
  logTail : Nat
  replayMode : Bool
  replayIdent : Nat
  replayPos : Nat
  feedEntries : Map (Bool × Nat × Nat)
  feedSlot : Map Nat
  feedSeq : Map Nat
  /-- hashes of the K overlays loaded, in load order (R301, R390) -/
  kLoads : List (BitVec 128)
  deriving DecidableEq, Repr

/-- A budget entry (R366, R368). -/
structure Budget where
  /-- the limit of the configuration record, which the Drevar side may not pass -/
  cap : Nat
  limit : Nat
  counter : Nat
  prev : Nat
  deriving DecidableEq, Repr

/-- A port of the optical fabric (R373 to R376). -/
structure Port where
  width : Nat
  down : Bool
  /-- a frame has failed and its retransmission is awaited -/
  bad : Bool
  /-- consecutive failed retransmissions of it -/
  fails : Nat
  /-- cycle at which the transmit half's queue is empty -/
  emptyAt : Nat
  deriving DecidableEq, Repr

/-- A packet the package has sent and not seen answered: device, tag, operation and lane. -/
structure Sent where
  dev : Nat
  tag : Nat
  op : Nat
  lane : Nat
  packet : Packet
  port : Nat
  deriving DecidableEq, Repr

/-- A peer's request waiting at this home for a page request (R352). -/
structure PeerWait where
  tag : Nat
  part : Nat
  packet : Packet
  deriving DecidableEq, Repr

/-- The region registers (Table 20-6). -/
structure RegionRegs where
  drevarBase : Nat
  drevarLimit : Nat
  logBase : Nat
  logLimit : Nat
  lock : Bool
  deriving DecidableEq, Repr

/-- A mesh packet in flight (R380, R381): the fields of its header; the router it stands at, none once its copy has failed its CRC; the router it came there from, its source where it entered the mesh there; since when it stands there; when it was last sent, and its resends. -/
structure MeshFlight where
  src : Nat
  dst : Nat
  seq : Nat
  kind : Nat
  tag : Word
  escape : Bool
  at_ : Option Nat
  via : Nat
  since : Nat
  sentAt : Nat
  resends : Nat
  deriving DecidableEq, Repr

/-- What the management controller reports, to its own network and to the Drevar side (R391): the sensors' temperatures of cores and of dies, the budget entries, and the faults it has been told of, each with its cycle (R379). -/
structure Report where
  cores : Map Nat
  dies : Map Nat
  budgets : Map Budget
  faults : List (Nat × Nat)
  deriving DecidableEq, Repr

/-- A result block in the log area (R370): where it lies, its bytes, and the partition and record that name it. -/
structure Block where
  addr : Nat
  len : Nat
  part : Nat
  pos : Nat
  deriving DecidableEq, Repr

/-- A saved strand off its slot: its image lies in memory at `addr`; the strand stays in `ghosts` under `key`, with the part that CTXLOAD alone interprets (R309). -/
structure Saved where
  token : Nat
  addr : Nat
  key : Nat
  /-- pool entry of a pre-emption's save (R355) -/
  pool : Option Nat
  /-- results that have reached its registers since: they are part of the saved context (R258) -/
  late : List LUpd
  deriving DecidableEq, Repr

/-- An input or a choice of the schedule still to come: what the next step is. -/
inductive Turn where
  /-- issue from this strand and split -/
  | issue (strand split : Nat)
  /-- this event happens -/
  | event (i : Instr)
  /-- n cycles pass -/
  | tick (n : Nat)
  /-- one lane of a memory operation, or element of a copy, performs before the others (R121, R232), or one row of an XBPROG is programmed (R366) -/
  | perform (op lane : Nat)
  /-- a core's TLB drops an entry (R347) -/
  | evict (n : Nat)
  /-- a background activity charges a budget (R366): index, instance, amount -/
  | charge (index instance_ amount : Nat)
  /-- a packet of the mesh goes on to its next router (R381): source, destination, sequence -/
  | hop (src dst seq : Nat)
  /-- a base die's firmware sends a maintenance packet to another (R380) -/
  | maintain (src dst : Nat)
  /-- the Drevar side sets the park level, park delay and wake threshold of the fabric (R375) -/
  | park (level delay wake : Nat)
  /-- the management controller reports (R391) -/
  | report
  /-- a core's sensor reads this many °C (R328) -/
  | sensor (core temp : Nat)
  /-- a word is struck: of a line, a lane file, scratch, an accumulator element, an instruction store (R362) -/
  | strike (kind addr : Nat)
  deriving DecidableEq, Repr

structure State where
  now : Nat
  /-- the strand and split an instruction word acts for -/
  cur : Nat × Nat
  mem : List Host.Cell
  lanes : Map LWord
  lanesBad : List Nat
  poison : List Nat
  scratchBad : List Nat
  accBad : List Nat
  lineKeys : Map Nat
  pend : List Pend
  rels : List Release
  strands : Map Strand
  /-- strands off their slots, under keys from 2^20: saved ones (R307), and ones that have retired while operations of theirs go on (R191, R306) -/
  ghosts : Map Strand
  saved : List Saved
  overlays : List Overlay
  ops : List Op
  tlb : List Tlb
  queues : Map Queue
  tiles : Map TileSched
  accTags : Map (BitVec 39)
  xbars : Map Xbar
  mergers : Map (List OpenLaunch)
  /-- pending writes of agents outside the grid dies, by device number, the Drevar side's under 1024 (R277) -/
  outDeps : Map (List Nat)
  /-- words K has written into the state window of an empty slot (R309), by slot · 8192 + word -/
  slotWords : Map Word
  /-- messages that have arrived at a cluster (R199) -/
  msgs : Map Nat
  wilnum : Map Wilnum
  launches : Map Launch
  tls : Map Timeline
  chains : Map Chain
  cts : Map Timeline
  parts : Map Part
  regs : RegionRegs
  budgets : Map Budget
  blocks : List Block
  /-- the budget period begun (R366) -/
  period : Nat
  temps : Map Nat
  /-- what each grid die's hottest sensor last read (R391) -/
  dieTemps : Map Nat
  droops : Map Nat
  droopsPrev : Map Nat
  ports : Map Port
  /-- active wavelengths an idle port parks to, after how many cycles with its queue empty, and the flits past which it wakes (R375) -/
  parkLevel : Nat
  parkDelay : Nat
  wakeFlits : Nat
  sent : List Sent
  out : List Packet
  peerWaits : List PeerWait
  d2dFails : Map Nat
  mesh : List MeshFlight
  meshNext : Map Nat
  meshSeen : Map Nat
  keySlots : Map (BitVec 256)
  feedKeys : Map (BitVec 256)
  /-- feed datagrams discarded (R384) -/
  discards : Nat
  flash : Flash
  antiRollback : Nat
  bootedVersion : Option Nat
  /-- the private identity key, which never leaves the security engine (R388) -/
  identity : Option (BitVec 384)
  measured : Map (BitVec 384)
  answers : List (List Word)
  /-- the management controller's fault records, and what it has reported (R379, R391) -/
  faults : List (Nat × Nat)
  reports : List Report
  lpddr : Nat
  mappedOut : List Nat
  halved : Map Bool
  powered : Bool
  turns : List Turn
  fresh : Nat
  nextOp : Nat
  nextLaunch : Nat
  nextWrite : Nat
  deriving DecidableEq, Repr

/-- The default limit of a budget row (Table 22-2). -/
def budgetDefault (index : Nat) : Nat :=
  match index with
  | 0 => 6528
  | 1 => 16777216
  | 2 => 1
  | 3 => 4096
  | 4 => 45760
  | 5 => 9600
  | 6 => 1440
  | _ => 0

/-- The machine right after reset: no partition enabled, no launch, no strand, memory with nothing listed. What the manual states no reset value for is zero or empty (notes/assumptions/5.md). -/
def State.reset : State where
  now := 0
  cur := (0, 0)
  mem := []
  lanes := []
  lanesBad := []
  poison := []
  scratchBad := []
  accBad := []
  lineKeys := []
  pend := []
  rels := []
  strands := []
  ghosts := []
  saved := []
  overlays := []
  ops := []
  tlb := []
  queues := []
  tiles := []
  accTags := []
  xbars := []
  mergers := []
  outDeps := []
  slotWords := []
  msgs := []
  wilnum := []
  launches := []
  tls := []
  chains := []
  cts := []
  parts := []
  regs := { drevarBase := 0, drevarLimit := 0, logBase := 0, logLimit := 0, lock := false }
  budgets := []
  blocks := []
  period := 0
  temps := []
  dieTemps := []
  droops := []
  droopsPrev := []
  ports := []
  parkLevel := 4
  parkDelay := 8500
  wakeFlits := 16
  sent := []
  out := []
  peerWaits := []
  d2dFails := []
  mesh := []
  meshNext := []
  meshSeen := []
  keySlots := []
  feedKeys := []
  discards := 0
  flash := { images := [], records := [], helper := [], certificate := [] }
  antiRollback := 0
  bootedVersion := none
  identity := none
  measured := []
  answers := []
  faults := []
  reports := []
  lpddr := 0
  mappedOut := []
  halved := []
  powered := true
  turns := []
  fresh := 0
  nextOp := 1
  nextLaunch := 1
  nextWrite := 1

end Sys2Proof.Machine
end

