-- ==== Sys2Proof/Machine/Ops.lean ====
section
/-! DEFINITION. The named operations over memory, registers and records: sparse maps, the updates a step is made of, issue and completion of operations, taking a trap and returning from one. -/

namespace Sys2Proof.Machine

/-! ## Sparse maps and memory -/

/-- The entry of a key. -/
def mapGet {α : Type} (m : Map α) (k : Nat) : Option α :=
  match m with
  | [] => none
  | (k', v) :: r => if k' = k then some v else mapGet r k

/-- Sets a key's entry, keeping the keys rising. -/
def mapSet {α : Type} (m : Map α) (k : Nat) (v : α) : Map α :=
  match m with
  | [] => [(k, v)]
  | (k', v') :: r => if k' = k then (k, v) :: r else if k < k' then (k, v) :: (k', v') :: r else (k', v') :: mapSet r k v

/-- Drops a key's entry. -/
def mapDel {α : Type} (m : Map α) (k : Nat) : Map α := m.filter fun e => e.1 ≠ k

/-- The keys rise strictly. -/
def keysRise {α : Type} : List (Nat × α) → Bool
  | [] => true
  | [_] => true
  | a :: b :: r => a.1 < b.1 && keysRise (b :: r)

/-- What an address that memory does not list reads as (notes/assumptions/1.md, DESIGN CHOICE). -/
def Memory.unlisted : Byte := 0#8

/-- One byte of memory at a physical address. -/
def Memory.read (m : List Host.Cell) (a : Nat) : Byte := (mapGet m a).getD Memory.unlisted

/-- Stores one byte, keeping the canonical form. -/
def Memory.write (m : List Host.Cell) (a : Nat) (b : Byte) : List Host.Cell :=
  if b = Memory.unlisted then mapDel m a else mapSet m a b

/-- The canonical form: addresses strictly rising, no entry equal to what an unlisted address reads as. -/
def Memory.wf (m : List Host.Cell) : Bool := keysRise m && m.all fun e => e.2 ≠ Memory.unlisted

/-- n little-endian bytes of memory as a number (R7). -/
def Memory.readN (m : List Host.Cell) (a : Nat) : Nat → Nat
  | 0 => 0
  | n + 1 => (Memory.read m a).toNat + 256 * Memory.readN m (a + 1) n

/-! ## Defaults of records -/

/-- A slot with no strand. -/
def Strand.empty : Strand where
  core := 0
  slot := 0
  s := []
  m := []
  pd := []
  pb := []
  g := []
  cf := []
  cfFall := []
  latS := []
  latL := []
  latSeed := 0
  window := 0
  status := 0
  splits := []
  frame := none
  pending := []
  launch := 0
  number := 0
  part := 0
  asid := 0
  level := 0
  prio := 0
  fpBase := 0
  fpCount := 0
  launchWin := 0
  params := []
  gang := none
  gangAt := 0
  callKeys := []
  pins := []
  entryKey := none
  delayed := []
  lastEnd := 0
  lastIssue := 0
  tgt := 0
  handler := none
  suspended := false
  preempt := false
  placedAt := 0
  moves := 0
  dep := []
  flagDeps := []
  routine := none
  endCode := none
  owes := false

/-- An empty split number 0. -/
def Split.none_ : Split where
  num := 0
  mask := 0
  ovl := 0
  pc := 0
  origin := []
  clause := none
  run := .ready
  lastIssue := 0
  yielded := false
  replay := none
  stall := 0
  prior := []
  dep := []
  seen := []
  fences := []
  gbars := 0

def Seg.empty : Seg := { base := 0, limit := 0, attr := 0, win := none }
def Queue.empty : Queue := { w0 := 0, w1 := 0, head := 0, tail := 0, deps := [] }
def Timeline.zero : Timeline := { count := 0, arr := [] }
def TileSched.empty : TileSched := { chain := [], held := [], running := [] }
def Wilnum.idle : Wilnum := { fifo := [], running := none, seq := 0, starts := 0, parity := none, last := none, own := [], others := [] }
def Port.up : Port := { width := 8, down := false, bad := false, fails := 0, emptyAt := 0 }
def Budget.default (index : Nat) : Budget := { cap := budgetDefault index, limit := budgetDefault index, counter := 0, prev := 0 }

/-- A crossbar array that is not allocated, with its 32 spare rows (R268). -/
def Xbar.blank : Xbar where
  allocated := false
  part := 0
  bound := none
  codes := []
  sigma := 0x3F800000#32
  g := 0
  alpha := 0
  gamma := 0
  calibrated := false
  drift := false
  driftAt := 0
  freeAt := 0
  worn := false
  retired := false
  programming := false
  calibrating := false
  spares := 32
  spareMap := []
  wear := []
  cals := 0
  rowsProg := 0

/-- A launch chain as it stands before the Drevar side enables it (Table 19-1). -/
def Chain.blank : Chain where
  enabled := false
  halted := false
  refusal := 0
  ceiling := 0
  grant := false
  head := 0
  tail := 0
  refused := 0
  mask := 0
  pointer := 0
  current := none
  deps := []
  made := []
  tags := []

def Region.blank : Region where
  active := false
  busy := false
  failed := false
  die := 0
  base := 0
  len := 0
  mask := 0
  lap := 0
  lapStart := 0
  queue := []
  served := []
  others := []
  keys := []

/-- A partition that is not enabled (Table 20-1). -/
def Part.blank : Part where
  enabled := false
  busy := false
  s2root := 0
  asidFirst := 0
  asidCount := 0
  asidTab := 0
  plaintext := false
  keyFirst := 0
  keyCount := 0
  gen2 := 0
  gens := []
  invBusy := false
  genBusy := false
  ktempl := 0
  trapq := 0
  pageq := 0
  accarea := 0
  ovltab := 0
  rtntab := 0
  quota := 128
  pageTail := 0
  pageHead := 0
  trapTail := 0
  trapHead := 0
  poolBase := 0
  poolEntries := 0
  poolUsed := []
  feedTarget := 0
  feedResult := 0
  feedIgnored := 0
  chainAsid := []
  imports := []
  regions := []
  sched := 0
  traps := []
  reqs := []
  nextTag := 1
  nextIdent := 0
  logBase := 0
  logSize := 0
  logHead := 0
  logTail := 0
  replayMode := false
  replayIdent := 0
  replayPos := 0
  feedEntries := []
  feedSlot := []
  feedSeq := []
  kLoads := []

/-! ## Reading the state -/

/-- The strand of a key: one in its slot, or one off it. -/
def State.strand (s : State) (k : Nat) : Strand :=
  match mapGet s.strands k with
  | some st => st
  | none => (mapGet s.ghosts k).getD { Strand.empty with core := k % 2 ^ 20 / 16, slot := k % 16 }
def State.queue (s : State) (q : Nat) : Queue := (mapGet s.queues q).getD Queue.empty
def State.tile (s : State) (c : Nat) : TileSched := (mapGet s.tiles c).getD TileSched.empty
def State.xbar (s : State) (x : Nat) : Xbar := (mapGet s.xbars x).getD Xbar.blank
def State.wil (s : State) (w : Nat) : Wilnum := (mapGet s.wilnum w).getD Wilnum.idle
def State.chain (s : State) (c : Nat) : Chain := (mapGet s.chains c).getD Chain.blank
def State.part (s : State) (p : Nat) : Part := (mapGet s.parts p).getD Part.blank
def State.port (s : State) (p : Nat) : Port := (mapGet s.ports p).getD Port.up
def State.tl (s : State) (k : Nat) : Timeline := (mapGet s.tls k).getD Timeline.zero
def State.ct (s : State) (k : Nat) : Timeline := (mapGet s.cts k).getD Timeline.zero
def State.accTag (s : State) (k : Nat) : BitVec 39 := (mapGet s.accTags k).getD 0
def State.merger (s : State) (c : Nat) : List OpenLaunch := (mapGet s.mergers c).getD []
def State.op? (s : State) (id : Nat) : Option Op := s.ops.find? fun o => o.id = id
def Part.region (p : Part) (r : Nat) : Region := (mapGet p.regions r).getD Region.blank
def Part.gen (p : Part) (asid : Nat) : Nat := (mapGet p.gens asid).getD 0

/-- Key of budget `index`, instance `inst` (R368). -/
def budgetKey (index inst : Nat) : Nat := 256 * index + inst
def State.budget (s : State) (index inst : Nat) : Budget :=
  (mapGet s.budgets (budgetKey index inst)).getD (Budget.default index)

/-- Key of a chain of a partition. -/
def chainKey (part chain : Nat) : Nat := 16 * part + chain
/-- Key of a chain timeline. -/
def ctKey (part chain ct : Nat) : Nat := 8 * chainKey part chain + ct
/-- Key of a launch timeline. -/
def tlKey (launch tl : Nat) : Nat := 8 * launch + tl
/-- Key of an accumulator slot. -/
def accKey (cluster slot : Nat) : Nat := 32 * cluster + slot
/-- Key of a crossbar array. -/
def xbKey (cluster arr : Nat) : Nat := 4 * cluster + arr
/-- Key of a named queue. -/
def queueKey (cluster q : Nat) : Nat := 16 * cluster + q

/-- Package cluster and die of a package core (R10). -/
def clusterOf (core : Nat) : Nat := core / 4
def dieOfCluster (cl : Nat) : Nat := cl / 16

/-- Key of the strand in a slot. -/
def slotKey (core slot : Nat) : Nat := 16 * core + slot
/-- Key of the routine on a Wilnum core. -/
def wilKey (w : Nat) : Nat := 4096 + w
def Strand.isRoutine (st : Strand) : Bool := st.routine.isSome

/-- Key of a lane-file word; the Wilnum cores follow the 256 grid cores. -/
def laneKey (core lane word : Nat) : Nat := (core * 1024 + lane) * 256 + word

/-- A strand's unlisted lane words: zero on a grid core (DESIGN CHOICE, log 2); a routine's are unspecified (R144). -/
def laneDefault (st : Strand) (key : Nat) : LWord :=
  if st.isRoutine then Config.freeLane st.latSeed key else 0#32
def State.laneWord (s : State) (st : Strand) (key : Nat) : LWord := (mapGet s.lanes key).getD (laneDefault st key)

/-! ## Updates -/

/-- The elementary updates: a meaning is a list of them, made from the state before it. -/
inductive Upd where
  | tick (t : Nat)
  | cur (k split : Nat)
  | loc (k : Nat) (u : LUpd)
  | mem (a : Nat) (b : Byte)
  | memClear (lo hi : Nat)
  | strand (k : Nat) (st : Strand)
  | strandDel (k : Nat)
  | ghost (k : Nat) (st : Strand)
  | ghostDel (k : Nat)
  | split (k : Nat) (sp : Split)
  | splits (k : Nat) (l : List Split)
  | trap (k : Nat) (t : Option Trap)
  | pendTrap (k : Nat) (l : List Trap)
  | delay (k t : Nat) (u : LUpd)
  | delayed (k : Nat) (l : List (Nat × LUpd))
  | issued (k lastEnd lastIssue : Nat)
  | moves (k t : Nat)
  | flagUp (k f : Nat)
  | latches (k : Nat) (ls : Map Word) (ll : Map LWord) (seed : Nat)
  | seg (k i : Nat) (g : Seg)
  /-- membership of a gang, whose open instance this is -/
  | gang (k : Nat) (g : Option Nat) (at_ : Nat)
  /-- the open instance of a strand's gang -/
  | gangAt (k at_ : Nat)
  | keys (k : Nat) (calls pins : Map Nat) (entry : Option Nat)
  | tgt (k : Nat) (v : Nat)
  | handler (k : Nat) (h : Option Handler)
  | marks (k : Nat) (suspended preempt : Bool)
  /-- the strand and its operations have these writes behind them -/
  | dep (k : Nat) (d : List Nat)
  /-- what comes after operation `id` in program order has these writes behind it, and may acquire these releases -/
  | after (k id : Nat) (d : List Nat) (seen : List Release)
  /-- the stores after operation `id` carry a releasing FENCE -/
  | fenced (k id : Nat) (f : Nat × List Nat)
  | flagDeps (k : Nat) (m : Map (List Nat))
  | outDep (who : Nat) (d : List Nat)
  | slotWord (k : Nat) (v : Word)
  | endCode (k : Nat) (c : Option Nat)
  | saved (l : List Saved)
  | lanesClear (core : Nat)
  | bad (lanes scratch acc : List Nat)
  | poison (l : List Nat)
  | lineKey (line key : Nat)
  | pend (l : List Pend)
  | pendAdd (l : List Pend)
  /-- bytes shown at once on some dies -/
  | cover (dies : List Nat) (pa n : Nat)
  /-- a write that has reached the home, or the copies of some dies -/
  | fire (home : Bool) (dies : List Nat) (pa n : Nat)
  | relAdd (l : List Release)
  /-- a write by its number, and whether an atomic or a reduction made it -/
  | overwrite (id : Nat) (atomic : Bool) (pa n : Nat)
  | overlays (l : List Overlay)
  | opAdd (o : Op)
  | opSet (o : Op)
  | opDel (id : Nat)
  | tlb (l : List Tlb)
  | queue (k : Nat) (q : Queue)
  | tile (k : Nat) (t : TileSched)
  | accTag (k : Nat) (v : BitVec 39)
  | xbar (k : Nat) (x : Xbar)
  | merger (k : Nat) (l : List OpenLaunch)
  | msgs (k n : Nat)
  | wilnum (k : Nat) (w : Wilnum)
  | launch (k : Nat) (l : Launch)
  | arrive (key : Nat) (dep : List Nat)
  | ctAdvance (key n : Nat) (dep : List Nat)
  | chain (k : Nat) (c : Chain)
  | part (k : Nat) (p : Part)
  | regs (r : RegionRegs)
  | budget (k : Nat) (b : Budget)
  | blocks (l : List Block)
  | period (n : Nat)
  | temp (core t : Nat)
  | dieTemp (die t : Nat)
  | droop (now_ prev : Map Nat)
  | port (k : Nat) (p : Port)
  | parkAt (level delay wake : Nat)
  | sent (l : List Sent)
  | emit (p : Packet)
  | peerWaits (l : List PeerWait)
  | d2d (link n : Nat)
  | mesh (l : List MeshFlight)
  | meshNext (k n : Nat)
  | meshSeen (k n : Nat)
  | keySlot (k : Nat) (v : BitVec 256)
  | feedKey (k : Nat) (v : BitVec 256)
  | discard
  | antiRollback (v : Nat)
  | booted (v : Option Nat)
  | identity (v : BitVec 384)
  | measure (k : Nat) (v : BitVec 384)
  | answer (l : List Word)
  | faulted (code : Nat)
  | report (r : Report)
  | lpddr (n : Nat)
  | mappedOut (l : List Nat)
  | halved (die : Nat) (b : Bool)
  | powered (b : Bool)
  | turns (l : List Turn)
  | fresh
  | nextOp
  | nextLaunch
  | nextWrite
  | powerOn (f : Flash)
  deriving DecidableEq, Repr

/-- The writes of a set still pending on some die. -/
def State.stillPending (s : State) (d : List Nat) : List Nat := d.filter fun w => s.pend.any fun p => p.id = w
/-- Two dependency sets as one. -/
def joinDeps (a b : List Nat) : List Nat := a ++ b.filter fun x => !a.contains x

/-- A split with writes behind it, and releases it may acquire. -/
def Split.leads (sp : Split) (id : Nat) (d : List Nat) (seen : List Release) : Split :=
  if sp.prior.contains id then { sp with dep := joinDeps sp.dep d, seen := sp.seen ++ seen } else sp
/-- A split whose later stores carry a releasing FENCE: of two of one scope the later, which releases all that the earlier did. -/
def Split.fence (sp : Split) (id : Nat) (f : Nat × List Nat) : Split :=
  if sp.prior.contains id then { sp with fences := f :: sp.fences.filter fun g => g.1 ≠ f.1 } else sp
/-- An operation with writes behind it. -/
def Op.leads (o : Op) (id : Nat) (d : List Nat) : Op := if o.prior.contains id then { o with dep := joinDeps o.dep d } else o

/-- An on-chip address (R116). -/
def onChip (pa : Nat) : Bool := pa / 2 ^ 44 = 0x7F
/-- Die of a package core (R10). -/
def dieOf (core : Nat) : Nat := core / 64

/-- Bytes written on dies whose copies show the write at once: what an earlier write has still to change there is changed already. -/
def State.cover (s : State) (dies : List Nat) (pa n : Nat) : State :=
  let drop := fun (p : Pend) => if dies.contains p.die then { p with old := p.old.filter fun c => !(pa ≤ c.1 && c.1 < pa + n) } else p
  { s with pend := (s.pend.map drop).filter fun p => !p.old.isEmpty }

/-- A WAITA with a write observed (R135): it keeps the lowest index that has fired. -/
def OpKind.fire (k : OpKind) (die : Nat) (home : Bool) (dies : List Nat) (pa n : Nat) : OpKind :=
  match k with
  | .waita d armed fired dl ext =>
    match (List.range armed.length).find? fun i =>
        (armed.getD i (0, false)).1 < pa + n && pa < (armed.getD i (0, false)).1 + 4 &&
        (onChip pa || (if (armed.getD i (0, false)).2 then home else dies.contains die)) with
    | some i => .waita d armed (some (match fired with | some j => min i j | none => i)) dl ext
    | none => k
  | k => k

/-- A write to these bytes has reached the home, or the copies of some dies: the waits of the strands whose loads read it there fire. -/
def State.fire (s : State) (home : Bool) (dies : List Nat) (pa n : Nat) : State :=
  let die := fun (k : Nat) => match mapGet s.strands k with
    | some st => dieOf st.core
    | none => (match mapGet s.ghosts k with | some st => dieOf st.core | none => 0)
  let hit := fun (o : Op) => { o with kind := o.kind.fire (die o.owner) home dies pa n }
  { s with ops := s.ops.map hit }

/-- The writes to a byte that some die may still read: those after the last that has reached every die. -/
def trimLater (s : State) : List (Nat × Bool) → List (Nat × Bool)
  | [] => []
  | e :: r => if r.any fun f => !(s.pend.any fun p => p.id = f.1) then trimLater s r else e :: r

/-- A write takes its place after the releases that stand at its bytes (R281). -/
def State.overwrite (s : State) (id : Nat) (atomic : Bool) (pa n : Nat) : State :=
  let put := fun (r : Release) =>
    if pa ≤ r.addr && r.addr < pa + n then { r with later := trimLater s r.later ++ [(id, atomic)] } else r
  { s with rels := (s.rels.filter fun r => !(s.stillPending r.deps).isEmpty).map put }

/-- Changes one strand's record. -/
def State.onStrand (s : State) (k : Nat) (f : Strand → Strand) : State :=
  match mapGet s.strands k with
  | some st => { s with strands := mapSet s.strands k (f st) }
  | none =>
    match mapGet s.ghosts k with
    | some st => { s with ghosts := mapSet s.ghosts k (f st) }
    | none => s

/-- A local update on the strand's registers; lane words are the machine's. -/
def Strand.applyL (st : Strand) (u : LUpd) : Strand :=
  match u with
  | .s r v => if r = 0 then st else { st with s := mapSet st.s r v }
  | .m r on v =>
    if r = 0 then st else { st with m := mapSet st.m r (((mapGet st.m r).getD 0 &&& ~~~on) ||| (v &&& on)) }
  | .pd r v => { st with pd := mapSet st.pd r v }
  | .pb r v => { st with pb := mapSet st.pb r v }
  | .window v => { st with window := v }
  | .status v => { st with status := st.status ||| v }
  | .setStatus v => { st with status := v }
  | .latS l v => { st with latS := mapSet st.latS l v }
  | .latL l lane v => { st with latL := mapSet st.latL (l * 16384 + lane) v }
  | .lane _ _ _ => st
  | .flagFall f t =>
    { st with cf := mapSet st.cf f ((mapGet st.cf f).getD 0 - 1), cfFall := mapSet st.cfFall f t }

/-- A local update; a write of a whole lane word encodes it afresh, one of a part does not (R319). -/
def State.applyL (s : State) (k : Nat) (u : LUpd) : State :=
  match u with
  | .lane key on v =>
    { s with lanes := mapSet s.lanes key ((s.laneWord (s.strand k) key &&& ~~~on) ||| (v &&& on)),
             lanesBad := if on = BitVec.allOnes 32 then s.lanesBad.filter fun x => x ≠ key else s.lanesBad }
  | u =>
    -- a strand off its slot is restored from its image, and then from these
    let t := s.onStrand k fun st => st.applyL u
    { t with saved := t.saved.map fun x => if x.key = k then { x with late := x.late ++ [u] } else x }

/-- A result into the list of results waiting, by cycle, after those of the same cycle. -/
def insertDelay (l : List (Nat × LUpd)) (t : Nat) (u : LUpd) : List (Nat × LUpd) :=
  match l with
  | [] => [(t, u)]
  | (t', u') :: r => if t < t' then (t, u) :: (t', u') :: r else (t', u') :: insertDelay r t u

/-- A split replaces the one of its number, or joins in number order. -/
def putSplit (l : List Split) (sp : Split) : List Split :=
  match l with
  | [] => [sp]
  | x :: r => if x.num = sp.num then sp :: r else if sp.num < x.num then sp :: x :: r else x :: putSplit r sp

/-- One elementary update. -/
def State.apply (s : State) (u : Upd) : State :=
  match u with
  | .tick t => { s with now := max s.now t }
  | .cur k sp => { s with cur := (k, sp) }
  | .loc k u => s.applyL k u
  | .mem a b => { s with mem := Memory.write s.mem a b }
  | .memClear lo hi => { s with mem := s.mem.filter fun e => !(lo ≤ e.1 && e.1 < hi) }
  | .strand k st => { s with strands := mapSet s.strands k st }
  | .strandDel k => { s with strands := mapDel s.strands k }
  | .ghost k st => { s with ghosts := mapSet s.ghosts k st }
  | .ghostDel k => { s with ghosts := mapDel s.ghosts k }
  | .split k sp => s.onStrand k fun st => { st with splits := putSplit st.splits sp }
  | .splits k l => s.onStrand k fun st => { st with splits := l }
  | .trap k t => s.onStrand k fun st => { st with frame := t }
  | .pendTrap k l => s.onStrand k fun st => { st with pending := l }
  | .delay k t u => s.onStrand k fun st => { st with delayed := insertDelay st.delayed t u }
  | .delayed k l => s.onStrand k fun st => { st with delayed := l }
  | .issued k e i => s.onStrand k fun st => { st with lastEnd := e, lastIssue := i }
  | .moves k t => s.onStrand k fun st => { st with moves := t }
  | .flagUp k f => s.onStrand k fun st => { st with cf := mapSet st.cf f ((mapGet st.cf f).getD 0 + 1) }
  | .latches k ls ll seed => s.onStrand k fun st => { st with latS := ls, latL := ll, latSeed := seed }
  | .seg k i g => s.onStrand k fun st => { st with g := mapSet st.g i g }
  | .gang k g n => s.onStrand k fun st => { st with gang := g, gangAt := n, splits := st.splits.map fun sp => { sp with gbars := n } }
  | .gangAt k n => s.onStrand k fun st => { st with gangAt := n }
  | .keys k c p e => s.onStrand k fun st => { st with callKeys := c, pins := p, entryKey := e }
  | .tgt k v => s.onStrand k fun st => { st with tgt := v }
  | .handler k h => s.onStrand k fun st => { st with handler := h }
  | .marks k a b => s.onStrand k fun st => { st with suspended := a, preempt := b }
  | .dep k d => s.onStrand k fun st => { st with dep := s.stillPending (joinDeps st.dep d) }
  | .after k id d seen =>
    { (s.onStrand k fun st => { st with dep := s.stillPending (joinDeps st.dep d), splits := st.splits.map fun sp => Split.leads sp id d seen }) with
      ops := s.ops.map fun o => Op.leads o id d }
  | .fenced k id f => s.onStrand k fun st => { st with splits := st.splits.map fun sp => Split.fence sp id f }
  | .flagDeps k m => s.onStrand k fun st => { st with flagDeps := m }
  | .slotWord k v => { s with slotWords := mapSet s.slotWords k v }
  | .outDep w d => { s with outDeps := mapSet s.outDeps w d }
  | .endCode k c => s.onStrand k fun st => { st with endCode := c }
  | .saved l => { s with saved := l }
  | .lanesClear core => { s with lanes := s.lanes.filter fun e => e.1 / 262144 ≠ core }
  | .bad l c a => { s with lanesBad := l, scratchBad := c, accBad := a }
  | .poison l => { s with poison := l }
  | .lineKey a k => { s with lineKeys := mapSet s.lineKeys a k }
  | .pend l => { s with pend := l }
  | .pendAdd l => { s with pend := s.pend ++ l }
  | .cover dies pa n => s.cover dies pa n
  | .fire home dies pa n => s.fire home dies pa n
  | .relAdd l => { s with rels := s.rels ++ l }
  | .overwrite id a pa n => s.overwrite id a pa n
  | .overlays l => { s with overlays := l }
  | .opAdd o => { s with ops := s.ops ++ [o] }
  | .opSet o => { s with ops := s.ops.map fun x => if x.id = o.id then o else x }
  | .opDel id => { s with ops := s.ops.filter fun x => x.id ≠ id }
  | .tlb l => { s with tlb := l }
  | .queue k q => { s with queues := mapSet s.queues k q }
  | .tile k t => { s with tiles := mapSet s.tiles k t }
  | .accTag k v => { s with accTags := mapSet s.accTags k v }
  | .xbar k x => { s with xbars := mapSet s.xbars k x }
  | .merger k l => { s with mergers := mapSet s.mergers k l }
  | .msgs k n => { s with msgs := mapSet s.msgs k n }
  | .wilnum k w => { s with wilnum := mapSet s.wilnum k w }
  | .launch k l => { s with launches := mapSet s.launches k l }
  | .arrive k d =>
    let t := s.tl k
    { s with tls := mapSet s.tls k { count := t.count + 1, arr := t.arr ++ [(t.count + 1, d)] } }
  | .ctAdvance k n d =>
    let t := s.ct k
    -- the arrivals from the old count on release alike: the first stands for all of them (R321)
    if t.count < n then { s with cts := mapSet s.cts k { count := n, arr := t.arr ++ [(t.count + 1, d)] } } else s
  | .chain k c => { s with chains := mapSet s.chains k c }
  | .part k p => { s with parts := mapSet s.parts k p }
  | .regs r => { s with regs := r }
  | .budget k b => { s with budgets := mapSet s.budgets k b }
  | .blocks l => { s with blocks := l }
  | .period n => { s with period := n }
  | .temp c t => { s with temps := mapSet s.temps c t }
  | .dieTemp d t => { s with dieTemps := mapSet s.dieTemps d t }
  | .droop a b => { s with droops := a, droopsPrev := b }
  | .port k p => { s with ports := mapSet s.ports k p }
  | .parkAt l d w => { s with parkLevel := l, parkDelay := d, wakeFlits := w }
  | .sent l => { s with sent := l }
  | .emit p => { s with out := s.out ++ [p] }
  | .peerWaits l => { s with peerWaits := l }
  | .d2d k n => { s with d2dFails := mapSet s.d2dFails k n }
  | .mesh l => { s with mesh := l }
  | .meshNext k n => { s with meshNext := mapSet s.meshNext k n }
  | .meshSeen k n => { s with meshSeen := mapSet s.meshSeen k n }
  | .keySlot k v => { s with keySlots := mapSet s.keySlots k v }
  | .feedKey k v => { s with feedKeys := mapSet s.feedKeys k v }
  | .discard => { s with discards := s.discards + 1 }
  | .antiRollback v => { s with antiRollback := v }
  | .booted v => { s with bootedVersion := v }
  | .identity v => { s with identity := some v }
  | .measure k v => { s with measured := mapSet s.measured k v }
  | .answer l => { s with answers := s.answers ++ [l] }
  | .faulted c => { s with faults := s.faults ++ [(c, s.now)] }
  | .report r => { s with reports := s.reports ++ [r] }
  | .lpddr n => { s with lpddr := n }
  | .mappedOut l => { s with mappedOut := l }
  | .halved d b => { s with halved := mapSet s.halved d (if b then true else false) }
  | .powered b => { s with powered := b }
  | .turns l => { s with turns := l }
  | .fresh => { s with fresh := s.fresh + 1 }
  | .nextOp => { s with nextOp := s.nextOp + 1 }
  | .nextLaunch => { s with nextLaunch := s.nextLaunch + 1 }
  | .nextWrite => { s with nextWrite := s.nextWrite + 1 }
  | .powerOn f => { State.reset with flash := f, antiRollback := s.antiRollback, turns := s.turns }

def State.applyAll (s : State) (us : List Upd) : State := us.foldl State.apply s

/-- What a step does, as the updates it makes of a state. -/
abbrev Eff := State → List Upd

/-- No effect. -/
def Eff.skip : Eff := fun _ => []
def Eff.run (e : Eff) (s : State) : State := s.applyAll (e s)
/-- The updates of e, then those f makes of the state e leaves. -/
def Eff.andThen (e f : Eff) : Eff := fun s => let us := e s; us ++ f (s.applyAll us)
/-- Effects in order, each from the state the ones before it leave. -/
def Eff.seq : List Eff → Eff
  | [] => fun _ => []
  | e :: r => e.andThen (Eff.seq r)

/-- The outcome of a meaning that always completes. -/
def Eff.next (e : Eff) (s : State) : Host.Outcome State Fault Refusal := .next (e.run s)
/-- The outcome of an event: it happens where its conditions hold. -/
def Eff.when (name : String) (ok : State → Bool) (e : Eff) (s : State) : Host.Outcome State Fault Refusal :=
  if ok s then .next (e.run s) else .fault (.notEnabled name)

/-! ## Windows and lanes (R50 to R52, R77) -/

/-- Bits [lo + n − 1 : lo] of a 64-bit value, as a number. -/
def fieldOf (w : Word) (lo n : Nat) : Nat := w.toNat / 2 ^ lo % 2 ^ n

def winH (w : Word) : Nat := fieldOf w 10 7 + 1
def winW (w : Word) : Nat := fieldOf w 17 7 + 1
def winRow (w : Word) : Nat := fieldOf w 0 5
def winCol (w : Word) : Nat := fieldOf w 5 5
def winVirtual (w : Word) : Bool := 32 < winH w || 32 < winW w
/-- Sub-grids across, and the multiplicity m (R77). -/
def winAcross (w : Word) : Nat := (winW w + 31) / 32
def winMult (w : Word) : Nat := ((winH w + 31) / 32) * winAcross w
def winLanes (w : Word) : Nat := winH w * winW w
/-- One bit for every window lane. -/
def winMask (w : Word) : Lanes := BitVec.ofNat 16384 (2 ^ winLanes w - 1)
/-- A window register of a size, origin (0, 0). -/
def winOf (h w : Nat) : Word := BitVec.ofNat 64 ((w - 1) * 2 ^ 17 + (h - 1) * 2 ^ 10)

/-- The grid lane and grid word of word k of window lane n (R51, R77). -/
def laneLoc (w : Word) (n k : Nat) : Nat × Nat :=
  let i := n / winW w
  let j := n % winW w
  if winVirtual w then
    (32 * (i % 32) + j % 32, k * winMult w + (i / 32) * winAcross w + j / 32)
  else (32 * (winRow w + i) + (winCol w + j), k)

/-- Key of word k of window lane n of a strand. -/
def Strand.laneAt (st : Strand) (n k : Nat) : Nat :=
  let p := laneLoc st.window n k
  laneKey st.core p.1 p.2
/-- The same under a given window. -/
def laneAtIn (core : Nat) (w : Word) (n k : Nat) : Nat :=
  let p := laneLoc w n k
  laneKey core p.1 p.2

/-- Lanes set in a mask, in ascending order, among the first n. -/
def lanesOf (m : Lanes) (n : Nat) : List Nat := (List.range n).filter fun i => m.getLsbD i
/-- The lowest lane set (R84's leader), 0 where none is. -/
def lowestLane (m : Lanes) : Nat := (Nat.log2 (m.toNat &&& (2 ^ 16384 - m.toNat)))
/-- The lanes of a list. -/
def lanesMask (l : List Nat) : Lanes := l.foldl (fun a i => a ||| (1#16384 <<< i)) 0#16384

/-! ## Registers of a strand -/

/-- Scalar register r; s0 reads zero (Table 4-1). -/
def Strand.sreg (st : Strand) (r : Nat) : Word := if r = 0 then 0 else (mapGet st.s r).getD 0
/-- Mask register r; m0 reads all ones. -/
def Strand.mreg (st : Strand) (r : Nat) : Lanes := if r = 0 then BitVec.allOnes 16384 else (mapGet st.m r).getD 0
def Strand.pdreg (st : Strand) (r : Nat) : Word := (mapGet st.pd r).getD 0
def Strand.pbreg (st : Strand) (r : Nat) : LWord := (mapGet st.pb r).getD 0
def Strand.segreg (st : Strand) (r : Nat) : Seg := (mapGet st.g r).getD Seg.empty
/-- Count of flag cfn (R92). -/
def Strand.flag (st : Strand) (f : Nat) : Nat := (mapGet st.cf f).getD 0
/-- The flag's count as a header evaluated in cycle t sees it: a fall in cycle t is seen from t + 1 (R87). -/
def Strand.flagZeroAt (st : Strand) (f t : Nat) : Bool :=
  st.flag f = 0 && (match mapGet st.cfFall f with | some u => u < t | none => true)

/-- Scalar source: register or the scalar part of a latch; a latch not written in its clause is unspecified (R93). -/
def Strand.scalar (st : Strand) (x : Sel) : Word :=
  match x with
  | .reg n => st.sreg n.toNat
  | .bl l => (mapGet st.latS l.toNat).getD (Config.freeWord (8 * st.latSeed + l.toNat))
  | .bad _ => 0

/-- Number of the register a selector names; 0 where it names none. -/
def selNum : Sel → Nat
  | .reg n => n.toNat
  | _ => 0

/-- Lane source of window lane n: register word or the lane part of a latch. -/
def State.laneSrc (s : State) (st : Strand) (x : Sel) (n : Nat) : LWord :=
  match x with
  | .reg r => s.laneWord st (st.laneAt n r.toNat)
  | .bl l => (mapGet st.latL (l.toNat * 16384 + n)).getD (Config.freeLane (8 * st.latSeed + l.toNat) n)
  | .bad _ => 0

/-- Lane source of every window lane of a strand, one read each. -/
def Strand.splitOf (st : Strand) (n : Nat) : Split := (st.splits.find? fun x => x.num = n).getD Split.none_

/-- The clause index and whether the header is satisfied, for a frame. -/
def Split.idx (sp : Split) : Nat :=
  match sp.clause with
  | some c => c.idx
  | none => 0

/-! ## The context of an instruction word -/

/-- The strand, split and active lanes (R83) an instruction word acts with. -/
structure Ctx where
  k : Nat
  st : Strand
  sp : Split
  act : Lanes
  c : Common

/-- R83: in the window, in the split's mask, in the predicate; a replay of kind 1 keeps to the unfinished lanes (R233). -/
def activeLanes (st : Strand) (sp : Split) (c : Common) : Lanes :=
  let p := st.mreg c.pred.toNat
  let p' := if c.pneg = 1#1 then ~~~p else p
  let all := winMask st.window &&& sp.mask &&& p'
  match sp.replay with
  | some (u, _) => all &&& u
  | none => all

def State.ctx (s : State) (c : Common) : Ctx :=
  let st := s.strand s.cur.1
  let sp := st.splitOf s.cur.2
  { k := s.cur.1, st := st, sp := sp, act := activeLanes st sp c, c := c }

/-- The context with its strand and split as they stand after a first effect of the word. -/
def Ctx.again (x : Ctx) (s : State) : Ctx := { x with st := s.strand x.k, sp := (s.strand x.k).splitOf x.sp.num }
def Ctx.leader (x : Ctx) : Nat := lowestLane x.act

/-! ## Moving past an instruction word -/

/-- The split after the word it stands at: the next of its clause, or the header after it (R86). -/
def Split.past (sp : Split) : Split :=
  match sp.clause with
  | none => { sp with pc := sp.pc + 1, replay := none }
  | some c =>
    if c.idx < c.hdr.count.toNat then { sp with pc := sp.pc + 1, clause := some { c with idx := c.idx + 1 }, replay := none }
    else { sp with pc := sp.pc + 1, clause := none, replay := none, yielded := c.yielded }

/-- The clause a transfer ends had the yield hint, or a YIELD (R88, R192). -/
def Split.yields (sp : Split) : Bool :=
  match sp.clause with
  | some c => c.yielded
  | none => sp.yielded

/-- The split at a new header (a taken transfer, R86). -/
def Split.goto (sp : Split) (ovl pc : Nat) : Split :=
  { sp with ovl := ovl, pc := pc, clause := none, replay := none, yielded := sp.yields }

/-- Issue of `len` cycles from now, and the split after it. -/
def finish (x : Ctx) (s : State) (len : Nat) (sp : Split) : List Upd :=
  [.issued x.k (s.now + len - 1) s.now, .split x.k { sp with lastIssue := s.now }]

/-- The word is held back, and its split alone with it: it is tried again from the next cycle on (R91, notes/assumptions/10.md). -/
def stall (x : Ctx) (s : State) : List Upd := [.split x.k { x.sp with stall := s.now + 1 }]

/-- The flag number of SETF: none, or cf(SETF − 1). -/
def setfFlag (c : Common) : Option Nat := if c.setf = 0#4 then none else some (c.setf.toNat - 1)

/-- A fixed-latency result (R89, R92, R93): register updates `regs` at e + L unless NWB, latch updates `lats` a cycle earlier when L ≥ 2, status bits and the flag's fall with the register. -/
def fixedResult (x : Ctx) (s : State) (len lat : Nat) (regs lats : List LUpd) (st : Status) : List Upd :=
  let e := s.now + len - 1
  let tl := if lat ≥ 2 then e + lat - 1 else e + lat
  lats.map (Upd.delay x.k tl) ++
  (if x.c.nwb = 1#1 then [] else regs.map (Upd.delay x.k (e + lat))) ++
  (if st = 0 then [] else [Upd.delay x.k (e + lat) (.status st)]) ++
  (match setfFlag x.c with
   | none => []
   | some f => [.flagUp x.k f, .delay x.k (e + lat) (.flagFall f (e + lat))]) ++
  finish x s len x.sp.past

/-- The outstanding operations before a split's next access. -/
def State.before (s : State) (sp : Split) : List Nat := sp.prior.filter fun i => (s.op? i).isSome
/-- The split after it has issued an operation: what comes next is after it in program order (R277). -/
def State.behind (s : State) (sp : Split) (id : Nat) : Split :=
  { sp with prior := id :: s.before sp, dep := s.stillPending sp.dep,
            seen := sp.seen.filter fun r => !(s.stillPending r.deps).isEmpty,
            fences := sp.fences.map fun f => (f.1, s.stillPending f.2) }

/-- Issue of a variable-latency instruction (R91, R92): the operation is outstanding, its flag counts one (a replayed word's use is counted already), and with SETF = 0 its split holds. -/
def issueOp (x : Ctx) (s : State) (len : Nat) (tl : TlArg) (kind : OpKind) : List Upd :=
  let id := s.nextOp
  let o : Op := { id := id, owner := x.k, split := x.sp.num, ovl := x.sp.ovl, pc := x.sp.pc, clause := x.sp.clause, flag := ((setfFlag x.c).map (· + 1)).getD 0,
                  tl := tl.map (·.toNat), issued := s.now, prior := s.before x.sp, dep := s.stillPending x.sp.dep, fences := x.sp.fences,
                  leader := x.leader, parked := false, tags := [], killed := false, kind := kind }
  [.opAdd o, .nextOp] ++
  (match setfFlag x.c with
   | none => []
   | some f => if x.sp.replay.isSome then [] else [.flagUp x.k f]) ++
  finish x s len (s.behind (if x.c.setf = 0#4 then { x.sp.past with run := .hold id } else x.sp.past) id)

/-- The hold of a split on an operation ends (R91); it has observed the operation's end, and with it the writes `deps` (R280). -/
def releaseHold (s : State) (o : Op) (deps : List Nat) : List Upd :=
  (s.strand o.owner).splits.filterMap fun sp =>
    if sp.run = .hold o.id then some (.split o.owner { sp with run := .ready, dep := joinDeps sp.dep deps }) else none

/-- What a header wait that observes the fall of an operation's flag acquires of its writes (R280). -/
def flagDepsOf (s : State) (o : Op) (deps : List Nat) : List Upd :=
  if o.flag = 0 || deps.isEmpty then []
  else
    let m := (s.strand o.owner).flagDeps
    [.flagDeps o.owner (mapSet m (o.flag - 1) (joinDeps (s.stillPending ((mapGet m (o.flag - 1)).getD [])) deps))]

/-- An operation's flag falls. -/
def flagFallOf (s : State) (o : Op) : List Upd :=
  if o.flag = 0 then [] else [.loc o.owner (.flagFall (o.flag - 1) s.now)]

/-- The writes an operation's arrival releases beside its own: those before a copy's accesses, and before a routine's what a release at die scope or wider before its NMCALL carried (R151, R282); of any other none that its strand made before it (R257). -/
def Op.behind (o : Op) : List Nat :=
  match o.kind with
  | .copy _ => o.dep
  | .nmcall .. => (o.fences.filter fun f => 3 ≤ f.1).foldl (fun a f => joinDeps a f.2) []
  | _ => []

/-- The arrival an operation counts on its launch's timeline (R21, R257), which releases its own writes. -/
def arrivalOf (s : State) (o : Op) (deps : List Nat) : List Upd :=
  match o.tl with
  | none => []
  | some t => [.arrive (tlKey (s.strand o.owner).launch t) (s.stillPending (joinDeps o.behind deps))]

/-- The end of an operation: flag, hold, arrival, in that order; its own writes are what it releases (Table 13-2), and what the end of its strand releases (R287). -/
def endOp (s : State) (o : Op) (deps : List Nat) : List Upd :=
  (if deps.isEmpty then [] else [.dep o.owner deps]) ++
  flagDepsOf s o deps ++ flagFallOf s o ++ releaseHold s o deps ++ arrivalOf s o deps ++ [.opDel o.id]

/-! ## Traps: the frame (Table 18-5) -/

/-- What a trap of an instruction says: cause, detail, pending replay kind, unfinished lanes, fault addresses. -/
structure TrapInfo where
  cause : Nat
  detail : Word
  kind : Nat
  unfinished : Lanes
  addrs : List Word
  more : Bool
  op : Nat
  /-- overlay and word of the pending instruction, where it is not the split's own word -/
  at_ : Option (Nat × Nat)
  /-- the split as it stood at the instruction the frame names, where it has gone on since (R233) -/
  place : Option Split
  /-- the flag that counts the word from its park on (R92), as SETF names it -/
  flag : Nat
  deriving DecidableEq, Repr

/-- A trap with a cause alone: nothing was done, and nothing is replayed. -/
def TrapInfo.plain (cause : Nat) : TrapInfo :=
  { cause := cause, detail := 0, kind := 0, unfinished := 0, addrs := [], more := false, op := 0, at_ := none, place := none, flag := 0 }

/-- Causes (Table 18-6). -/
def cIllegalInstr : Nat := 0x01
def cIllegalOperand : Nat := 0x02
def cClauseClass : Nat := 0x03
def cIllegalHeader : Nat := 0x04
def cOverlayMiss : Nat := 0x05
def cOverlayEnd : Nat := 0x06
def cPage1 : Nat := 0x07
def cPage2 : Nat := 0x08
def cPermission : Nat := 0x09
def cFormat : Nat := 0x0A
def cSegLimit : Nat := 0x0B
def cPlaneMismatch : Nat := 0x0C
def cBounded : Nat := 0x0D
def cSameAddr : Nat := 0x0E
def cPoison : Nat := 0x0F
def cDrift : Nat := 0x10
def cAccOwner : Nat := 0x11
def cLaneFile : Nat := 0x12
def cUserTrap : Nat := 0x13
def cMisaligned : Nat := 0x14
def cWatchdog : Nat := 0x15
def cSplitLimit : Nat := 0x16
def cQueueMisuse : Nat := 0x17
def cPrivilege : Nat := 0x18
def cBoundExceeded : Nat := 0x19

/-- FRAME0 (Table 18-5). -/
def Trap.frame0 (t : Trap) : Word :=
  BitVec.ofNat 64 (t.addrs.length * 2 ^ 48 + (if t.more then 2 ^ 47 else 0) + (if t.hdrSat then 2 ^ 46 else 0) +
    t.idx % 16 * 2 ^ 42 + t.split % 4 * 2 ^ 40 + t.cause)
/-- FRAME1: the clause address in link-word layout. -/
def Trap.frame1 (t : Trap) : Word := BitVec.ofNat 64 (t.clauseOvl % 4096 * 2 ^ 32 + t.clausePc % 32768)
/-- Its cause is a page fault: the frame waits for the page-request queue (R311). -/
def Trap.paging (t : Trap) : Bool := t.cause = cPage1 || t.cause = cPage2
/-- Pending replay kind: FRAME2[63:60]. -/
def Trap.kind (t : Trap) : Nat := fieldOf t.w2 60 4
/-- The frame word n of a trap (Table 18-5). -/
def Trap.word (t : Trap) (n : Nat) : Word :=
  match n with
  | 0 => t.frame0
  | 1 => t.frame1
  | 2 => t.w2
  | 3 => t.detail
  | n =>
    if n < 20 then (t.unfinished.extractLsb' (64 * (n - 4)) 64)
    else if n < 36 then t.addrs.getD (n - 20) 0
    else 0

/-- A result on its way to a latch. -/
def isLatch : LUpd → Bool
  | .latS .. => true
  | .latL .. => true
  | _ => false

/-- The trap of a split at its current word, or at the instruction it has gone on from. -/
def mkTrap (st : Strand) (now_ : Split) (i : TrapInfo) : Trap :=
  let sp := i.place.getD now_
  let at_ := match sp.clause with | some c => c.at_ | none => sp.pc
  { split := sp.num, cause := i.cause, addrs := i.addrs.take 16, more := i.more, hdrSat := sp.clause.isSome,
    idx := sp.idx, clauseOvl := sp.ovl, clausePc := at_,
    w2 := if i.kind = 0 then 0 else
      let p := i.at_.getD (sp.ovl, sp.pc)
      BitVec.ofNat 64 (i.kind * 2 ^ 60 + p.1 % 4096 * 2 ^ 32 + p.2 % 32768),
    detail := i.detail, unfinished := i.unfinished, op := i.op, tags := [], refused := [], posted := false, needs := [], flag := i.flag, was := now_.run,
    latS := st.latS, latL := st.latL, latSeed := st.latSeed, latOn := st.delayed.filter fun d => isLatch d.2 }

/-- The latches a frame keeps, with a change made to them. -/
def Trap.onLatch (t : Trap) (u : LUpd) : Trap :=
  match u with
  | .latS l v => { t with latS := mapSet t.latS l v }
  | .latL l lane v => { t with latL := mapSet t.latL (l * 16384 + lane) v }
  | _ => t
/-- The results that have reached the latches of a trapped clause by cycle n (R93, R315). -/
def Trap.settle (t : Trap) (n : Nat) : Trap :=
  { (t.latOn.filter fun d => d.1 ≤ n).foldl (fun t d => t.onLatch d.2) t with latOn := t.latOn.filter fun d => n < d.1 }

/-- Settles the delayed results whose cycle has come (R89), and those a frame's latches await. -/
def settle (k t : Nat) : Eff := fun s =>
  let st := s.strand k
  (st.delayed.filter fun d => d.1 ≤ t).map (fun d => Upd.loc k d.2) ++
  [.delayed k (st.delayed.filter fun d => t < d.1)] ++
  (match st.frame with | some f => if f.latOn.isEmpty then [] else [.trap k (some (f.settle t))] | none => []) ++
  (if st.pending.all fun f => f.latOn.isEmpty then [] else [.pendTrap k (st.pending.map fun f => f.settle t)])

/-- The identity word of a trap-queue record (R313 w3). -/
def strandIdent (s : State) (k : Nat) : Word :=
  let st := s.strand k
  let id := ((mapGet s.launches st.launch).map (·.ident)).getD 0
  BitVec.ofNat 64 (st.core % 256 + st.slot % 16 * 2 ^ 8 + st.level % 4 * 2 ^ 12 + id % 2 ^ 32 * 2 ^ 32)

/-- The trap-queue record of a strand's trap (R313). -/
def trapRecord (s : State) (k : Nat) (t : Trap) : TrapRec :=
  { w0 := t.frame0, w1 := t.frame1, w2 := t.detail, w3 := strandIdent s k,
    w4 := BitVec.ofNat 64 (s.strand k).number, strand := some k }

/-- Adds a record to a partition's records waiting to be posted, in order of parking (R313). -/
def postTrap (p : Nat) (r : TrapRec) : Eff := fun s =>
  let x := s.part p
  [.part p { x with traps := x.traps ++ [r] }]

/-! ## Page requests (R348, R349) -/

/-- Distinct pairs of stage and page, the first of each. -/
def distinctPages (l : List PageNeed) : List PageNeed :=
  l.foldl (fun acc x => if acc.any (fun y => y.stage = x.stage && y.page = x.page) then acc else acc ++ [x]) []
/-- The requests of one park, at most 16 (R348). -/
def distinctNeeds (l : List PageNeed) : List PageNeed := (distinctPages l).take 16

/-- The first value of the tag counter from `t` on that no outstanding request has (R349); n bounds how many are passed over. -/
def unusedTag (used : List Nat) : Nat → Nat → Nat
  | 0, t => t % 2 ^ 32
  | n + 1, t => if used.contains (t % 2 ^ 32) then unusedTag used n (t + 1) else t % 2 ^ 32

/-- Who a page request is for (Table 20-5): its space, the core and slot fields, the requester's code, the launch, the parked strand, the peer. -/
structure Requester where
  asid : Nat
  core : Nat
  slot : Nat
  code : Nat
  ident : Nat
  strand : Option Nat
  dev : Nat

/-- One request record (Table 20-5). -/
def Requester.req (q : Requester) (tag : Nat) (n : PageNeed) : PageReq where
  tag := tag
  w0 := BitVec.ofNat 64 (tag * 2 ^ 32 + q.asid % 65536 * 2 ^ 16 + q.core % 256 * 256 + q.slot % 16 * 16 + n.stage * 8 + n.access)
  w1 := BitVec.ofNat 64 (n.page * 8192)
  w2 := BitVec.ofNat 64 n.va
  w3 := BitVec.ofNat 64 (q.dev * 2 ^ 38 + q.code * 2 ^ 32 + q.ident % 2 ^ 32)
  posted := false
  strand := q.strand

/-- The records of a list of needs, each with the next tag that no request outstanding has. -/
def reqsFrom (q : Requester) : List Nat → Nat → List PageNeed → List PageReq
  | _, _, [] => []
  | used, t, n :: r =>
    let tag := unusedTag used used.length t
    q.req tag n :: reqsFrom q (tag :: used) (tag + 1) r

/-- Request records for an agent of a partition. -/
def makeReqs (x : Part) (q : Requester) (l : List PageNeed) : List PageReq := reqsFrom q (x.reqs.map (·.tag)) x.nextTag l

/-- Puts requests into a partition and advances its tag counter. -/
def addReqs (p : Nat) (rs : List PageReq) : Eff := fun s =>
  let x := s.part p
  [.part p { x with reqs := x.reqs ++ rs, nextTag := match rs.getLast? with | some r => (r.tag + 1) % 2 ^ 32 | none => x.nextTag }]

/-! ## Placing a strand in a slot -/

/-- Words of a footprint on the grid: [base·m, (base + count)·m) (R81). -/
def footRange (win : Word) (base count : Nat) : Nat × Nat :=
  let m := if winVirtual win then winMult win else 1
  (base * m, (base + count) * m)

/-- Grid rows and columns a window covers: first row, past row, first column, past column. -/
def winBox (w : Word) : Nat × Nat × Nat × Nat :=
  if winVirtual w then (0, min 32 (winH w), 0, min 32 (winW w))
  else (winRow w, winRow w + winH w, winCol w, winCol w + winW w)

def rangesMeet (a b c d : Nat) : Bool := a < d && c < b

/-- Two launch windows share a lane and their footprints a word (R81). -/
def footConflict (w1 : Word) (b1 c1 : Nat) (w2 : Word) (b2 c2 : Nat) : Bool :=
  let x := winBox w1
  let y := winBox w2
  let f := footRange w1 b1 c1
  let g := footRange w2 b2 c2
  rangesMeet x.1 x.2.1 y.1 y.2.1 && rangesMeet x.2.2.1 x.2.2.2 y.2.2.1 y.2.2.2 && rangesMeet f.1 f.2 g.1 g.2

/-- The strands in a core's slots. -/
def State.onCore (s : State) (core : Nat) : List (Nat × Strand) :=
  s.strands.filter fun e => e.1 < 4096 && e.1 / 16 = core

/-- The strands that issue on a core: those in its slots, or the routine of a Wilnum core. -/
def State.issuers (s : State) (core : Nat) : List (Nat × Strand) :=
  if 256 ≤ core then s.strands.filter fun e => e.1 = wilKey (core - 256) else s.onCore core

/-- The slot a strand takes on a core: the lowest free one (DESIGN CHOICE, notes/assumptions/90.md). -/
def State.freeSlot (s : State) (core : Nat) : Option Nat :=
  (List.range 16).find? fun n => (mapGet s.strands (slotKey core n)).isNone

/-- A window and footprint can stand beside the strands of a core (R81). -/
def State.footFree (s : State) (core : Nat) (w : Word) (base count : Nat) : Bool :=
  (s.onCore core).all fun e => !footConflict w base count e.2.launchWin e.2.fpBase e.2.fpCount

/-! ## Launch records (Table 8-15) -/

def recWord (r : List Word) (n : Nat) : Word := r.getD n 0
def recOverlay (r : List Word) : Nat := fieldOf (recWord r 0) 0 16
def recEntry (r : List Word) : Nat := fieldOf (recWord r 0) 16 16
def recPrio (r : List Word) : Nat := fieldOf (recWord r 0) 32 2
def recH (r : List Word) : Nat := fieldOf (recWord r 0) 40 8
def recW (r : List Word) : Nat := fieldOf (recWord r 0) 48 8
def recFpCount (r : List Word) : Nat := if fieldOf (recWord r 0) 56 8 = 0 then 256 else fieldOf (recWord r 0) 56 8
def recFpBase (r : List Word) : Nat := fieldOf (recWord r 1) 32 8
def recCount (r : List Word) : Nat := fieldOf (recWord r 1) 0 32

/-- A strand as placement leaves it (Table 4-1, R81, R95): one split with every window lane, at the entry. -/
def newStrand (s : State) (core slot : Nat) (launch : Nat) (l : Launch) (number : Nat) (segs : Map Seg)
    (params : List Word) (dep : List Nat) : Strand :=
  let w := winOf (recH l.rec_) (recW l.rec_)
  { Strand.empty with
    core := core, slot := slot, window := w, launchWin := w, g := segs, launch := launch, number := number,
    part := l.part, asid := l.asid, level := l.level, prio := l.prio, fpBase := recFpBase l.rec_,
    fpCount := recFpCount l.rec_, params := params, latSeed := s.fresh, dep := dep, placedAt := s.now,
    lastEnd := s.now, entryKey := some (recOverlay l.rec_),
    splits := [{ Split.none_ with mask := winMask w, ovl := recOverlay l.rec_, pc := recEntry l.rec_, lastIssue := s.now, dep := dep }] }

/-! ## The physical map (R116 to R118) -/

def inHbm (pa : Nat) : Bool := pa < 2 ^ 39
def State.inLpddr (s : State) (pa : Nat) : Bool := 2 ^ 40 ≤ pa && pa < 2 ^ 40 + s.lpddr
def State.inMain (s : State) (pa : Nat) : Bool := inHbm pa || s.inLpddr pa
def State.inDrevar (s : State) (pa : Nat) : Bool := s.regs.drevarBase ≤ pa && pa < s.regs.drevarLimit
def State.inLog (s : State) (pa : Nat) : Bool := s.regs.logBase ≤ pa && pa < s.regs.logLimit
/-- Mapped at all (R116). -/
def State.mapped (s : State) (pa : Nat) : Bool := s.inMain pa || onChip pa

/-- Fields of an on-chip address (Table 5-3). -/
def ocDie (pa : Nat) : Nat := pa / 2 ^ 40 % 16
def ocCluster (pa : Nat) : Nat := pa / 2 ^ 34 % 64
def ocCore (pa : Nat) : Nat := pa / 2 ^ 32 % 4
def ocType (pa : Nat) : Nat := pa / 2 ^ 28 % 16
def ocOff (pa : Nat) : Nat := pa % 2 ^ 28
/-- Package cluster number of an on-chip address on a grid die. -/
def ocPkgCluster (pa : Nat) : Nat := 16 * ocDie pa + ocCluster pa
def ocPkgCore (pa : Nat) : Nat := 4 * ocPkgCluster pa + ocCore pa
/-- On-chip address of an offset in a cluster-level window. -/
def clusterPA (cluster type off : Nat) : Nat :=
  0x7F * 2 ^ 44 + cluster / 16 * 2 ^ 40 + cluster % 16 * 2 ^ 34 + type * 2 ^ 28 + off
def scratchPA (cluster off : Nat) : Nat := clusterPA cluster 3 off
def accPA (cluster slot y x : Nat) : Nat := clusterPA cluster 4 (slot * 65536 + (y * 128 + x) * 4)
/-- Size of a grid-die window (Table 5-4); 0 for reserved codes. -/
def ocSize (type : Nat) : Nat :=
  match type with
  | 0 => 2 ^ 20 | 1 => 2 ^ 18 | 2 => 2 ^ 20 | 3 => 2 ^ 22 | 4 => 2 ^ 21 | 5 => 2 ^ 14 | 6 => 2 ^ 10 | _ => 0
/-- The window may be read, or written, at a level (R118, R309's state of the slot apart). -/
def ocAllowed (pa n level : Nat) (write : Bool) : Bool :=
  ocDie pa < 4 && ocCluster pa < 16 && ocOff pa + n ≤ ocSize (ocType pa) &&
  (ocType pa < 3 || ocCore pa = 0) &&
  (match ocType pa with
   | 0 | 3 => true
   | 1 | 5 => !write
   | 2 => 1 ≤ level
   | 4 | 6 => !write || 1 ≤ level
   | _ => false)

/-- Home die of a main-memory address (R120). -/
def homeDie (pa : Nat) : Nat := if inHbm pa then pa / 2 ^ 37 else pa / 2 ^ 13 % 2

/-! ## Control words kept as records, read as words -/

def bit (b : Bool) (n : Nat) : Nat := if b then 2 ^ n else 0

/-- Word n of a queue control block (Table 5-5); head and tail stand in w2 and w3. -/
def Queue.word (q : Queue) (n : Nat) : Word :=
  match n with
  | 0 => q.w0
  | 1 => q.w1
  | 2 => BitVec.ofNat 64 q.head
  | 3 => BitVec.ofNat 64 q.tail
  | _ => 0
def Queue.setWord (q : Queue) (n : Nat) (v : Word) : Queue :=
  match n with
  | 0 => { q with w0 := v &&& 0x3FFFFF#64 }
  | 1 => { q with w1 := v &&& 0xFFFF#64 }
  | 2 => { q with head := fieldOf v 0 32 }
  | 3 => { q with tail := fieldOf v 0 32 }
  | _ => q
def Queue.enabled (q : Queue) : Bool := fieldOf q.w0 0 1 = 1
def Queue.hostFed (q : Queue) : Bool := fieldOf q.w0 1 1 = 1
def Queue.peerFed (q : Queue) : Bool := fieldOf q.w0 2 1 = 1
def Queue.ring (q : Queue) : Nat := fieldOf q.w0 3 19 * 8
def Queue.depth (q : Queue) : Nat := fieldOf q.w1 0 16
/-- m = depth·floor(2^32/depth) (R133). -/
def Queue.modulus (q : Queue) : Nat := q.depth * (2 ^ 32 / q.depth)
def Queue.used (q : Queue) : Nat := (q.tail + q.modulus - q.head) % q.modulus
def Queue.allowance (q : Queue) : Nat := q.depth - q.used
/-- Usable: enabled, a depth, the ring within scratch (R134). -/
def Queue.usable (q : Queue) : Bool := q.enabled && 0 < q.depth && q.ring + 8 * q.depth ≤ 2 ^ 22

/-- The state word of a crossbar array (Table 12-5). -/
def Xbar.stateWord (x : Xbar) : Nat :=
  x.spares * 256 + bit x.retired 7 + bit x.worn 6 + bit x.programming 5 + bit x.calibrating 4 + bit x.drift 3 +
  bit x.calibrated 2 + bit x.bound.isSome 1 + bit x.allocated 0
/-- 32-bit word at offset 4·n of the crossbar status window (Table 12-5). -/
def Xbar.word32 (x : Xbar) (n : Nat) : Nat :=
  match n with
  | 0 => x.alpha.toNat
  | 1 => x.gamma.toNat
  | 2 => x.g.toNat
  | 3 => x.sigma.toNat
  | 4 => x.stateWord
  | 6 => x.cals % 2 ^ 32
  | 7 => x.cals / 2 ^ 32 % 2 ^ 32
  | 8 => x.rowsProg % 2 ^ 32
  | 9 => x.rowsProg / 2 ^ 32 % 2 ^ 32
  | 10 => (match x.bound with | some k => k / 16 % 4 * 256 + k % 16 | none => 0)
  | 11 => x.part
  | n =>
    if 16 ≤ n && n < 32 then
      x.spareMap.getD (2 * (n - 16)) 0xFFFF + 65536 * x.spareMap.getD (2 * (n - 16) + 1) 0xFFFF
    else 0

/-! ## Code of the current overlay, and the header a split stands at -/

/-- An overlay's copy in a core's store. -/
def Overlay.is (o : Overlay) (core part idx : Nat) (routine : Bool) : Bool :=
  o.core = core && o.part = part && o.idx = idx && o.routine = routine
/-- The resident overlay of an index (R102). -/
def State.resident (s : State) (core part idx : Nat) (routine : Bool) : Option Overlay :=
  s.overlays.find? fun o => o.is core part idx routine && !o.stale

/-- Length in words of a resident overlay. -/
def Overlay.words (o : Overlay) : Nat := o.granules * 256

/-- The overlay a split runs in, as its core's store holds it: a split goes on in one that only its next call would miss (notes/assumptions/107.md). -/
def State.codeOf (s : State) (st : Strand) (ovl : Nat) : Option Overlay :=
  match s.resident st.core st.part ovl st.isRoutine with
  | some o => some o
  | none => s.overlays.find? fun o => o.is st.core st.part ovl st.isRoutine
/-- Length in words; 0 where the overlay is not resident. -/
def State.codeLen (s : State) (st : Strand) (ovl : Nat) : Nat := ((s.codeOf st ovl).map Overlay.words).getD 0
/-- The word at an index. -/
def State.codeWord (s : State) (st : Strand) (ovl pc : Nat) : Option Word :=
  match s.codeOf st ovl with
  | some o => if pc < o.words then some (o.code.getD pc 0) else none
  | none => none

/-- The header's waits hold (R87). -/
def waitsHold (st : Strand) (h : Header) (t : Nat) : Bool :=
  let named := (List.range 12).filter fun f => h.wait.getLsbD f
  named.isEmpty ||
  (if h.any = 1#1 then named.any fun f => st.flagZeroAt f t else named.all fun f => st.flagZeroAt f t)

/-- The header a split stands at. -/
def headerAt (s : State) (st : Strand) (sp : Split) : Option Header :=
  if sp.clause.isNone then (s.codeWord st sp.ovl sp.pc).bind decodeHeader else none

/-- The split stands at a header whose waits do not hold (R87). -/
def Split.atWait (s : State) (st : Strand) (sp : Split) : Bool :=
  match headerAt s st sp with
  | some h => !waitsHold st h s.now
  | none => false

/-! ## The strand state image (Table 18-4) -/

/-- State code of a strand (TGTST): 1 ready, 2 waiting, 3 parked, 4 suspended. -/
def State.strandCode (s : State) (k : Nat) : Nat :=
  match mapGet s.strands k with
  | none => 0
  | some st =>
    if st.suspended then 4
    else if st.frame.isSome then 3
    else if st.splits.all (fun x => x.run ≠ .ready || x.atWait s st) then 2
    else 1

/-- The link word of an overlay and word (Table 9-6). -/
def linkWord (cross : Bool) (ovl pc : Nat) : Word :=
  BitVec.ofNat 64 (bit cross 63 + ovl % 4096 * 2 ^ 32 + pc % 32768)

/-- Wait state of a split, as the image holds it. -/
def Run.code : Run → Nat
  | .ready => 1
  | .hold _ => 2
  | .merge .. => 2
  | .exiting => 2
  | .overlay _ => 2
  | .parked => 3

/-- 64-bit word n of split record i of the image. -/
def splitWord (s : State) (st : Strand) (i n : Nat) : Word :=
  match st.splits.find? (fun x => x.num = i) with
  | none => 0
  | some sp =>
    match n with
    | 0 => linkWord false sp.ovl sp.pc
    | 1 => BitVec.ofNat 64 sp.origin.length
    | 2 => BitVec.ofNat 64 (sp.origin.getD 0 0)
    | 3 => BitVec.ofNat 64 (sp.origin.getD 1 0)
    | 4 => BitVec.ofNat 64 (sp.origin.getD 2 0)
    | 5 => BitVec.ofNat 64 (if sp.run = .ready && sp.atWait s st then 2 else Run.code sp.run)
    | n => if 16 ≤ n then sp.mask.extractLsb' (64 * (n - 16)) 64 else 0

/-- The latches an image holds: a frame's within a clause (R315), else the strand's. -/
def Strand.latches (st : Strand) : Map Word × Map LWord × Nat :=
  match st.frame with
  | some t => if t.idx = 0 then (st.latS, st.latL, st.latSeed) else (t.latS, t.latL, t.latSeed)
  | none => (st.latS, st.latL, st.latSeed)
/-- Latch lane part of lane n as the image holds it. -/
def Strand.latLane (st : Strand) (l n : Nat) : LWord :=
  (mapGet st.latches.2.1 (l * 16384 + n)).getD (Config.freeLane (8 * st.latches.2.2 + l) n)
def Strand.latScalar (st : Strand) (l : Nat) : Word := (mapGet st.latches.1 l).getD (Config.freeWord (8 * st.latches.2.2 + l))
/-- A latch part written in the image. -/
def Strand.setLatch (st : Strand) (u : LUpd) : Strand :=
  match st.frame with
  | some t => if t.idx = 0 then st.applyL u else { st with frame := some (t.onLatch u) }
  | none => st.applyL u

/-- Two 32-bit words as one. -/
def pair32 (lo hi : Nat) : Word := BitVec.ofNat 64 (lo % 2 ^ 32 + hi % 2 ^ 32 * 2 ^ 32)

/-- 64-bit word n (offset 8·n) of the image of a strand (Table 18-4). The opaque bytes read as zero: only CTXLOAD interprets them, and the model keeps what they stand for with the saved strand (log 15). -/
def imageWord (s : State) (k : Nat) (n : Nat) : Word :=
  let st := s.strand k
  if n < 0x20 then st.sreg n
  else if n < 0xA0 then ((st.mreg ((n - 0x20) / 16)).extractLsb' (64 * ((n - 0x20) % 16)) 64)
  else if n < 0xB0 then st.pdreg (n - 0xA0)
  else if n < 0xB8 then pair32 (st.pbreg (2 * (n - 0xB0))).toNat (st.pbreg (2 * (n - 0xB0) + 1)).toNat
  else if n < 0xE8 then
    let g := st.segreg ((n - 0xB8) / 3)
    match (n - 0xB8) % 3 with
    | 0 => g.base
    | 1 => g.limit
    | _ => g.attr.setWidth 64
  else if n = 0xE8 then BitVec.ofNat 64 ((List.range 12).foldl (fun a f => a + st.flag f * 16 ^ f) 0)
  else if n = 0xE9 then st.window
  else if n = 0xEA then pair32 st.status.toNat (s.strandCode k + st.level * 16)
  else if n = 0xEB then pair32 (((mapGet s.launches st.launch).map (·.ident)).getD 0) st.number
  else if n = 0xEC then
    BitVec.ofNat 64 (st.fpBase % 256 + st.fpCount % 256 * 256 + st.core % 256 * 2 ^ 24 + st.part % 64 * 2 ^ 32)
  else if 0x100 ≤ n && n < 0x180 then splitWord s st ((n - 0x100) / 32) ((n - 0x100) % 32)
  else if 0x180 ≤ n && n < 0x1C0 then (match st.frame with | some t => t.word (n - 0x180) | none => 0)
  else if 0x200 ≤ n && n < 0xA00 then
    let l := (n - 0x200) / 512
    let i := 2 * ((n - 0x200) % 512)
    pair32 (st.latLane l i).toNat (st.latLane l (i + 1)).toNat
  else if 0xA00 ≤ n && n < 0xA04 then st.latScalar (n - 0xA00)
  else 0

/-- The image as a save area holds it: its opaque bytes begin with the token of the saved strand (log 15). -/
def savedWord (s : State) (k token n : Nat) : Word := if n = 0x1C0 then BitVec.ofNat 64 token else imageWord s k n

/-- Bits of FRAME2 that are no reserved ones (Table 18-5). -/
def frame2Mask : Word := 0xF0000FFF00007FFF#64

/-- Bits of image word n that hold a field (Tables 18-4, 18-5 and 9-6): the reserved ones read as zero (R6). -/
def imageMask (n : Nat) : Word :=
  if n < 0xB8 then BitVec.allOnes 64
  else if n < 0xE8 then (if (n - 0xB8) % 3 = 2 then 0x3FFF#64 else BitVec.allOnes 64)
  else if n < 0x100 then
    match n with
    | 0xE8 => 0xFFFFFFFFFFFF#64
    | 0xE9 => 0xFFFFFF#64
    | 0xEA => 0x370000007F#64
    | 0xEB => BitVec.allOnes 64
    | 0xEC => 0x3FFF00FFFF#64
    | _ => 0
  else if n < 0x180 then
    match (n - 0x100) % 32 with
    | 0 => 0xFFF00007FFF#64
    | 1 => 3#64
    | 5 => 7#64
    | i => if i < 5 || 16 ≤ i then BitVec.allOnes 64 else 0
  else if n < 0x1A4 then
    match n with
    | 0x180 => 0xFFFF00000000FF#64
    | 0x181 => 0xFFF00007FFF#64
    | 0x182 => frame2Mask
    | _ => BitVec.allOnes 64
  else if n < 0x1C0 then 0
  else if n < 0xA04 then BitVec.allOnes 64
  else 0

/-- Frame word n of a trap, written (Table 18-5). -/
def Trap.setWord (t : Trap) (n : Nat) (v : Word) : Trap :=
  match n with
  | 0 =>
    { t with cause := fieldOf v 0 8, split := fieldOf v 40 2, idx := fieldOf v 42 4, hdrSat := fieldOf v 46 1 = 1, more := fieldOf v 47 1 = 1,
             addrs := (t.addrs ++ List.replicate 16 0).take (min 16 (fieldOf v 48 8)) }
  | 1 => { t with clauseOvl := fieldOf v 32 12, clausePc := fieldOf v 0 15 }
  | 2 => { t with w2 := v &&& frame2Mask }
  | 3 => { t with detail := v }
  | n =>
    if n < 20 then
      let sh := 64 * (n - 4)
      { t with unfinished := (t.unfinished &&& ~~~((BitVec.allOnes 64).setWidth 16384 <<< sh)) ||| (v.setWidth 16384 <<< sh) }
    else { t with addrs := t.addrs.set (n - 20) v }

/-- Word n of a split record of the image, written. A pc of its own makes the split go on at a header there. -/
def Split.setWord (sp : Split) (n : Nat) (v : Word) : Split :=
  match n with
  | 0 =>
    if sp.ovl % 4096 = fieldOf v 32 12 && sp.pc % 32768 = fieldOf v 0 15 then sp
    else { sp with ovl := fieldOf v 32 12, pc := fieldOf v 0 15, clause := none }
  | 1 => { sp with origin := (sp.origin ++ [0, 0, 0]).take (min 3 v.toNat) }
  | 5 => if v.toNat % 8 = sp.run.code then sp else if v.toNat % 8 = 1 then { sp with run := .ready } else sp
  | n =>
    if 2 ≤ n && n < 5 then { sp with origin := sp.origin.set (n - 2) v.toNat }
    else if 16 ≤ n then
      let sh := 64 * (n - 16)
      { sp with mask := (sp.mask &&& ~~~((BitVec.allOnes 64).setWidth 16384 <<< sh)) ||| (v.setWidth 16384 <<< sh) }
    else sp

/-- A split record written: one whose wait state is written zero is none; one that was none comes to be (notes/assumptions/15.md). -/
def setSplitWord (l : List Split) (i n : Nat) (v : Word) : List Split :=
  match l.find? fun x => x.num = i with
  | some sp => if n = 5 && v = 0 then l.filter fun x => x.num ≠ i else putSplit l (sp.setWord n v)
  | none => if v = 0 then l else putSplit l (Split.setWord { Split.none_ with num := i } n v)

/-- A K-level write of image word n into the strand (R309). The core, the partition, the state code and the opaque words keep what the device put there. A bound register takes the pattern written, a NaN too (DESIGN CHOICE, notes/assumptions/112.md). -/
def imageSet (launches : Map Launch) (st : Strand) (n : Nat) (v : Word) : Strand :=
  if n < 0x20 then st.applyL (.s n v)
  else if n < 0xA0 then
    let r := (n - 0x20) / 16
    let sh := 64 * ((n - 0x20) % 16)
    st.applyL (.m r ((BitVec.allOnes 64).setWidth 16384 <<< sh) (v.setWidth 16384 <<< sh))
  else if n < 0xB0 then st.applyL (.pd (n - 0xA0) v)
  else if n < 0xB8 then
    (st.applyL (.pb (2 * (n - 0xB0)) (v.setWidth 32))).applyL (.pb (2 * (n - 0xB0) + 1) (v.extractLsb' 32 32))
  else if n < 0xE8 then
    let i := (n - 0xB8) / 3
    let g := st.segreg i
    let g' := match (n - 0xB8) % 3 with
      | 0 => { g with base := v, win := none }
      | 1 => { g with limit := v, win := none }
      | _ => { g with attr := v.setWidth 14, win := none }
    { st with g := mapSet st.g i g' }
  else if n = 0xE8 then
    { st with cf := (List.range 12).foldl (fun a f => mapSet a f (min 8 (fieldOf v (4 * f) 4))) st.cf }
  else if n = 0xE9 then { st with window := v &&& 0xFFFFFF#64 }
  else if n = 0xEA then { st with status := v.setWidth 7, level := fieldOf v 36 2 }
  else if n = 0xEB then
    let l := match launches.find? fun e => e.2.part = st.part && e.2.ident % 2 ^ 32 = fieldOf v 0 32 && !e.2.ended with
      | some e => e.1
      | none => st.launch
    { st with launch := l, number := fieldOf v 32 32 }
  else if n = 0xEC then { st with fpBase := fieldOf v 0 8, fpCount := if fieldOf v 8 8 = 0 then 256 else fieldOf v 8 8 }
  else if 0x100 ≤ n && n < 0x180 then { st with splits := setSplitWord st.splits ((n - 0x100) / 32) ((n - 0x100) % 32) v }
  else if 0x180 ≤ n && n < 0x1A4 then { st with frame := st.frame.map fun t => t.setWord (n - 0x180) v }
  else if 0x200 ≤ n && n < 0xA00 then
    let l := (n - 0x200) / 512
    let i := 2 * ((n - 0x200) % 512)
    (st.setLatch (.latL l i (v.setWidth 32))).setLatch (.latL l (i + 1) (v.extractLsb' 32 32))
  else if 0xA00 ≤ n && n < 0xA04 then st.setLatch (.latS (n - 0xA00) v)
  else st

/-! ## The partition control window (Tables 20-1, 19-1, 20-7) -/

/-- Word n of a launch chain control block. -/
def chainWord (s : State) (part c n : Nat) : Word :=
  let x := s.chain (chainKey part c)
  match n with
  | 0 => BitVec.ofNat 64 (x.refusal * 256 + x.ceiling * 16 + bit x.grant 2 + bit x.halted 1 + bit x.enabled 0)
  | 1 => BitVec.ofNat 64 x.head
  | 2 => BitVec.ofNat 64 x.tail
  | 4 => BitVec.ofNat 64 x.refused
  | n =>
    if 8 ≤ n && n < 12 then x.mask.extractLsb' (64 * (n - 8)) 64
    else if 12 ≤ n && n < 20 then BitVec.ofNat 64 (s.ct (ctKey part c (n - 12))).count
    else 0

/-- Word n of a swept region descriptor. -/
def regionWord (r : Region) (n : Nat) : Word :=
  match n with
  | 0 => BitVec.ofNat 64 (bit r.failed 7 + bit r.busy 6 + r.die * 16 + bit r.active 0)
  | 1 => BitVec.ofNat 64 r.base
  | 2 => BitVec.ofNat 64 (r.len + r.mask.toNat * 2 ^ 32)
  | _ => BitVec.ofNat 64 (r.lap % 2 ^ 32)

/-- The 64-bit word at offset `off` of partition p's control window; write-only ports and reserved offsets read zero. -/
def controlWord (s : State) (p off : Nat) : Word :=
  let x := s.part p
  if off = 0x0000 then BitVec.ofNat 64 (bit (x.busy || x.invBusy || x.genBusy) 1 + bit x.enabled 0)
  else if off = 0x0008 then BitVec.ofNat 64 x.s2root
  else if off = 0x0010 then BitVec.ofNat 64 (x.asidFirst + x.asidCount * 2 ^ 16)
  else if off = 0x0018 then BitVec.ofNat 64 x.asidTab
  else if off = 0x0020 then BitVec.ofNat 64 (bit x.plaintext 31 + x.keyCount * 2 ^ 10 + x.keyFirst)
  else if off = 0x0028 then BitVec.ofNat 64 x.gen2
  else if off = 0x0030 then BitVec.ofNat 64 (bit x.invBusy 63)
  else if off = 0x0040 then x.ktempl
  else if off = 0x0048 then x.trapq
  else if off = 0x0050 then x.pageq
  else if off = 0x0058 then x.accarea
  else if off = 0x0060 then BitVec.ofNat 64 x.pageTail
  else if off = 0x0068 then BitVec.ofNat 64 x.pageHead
  else if off = 0x0070 then BitVec.ofNat 64 x.trapTail
  else if off = 0x0078 then BitVec.ofNat 64 x.trapHead
  else if off = 0x0080 then BitVec.ofNat 64 x.poolBase
  else if off = 0x0088 then BitVec.ofNat 64 x.poolEntries
  else if off = 0x00A0 then BitVec.ofNat 64 x.feedTarget
  else if off = 0x00B0 then BitVec.ofNat 64 (x.feedResult + x.feedIgnored % 2 ^ 32 * 2 ^ 32)
  else if 0x0100 ≤ off && off < 0x0180 then BitVec.ofNat 64 ((mapGet x.chainAsid ((off - 0x100) / 8)).getD 0)
  else if 0x0200 ≤ off && off < 0x0400 then (mapGet x.imports ((off - 0x200) / 8)).getD 0
  else if 0x0400 ≤ off && off < 0x0480 then regionWord (x.region ((off - 0x400) / 32)) ((off - 0x400) % 32 / 8)
  else if off = 0x3F00 then x.sched
  else if 0x4000 ≤ off && off < 0x5000 then chainWord s p ((off - 0x4000) / 256) ((off - 0x4000) % 256 / 8)
  else 0

/-! ## Bytes by physical address -/

/-- Code word n of a core's store: the word of the overlay that occupies its granule (R155), zero in a granule that none occupies (notes/assumptions/88.md). -/
def storeWord (s : State) (core n : Nat) : Word :=
  match s.overlays.find? fun o => o.core = core && !o.routine && o.slots.contains (n / 256) with
  | some o => o.code.getD (o.slots.idxOf (n / 256) * 256 + n % 256) 0
  | none => 0

/-- Words of the budget window and the log control blocks on the hinge die (R368, R371). -/
def hingeWord (s : State) (off : Nat) : Word :=
  if 0x10000000 ≤ off && off < 0x10000000 + 16 * 256 * 7 then
    let n := (off - 0x10000000) / 16
    let b := s.budget (n / 256) (n % 256)
    BitVec.ofNat 64 (if off % 16 = 0 then b.limit else b.prev)
  else if 0x20000000 ≤ off && off < 0x20000000 + 64 * 64 then
    let x := s.part ((off - 0x20000000) / 64)
    match off % 64 / 8 with
    | 0 => BitVec.ofNat 64 x.logBase
    | 1 => BitVec.ofNat 64 x.logSize
    | 2 => BitVec.ofNat 64 x.logHead
    | 3 => BitVec.ofNat 64 x.logTail
    | 4 => BitVec.ofNat 64 (bit x.replayMode 0 + x.replayIdent * 2 ^ 32)
    | _ => 0
  else 0

/-- Byte k of a 64-bit word. -/
def byteOf (w : Word) (k : Nat) : Byte := w.extractLsb' (8 * k) 8

/-- Word n of the window of a slot: its strand's image, or what has been written there while the slot was empty (R309). -/
def slotImage (s : State) (k n : Nat) : Word :=
  if (mapGet s.strands k).isSome then imageWord s k n else (mapGet s.slotWords (k * 8192 + n)).getD 0

/-- The byte an on-chip address holds (Tables 5-4, 20-1). -/
def onChipByte (s : State) (pa : Nat) : Byte :=
  let off := ocOff pa
  if ocDie pa = 8 then
    if pa % 2 ^ 40 < 64 * 65536 then byteOf (controlWord s (pa % 2 ^ 40 / 65536) (pa % 65536 / 8 * 8)) (pa % 8)
    else byteOf (hingeWord s (pa % 2 ^ 40 / 8 * 8)) (pa % 8)
  else
    match ocType pa with
    | 0 => ((mapGet s.lanes (ocPkgCore pa * 262144 + off / 4)).getD 0).extractLsb' (8 * (off % 4)) 8
    | 1 => byteOf (storeWord s (ocPkgCore pa) (off / 8)) (off % 8)
    | 2 => byteOf (slotImage s (slotKey (ocPkgCore pa) (off / 65536)) (off % 65536 / 8)) (off % 8)
    | 5 => (BitVec.ofNat 32 ((s.xbar (xbKey (ocPkgCluster pa) (off / 4096))).word32 (off % 4096 / 4))).extractLsb' (8 * (off % 4)) 8
    | 6 =>
      -- w2 and w3 lie at offsets 16 and 24
      byteOf ((s.queue (queueKey (ocPkgCluster pa) (off / 64))).word (off % 64 / 8)) (off % 8)
    | _ => Memory.read s.mem pa

/-- The byte at its home. -/
def State.homeByte (s : State) (pa : Nat) : Byte :=
  if onChip pa then onChipByte s pa else Memory.read s.mem pa

/-- The byte as agents of a die read it: what a write not yet applied there has covered, else the home's (R120, R284). -/
def State.viewByte (s : State) (die pa : Nat) : Byte :=
  if onChip pa then onChipByte s pa
  else
    match s.pend.find? fun p => p.die = die && p.old.any fun c => c.1 = pa with
    | some p => (mapGet p.old pa).getD 0
    | none => Memory.read s.mem pa

/-- n bytes as a number, as a die reads them. -/
def State.viewN (s : State) (die pa : Nat) : Nat → Nat
  | 0 => 0
  | n + 1 => (s.viewByte die pa).toNat + 256 * State.viewN s die (pa + 1) n
def State.homeN (s : State) (pa : Nat) : Nat → Nat
  | 0 => 0
  | n + 1 => (s.homeByte pa).toNat + 256 * State.homeN s (pa + 1) n
/-- n 64-bit words from an address. -/
def State.homeWords (s : State) (pa n : Nat) : List Word :=
  (List.range n).map fun i => BitVec.ofNat 64 (s.homeN (pa + 8 * i) 8)

/-- The mark of a line that the Drevar side has written: the first key it is then read under is its key. -/
def anyKey : Nat := 1024
/-- A line was last written under another key than a page's: what is read there is unspecified (R354). -/
def State.otherKey (s : State) (key pa : Nat) : Bool :=
  !onChip pa && key ≠ anyKey && (match mapGet s.lineKeys (pa / 64) with | some k => k ≠ key && k ≠ anyKey | none => false)
/-- n bytes as a die reads them through a page with a key. -/
def State.viewKN (s : State) (die key pa n : Nat) : Nat :=
  if s.otherKey key pa then (wordOfBytes ((List.range n).map fun i => Config.freeByte (2 ^ 32 + key) (pa + i))).toNat else s.viewN die pa n
def State.homeKN (s : State) (key pa n : Nat) : Nat :=
  if s.otherKey key pa then (wordOfBytes ((List.range n).map fun i => Config.freeByte (2 ^ 32 + key) (pa + i))).toNat else s.homeN pa n
def State.homeKWords (s : State) (key pa n : Nat) : List Word :=
  (List.range n).map fun i => BitVec.ofNat 64 (s.homeKN key (pa + 8 * i) 8)

/-- Bytes of a number, least significant first. -/
def bytesOf (v : Nat) : Nat → List Byte
  | 0 => []
  | n + 1 => BitVec.ofNat 8 v :: bytesOf (v / 256) n

/-- A line is poisoned (R364). -/
def State.poisoned (s : State) (pa n : Nat) : Bool := s.poison.any fun l => l ≤ (pa + n - 1) / 64 && pa / 64 ≤ l

/-- Writes bytes into lane files, queue control and strand state through the on-chip map (R118). A strand that runs sees a lane word so written at once, before it acquires too (DESIGN CHOICE, notes/assumptions/113.md). -/
def onChipWrite (pa : Nat) (bs : List Byte) : List Upd :=
  (List.range bs.length).flatMap fun i =>
    let a := pa + i
    let b := bs.getD i 0
    let off := ocOff a
    match ocType a with
    | 0 =>
      let sh := 8 * (off % 4)
      [.loc 0 (.lane (ocPkgCore a * 262144 + off / 4) (0xFF#32 <<< sh) (b.setWidth 32 <<< sh))]
    | _ => [.mem a b]

/-- A K-level write of a whole aligned word into the queue control or strand state window. -/
def controlWrite (s : State) (pa : Nat) (bs : List Byte) : List Upd :=
  let off := ocOff pa
  let v := wordOfBytes bs
  let old : Word := BitVec.ofNat 64 (s.homeN (pa / 8 * 8) 8)
  let sh := 8 * (pa % 8)
  let on : Word := BitVec.ofNat 64 (256 ^ bs.length - 1) <<< sh
  let w := (old &&& ~~~on) ||| ((v <<< sh) &&& on)
  if ocType pa = 6 then
    let q := queueKey (ocPkgCluster pa) (off / 64)
    [.queue q ((s.queue q).setWord (off % 64 / 8) w)]
  else
    let k := slotKey (ocPkgCore pa) (off / 65536)
    match mapGet s.strands k with
    | none => [.slotWord (k * 8192 + off % 65536 / 8) (w &&& imageMask (off % 65536 / 8))]
    | some st => [.strand k (imageSet s.launches st (off % 65536 / 8) w)]

/-- Who writes: the die whose agents see it at once, the writes that happen before, the page's key (R354), whether an atomic or a reduction writes, and the Wilnum core whose routine it is. -/
structure Writer where
  die : Nat
  deps : List Nat
  key : Nat
  atomic : Bool
  wil : Option Nat
  deriving DecidableEq, Repr

/-- The 4-byte words a write touches. -/
def wordsOf (pa n : Nat) : List Nat := (List.range ((pa + n + 3) / 4 - pa / 4)).map fun i => (pa / 4 + i) * 4

/-- Routines that run note what they and ordinary stores leave in the words they both write (R152). -/
def noteRoutine (w : Writer) (pa n : Nat) : Eff := fun s =>
  if onChip pa then []
  else
    (s.wilnum.filter fun e => e.2.running.isSome).map fun e =>
      let put := fun (m : Map LWord) => (wordsOf pa n).foldl (fun m a => mapSet m a (BitVec.ofNat 32 (Memory.readN s.mem a 4))) m
      if w.wil = some e.1 then .wilnum e.1 { e.2 with own := put e.2.own } else .wilnum e.1 { e.2 with others := put e.2.others }

/-- Dies whose copies a write changes at once: its home's, and its writer's where no write that happens before it is still to be applied there (R284). A routine writes HBM4E past every slice's copies (R147). -/
def State.shownOn (s : State) (w : Writer) (pa : Nat) : List Nat :=
  if w.wil.isSome then []
  else [0, 1, 2, 3].filter fun d => d = homeDie pa || (d = w.die && !s.pend.any fun p => p.die = d && w.deps.contains p.id)

/-- Runs of bytes, each at its address. -/
abbrev Runs := List (Nat × List Byte)
/-- The bytes of memory at runs, as cells. -/
def oldCells (s : State) (l : Runs) : List Host.Cell :=
  l.flatMap fun r => (List.range r.2.length).map fun i => (r.1 + i, Memory.read s.mem (r.1 + i))

/-- One write of runs of main memory that lie in one line: the home's bytes, the dies that have not applied it, the waits it fires, and its place after the releases that stand there (R120, R135, R281, R284). -/
def storeRuns (w : Writer) (l : Runs) : Eff := fun s =>
  let pa := (l.headD (0, [])).1
  let id := s.nextWrite
  let shown := s.shownOn w pa
  let line := pa / 64 * 64
  let us : List Upd :=
    l.map (fun r => .cover shown r.1 r.2.length) ++
    [.pendAdd (([0, 1, 2, 3].filter fun d => !shown.contains d).map fun d => { die := d, id := id, old := oldCells s l, deps := s.stillPending w.deps }),
     .nextWrite] ++
    (if s.otherKey w.key pa then (List.range 64).map fun i => Upd.mem (line + i) (Config.freeByte (2 ^ 32 + w.key) (line + i)) else []) ++
    (l.flatMap fun r => (List.range r.2.length).map fun i => Upd.mem (r.1 + i) (r.2.getD i 0)) ++
    (if mapGet s.lineKeys (pa / 64) = some w.key then [] else [.lineKey (pa / 64) w.key]) ++
    (l.flatMap fun r => [.fire w.wil.isNone shown r.1 r.2.length, .overwrite id w.atomic r.1 r.2.length])
  us ++ Eff.seq (l.map fun r => noteRoutine w r.1 r.2.length) (s.applyAll us)

/-- Stores bytes at a physical address. -/
def storeBytes (w : Writer) (pa : Nat) (bs : List Byte) : Eff := fun s =>
  if onChip pa then
    (if ocType pa = 2 || ocType pa = 6 then controlWrite s pa bs else onChipWrite pa bs) ++ [.fire true [] pa bs.length, .overwrite 0 w.atomic pa bs.length]
  else storeRuns w [(pa, bs)] s

/-- The device's own write of bytes, seen everywhere at once: the Drevar side's structures and record write-backs. -/
def putBytes (pa : Nat) (bs : List Byte) : List Upd :=
  (List.range bs.length).map (fun i => Upd.mem (pa + i) (bs.getD i 0)) ++
  [.cover [0, 1, 2, 3] pa bs.length, .fire true [0, 1, 2, 3] pa bs.length, .overwrite 0 false pa bs.length]
def putWord (pa : Nat) (w : Word) : List Upd := putBytes pa ((List.range 8).map (byteOf w))
def putWords (pa : Nat) (ws : List Word) : List Upd := putBytes pa (ws.flatMap fun w => (List.range 8).map (byteOf w))

/-- A line read under a key that nothing has been written or read under is kept under that key from then on (R354). -/
def noteKey (key pa : Nat) : Eff := fun s =>
  if onChip pa then []
  else match mapGet s.lineKeys (pa / 64) with
    | some k => if k = anyKey && key ≠ anyKey then [.lineKey (pa / 64) key] else []
    | none => [.lineKey (pa / 64) key]

/-! ## Translation (R343 to R347) -/

/-- A page-table entry's fields (Table 20-2). -/
def pteBit (e n : Nat) : Bool := e / 2 ^ n % 2 = 1
def pteFrame (e : Nat) : Nat := e / 2 ^ 26 % 2 ^ 38 * 8192
def pteCls (e : Nat) : Nat := e / 2 ^ 23 % 8
def pteKey (e : Nat) : Nat := e / 2 ^ 13 % 1024
def pteGeom (e : Nat) : Nat := e / 2 ^ 11 % 4
def pteFmt (e : Nat) : Nat := e / 2 ^ 7 % 16
def pteSize (e : Nat) : Nat := e / 2 ^ 5 % 4
def pteRights (e : Nat) : Nat := e / 2 % 8
/-- log2 of a page size code. -/
def sizeBits (n : Nat) : Nat := match n with | 0 => 13 | 1 => 16 | 2 => 23 | _ => 33

/-- A leaf is legal at the level indexed from bit `sh` (R344); the reserved fields of its stage are zero. -/
def leafOk (x : Part) (stage2 : Bool) (sh e : Nat) : Bool :=
  (match sh with
   | 33 => pteSize e = 3
   | 23 => pteSize e = 2
   | 13 => pteSize e ≤ 1
   | _ => false) &&
  pteFrame e % 2 ^ sizeBits (pteSize e) = 0 &&
  (if stage2 then
     pteGeom e = 0 && pteFmt e = 0 && !pteBit e 4 &&
     (if pteKey e = 0 then x.plaintext else x.keyFirst ≤ pteKey e && pteKey e < x.keyFirst + x.keyCount)
   else pteKey e = 0)

/-- A leaf entry and the address it gives an input address. -/
def leafAddr (e a : Nat) : Nat := pteFrame e + a % 2 ^ sizeBits (pteSize e)

/-- Of eight entries of a 64 KiB page, the one used (R344). -/
def pick64 (rd : Nat → Nat) (tbl idx e a : Nat) : Nat :=
  if pteSize e = 1 then rd (tbl + 8 * (idx / 8 * 8 + Config.pageChoice (a / 65536) % 8)) else e

/-- Stage 2: from the table of the level whose index starts at the first shift (R343, R344). None where an entry counts as invalid. -/
def walk2 (s : State) (x : Part) (gpa : Nat) : List Nat → Nat → Option Nat
  | [], _ => none
  | sh :: r, tbl =>
    let rd := fun a => Memory.readN s.mem a 8
    let idx := gpa / 2 ^ sh % 1024
    let e0 := rd (tbl + 8 * idx)
    if !pteBit e0 0 then none
    else if pteRights e0 = 0 && sh ≠ 13 then
      if e0 / 16 % 2 ^ 22 = 0 then walk2 s x gpa r (pteFrame e0) else none
    else
      let e := if sh = 13 then pick64 rd tbl idx e0 gpa else e0
      if pteBit e 0 && leafOk x true sh e then some e else none

def levels : List Nat := [43, 33, 23, 13]

/-- Why a lane's access is not performed: a segment check (R108), a translation fault with its page request, or a page check (R111 to R114). -/
inductive LaneFail where
  | seg (cause : Nat)
  | page (need : PageNeed)
  | attr (cause : Nat)
  deriving DecidableEq, Repr

def LaneFail.cause : LaneFail → Nat
  | .seg c => c
  | .page n => if n.stage = 0 then cPage1 else cPage2
  | .attr c => c

/-- Stage 1, each table entry read through stage 2 (R346). -/
def walk1 (s : State) (x : Part) (va acc : Nat) : List Nat → Nat → Except LaneFail Nat
  | [], _ => .error (.page { stage := 0, access := acc, page := va / 8192, va := va })
  | sh :: r, tbl =>
    let inval : Except LaneFail Nat := .error (.page { stage := 0, access := acc, page := va / 8192, va := va })
    let idx := va / 2 ^ sh % 1024
    let ga := tbl + 8 * idx
    match walk2 s x ga levels x.s2root with
    | none => .error (.page { stage := 1, access := 3, page := ga / 8192, va := va })
    | some e2 =>
      let ha := leafAddr e2 ga
      if !pteBit e2 1 || pteCls e2 ≠ 0 || !s.mapped ha then .error (.page { stage := 1, access := 3, page := ga / 8192, va := va })
      -- the frame and the key of the stage-2 leaf are held to Table 20-3 and R354, as at any other access
      else if !s.inMain ha || s.inDrevar ha || s.inLog ha || (pteKey e2 ≠ 0 && (mapGet s.keySlots (pteKey e2)).isNone) then
        .error (.attr cPermission)
      else
        let rd := fun a => s.homeKN (pteKey e2) a 8
        let e0 := rd ha
        if !pteBit e0 0 then inval
        else if pteRights e0 = 0 && sh ≠ 13 then
          if e0 / 16 % 2 ^ 22 = 0 then walk1 s x va acc r (pteFrame e0) else inval
        else
          let e := if sh = 13 && pteSize e0 = 1 then
              rd (ha - 8 * (idx % 8) + 8 * (Config.pageChoice (va / 65536) % 8)) else e0
          if pteBit e 0 && leafOk x false sh e then .ok e else inval

/-- Root of an ASID's stage 1 (R342): none where the ASID is outside the grant or its entry not valid. -/
def asidRoot (s : State) (x : Part) (asid : Nat) : Option Nat :=
  if x.asidFirst ≤ asid && asid < x.asidFirst + x.asidCount then
    let e := Memory.readN s.mem (x.asidTab + 16 * (asid - x.asidFirst)) 8
    if e % 2 = 1 then some (e / 8192 % 2 ^ 38 * 8192) else none
  else none

/-- Bits [63:53] equal bit 52 (Table 5-1). -/
def canonical (va : Nat) : Bool := let t := va / 2 ^ 52 % 2 ^ 12; t = 0 || t = 2 ^ 12 - 1

/-- The 8 KiB translation a walk gives a virtual address: the combined attributes of Table 20-3, rights as R1 W1 X1 U R2 W2 X2 from bit 0. -/
def walkPage (s : State) (core part asid va acc : Nat) : Except LaneFail Tlb :=
  let x := s.part part
  if !canonical va then .error (.attr cPermission)
  else
    let v := va % 2 ^ 53
    match asidRoot s x asid with
    | none => .error (.page { stage := 0, access := acc, page := v / 8192, va := va })
    | some root =>
      match walk1 s x v acc levels root with
      | .error (.page n) => .error (.page { n with va := va })
      | .error f => .error f
      | .ok e1 =>
        let ga := leafAddr e1 v
        match walk2 s x ga levels x.s2root with
        | none => .error (.page { stage := 1, access := acc, page := ga / 8192, va := va })
        | some e2 =>
          let pa := leafAddr e2 ga
          if !s.mapped pa then .error (.page { stage := 1, access := acc, page := ga / 8192, va := va })
          else if (pteCls e1 ≠ 0 && pteCls e1 ≠ 3) || (pteCls e1 ≠ 0 && pteCls e2 ≠ 0 && pteCls e1 ≠ pteCls e2) then
            .error (.attr cPermission)
          else
            .ok { core := core, part := part, asid := asid, gen := x.gen asid, gen2 := x.gen2, vpage := va / 8192,
                  gpage := ga / 8192, frame := pa / 8192, cls := if pteCls e2 ≠ 0 then pteCls e2 else pteCls e1,
                  fmt := pteFmt e1, geom := pteGeom e1, key := pteKey e2,
                  rights := pteRights e1 + (bit (pteBit e1 4) 3) + 16 * pteRights e2 }

/-- A cached entry that is current (R347). -/
def State.tlbHit (s : State) (core part asid vpage : Nat) : Option Tlb :=
  let x := s.part part
  s.tlb.find? fun t => t.core = core && t.part = part && t.asid = asid && t.vpage = vpage &&
    t.gen = x.gen asid && t.gen2 = x.gen2

/-- The active swept region that holds an address: partition, region number. -/
def State.sweptAt (s : State) (pa : Nat) : Option (Nat × Nat) :=
  s.parts.findSome? fun e =>
    e.2.regions.findSome? fun r =>
      if r.2.active && r.2.base ≤ pa && pa < r.2.base + r.2.len then some (e.1, r.1) else none

/-- Own control window of a partition (R340). -/
def ownWindow (part pa : Nat) : Bool := pa / 65536 = (0x7F80000000000 + part * 65536) / 65536

/-- Address of the budget window on the hinge die, and its bytes (R368): a class-2 page shows it to loads of level K (DEDUCED, notes/assumptions/106.md). -/
def budgetBase : Nat := 0x7F80010000000
def budgetBytes : Nat := 16 * 256 * 7

/-- The rights and the frame region of Table 20-3, for access `acc` (0 read, 1 write, 2 read-modify-write, 3 code) at a level. -/
def checkPage (s : State) (t : Tlb) (va acc level : Nat) : Except LaneFail Nat :=
  let pa := t.frame * 8192 + va % 8192
  let r1 := t.rights
  let r2 := t.rights / 16
  let need := fun (r : Nat) => match acc with
    | 0 => pteBit r 0
    | 1 => pteBit r 1
    | 2 => pteBit r 0 && pteBit r 1
    | _ => pteBit r 2
  let stop2 : Except LaneFail Nat := .error (.page { stage := 1, access := if acc = 3 then 0 else acc, page := t.gpage, va := va })
  if !need r1 || (level = 0 && !pteBit r1 3) then .error (.attr cPermission)
  else if !need r2 then stop2
  else if t.cls ≥ 5 then .error (.attr cPermission)
  else if t.fmt ≥ 13 || (t.geom ≠ 0 && t.fmt ≠ 4) then .error (.attr cFormat)
  else
    let regionOk := match t.cls with
      | 2 => ownWindow t.part pa || (acc = 0 && 1 ≤ level && budgetBase ≤ pa && pa < budgetBase + budgetBytes)
      | 4 => onChip pa && ocDie pa < 4
      | 1 => s.inMain pa && (s.sweptAt pa).isSome
      | _ => s.inMain pa
    if !regionOk || s.inDrevar pa || s.inLog pa then .error (.attr cPermission)
    else if t.key ≠ 0 && (mapGet s.keySlots t.key).isNone then .error (.attr cPermission)
    else .ok pa

/-- Translation of one address: the page, whether it was walked for, and the physical address. -/
def translate (s : State) (core part asid level va acc : Nat) : Except LaneFail (Tlb × Nat) :=
  match s.tlbHit core part asid (va / 8192) with
  | some t => (checkPage s t va acc level).map fun pa => (t, pa)
  | none =>
    match walkPage s core part asid va acc with
    | .error f => .error f
    | .ok t => (checkPage s t va acc level).map fun pa => (t, pa)

/-- Physical address of an agent's read of n bytes of ordinary or on-chip bytes at a virtual address; the bytes lie within one page. -/
def agentAddr (s : State) (part asid level va acc : Nat) : Except LaneFail Nat :=
  (translate s 256 part asid level va acc).map (·.2)

/-- The n 64-bit words of a record at an address: bit 63 names scratch of a cluster (R255, R259). -/
def recordWords (s : State) (cluster part asid level addr n : Nat) : Except LaneFail (List Word) :=
  if addr / 2 ^ 63 = 1 then .ok (s.homeWords (scratchPA cluster (addr % 2 ^ 22)) n)
  else
    match translate s 256 part asid level addr 0 with
    | .ok (t, pa) => if s.poisoned pa (8 * n) then .error (.attr cPoison) else .ok (s.homeKWords t.key pa n)
    | .error f => .error f

/-- The words of a span that may cross pages, one translation a word. -/
def spanWords (s : State) (part asid level va : Nat) : Nat → Except LaneFail (List Word)
  | 0 => .ok []
  | n + 1 =>
    match translate s 256 part asid level va 0 with
    | .error f => .error f
    | .ok (t, pa) =>
      if s.poisoned pa 8 then .error (.attr cPoison)
      else
        match spanWords s part asid level (va + 8) n with
        | .error f => .error f
        | .ok r => .ok (BitVec.ofNat 64 (s.homeKN t.key pa 8) :: r)

/-- Lines read, each under a key at an address: kept under their keys from then on (R354). -/
def noteLines (l : List (Nat × Nat)) : Eff := fun s =>
  let new := (l.filter fun p => !(noteKey p.1 p.2 s).isEmpty).map fun p => (p.1, p.2 / 64 * 64)
  Eff.seq (new.eraseDups.map fun p => noteKey p.1 p.2) s

/-- The lines of n bytes at a virtual address, as an agent has read them in a space with an access of a kind. -/
def noteBytes (part asid level acc va n : Nat) : Eff := fun s =>
  noteLines ((List.range ((va + n + 63) / 64 - va / 64)).filterMap fun i =>
    match translate s 256 part asid level (max va (64 * (va / 64 + i))) acc with
    | .ok (t, pa) => some (t.key, pa)
    | .error _ => none) s
/-- The same of a record, which bit 63 of its address may place in scratch (R255, R259). -/
def noteRecord (part asid level addr n : Nat) : Eff := if addr / 2 ^ 63 = 1 then Eff.skip else noteBytes part asid level 0 addr n

/-! ## Segment tables and overlay tables -/

/-- One entry of a segment table (Table 5-1). -/
def segOf (w0 w1 w2 : Word) : Seg := { base := w0, limit := w1, attr := w2.setWidth 14, win := none }
def Seg.scratch (g : Seg) : Bool := g.attr.getLsbD 13
def Seg.canWrite (g : Seg) : Bool := g.attr.getLsbD 12
def Seg.canRead (g : Seg) : Bool := g.attr.getLsbD 11
def Seg.remote (g : Seg) : Bool := g.attr.getLsbD 10
def Seg.device (g : Seg) : Nat := g.attr.toNat % 1024

/-- R107: an entry a launch may carry. -/
def segOk (w0 w1 w2 : Word) : Bool :=
  canonical w0.toNat && w2.toNat < 2 ^ 14 &&
  (fieldOf w2 10 1 = 1 || fieldOf w2 0 10 = 0) &&
  !(fieldOf w2 13 1 = 1 && fieldOf w2 10 1 = 1) &&
  !(fieldOf w2 13 1 = 1 && w0.toNat + w1.toNat > 2 ^ 22)

/-- The segments of a table of 48 words. -/
def segsOf (ws : List Word) : Map Seg :=
  (List.range 16).map fun i => (i, segOf (ws.getD (3 * i) 0) (ws.getD (3 * i + 1) 0) (ws.getD (3 * i + 2) 0))
def segsOk (ws : List Word) : Bool :=
  (List.range 16).all fun i => segOk (ws.getD (3 * i) 0) (ws.getD (3 * i + 1) 0) (ws.getD (3 * i + 2) 0)

/-- An overlay-table entry (R318): source, granules, K bit, hash; none where not valid. -/
structure OvlEntry where
  src : Nat
  granules : Nat
  kbit : Bool
  hash : BitVec 128
  deriving DecidableEq, Repr

def ovlEntry (s : State) (part asid : Nat) (routine : Bool) (idx : Nat) : Option OvlEntry :=
  let x := s.part part
  let base := if routine then x.rtntab else x.ovltab
  match spanWords s part asid 1 (base.toNat + 32 * idx) 4 with
  | .error _ => none
  | .ok ws =>
    let w1 := ws.getD 1 0
    let g := fieldOf w1 0 8
    if fieldOf w1 8 1 = 1 && 1 ≤ g && g ≤ (if routine then 16 else 128) then
      some { src := (ws.getD 0 0).toNat, granules := g, kbit := fieldOf w1 9 1 = 1,
             hash := (ws.getD 3 0 ++ ws.getD 2 0 : BitVec 128) }
    else none

/-! ## Starting a K handler (R312) -/

/-- A launch of one strand at level K from a template. -/
def handlerLaunch (s : State) (part asid : Nat) (rec_ : List Word) : Launch where
  ident := (s.part part).nextIdent
  part := part
  chain := 0
  asid := asid
  recAddr := 0
  rec_ := rec_.set 5 0
  level := 1
  prio := recPrio rec_
  mask := 0
  count := 1
  placed := 1
  retired := 0
  ended := false
  ext := 0
  idempotent := false
  record := false
  coresident := false
  start := []
  params := []
  asids := []
  spawnDeps := []
  payload := []
  message := false
  dep := []
  waitSince := none
  failedAt := none
  wdog := s.now
  again := []
  segs := []
  withhold := false
  replay := false

/-- A K handler may run in an overlay: its table entry has the K bit, or a load of it will report that there is none (R301, notes/assumptions/91.md). -/
def kernelOverlay (s : State) (core part asid idx : Nat) : Bool :=
  match s.resident core part idx false with
  | some o => o.kbit
  | none => (match ovlEntry s part asid false idx with | some e => e.kbit | none => true)

/-- The template of a partition, its segments and its parameters, where all can be read and the record is legal (R181, R312, Table 19-2). -/
def handlerTemplate (s : State) (part asid : Nat) : Option (List Word × Map Seg × List Word) :=
  let x := s.part part
  match spanWords s part asid 1 x.ktempl.toNat 8 with
  | .error _ => none
  | .ok r =>
    let okSize := 1 ≤ recH r && recH r ≤ 128 && 1 ≤ recW r && recW r ≤ 128
    if !okSize then none
    else
      match spanWords s part asid 1 (recWord r 3).toNat 48 with
      | .error _ => none
      | .ok segs =>
        if segsOk segs then
          match spanWords s part asid 1 (recWord r 2).toNat 64 with
          | .error _ => none
          | .ok ps => some (r, segsOf segs, ps)
        else none

/-- Starts a K handler on a core for a target slot with s1 to s4, or gives none where no slot is free, its footprint conflicts there (R312), or its overlay is none for level K (R301). -/
def startHandler (s : State) (core part asid target : Nat) (tile : Bool) (regs : List (Nat × Word)) : Option (List Upd) :=
  match handlerTemplate s part asid, s.freeSlot core with
  | some (r, segs, ps), some slot =>
    let w := winOf (recH r) (recW r)
    if s.footFree core w (recFpBase r) (recFpCount r) && kernelOverlay s core part asid (recOverlay r) then
      let l := handlerLaunch s part asid r
      let id := s.nextLaunch
      let st := newStrand s core slot id l 0 segs ps []
      let ovl := recOverlay r
      let run : Run := if (s.resident core part ovl false).isSome then .ready else .overlay ovl
      let st' := { st with tgt := target, handler := some { target := target, resumed := false, tile := tile, tret := false }, s := regs,
                           splits := st.splits.map fun sp => { sp with run := run } }
      let x := s.part part
      some [.launch id l, .nextLaunch, .fresh, .part part { x with nextIdent := x.nextIdent + 1 },
            .strand (slotKey core slot) st']
    else none
  | _, _ => none

/-! ## Taking a trap (R310 to R314) -/

/-! ## Accumulator slots and their owner tags (R266, R317) -/

/-- The tag of a slot used by a launch of a partition: valid, partition, launch identifier. -/
def ownerTag (part ident : Nat) : BitVec 39 := BitVec.ofNat 39 (2 ^ 38 + part % 64 * 2 ^ 32 + ident % 2 ^ 32)
def tagPart (t : BitVec 39) : Nat := t.toNat / 2 ^ 32 % 64

/-- The bytes of a slot as a spill writes them, 64-byte piece i: an element with a parity error reads as 0x7FC0_0000 (R308). -/
def slotPiece (s : State) (cluster slot i : Nat) : List Byte :=
  (List.range 64).map fun j =>
    let pa := accPA cluster slot 0 0 + 64 * i + j
    if s.accBad.contains (pa / 4 * 4) then (0x7FC00000#32).extractLsb' (8 * (pa % 4)) 8 else Memory.read s.mem pa

/-- Parity errors of a slot are gone once it is freed. -/
def slotHealed (s : State) (cluster slot : Nat) : Upd :=
  let lo := accPA cluster slot 0 0
  .bad s.lanesBad s.scratchBad (s.accBad.filter fun a => !(lo ≤ a && a < lo + 65536))

/-- A slot tagged for another partition is spilled by M firmware into that partition's save area, and its tag freed (R317). -/
def firmwareSpill (cluster slot part : Nat) : Eff := fun s =>
  let tag := s.accTag (accKey cluster slot)
  if tag.getLsbD 38 && tagPart tag ≠ part then
    let x := s.part (tagPart tag)
    (List.range 1024).flatMap (fun i =>
      match agentAddr s (tagPart tag) x.asidFirst 1 (x.accarea.toNat + 65536 * slot + 64 * i) 1 with
      | .ok pa => (List.range 64).map fun j => Upd.mem (pa + j) ((slotPiece s cluster slot i).getD j 0)
      | .error _ => []) ++
    [.accTag (accKey cluster slot) 0, slotHealed s cluster slot]
  else []

/-- The frame just written takes the route of its cause (Table 18-6). A park a peer's refusal caused has no page to request (R352). -/
def routeTrap (k : Nat) : Eff := fun s =>
  let st := s.strand k
  match st.frame with
  | none => []
  | some t =>
    let ns := distinctNeeds (t.needs.map fun n => { stage := n.1, access := n.2.1, page := n.2.2.1, va := n.2.2.2 })
    let x := s.part st.part
    let id := ((mapGet s.launches st.launch).map (·.ident)).getD 0
    let rs := makeReqs x { asid := st.asid, core := st.core, slot := st.slot, code := 0, ident := id, strand := some k, dev := 0 } ns
    let toQueue : Eff := fun s => postTrap st.part (trapRecord s k t) s
    let handler : Eff := fun s =>
      if st.level ≠ 0 then toQueue s
      else
        match startHandler s st.core st.part st.asid (slotKey st.core st.slot) false
            [(1, BitVec.ofNat 64 t.cause), (2, t.frame0)] with
        | some us => us
        | none => toQueue s
    if t.paging then
      match rs with
      | [] => toQueue s
      | r :: _ => addReqs st.part rs s ++ [.trap k (some { t with tags := rs.map (·.tag), detail := BitVec.ofNat 64 r.tag })]
    else if !rs.isEmpty then
      -- the lowest unfinished lane failed another check, and others need pages: the frame goes to the trap queue and the requests are posted
      Eff.andThen (fun s => addReqs st.part rs s ++ [.trap k (some { t with tags := rs.map (·.tag) })]) toQueue s
    else if t.cause = cOverlayMiss then []
    else if t.cause = cAccOwner then Eff.andThen (firmwareSpill (clusterOf st.core) (t.detail.toNat % 32) st.part) handler s
    else if t.cause = cDrift || t.cause = cUserTrap then handler s
    else if t.cause = cWatchdog then
      (if st.level ≠ 0 then toQueue s else
        let us := match startHandler s st.core st.part st.asid (slotKey st.core st.slot) false
            [(1, BitVec.ofNat 64 t.cause), (2, t.frame0)] with
          | some us => us
          | none => []
        us ++ postTrap st.part (trapRecord s k t) (s.applyAll us))
    else toQueue s

/-- The code with which a routine ends at a trap (R137). -/
def routineCode (cause : Nat) : Nat :=
  if cause = cSegLimit || cause = cPermission then 6
  else if cause = cOverlayEnd then 4
  else if cause = cPoison || cause = cLaneFile then 1
  else 5

/-- No access of an instruction a routine issued after the failing operation is made (R149). -/
def dropAfter (k op : Nat) : Eff := fun s =>
  if op = 0 then [] else (s.ops.filter fun o => o.owner = k && op < o.id).map fun o => Upd.opDel o.id

/-- TAKING A TRAP, for every cause a strand's word or header can raise. A routine ends with its code (R137). A strand with no frame in use parks with this one and the trap takes its route; with a frame in use the trap is pending (R314). -/
def takeTrap (k split : Nat) (i : TrapInfo) (needs : List PageNeed) : Eff := fun s =>
  let st := s.strand k
  let sp := st.splitOf split
  if st.isRoutine then
    -- a store to a page that can be read but has no W (R144)
    let code := if needs.any fun n => n.access ≠ 0 && (translate s st.core st.part st.asid st.level n.va 0).isOk then 6 else routineCode i.cause
    [.endCode k (some code), .splits k (st.splits.map fun x => { x with run := .parked })] ++ dropAfter k i.op s
  else
    let t := { mkTrap st sp i with needs := needs.map fun n => (n.stage, n.access, n.page, n.va) }
    let park : List Upd := [.split k { sp with run := if i.cause = cOverlayMiss then .overlay i.detail.toNat else .parked }]
    match st.frame with
    | none =>
      let us := park ++ [.trap k (some t)]
      us ++ routeTrap k (s.applyAll us)
    | some _ => park ++ [.pendTrap k (st.pending ++ [t])]

/-- The pending trap of the lowest split becomes the frame once the first is resumed (R314). -/
def nextPending (k : Nat) : Eff := fun s =>
  let st := s.strand k
  match st.frame with
  | some _ => []
  | none =>
    match (List.range 4).findSome? fun n => st.pending.find? fun t => t.split = n with
    | none => []
    | some t =>
      let us : List Upd := [.pendTrap k (st.pending.filter fun x => x.split ≠ t.split), .trap k (some t)]
      us ++ routeTrap k (s.applyAll us)

/-! ## Returning from a trap (R315) -/

/-- The frame's clause address and index are those of a split. -/
def Trap.names (t : Trap) (sp : Split) : Bool :=
  sp.ovl % 4096 = t.clauseOvl &&
  (match sp.clause with
   | some c => c.at_ % 32768 = t.clausePc && c.idx = t.idx && t.hdrSat
   | none => sp.pc % 32768 = t.clausePc && t.idx = 0 && !t.hdrSat)

/-- The split as the frame says where it stands: the frame's clause and index, which K may have written. -/
def reframe (s : State) (st : Strand) (sp : Split) (t : Trap) : Split :=
  -- unwritten, a frame names the split's own word, or the memory instruction it has gone on from
  if t.names sp || (s.op? t.op).any (fun o => t.names { sp with ovl := o.ovl, pc := o.pc, clause := o.clause }) then sp
  else
    match if t.hdrSat then (s.codeWord st t.clauseOvl t.clausePc).bind decodeHeader else none with
    | some h => { sp with ovl := t.clauseOvl, pc := t.clausePc + 1 + t.idx, clause := some { at_ := t.clausePc, hdr := h, idx := t.idx, yielded := h.yield = 1#1 } }
    | none => { sp with ovl := t.clauseOvl, pc := t.clausePc, clause := none }

/-- The split after a trap with pending kind 0: the instruction after, or the next header. -/
def resumePast (sp : Split) : Split := { sp.past with run := .ready }
/-- The split at the frame's instruction: at index 0 the header is read again (R315). -/
def resumeAt (sp : Split) (replay : Option (Lanes × Nat)) : Split :=
  match sp.clause with
  | some c =>
    if c.idx = 0 then { sp with pc := c.at_, clause := none, run := .ready, replay := replay }
    else { sp with run := .ready, replay := replay }
  | none => { sp with run := .ready, replay := none }

/-- A memory operation whose lanes access again after their accesses failed (notes/assumptions/92.md): of a plane all the elements of such a lane (R237). None where it has no such lane. -/
def OpKind.retried : OpKind → Option OpKind
  | .mem m =>
    let failed := fun (r : LaneReq) => match r.st with | .refused _ => true | _ => false
    let lanes := (m.reqs.filter failed).map (·.lane)
    if lanes.isEmpty then none
    else some (.mem { m with reqs := m.reqs.map fun r => if failed r || (m.plane && lanes.contains r.lane) then { r with st := .todo } else r })
  | _ => none

/-- RETURNING FROM A TRAP: the latches, the pending replay, and where issue goes on (R315). Kind 2 makes the abandoned operation outstanding again from its captured operands. -/
def resumeTrap (k : Nat) : Eff := fun s =>
  let st := s.strand k
  match st.frame with
  | none => []
  | some t =>
    let sp := reframe s st (st.splitOf t.split) t
    let lats : List Upd := if sp.idx = 0 then [] else
      [.latches k t.latS t.latL t.latSeed,
       .delayed k (t.latOn.foldl (fun l d => insertDelay l d.1 d.2) (st.delayed.filter fun d => !isLatch d.2))]
    let was : Run := match t.was with
      | .hold i => if (s.op? i).isSome then .hold i else .ready
      | r => r
    let again := (s.op? t.op).bind fun o => o.kind.retried.map fun k => { o with parked := false, kind := k }
    let sp' := match t.kind with
      | 1 => (match again with
        | some _ => { sp with run := was }
        | none => resumeAt sp (some (t.unfinished, t.op)))
      | 2 => { resumeAt sp none with run := was }
      | 3 =>
        (match t.was with
         | .merge .. => { sp with run := t.was }
         | .overlay _ => { sp with run := t.was }
         | _ => resumeAt sp (some (if t.op = 0 then BitVec.allOnes 16384 else t.unfinished, t.op)))
      | _ => resumePast sp
    let op : List Upd :=
      if t.kind = 2 then
        match s.op? t.op with
        | some o => [.opSet { o with parked := false, issued := s.now }]
        | none => []
      else if t.kind = 1 then (match again with | some o => [.opSet o] | none => [])
      else []
    let us := lats ++ op ++ [.split k sp', .trap k none]
    us ++ nextPending k (s.applyAll us)

end Sys2Proof.Machine
end

