-- ==== Sys2Proof/Machine/Strands.lean ====
section
/-! DEFINITION. What happens to whole strands: gangs, merging, residency keys, retiring, kills, and time passing for the delayed results of every strand. -/

namespace Sys2Proof.Machine

/-! ## Gangs (R98, R99, R196) -/

/-- Members of a gang of a launch: strands in slots by key, and saved ones. -/
def gangKeys (s : State) (launch g : Nat) : List Nat :=
  (s.strands.filter fun e => e.2.launch = launch && e.2.gang = some g && !e.2.isRoutine).map (·.1)
def savedStrands (s : State) : List Strand := s.saved.map fun x => s.strand x.key
def gangSaved (s : State) (launch g : Nat) : List Strand :=
  (savedStrands s).filter fun st => st.launch = launch && st.gang = some g
def gangSize (s : State) (launch g : Nat) : Nat := (gangKeys s launch g).length + (gangSaved s launch g).length

/-- Gangs of a launch with a member. -/
def liveGangs (s : State) (launch : Nat) : List Nat :=
  let all := (s.strands.map (·.2) ++ savedStrands s).filterMap fun st =>
    if st.launch = launch then st.gang else none
  all.eraseDups

/-- The gang's scope (R99): the smallest of core, cluster, die and package that holds all members, and the cores `more` of strands that left it after their arrival. -/
def gangScope (s : State) (launch g : Nat) (more : List Nat) : Nat :=
  let cores := (gangKeys s launch g).map (fun k => (s.strand k).core) ++ (gangSaved s launch g).map (·.core) ++ more
  match cores with
  | [] => 1
  | c :: r =>
    if r.all (fun x => x = c) then 1
    else if r.all (fun x => clusterOf x = clusterOf c) then 2
    else if r.all (fun x => dieOf x = dieOf c) then 3
    else 4

/-- The operation is an open GBAR of this gang by this strand, as a member. -/
def Op.openGbar (o : Op) (k : Nat) (g : Option Nat) : Bool :=
  o.owner = k && (match o.kind with | .gbar g' _ [] false => g' = g | _ => false)

/-- The instance an open GBAR is for. -/
def Op.instance_ (o : Op) : Nat := match o.kind with | .gbar _ n _ _ => n | _ => 0

/-- A strand has arrived at an instance: every live split has executed its GBAR for it (R99), and none is withdrawn (R316). -/
def gangArrived (s : State) (k g n : Nat) : Bool :=
  let st := s.strand k
  !st.splits.isEmpty && st.splits.all (fun sp => n < sp.gbars) &&
  !s.ops.any fun o => o.parked && o.openGbar k (some g) && o.instance_ = n

/-- GBARs of a gang's instance by strands that have left it after their arrival (R99). -/
def Op.leftGbar (o : Op) (g n : Nat) : Bool :=
  !o.parked && (match o.kind with | .gbar (some g') n' [] true => g' = g && n' = n | _ => false)

/-- The open instance of a gang: its members', or with none left the first that has an arrival. -/
def gangOpen (s : State) (launch g : Nat) : Nat :=
  match gangKeys s launch g, gangSaved s launch g with
  | k :: _, _ => (s.strand k).gangAt
  | [], st :: _ => st.gangAt
  | [], [] =>
    ((s.ops.filter fun o => o.leftGbar g o.instance_ && (s.strand o.owner).launch = launch).map Op.instance_).min?.getD 0

/-- The GBARs of an instance: its members' and those of strands that have left since. -/
def gangOps (s : State) (launch g n : Nat) : List Op :=
  s.ops.filter fun o =>
    ((gangKeys s launch g).any fun k => o.openGbar k (some g) && o.instance_ = n) ||
    (o.leftGbar g n && (s.strand o.owner).launch = launch)

/-- Closes a gang's open instance, if every current member has arrived at it (R196). -/
def closeOne (launch g : Nat) : Eff := fun s =>
  let n := gangOpen s launch g
  let ks := gangKeys s launch g
  let os := gangOps s launch g n
  if (gangSaved s launch g).isEmpty && !os.isEmpty && ks.all fun k => gangArrived s k g n then
    os.map (fun o => .opSet { o with kind := match o.kind with | .gbar g' m _ l => .gbar g' m (os.map (·.id)) l | k => k }) ++
    ks.map fun k => .gangAt k (n + 1)
  else []

/-- Closes the gang's instances, in order, as long as every current member has arrived (R196). -/
def closeGangs (launch g : Nat) : Nat → Eff
  | 0 => fun _ => []
  | n + 1 => (closeOne launch g).andThen fun s => if (closeOne launch g s).isEmpty then [] else closeGangs launch g n s
def closeGang (launch g : Nat) : Eff := fun s => closeGangs launch g (s.ops.length + 1) s

/-- Leaving (R98, R99): GBARs of arrivals already made stay in their instances; those of an arrival not yet complete become strand-scope fences; instances may close without this member. -/
def leaveGang (k : Nat) : Eff := fun s =>
  let st := s.strand k
  match st.gang with
  | none => []
  | some g =>
    let us : List Upd :=
      (s.ops.filter (fun o => o.openGbar k (some g))).map (fun o =>
        .opSet { o with kind := if gangArrived s k g o.instance_ then .gbar (some g) o.instance_ [] true else .gbar none 0 [] false }) ++
      [.gang k none 0]
    us ++ closeGang st.launch g (s.applyAll us)

/-! ## Uniting splits (R97) -/

/-- The splits of one origin list unite when all of them wait at a MERGE of one address. The united split is ordered after every access of each (R277); its last issue is the latest of theirs (DESIGN CHOICE, notes/assumptions/86.md), and it has executed the GBARs that each has (notes/assumptions/34.md). -/
def mergeSplits (org : List Nat) (l : List Split) : List Split :=
  match l.filter fun x => x.origin = org with
  | [] => l
  | f :: r =>
    match f.run with
    | .merge o w =>
      if r.all fun x => x.run = .merge o w then
        let low := r.foldl (fun a x => if x.num < a.num then x else a) f
        let one : Split := { low with
          mask := (f :: r).foldl (fun a x => a ||| x.mask) 0, origin := org.dropLast, run := .ready, pc := w + 1, clause := none,
          lastIssue := (f :: r).foldl (fun a x => max a x.lastIssue) 0, replay := none, yielded := low.yields,
          prior := ((f :: r).flatMap (·.prior)).eraseDups, dep := (f :: r).foldl (fun a x => joinDeps a x.dep) [],
          seen := (f :: r).flatMap (·.seen), fences := (f :: r).flatMap (·.fences),
          gbars := r.foldl (fun a x => min a x.gbars) f.gbars }
        putSplit (l.filter fun x => x.origin ≠ org) one
      else l
    | _ => l

/-- Wherever a split of this origin list waits at a MERGE or ceases to exist (R97, notes/assumptions/76.md). -/
def mergeCheck (k : Nat) (org : List Nat) : Eff := fun s => [.splits k (mergeSplits org (s.strand k).splits)]

/-! ## Residency keys (R103, R195) -/

def countOf (m : Map Nat) (i : Nat) : Nat := (mapGet m i).getD 0
/-- Keys a strand holds on an overlay. -/
def Strand.keysOn (st : Strand) (i : Nat) : Nat :=
  countOf st.callKeys i + countOf st.pins i + (if st.entryKey = some i then 1 else 0)
/-- Keys of all holders on a core. -/
def State.keyCount (s : State) (core part i : Nat) : Nat :=
  ((s.strands.map (·.2) ++ savedStrands s).filter fun st => st.core = core && st.part = part && !st.isRoutine).foldl
    (fun a st => a + st.keysOn i) 0

def takeCall (k i : Nat) : Eff := fun s =>
  let st := s.strand k
  [.keys k (mapSet st.callKeys i (countOf st.callKeys i + 1)) st.pins st.entryKey]
def dropCall (k i : Nat) : Eff := fun s =>
  let st := s.strand k
  [.keys k (mapSet st.callKeys i (countOf st.callKeys i - 1)) st.pins st.entryKey]

/-! ## The granules of a partition's overlays (R318) -/

/-- Granules a partition's overlays take on a core, a shared copy counted once (R318). -/
def granulesOf (l : List Overlay) : Nat :=
  ((l.map fun o => (o.hash, o.granules)).eraseDups.map (·.2)).foldl (· + ·) 0

/-- An overlay stays: a key pins it (R103), or its routine is running (R138). -/
def State.inUse (s : State) (o : Overlay) : Bool :=
  if o.routine then
    match mapGet s.strands (wilKey (o.core - 256)) with
    | some st => st.part = o.part && st.splits.any fun sp => sp.ovl = o.idx
    | none => false
  else 0 < s.keyCount o.core o.part o.idx

/-- The least recently called, or started, of some overlays: a load counts as a call, and the first loaded goes on a tie (DESIGN CHOICE, notes/assumptions/87.md). -/
def leastRecent : List Overlay → Option Overlay
  | [] => none
  | f :: r => some (r.foldl (fun a o => if o.lastCall < a.lastCall then o else a) f)

/-- The overlay of a partition on a core that goes next. -/
def evictee (s : State) (core part : Nat) (l : List Overlay) : Option Overlay :=
  leastRecent (l.filter fun o => o.core = core && o.part = part && !s.inUse o)

/-- Evicts overlays of a partition on a core that nothing holds until its granules stand within a quota (R103, R138, R318, notes/assumptions/98.md). -/
def shrinkTo (s : State) (core part quota : Nat) : Nat → List Overlay → List Overlay
  | 0, l => l
  | n + 1, l =>
    if granulesOf (l.filter fun o => o.core = core && o.part = part) ≤ quota then l
    else
      match evictee s core part l with
      | none => l
      | some v => shrinkTo s core part quota n (l.filter fun o => o ≠ v)

/-- Once keys have fallen or a routine has ended, what stands over a quota lowered before is evicted (R318, notes/assumptions/98.md). -/
def keepQuota (core part : Nat) : Eff := fun s =>
  let q := (s.part part).quota
  if granulesOf (s.overlays.filter fun o => o.core = core && o.part = part) ≤ q then []
  else [.overlays (shrinkTo s core part q s.overlays.length s.overlays)]

/-! ## The choice log (R371) -/

/-- The ring lies wholly within the log area (R371). -/
def logValid (s : State) (x : Part) : Bool :=
  32 ≤ x.logSize && s.regs.logBase ≤ x.logBase && x.logBase + x.logSize ≤ s.regs.logLimit
/-- Records the ring holds; head and tail count records (notes/assumptions/16.md). -/
def logSlots (x : Part) : Nat := x.logSize / 32
def logAddr (x : Part) (n : Nat) : Nat := x.logBase + n % logSlots x * 32

/-- The log record number n. -/
def logRecord (s : State) (x : Part) (n : Nat) : List Word := s.homeWords (logAddr x n) 4

/-- The first record of the replayed identifier at or after the replay position, with its number. -/
def nextLogged (s : State) (x : Part) : Option (Nat × List Word) :=
  (List.range (x.logTail - x.replayPos)).findSome? fun i =>
    let r := logRecord s x (x.replayPos + i)
    if fieldOf (r.getD 0 0) 0 32 = x.replayIdent then some (x.replayPos + i, r) else none

/-- In a replay, the log's next record of the replayed identifier (R372). -/
def nextOfLaunch (s : State) (l : Launch) : Option (Nat × List Word) := if l.replay && logValid s (s.part l.part) then nextLogged s (s.part l.part) else none

/-- A tile task of a launch, or a record of one, has still to end. -/
def tilesOf (s : State) (launch : Nat) : Bool :=
  s.tiles.any fun e => (e.2.chain ++ (e.2.held ++ e.2.running).map (·.link)).any fun t => t.launch = launch

/-- The trap-queue record of a replay's divergence: 0x1B, w2 the log position (R372). -/
def divergence (s : State) (l : Launch) : TrapRec :=
  { w0 := 0x1B, w1 := 0, w2 := BitVec.ofNat 64 (s.part l.part).replayPos,
    w3 := BitVec.ofNat 64 (l.ident % 2 ^ 32 * 2 ^ 32), w4 := 0, strand := none }

/-! ## The end of a launch (R337) -/

/-- Counts a strand of a launch as retired; after the last, the signal arrival is counted, releasing what the launch's strands did (R287). A replay whose log expects more then diverges (R372). -/
def launchRetire (id : Nat) (dep : List Nat) : Eff := fun s =>
  match mapGet s.launches id with
  | none => []
  | some l =>
    let l' := { l with retired := l.retired + 1, dep := joinDeps l.dep dep }
    let last := l'.count ≤ l'.retired && !l.ended
    let w5 := recWord l.rec_ 5
    let key := ctKey l.part l.chain (fieldOf w5 4 3)
    [.launch id { l' with ended := l.ended || last }] ++
    (if last && (nextOfLaunch s l).isSome && !tilesOf s id then postTrap l.part (divergence s l) s
     else if last && fieldOf w5 7 1 = 1 && !l.withhold then [.ctAdvance key ((s.ct key).count + 1) (s.stillPending l'.dep)] else [])

/-! ## Retiring a strand (R191) -/

/-- An operation goes on after its strand has retired: it writes memory, scratch, accumulators or another unit (R191, R306). -/
def OpKind.outlives : OpKind → Bool
  | .mem x => (match x.kind with | .store => true | .red _ => true | .atom _ => true | _ => false)
  | .chadv .. | .copy _ | .accIn .. | .accZero _ | .xbprog .. | .xbcal .. | .nmcall .. | .spawn .. | .qpush .. | .tladv ..
  | .genup .. | .syswr .. | .ctxsave .. | .ctxload .. | .accspill .. | .accfill .. => true
  | _ => false

/-- Key of a retiring strand while operations of its own go on. -/
def ghostKey (s : State) (k : Nat) : Nat := 2 ^ 20 * (1 + s.nextOp) + k

/-- The strand in `key` is gone but for operations of its own: they act for it still. -/
def keepGhost (k : Nat) (owes : Bool) (stay : Op → Bool) : Eff := fun s =>
  let mine := s.ops.filter fun o => o.owner = k && stay o
  if mine.isEmpty then []
  else
    [.ghost (ghostKey s k) { (s.strand k) with owes := owes, gang := none }, .nextOp] ++
    mine.map fun o => .opSet { o with owner := ghostKey s k, flag := 0 }

/-- An operation of a retiring strand that goes on. -/
def Op.goesOn (o : Op) : Bool := o.kind.outlives && !o.parked

/-- Operations of a strand that is gone: those that outlive it act for it still, the rest are dropped. -/
def orphanOps (k : Nat) (owes : Bool) : Eff := fun s =>
  keepGhost k owes Op.goesOn s ++ (s.ops.filter fun o => o.owner = k && !o.goesOn).map fun o => .opDel o.id

/-- Crossbar bindings of a strand are released (R268). -/
def unbind (k : Nat) : Eff := fun s =>
  s.xbars.filterMap fun e => if e.2.bound = some k then some (.xbar e.1 { e.2 with bound := none }) else none

/-- Two records of one strand: it, and what it has left behind. -/
def Strand.same (a b : Strand) : Bool := a.launch = b.launch && a.number = b.number && a.placedAt = b.placedAt && !a.isRoutine && !b.isRoutine

/-- What is left of a strand that the launch still counts: itself in its slot, or operations of it that go on. -/
def State.remains (s : State) (st : Strand) : Option Nat :=
  match s.strands.find? fun e => e.2.same st with
  | some e => some e.1
  | none => (s.ghosts.find? fun e => e.2.owes && e.2.same st).map (·.1)

/-- The launch counts a strand of which nothing remains; what remains takes what its end releases (R287). -/
def countRetired (st : Strand) : Eff := fun s =>
  match s.remains st with
  | some k => [.dep k st.dep]
  | none => launchRetire st.launch st.dep s

/-- Once the last operation that a retired strand left has ended, its launch counts it (R287). -/
def ghostEnd (k : Nat) : Eff := fun s =>
  match mapGet s.ghosts k with
  | some g =>
    if s.ops.any (fun o => o.owner = k) || s.saved.any (fun x => x.key = k) then []
    else
      .ghostDel k :: (if g.owes then countRetired g (s.apply (.ghostDel k))
        else match mapGet s.launches g.launch with
          | some l => [.launch g.launch { l with dep := joinDeps l.dep g.dep }]
          | none => [])
  | none => []

/-- A handler that retires by TRET posts the frame of a target that is still parked and that it has not resumed (R306). -/
def postTarget (k : Nat) : Eff := fun s =>
  match (s.strand k).handler with
  | some h =>
    if !h.tret || h.tile || h.resumed then []
    else
      match (mapGet s.strands h.target).bind (·.frame) with
      | some t => postTrap (s.strand h.target).part (trapRecord s h.target t) s
      | none => []
  | none => []

/-- Steps 2 to 4 of EXIT: LEAVE, keys, slot and footprint; the launch counts the strand. -/
def retire (k : Nat) : Eff := fun s =>
  let st := s.strand k
  Eff.seq [postTarget k, leaveGang k, orphanOps k true, unbind k, fun _ => [.strandDel k], keepQuota st.core st.part, countRetired st] s

/-- R191 step 1: every flag reads zero and nothing of the strand is outstanding. -/
def exitReady (s : State) (k : Nat) : Bool :=
  let st := s.strand k
  st.splits.length = 1 && st.splits.all (fun sp => sp.run = .exiting) && (List.range 12).all (fun f => st.flag f = 0) &&
  !s.ops.any fun o => o.owner = k

/-- A strand waiting at EXIT retires once it may. -/
def exitCheck (k : Nat) : Eff := fun s =>
  match mapGet s.strands k with
  | none => []
  | some _ => if exitReady s k then retire k s else []

/-- A trapped strand goes on (R315), and with it the merge or the exit it stood at. -/
def resumeStrand (k : Nat) : Eff := fun s =>
  let again : Eff := match (s.strand k).frame with
    | some t => mergeCheck k ((s.strand k).splitOf t.split).origin
    | none => fun _ => []
  Eff.seq [resumeTrap k, again, exitCheck k] s

/-! ## Ending a strand from outside (R306, R337) -/

/-- The operation writes the strand's lane-file words (R306). -/
def OpKind.writesLanes : OpKind → Bool
  | .mem x => !x.scalar && (match x.kind with | .load | .ldx | .atom _ => true | _ => false)
  | .results _ ups _ => ups.any fun u => match u with | .lane .. => true | _ => false
  | .copy _ | .nmcall .. | .xbmv .. | .accOut .. => true
  | _ => false

/-- RESUME.end's effect on a strand: pending replay and waits are discarded, only lane-file writers are awaited, then it takes steps 2 to 4 of EXIT (R306). -/
def endStrand (k : Nat) : Eff := fun s =>
  match mapGet s.strands k with
  | none => []
  | some st =>
    let mine := s.ops.filter fun o => o.owner = k
    let stay := mine.filter fun o => o.kind.writesLanes && !o.parked
    let drop : List Upd := (mine.filter fun o => !(stay.any fun x => x.id = o.id) && !o.goesOn).map fun o => .opDel o.id
    let st' := { st with
      splits := (st.splits.take 1).map fun sp => { sp with run := .exiting, clause := none, replay := none },
      frame := none, pending := [], suspended := false, preempt := false, endCode := some 0,
      cf := (List.range 12).map fun f => (f, (stay.filter fun o => o.flag = f + 1).length),
      delayed := st.delayed.filter fun d => match d.2 with | .flagFall .. => false | _ => true }
    Eff.seq [keepGhost k true (fun o => o.goesOn && !(stay.any fun x => x.id = o.id)), fun _ => drop ++ [.strand k st'], exitCheck k] s

/-- A saved strand's entry of the context save pool is free (R355). -/
def freePool (x : Saved) : Eff := fun s =>
  let p := (s.strand x.key).part
  match x.pool with
  | some _ => [.part p { (s.part p) with poolUsed := (s.part p).poolUsed.filter fun e => e.2 ≠ x.token }]
  | none => []

/-- A saved strand is gone: its operations that outlive it go on. -/
def dropSaved (x : Saved) : Eff := fun s =>
  let mine := s.ops.filter fun o => o.owner = x.key
  let stay := mine.filter Op.goesOn
  Eff.seq [freePool x, unbind x.key, fun s =>
    .saved (s.saved.filter fun y => y.token ≠ x.token) ::
    (mine.map fun o => if stay.any fun p => p.id = o.id then .opSet { o with flag := 0 } else .opDel o.id) ++
    (if stay.isEmpty then [.ghostDel x.key] else []), keepQuota (s.strand x.key).core (s.strand x.key).part] s

/-- Saved strands of a launch. -/
def savedOf (s : State) (launch : Nat) : List Saved := s.saved.filter fun x => (s.strand x.key).launch = launch

/-- R337: the Drevar side, or a replay's divergence, ends a launch: strands retire, unplaced ones never start, no signal. -/
def endLaunch (id : Nat) : Eff := fun s =>
  match mapGet s.launches id with
  | none => []
  | some l =>
    let ks := (s.strands.filter fun e => e.2.launch = id && !e.2.isRoutine).map (·.1)
    let gone := (savedOf s id).length + l.again.length
    Eff.seq (
      (savedOf s id).map dropSaved ++
      (fun _ => [.launch id { l with withhold := true, count := l.placed, placed := l.placed, again := [],
                                     retired := l.retired + gone, ended := l.ended || l.placed ≤ l.retired + gone }]) ::
      ks.map endStrand) s

/-! ## Choices (R369, R370, R372) -/

/-- A choice of Table 22-3: kind, object word, value word, agent, strand number. -/
structure Choice where
  kind : Nat
  obj : Nat
  val : Nat
  agent : Nat
  strand : Nat
  deriving DecidableEq, Repr

/-- The agent field of a strand: package core number and slot. -/
def strandAgent (st : Strand) : Nat := st.core % 256 + st.slot % 16 * 256

/-- The 32-byte log record (R370). -/
def Choice.words (c : Choice) (ident : Nat) : List Word :=
  [BitVec.ofNat 64 (c.kind * 2 ^ 56 + ident % 2 ^ 32), BitVec.ofNat 64 c.obj, BitVec.ofNat 64 c.val,
   BitVec.ofNat 64 (c.agent % 2 ^ 32 * 2 ^ 32 + c.strand % 2 ^ 32)]

/-- Kinds whose logged value is delivered instead of the device's own (R372). -/
def Choice.delivers (c : Choice) : Bool := c.kind = 10 || c.kind = 11 || c.kind = 12

/-- Agent field of a choice made by an agent outside the package. -/
def outsideAgent : Nat := 2 ^ 31

/-- A log record is a choice of this agent about this object: kind, object and strand agree, and for an access at a home the lane. Which number it takes may differ yet (notes/assumptions/105.md). -/
def Choice.names (c : Choice) (r : List Word) : Bool :=
  fieldOf (r.getD 0 0) 56 8 = c.kind && r.getD 1 0 = BitVec.ofNat 64 c.obj && fieldOf (r.getD 3 0) 0 32 = c.strand % 2 ^ 32 &&
  (fieldOf (r.getD 3 0) 63 1 = 1) = (c.agent = outsideAgent) && (c.kind ≠ 2 || r.getD 2 0 = BitVec.ofNat 64 c.val)

/-- A log record is this choice's, with the value it has now where that is not delivered. -/
def Choice.isRecord (c : Choice) (r : List Word) : Bool := c.names r && (c.delivers || r.getD 2 0 = BitVec.ofNat 64 c.val)

/-- Kinds whose value only rises: an admission's lap and sequence, message, arrival and command numbers. -/
def Choice.rises (c : Choice) : Bool := c.kind = 1 || c.kind = 5 || c.kind = 7 || c.kind = 8

/-- What becomes of a choice: not logged, appended, held, replayed as logged, or not in the log. -/
inductive Verdict where
  | plain | append | hold | replay (n : Nat) (value : Word) | diverge
  deriving DecidableEq, Repr

/-- The strand a log record names has retired for good: what the record expects never arrives (R372). -/
def neverArrives (s : State) (launch : Nat) (l : Launch) (r : List Word) : Bool :=
  let n := fieldOf (r.getD 3 0) 0 32
  let here := fun (st : Strand) => st.launch = launch && st.number = n
  fieldOf (r.getD 3 0) 63 1 = 0 && fieldOf (r.getD 0 0) 56 8 ≠ 6 && n < l.placed && !tilesOf s launch && !(l.again.any fun a => a.1 = n) &&
  !(s.strands.any fun e => here e.2) && !(s.ghosts.any fun e => here e.2)

/-- In a replay a choice is held until the log's next record is its own with the value it has (R372); it diverges where the log does not hold it, where its value has passed the logged one, or where the next record never arrives. In a recorded launch it is held while the ring is full or not in the log area (R371). -/
def verdict (s : State) (launch : Nat) (c : Choice) : Verdict :=
  match mapGet s.launches launch with
  | none => .plain
  | some l =>
    if !l.record then .plain
    else
      let x := s.part l.part
      if !logValid s x then .hold
      else if l.replay then
        match nextLogged s x with
        | none => .diverge
        | some (n, r) =>
          if c.isRecord r then .replay n (r.getD 2 0)
          else if neverArrives s launch l r then .diverge
          else if c.names r then (if c.rises && (r.getD 2 0).toNat < c.val then .diverge else .hold)
          else if (List.range (x.logTail - x.replayPos)).any fun i =>
              let r := logRecord s x (x.replayPos + i)
              fieldOf (r.getD 0 0) 0 32 = x.replayIdent && c.names r then .hold
          else .diverge
      else if logSlots x ≤ x.logTail - x.logHead then .hold
      else .append

/-- The choice may be made now. -/
def choiceOk (s : State) (launch : Nat) (c : Choice) : Bool := verdict s launch c ≠ .hold

/-- A choice that cannot be matched ends the launch with a trap-queue record 0x1B (R372). -/
def diverged (launch : Nat) : Eff := fun s =>
  match mapGet s.launches launch with
  | none => []
  | some l =>
    Eff.seq [postTrap l.part (divergence s l), endLaunch launch] s

/-- Makes a choice: logs it, or takes it from the log, and does what it leads to with the value delivered. -/
def withChoice (launch : Nat) (c : Choice) (e : Word → Eff) : Eff := fun s =>
  let own := BitVec.ofNat 64 c.val
  match verdict s launch c with
  | .plain => e own s
  | .hold => []
  | .diverge => diverged launch s
  | .append =>
    match mapGet s.launches launch with
    | none => []
    | some l =>
      let x := s.part l.part
      Eff.andThen (fun _ => putWords (logAddr x x.logTail) (c.words l.ident) ++ [.part l.part { x with logTail := x.logTail + 1 }])
        (e own) s
  | .replay n v =>
    match mapGet s.launches launch with
    | none => []
    | some l =>
      let x := s.part l.part
      Eff.andThen (fun _ => [.part l.part { x with replayPos := n + 1 }]) (e (if c.delivers then v else own)) s

/-- Log records n choices of a launch need now. -/
def roomFor (s : State) (id n : Nat) : Bool :=
  match mapGet s.launches id with
  | some l =>
    let x := s.part l.part
    !l.record || l.replay || (x.logTail - x.logHead) + n ≤ logSlots x
  | none => true

/-! ## Kills (R319) -/

/-- A killed strand's lane-file and scratch writes still in flight are discarded; what its operations write elsewhere they still write. -/
def discardWrites (k : Nat) : Eff := fun s =>
  s.ops.filterMap fun o =>
    if o.owner = k then
      match o.kind with
      | .mem x => some (.opSet { o with killed := true, kind := .mem { x with reqs := x.reqs.filter fun r => !onChip r.pa } })
      | .copy x => if [0, 1, 4, 5].contains (fieldOf (x.rec_.getD 0 0) 0 4) then some (.opDel o.id) else some (.opSet { o with killed := true })
      | .qpush .. => some (.opDel o.id)
      | _ => some (.opSet { o with killed := true })
    else none

/-- The choice an idempotent kill is (kind 13): strand and core (notes/assumptions/105.md). -/
def killChoice (st : Strand) : Choice := { kind := 13, obj := st.slot, val := st.core, agent := strandAgent st, strand := st.number }

/-- The log holds the kill of one of these strands (R371, R372). -/
def killHeld (s : State) (ks : List Nat) : Bool :=
  ks.any fun k =>
    let st := s.strand k
    match mapGet s.launches st.launch with
    | some l => l.idempotent && (verdict s st.launch (killChoice st) = .hold || !roomFor s st.launch (ks.filter fun j => (s.strand j).launch = st.launch).length)
    | none => false

/-- A killed strand retires as under RESUME.end; an idempotent launch places it again, any other posts cause 0x12 and withholds its signal. -/
def killStrand (k : Nat) : Eff := fun s =>
  match mapGet s.strands k with
  | none => []
  | some st =>
    match mapGet s.launches st.launch with
    | none => retire k s
    | some l =>
      if l.idempotent then
        withChoice st.launch (killChoice st) (fun _ => Eff.seq [discardWrites k, leaveGang k, orphanOps k false, unbind k, fun _ => [.strandDel k, .launch st.launch { l with again := l.again ++ [(st.number, st.params)], dep := joinDeps l.dep st.dep }],
          keepQuota st.core st.part]) s
      else
        let t := mkTrap st (st.splits.getD 0 Split.none_) (TrapInfo.plain cLaneFile)
        let r := { trapRecord s k t with strand := none }
        Eff.seq [discardWrites k, postTrap st.part r, fun _ => [.launch st.launch { l with withhold := true }], retire k] s

/-- The window and footprint of a strand cover a lane-file word. -/
def coversLane (st : Strand) (lane word : Nat) : Bool :=
  let b := winBox st.window
  let f := footRange st.launchWin st.fpBase st.fpCount
  b.1 ≤ lane / 32 && lane / 32 < b.2.1 && b.2.2.1 ≤ lane % 32 && lane % 32 < b.2.2.2 && f.1 ≤ word && word < f.2

/-- The strands killed with some: a co-resident idempotent launch has all its strands killed together. -/
def killSet (s : State) (ks : List Nat) : List Nat :=
  (ks.flatMap fun k =>
    let st := s.strand k
    match mapGet s.launches st.launch with
    | some l => if l.idempotent && l.coresident then (s.strands.filter fun e => e.2.launch = st.launch && !e.2.isRoutine).map (·.1) else [k]
    | none => [k]).eraseDups

/-- Kills strands in order, and the saved ones that are killed with them, and then what the error asks for. What the log holds is tried again from the next cycle on. -/
def killAll (ks : List Nat) (after : Eff) : Eff := fun s =>
  let all := killSet s ks
  let gone := (all.flatMap fun k => match mapGet s.launches (s.strand k).launch with
    | some l => if l.idempotent && l.coresident then savedOf s (s.strand k).launch else []
    | none => []).eraseDups
  if killHeld s all then [.tick (s.now + 1)]
  else
  Eff.seq (all.map killStrand ++ (gone.map fun x => fun s =>
    let st := s.strand x.key
    match mapGet s.launches st.launch with
    | some l => Eff.andThen (fun _ => [.launch st.launch { l with again := l.again ++ [(st.number, st.params)] }]) (dropSaved x) s
    | none => dropSaved x s) ++ [after]) s

/-- An uncorrectable lane-file word kills the strands that cover it, and is rewritten with zero; a routine ends there with code 1 (R149). -/
def killLane (key : Nat) : Eff := fun s =>
  let core := key / 262144
  let lane := key / 256 % 1024
  if 256 ≤ core then
    let k := wilKey (core - 256)
    [.endCode k (some 1), .splits k ((s.strand k).splits.map fun x => { x with run := .parked }),
     .bad (s.lanesBad.filter fun x => x ≠ key) s.scratchBad s.accBad]
  else
  let ks := ((s.onCore core).filter fun e => coversLane e.2 lane (key % 256)).map (·.1)
  killAll ks (fun s => [.loc 0 (.lane key (BitVec.allOnes 32) 0), .bad (s.lanesBad.filter fun x => x ≠ key) s.scratchBad s.accBad]) s

/-- An uncorrectable scratch word kills the strands of the cluster with a scratch segment over it. -/
def killScratch (pa : Nat) : Eff := fun s =>
  let cl := ocPkgCluster pa
  let off := ocOff pa
  let ks := (s.strands.filter fun e => e.1 < 4096 && clusterOf e.2.core = cl &&
    e.2.g.any fun g => g.2.attr.getLsbD 13 && g.2.base.toNat ≤ off + 7 && off < g.2.base.toNat + g.2.limit.toNat).map (·.1)
  killAll ks (fun s =>
    (List.range 8).map (fun i => Upd.mem (pa / 8 * 8 + i) 0) ++
    [.bad s.lanesBad (s.scratchBad.filter fun x => x ≠ pa / 8) s.accBad]) s

/-! ## The conditions of the deadlock watchdog (R338) -/

/-- The log of a launch takes no record now: a choice it would log is held, and that wait is internal (R371). -/
def logFull (s : State) (l : Launch) : Bool :=
  let x := s.part l.part
  l.record && (!logValid s x || (!l.replay && logSlots x ≤ x.logTail - x.logHead))

/-- A wait the watchdog calls external (Table 19-3); so is one on another device (notes/assumptions/93.md). -/
def waitsOutside (s : State) (l : Launch) (o : Op) : Bool :=
  match o.kind with
  | .tlwait tl _ => l.ext.getLsbD tl
  | .qpush q _ _ => ((s.queue q).hostFed || (s.queue q).peerFed) && !(logFull s l && 0 < (s.queue q).allowance)
  | .qpop q _ _ => ((s.queue q).hostFed || (s.queue q).peerFed) && !(logFull s l && 0 < (s.queue q).used)
  | .waita _ _ fired dl ext => (dl ≠ 0 || ext) && !(logFull s l && (fired.isSome || (dl ≠ 0 && dl ≤ s.now)))
  | .mem m => m.reqs.any fun r => (r.cls = 3 || r.remote.isSome) && r.st ≠ .done
  | _ => false

/-- The split waits on an object inside the device. -/
def waitsInside (s : State) (l : Launch) (k : Nat) (st : Strand) (sp : Split) : Bool :=
  match sp.run with
  | .hold i => (match s.op? i with | some o => !waitsOutside s l o | none => false)
  | .merge .. => true
  | .overlay _ => true
  | .ready =>
    (match headerAt s st sp with
     | some h =>
       !waitsHold st h s.now &&
       !s.ops.any fun o => o.owner = k && o.flag ≠ 0 && h.wait.getLsbD (o.flag - 1) &&
         (match o.kind with
          | .mem _ => false
          | _ => waitsOutside s l o)
     | none => false)
  | _ => false

/-- A copy, tile task, crossbar product or near-memory routine of a launch is outstanding. -/
def engineWork (s : State) (id : Nat) : Bool :=
  (s.ops.any fun o => (s.strand o.owner).launch = id && (match o.kind with
    | .copy _ => true
    | .xbmv .. => true
    | .nmcall .. => true
    | _ => false)) || tilesOf s id

/-- The watchdog of a launch counts. -/
def wdogCounts (s : State) (id : Nat) (l : Launch) : Bool :=
  let ss := s.strands.filter fun e => e.2.launch = id && !e.2.isRoutine
  !l.ended && !ss.isEmpty && l.count ≤ l.placed && l.again.isEmpty && (savedOf s id).isEmpty && !engineWork s id &&
  ss.all fun e => e.2.frame.isNone && !e.2.suspended && e.2.splits.all (waitsInside s l e.1 e.2)

/-- As time passes to cycle t, the watchdogs whose conditions fail count from there. -/
def wdogTick (t : Nat) : Eff := fun s =>
  s.launches.filterMap fun e => if e.2.ended || wdogCounts s e.1 e.2 then none else some (.launch e.1 { e.2 with wdog := t })

/-! ## Time (R89) -/

/-- Settles every strand's delayed results and retires the strands whose EXIT may go on. -/
def settleAll : Eff := fun s =>
  Eff.seq (s.strands.flatMap fun e => [settle e.1 s.now, exitCheck e.1]) s

/-- Time reaches cycle t. -/
def advance (t : Nat) : Eff := Eff.seq [wdogTick t, fun _ => [.tick t], settleAll]

/-- A write of a lane-file word. -/
def isLaneWrite : Upd → Bool
  | .loc _ (.lane ..) => true
  | _ => false
/-- An operation of a strand completes: its effects, then its end, then the strand's EXIT if that was waiting. -/
def completeOp (o : Op) (ups : List Upd) (deps : List Nat) : Eff :=
  Eff.seq [fun _ => if o.killed then ups.filter fun u => !isLaneWrite u else ups, fun s => endOp s o deps, exitCheck o.owner, ghostEnd o.owner]

end Sys2Proof.Machine
end

