-- ==== Sys2Proof/Machine/Operands.lean ====
section
/-! DEFINITION. Operand forms: fields of a word, lane registers, plane descriptors and their placement, the checks of R204, and how a class-1 result is delivered. -/

namespace Sys2Proof.Machine

/-! ## An instruction word's effect -/

/-- What an instruction word does: with no active lane it only issues (R84); with its flag at 8 it stalls (R92); else its own effect. -/
def onWord (c : Common) (len : Ctx → Nat) (body : Ctx → Eff) : Eff := fun s =>
  let x := s.ctx c
  if x.act = 0 then finish x s (len x) x.sp.past
  else
    match setfFlag c with
    | some f => if 8 ≤ x.st.flag f && x.sp.replay.isNone then advance (s.now + 1) s else body x s
    | none => body x s

/-- Issue length of one cycle. -/
def len1 : Ctx → Nat := fun _ => 1

/-- The trap of the word being executed, with a cause alone. -/
def trapNow (x : Ctx) (cause : Nat) : Eff := takeTrap x.k x.sp.num (TrapInfo.plain cause) []

/-- The flag a word names counts its use from a park on (R92). -/
def parkFlag (x : Ctx) : List Upd :=
  match setfFlag x.c with
  | none => []
  | some f => if x.sp.replay.isSome then [] else [.flagUp x.k f]

/-- A word parks, to be executed again (pending kind 1 or 3). -/
def parkNow (x : Ctx) (i : TrapInfo) (needs : List PageNeed) : Eff :=
  Eff.andThen (fun _ => parkFlag x) (takeTrap x.k x.sp.num { i with flag := x.c.setf.toNat } needs)

/-- The cause of the first check that fails (R204, Table 8-11). -/
def firstFail : List (Bool × Nat) → Option Nat
  | [] => none
  | (ok, cause) :: r => if ok then firstFail r else some cause

/-- Runs an effect if every check holds, else traps. -/
def checked (x : Ctx) (checks : List (Bool × Nat)) (e : Eff) : Eff := fun s =>
  match firstFail checks with
  | some c => trapNow x c s
  | none => e s

/-! ## Fields of a lane word (R58, R201) -/

/-- Field f of width b of a word. -/
def laneField (b : Nat) (w : LWord) (f : Nat) : Nat := w.toNat / 2 ^ (b * f) % 2 ^ b

/-- The bits of field f. -/
def laneFieldMask (b f : Nat) : LWord := BitVec.ofNat 32 (2 ^ b - 1) <<< (b * f)

/-- A word made of a result for each field, and the status of all of them (R26). -/
def packFields (b : Nat) (f : Nat → Res) : LWord × Status :=
  (List.range (32 / b)).foldl (fun acc j =>
    let r := f j
    (acc.1 ||| (BitVec.ofNat 32 (r.1 % 2 ^ b) <<< (b * j)), acc.2 ||| r.2)) (0#32, 0)

/-- Types a lane form takes at all (R201): 1 to 10. -/
def laneType (t : Nat) : Bool := 1 ≤ t && t ≤ 10

/-- Multiplicity of the window (R77); 1 for a physical window. -/
def winM (w : Word) : Nat := if winVirtual w then winMult w else 1

/-- Word k of the window's lanes exists and lies in the footprint (R78, R81). -/
def Strand.wordOk (st : Strand) (k : Nat) : Bool :=
  let m := winM st.window
  let f := footRange st.launchWin st.fpBase st.fpCount
  k < 256 / m && f.1 ≤ k * m && (k + 1) * m ≤ f.2

/-- A lane position names no word outside the footprint (R81, R201). -/
def Strand.laneOk (st : Strand) (x : Sel) : Bool :=
  match x with
  | .reg n => st.wordOk n.toNat
  | _ => true

/-- The first uncorrectable word among lane-file keys read (R228). -/
def State.badKey (s : State) (keys : List Nat) : Option Nat :=
  if s.lanesBad.isEmpty then none else keys.find? s.lanesBad.contains

/-- The lane-file keys a lane form reads. -/
def laneKeys (st : Strand) (lanes : List Nat) (xs : List Sel) : List Nat :=
  xs.flatMap fun x =>
    match x with
    | .reg r => lanes.map fun n => st.laneAt n r.toNat
    | _ => []

/-- A class-1 instruction that reads an uncorrectable word kills under R319; else its effect (R228). -/
def unlessBad (keys : State → List Nat) (e : Eff) : Eff := fun s =>
  match s.badKey (keys s) with
  | some key => killLane key s
  | none => e s

/-! ## The lane form -/

/-- Issue length of a lane form: n cycles for each pass over the sub-grids (R79, R201). -/
def laneLen (n : Nat) : Ctx → Nat := fun x => n * winM x.st.window

/-- A lane form's effect: checks, then for each active lane the word and status `f` gives, to the register and the latch (R201). -/
def laneForm (x : Ctx) (n lat : Nat) (d : Sel) (srcs : List Sel) (checks : List (Bool × Nat))
    (f : State → Nat → LWord × Status) : Eff := fun s =>
  let st := x.st
  let act := lanesOf x.act (winLanes st.window)
  let regsOk := st.laneOk d && srcs.all st.laneOk
  checked x ((regsOk, cIllegalOperand) :: checks)
    (unlessBad (fun _ => laneKeys st act srcs) fun s =>
      let rs := act.map fun i => (i, f s i)
      fixedResult x s (laneLen n x) lat
        (rs.map fun r => .lane (st.laneAt r.1 (selNum d)) (BitVec.allOnes 32) r.2.1)
        (rs.map fun r => .latL x.c.lat.toNat r.1 r.2.1)
        (rs.foldl (fun a r => a ||| r.2.2) 0)) s

/-- The lane form of an operation on the fields of its type. -/
def laneFields (x : Ctx) (n lat ty : Nat) (accepts : Nat → Bool) (d : Sel) (srcs : List Sel)
    (f : List Nat → Res) : Eff :=
  laneForm x n lat d srcs [(laneType ty && accepts ty, cIllegalOperand)] fun s i =>
    let ws := srcs.map fun a => s.laneSrc x.st a i
    packFields (fmtWidth ty) fun j => f (ws.map fun w => laneField (fmtWidth ty) w j)

/-- The mask form (R213, R215): the bit each active lane gives, to mD's bits of the active lanes. -/
def maskForm (x : Ctx) (lat : Nat) (d : Sel) (srcs : List Sel) (checks : List (Bool × Nat))
    (f : State → Nat → Bool × Status) : Eff := fun s =>
  let st := x.st
  let act := lanesOf x.act (winLanes st.window)
  checked x ((srcs.all st.laneOk, cIllegalOperand) :: checks)
    (unlessBad (fun _ => laneKeys st act srcs) fun s =>
      let rs := act.map fun i => (i, f s i)
      fixedResult x s (laneLen 1 x) lat
        [.m (selNum d) x.act (lanesMask ((rs.filter fun r => r.2.1).map (·.1)))] []
        (rs.foldl (fun a r => a ||| r.2.2) 0)) s

/-! ## Plane descriptors (R53 to R60) -/

/-- A plane as its descriptor and the window lay it out. -/
structure Geo where
  h : Nat
  w : Nat
  H : Nat
  W : Nat
  D : Nat
  base : Nat
  stride : Nat
  fold : Nat
  ty : Nat
  sh : Nat
  sw : Nat
  b : Nat
  wd : Nat
  deriving DecidableEq, Repr

/-- Width in a plane (Table 3-3); a type that names none counts as 32 (R84). -/
def planeWidth (t : Nat) : Nat := if t = 0 || t = 11 || t = 12 || t = 15 then 32 else fmtWidth t

/-- Table 3-2 and R54. -/
def Geo.of (win pd : Word) : Geo :=
  let h := winH win
  let w := winW win
  let H := fieldOf pd 8 12 + 1
  let W := fieldOf pd 20 12 + 1
  let sh := (H + h - 1) / h
  let sw := (W + w - 1) / w
  let b := planeWidth (fieldOf pd 32 4)
  { h := h, w := w, H := H, W := W, D := fieldOf pd 38 8 + 1, base := fieldOf pd 0 8, stride := fieldOf pd 46 8,
    fold := fieldOf pd 36 2, ty := fieldOf pd 32 4, sh := sh, sw := sw, b := b,
    wd := (sh * sw + 32 / b - 1) / (32 / b) }

def Geo.S (g : Geo) : Nat := g.sh * g.sw
def Geo.e (g : Geo) : Nat := 32 / g.b
/-- Last word of the plane. -/
def Geo.last (g : Geo) : Nat := g.base + (g.D - 1) * g.stride + g.wd - 1

/-- R55: the descriptor may be used under the window. -/
def planeOk (st : Strand) (pd : Word) : Bool :=
  let g := Geo.of st.window pd
  let m := winM st.window
  let f := footRange st.launchWin st.fpBase st.fpCount
  fieldOf pd 54 10 = 0 && g.fold < 2 && g.ty ≠ 0 && g.ty ≠ 11 && g.ty ≠ 12 && g.ty ≠ 15 &&
  (g.D = 1 || g.wd ≤ g.stride) && g.last < 256 / m && f.1 ≤ g.base * m && (g.last + 1) * m ≤ f.2

/-- Window lane and slot of element (y, x) (R56, R57). -/
def Geo.place (g : Geo) (y x : Nat) : Nat × Nat :=
  if g.fold = 1 then ((y / g.sh) * g.w + x / g.sw, (y % g.sh) * g.sw + x % g.sw)
  else ((y % g.h) * g.w + x % g.w, (y / g.h) * g.sw + x / g.w)

/-- Element in slot p of window lane n; outside H × W it is padding (R59). -/
def Geo.elemAt (g : Geo) (n p : Nat) : Nat × Nat :=
  let i := n / g.w
  let j := n % g.w
  if g.fold = 1 then (i * g.sh + p / g.sw, j * g.sw + p % g.sw)
  else ((p / g.sw) * g.h + i, (p % g.sw) * g.w + j)

/-- Word and field of slot p in depth plane d (R56, R58). -/
def Geo.word (g : Geo) (d p : Nat) : Nat := g.base + d * g.stride + p / g.e
def Geo.fieldNo (g : Geo) (p : Nat) : Nat := p % g.e

/-- Raw bits of element (d, y, x), as its lane word stands: an element in a lane of another split, which may read as any value it has had since the SPLIT (R62), reads as its latest (DESIGN CHOICE, notes/assumptions/85.md). -/
def State.elem (s : State) (st : Strand) (win : Word) (g : Geo) (d y x : Nat) : Nat :=
  let p := g.place y x
  laneField g.b (s.laneWord st (laneAtIn st.core win p.1 (g.word d p.2))) (g.fieldNo p.2)

/-- Every element of the plane, by depth, row and column. -/
def Geo.elems (g : Geo) : List (Nat × Nat × Nat) :=
  (List.range g.D).flatMap fun d => (List.range g.H).flatMap fun y => (List.range g.W).map fun x => (d, y, x)

/-- The slot lies in the plane and holds an element: else it is padding (R59). -/
def Geo.holds (g : Geo) (n p : Nat) : Bool := p < g.S && (g.elemAt n p).1 < g.H && (g.elemAt n p).2 < g.W

/-- Word k of a depth plane holds an element in window lane n. -/
def Geo.used (g : Geo) (n k : Nat) : Bool := (List.range g.e).any fun f => g.holds n (k * g.e + f)

/-- The lane-file keys a read of the plane reads: those of words that hold an element (R59). -/
def Geo.reads (core : Nat) (win : Word) (g : Geo) : List Nat :=
  (List.range (winLanes win)).flatMap fun n =>
    (List.range g.D).flatMap fun d => ((List.range g.wd).filter (g.used n)).map fun k => laneAtIn core win n (g.base + d * g.stride + k)

/-- The keys of the words that hold elements of active lanes. -/
def Geo.readsIn (core : Nat) (win : Word) (g : Geo) (act : Lanes) : List Nat :=
  (lanesOf act (winLanes win)).flatMap fun n =>
    (List.range g.D).flatMap fun d => ((List.range g.wd).filter (g.used n)).map fun k => laneAtIn core win n (g.base + d * g.stride + k)

/-- The keys of destination words of which a write of the plane keeps a part, in the active lanes: each is read first (R319). -/
def Geo.kept (core : Nat) (win : Word) (g : Geo) (act : Lanes) : List Nat :=
  if g.S % g.e = 0 then []
  else
    ((List.range (winLanes win)).filter fun n => act.getLsbD n && g.used n (g.wd - 1)).flatMap fun n =>
      (List.range g.D).map fun d => laneAtIn core win n (g.base + d * g.stride + (g.wd - 1))

/-- Every lane that holds an element is active (R226). -/
def Geo.full (g : Geo) (act : Lanes) : Bool :=
  (List.range g.H).all fun y => (List.range g.W).all fun x => act.getLsbD (g.place y x).1

/-- The bits written of word k of a depth plane in window lane n, and their values: the elements of an active lane, and free values in padding slots. -/
def planeWord (g : Geo) (act : Lanes) (key n k seed : Nat) (f : Nat → Nat → Nat) : LWord × LWord :=
  (List.range g.e).foldl (fun acc j =>
    let p := k * g.e + j
    let on := laneFieldMask g.b j
    if !(p < g.S) then acc
    else if g.holds n p then
      let yx := g.elemAt n p
      if act.getLsbD n then (acc.1 ||| on, acc.2 ||| (BitVec.ofNat 32 (f yx.1 yx.2 % 2 ^ g.b) <<< (g.b * j))) else acc
    else (acc.1 ||| on, acc.2 ||| (Config.freeLane seed (key * 4 + j) &&& on))) (0, 0)

/-- The writes of a plane's new elements, a word at a time: those in active lanes (R62), and every padding slot, whose contents are unspecified after the write (R59). -/
def planeWrites (core : Nat) (win : Word) (g : Geo) (act : Lanes) (seed : Nat) (f : Nat → Nat → Nat → Nat) : List LUpd :=
  (List.range (winLanes win)).flatMap fun n =>
    (List.range g.D).flatMap fun d =>
      (List.range g.wd).filterMap fun k =>
        let key := laneAtIn core win n (g.base + d * g.stride + k)
        let u := planeWord g act key n k seed (f d)
        if u.1 = 0 then none else some (.lane key u.1 u.2)

/-- Status bits of the elements in active lanes (R30). -/
def planeStatus (g : Geo) (act : Lanes) (f : Nat → Nat → Nat → Status) : Status :=
  g.elems.foldl (fun a e => if act.getLsbD (g.place e.2.1 e.2.2).1 then a ||| f e.1 e.2.1 e.2.2 else a) 0

/-- The bound register's write with a plane (R226). -/
def boundWrite (st : Strand) (pd : Nat) (full : Bool) (β : LWord) : LUpd :=
  .pb pd (if full then β else boundMax β (st.pbreg pd))

/-! ## Agreement (R60, R71) -/

def sameFold (a b : Geo) : Bool := a.fold = b.fold || a.S = 1 || b.S = 1
def sameShape (a b : Geo) : Bool := a.H = b.H && a.W = b.W
def sameDepth (a b : Geo) : Bool := a.D = b.D
/-- The type field of a P-format word (R161, R202): 0, or the destination's type. -/
def tyField (ty : BitVec 4) (g : Geo) : Bool := ty = 0#4 || ty.toNat = g.ty

/-! ## Delivering a plane result -/

/-- A result that stands in its destination word before completion: which do is unspecified (R76). -/
def earlyResult (seed : Nat) (u : LUpd) : Bool :=
  match u with
  | .lane k _ _ => Config.earlyWrite seed k
  | _ => false

/-- Issues a variable-latency plane instruction `i` with results of its sources' words as they stand, `src` the keys of those words: some destination words are written now (R76), the rest at completion (R207). -/
def issueResults (x : Ctx) (s : State) (len : Nat) (net : Bool) (i : Instr) (src : List Nat) (ups : List LUpd) : List Upd :=
  let now_ := (ups.filter (earlyResult s.fresh)).map (Upd.loc x.k)
  let t := s.applyAll now_
  let again : Again := { i := i, st := x.st, seed := s.fresh, src := src.map fun k => (k, s.laneWord x.st k, t.laneWord x.st k) }
  now_ ++ issueOp x s len none (.results net (ups.filter fun u => !earlyResult s.fresh u) (some again)) ++ [.fresh]

/-- How a plane instruction's result becomes readable: at a fixed latency, or at completion, for an instruction `i`. -/
inductive Delivery where
  | fixed (lat : Nat)
  | variable (net : Bool) (i : Instr)

/-- Delivers register updates and status bits of a plane instruction whose sources are the words of `src`. -/
def deliver (x : Ctx) (s : State) (len : Nat) (how : Delivery) (src : List Nat) (ups : List LUpd) (st : Status) : List Upd :=
  match how with
  | .fixed lat => fixedResult x s len lat ups [] st ++ [.fresh]
  | .variable net i => issueResults x s len net i src (ups ++ (if st = 0 then [] else [.status st]))

/-- Issue cycles of a plane form: D·Wd, the largest of its planes, for each sub-grid (R73, R79, R84, R206). -/
def planeCycles (x : Ctx) (factor : Nat) (planes : List Nat) : Nat :=
  let gs := planes.map fun n => Geo.of x.st.window (x.st.pdreg n)
  factor * (gs.foldl (fun a g => max a g.D) 1) * (gs.foldl (fun a g => max a g.wd) 1) * winM x.st.window

/-! ## Elementwise plane forms (R63, R204) -/

/-- A source operand of a plane form: a plane, or the scalar B of R203. -/
inductive PSrc where
  | plane (n : Nat)
  | scalar (n : Nat)

def PSrc.planes (l : List PSrc) : List Nat :=
  l.filterMap fun a => match a with | .plane n => some n | .scalar _ => none

/-- How an instruction may use bounded planes, and the bound it writes (Table 2-8). -/
inductive BoundRule where
  | none
  | add
  | mulScalar
  | copy
  deriving DecidableEq

/-- R47: bounded planes stand only where Table 2-8 allows them, a bounded source gives a bounded result, and but for FADD and FSUB an exact one an exact result. -/
def BoundRule.ok (r : BoundRule) (scalarB : Bool) (dst : Geo) (srcs : List Geo) : Bool :=
  let anyS := srcs.any fun g => isBounded g.ty
  match r with
  | .none => !anyS && !isBounded dst.ty
  | .add => !anyS || isBounded dst.ty
  | .mulScalar => if scalarB then anyS = isBounded dst.ty else !anyS && !isBounded dst.ty
  | .copy => anyS = isBounded dst.ty

/-- Type agreement of an elementwise instruction (Table 10-1, last column). -/
def BoundRule.types (r : BoundRule) (dst : Geo) (srcs : List Geo) : Bool :=
  match r with
  | .add => srcs.all fun g => exactOf g.ty = exactOf dst.ty
  | _ => srcs.all fun g => g.ty = dst.ty

/-- The result bound (Table 2-8), over the bounds of the sources and the result patterns. -/
def BoundRule.bound (r : BoundRule) (t : Nat) (βs : List FVal) (c : Nat) (results : List Nat) : LWord :=
  match r with
  | .mulScalar => boundBits (boundSum [scaleBound (decodeF t c) (βs.getD 0 (.num false 0 0)), rhoOf t results])
  | .copy => boundOver t results (boundBits (βs.getD 0 (.num false 0 0)))
  | _ => boundBits (boundSum (βs ++ [rhoOf t results]))

/-- The value of a source operand at an element. -/
def PSrc.read (x : Ctx) (s : State) (b : Nat) (a : PSrc) (d y z : Nat) : Nat :=
  match a with
  | .plane n => s.elem x.st x.st.window (Geo.of x.st.window (x.st.pdreg n)) d y z
  | .scalar n => (x.st.sreg n).toNat % 2 ^ b

/-- An elementwise plane form: checks in the order of R204, all sources read before any write (R61). -/
def elementwise (x : Ctx) (ty : BitVec 4) (factor : Nat) (how : Delivery) (pd : BitVec 4) (srcs : List PSrc)
    (accepts : Nat → Bool) (rule : BoundRule) (f : Nat → List Nat → Res) : Eff := fun s =>
  let st := x.st
  let geo := fun n => Geo.of st.window (st.pdreg n)
  let g := geo pd.toNat
  let ps := PSrc.planes srcs
  let gs := ps.map geo
  let scalarB := ps.length < srcs.length
  let typeOk := fun (t : Nat) => isBounded t || accepts t
  checked x
    [(planeOk st (st.pdreg pd.toNat) && ps.all fun n => planeOk st (st.pdreg n), cIllegalOperand),
     (typeOk g.ty && gs.all fun a => typeOk a.ty, cIllegalOperand),
     (rule.ok scalarB g gs && !(st.isRoutine && (g :: gs).any fun a => isBounded a.ty), cBounded),
     (tyField ty g && rule.types g gs && gs.all fun a => sameFold a g && sameShape a g && sameDepth a g, cPlaneMismatch)]
    (unlessBad (fun _ => gs.flatMap (Geo.reads st.core st.window) ++ g.kept st.core st.window x.act) fun s =>
      let t := exactOf g.ty
      let r := fun d y z => f t (srcs.map fun a => a.read x s g.b d y z)
      let bound : List LUpd :=
        if isBounded g.ty then
          let βs := ps.map fun n => if isBounded (geo n).ty then boundVal (st.pbreg n) else .num false 0 0
          let c := match srcs with
            | [_, .scalar n] => (st.sreg n).toNat % 2 ^ g.b
            | _ => 0
          [boundWrite st pd.toNat (g.full x.act)
            (rule.bound t βs c (g.elems.map fun e => (r e.1 e.2.1 e.2.2).1))]
        else []
      deliver x s (planeCycles x factor (pd.toNat :: ps)) how (gs.flatMap (Geo.reads st.core st.window))
        (planeWrites st.core st.window g x.act s.fresh (fun d y z => (r d y z).1) ++ bound)
        (planeStatus g x.act fun d y z => (r d y z).2)) s

/-! ## Plane forms of one source and one destination -/

/-- R55 on both descriptors, then an instruction's own checks, then its updates from planes laid out at issue (R204, R207). -/
def planePair (x : Ctx) (pd pa : BitVec 4) (pre : List (Bool × Nat)) (post : Geo → Geo → List (Bool × Nat))
    (out : State → Geo → Geo → List Upd) : Eff := fun s =>
  let st := x.st
  let g := Geo.of st.window (st.pdreg pd.toNat)
  let a := Geo.of st.window (st.pdreg pa.toNat)
  checked x (pre ++ [(planeOk st (st.pdreg pd.toNat) && planeOk st (st.pdreg pa.toNat), cIllegalOperand)] ++ post g a)
    (unlessBad (fun _ => a.reads st.core st.window ++ g.kept st.core st.window x.act) fun s => out s g a) s

/-- Raw bits of a source element as read at issue. -/
def srcElem (x : Ctx) (s : State) (a : Geo) (d y z : Nat) : Nat := s.elem x.st x.st.window a d y z

/-- Every plane type, exact. -/
def exactTypes (t : Nat) : Bool := 1 ≤ t && t ≤ 10

/-! ## The P/L3 forms of class 1 (R160, R203) -/

/-- Timing of an operation in its two forms (Table 10-2). -/
structure Timing where
  laneIssue : Nat
  laneLat : Nat
  factor : Nat
  how : Delivery

def timing (lat : Nat) : Timing := { laneIssue := 1, laneLat := lat, factor := 1, how := .fixed lat }

/-- Issue length of a form, as R84 counts it too. -/
def unLen (t : Timing) (u : Un) : Ctx → Nat := fun x =>
  match u with
  | .lane .. => laneLen t.laneIssue x
  | .plane _ _ _ pd pa => planeCycles x t.factor [pd.toNat, pa.toNat]
def binLen (t : Timing) (one : Bool) (u : Bin) : Ctx → Nat := fun x =>
  match u with
  | .lane .. => laneLen t.laneIssue x
  | .plane _ _ _ pd pa pb => planeCycles x t.factor (if one then [pd.toNat, pa.toNat] else [pd.toNat, pa.toNat, pb.toNat])
  | .planeS _ _ _ pd pa _ => planeCycles x t.factor [pd.toNat, pa.toNat]
def ternLen (t : Timing) (u : Tern) : Ctx → Nat := fun x =>
  match u with
  | .lane .. => laneLen t.laneIssue x
  | .plane _ _ _ pd pa pb pc => planeCycles x t.factor [pd.toNat, pa.toNat, pb.toNat, pc.toNat]

/-- One-source operation: `f type rounding saturate a`. -/
def unEff (c : Common) (t : Timing) (accepts : Nat → Bool) (rule : BoundRule) (u : Un)
    (f : Nat → Nat → Bool → Nat → Res) : Eff :=
  onWord c (unLen t u) fun x =>
    match u with
    | .lane ty rnd sat d a =>
      laneFields x t.laneIssue t.laneLat ty.toNat accepts d [a] fun v => f ty.toNat rnd.toNat (sat = 1#1) (v.getD 0 0)
    | .plane ty rnd sat pd pa =>
      elementwise x ty t.factor t.how pd [.plane pa.toNat] accepts rule fun ty v =>
        f ty rnd.toNat (sat = 1#1) (v.getD 0 0)

/-- Two-source operation: `f type rounding saturate a b`. The `one` forms (FSGN.abs, FSGN.neg) read no B. -/
def binEff (c : Common) (t : Timing) (accepts : Nat → Bool) (rule : BoundRule) (one : Bool) (u : Bin)
    (f : Nat → Nat → Bool → Nat → Nat → Res) : Eff :=
  onWord c (binLen t one u) fun x =>
    match u with
    | .lane ty rnd sat d a b =>
      laneFields x t.laneIssue t.laneLat ty.toNat accepts d (if one then [a] else [a, b]) fun v =>
        f ty.toNat rnd.toNat (sat = 1#1) (v.getD 0 0) (v.getD 1 0)
    | .plane ty rnd sat pd pa pb =>
      elementwise x ty t.factor t.how pd (if one then [.plane pa.toNat] else [.plane pa.toNat, .plane pb.toNat])
        accepts rule fun ty v => f ty rnd.toNat (sat = 1#1) (v.getD 0 0) (v.getD 1 0)
    | .planeS ty rnd sat pd pa sb =>
      elementwise x ty t.factor t.how pd [.plane pa.toNat, .scalar sb.toNat] accepts rule fun ty v =>
        f ty rnd.toNat (sat = 1#1) (v.getD 0 0) (v.getD 1 0)

/-- Three-source operation. -/
def ternEff (c : Common) (t : Timing) (accepts : Nat → Bool) (u : Tern) (f : Nat → Nat → Bool → Nat → Nat → Nat → Res) : Eff :=
  onWord c (ternLen t u) fun x =>
    match u with
    | .lane ty rnd sat d a b m =>
      laneFields x t.laneIssue t.laneLat ty.toNat accepts d [a, b, m] fun v =>
        f ty.toNat rnd.toNat (sat = 1#1) (v.getD 0 0) (v.getD 1 0) (v.getD 2 0)
    | .plane ty rnd sat pd pa pb pc =>
      elementwise x ty t.factor t.how pd [.plane pa.toNat, .plane pb.toNat, .plane pc.toNat] accepts .none fun ty v =>
        f ty rnd.toNat (sat = 1#1) (v.getD 0 0) (v.getD 1 0) (v.getD 2 0)

/-- The types an integer operation accepts (Table 10-1). -/
def intTypes (t : Nat) : Bool := 5 ≤ t && t ≤ 10
def floatTypes (t : Nat) : Bool := isFloat t

end Sys2Proof.Machine
end

