-- ==== Sys2Proof/Machine/Record.lean ====
section
/-! DEFINITION. The end of an operation, its arrival logged (R21, R257, R369). -/

namespace Sys2Proof.Machine

/-- The arrival number an operation's arrival would take on its timeline (kind 7). -/
def arrivalChoice (s : State) (o : Op) : Option (Nat × Choice) :=
  match o.tl with
  | none => none
  | some t =>
    let st := s.strand o.owner
    some (st.launch, { kind := 7, obj := t, val := (s.tl (tlKey st.launch t)).count + 1, agent := strandAgent st, strand := st.number })

/-- An operation may end now: its arrival's choice is not held. -/
def endOk (s : State) (o : Op) : Bool :=
  match arrivalChoice s o with
  | none => true
  | some (l, c) => choiceOk s l c

/-- Ends an operation, its arrival number logged. -/
def finishOp (o : Op) (ups : List Upd) (deps : List Nat) : Eff := fun s =>
  match arrivalChoice s o with
  | none => completeOp o ups deps s
  | some (l, c) => withChoice l c (fun _ => completeOp o ups deps) s

end Sys2Proof.Machine
end

