-- ==== Sys2Proof/Machine/Access.lean ====
section
/-! DEFINITION. Memory accesses: forming and checking an address, issuing a memory operation or parking at it, performing its lanes, and the order between accesses (R108 to R115, R232 to R236, R277 to R284). -/

namespace Sys2Proof.Machine

/-! ## Scaled pages (R36, R37, R238) -/

/-- Block length of a geometry. -/
def geomLen (g : Nat) : Nat := 8 * 2 ^ g
/-- Codes of a granule: n·L. -/
def geomCodes (g : Nat) : Nat := 8192 / (geomLen g + 1) * geomLen g
/-- Physical address of the scale of the code at pa. -/
def scalePA (g pa : Nat) : Nat := pa / 8192 * 8192 + geomCodes g + pa % 8192 / geomLen g

/-! ## Forming and checking one element access (R108) -/

/-- One element access asked for: lane, offset, destination and data. -/
structure Acc where
  lane : Nat
  off : Int
  dst : Nat
  sh : Nat
  data : Word
  data2 : Word

/-- What an access does to memory: access kind of R111, and whether the form is scalar, LDX, QST, or a plane's. -/
structure AccKind where
  acc : Nat
  scalar : Bool
  ldx : Bool
  qst : Bool
  plane : Bool := false
  /-- LDS or STS, the forms a device register takes (R114) -/
  plain : Bool := false
  deriving DecidableEq, Repr

/-- The die an agent's accesses are made from; a Wilnum core's are made under its stack. -/
def Strand.die (st : Strand) : Nat := if st.isRoutine then (st.core - 256) / 32 else dieOf st.core
/-- The cluster whose scratch a strand addresses. -/
def Strand.cluster (st : Strand) : Nat := clusterOf st.core

/-- The window of an on-chip access may be used by the strand (R118, R309). -/
def windowRights (s : State) (level pa n : Nat) (write : Bool) : Bool :=
  ocAllowed pa n level write &&
  !s.mappedOut.contains (if ocType pa < 3 then ocPkgCore pa else 4 * ocPkgCluster pa) &&
  (if write && ocType pa = 2 then
     let code := s.strandCode (slotKey (ocPkgCore pa) (ocOff pa / 65536))
     code = 0 || code = 3 || code = 4
   else true)

/-- The page checks of R112 to R114, R130 and R237, after the rights; a control window is read at level K (R340). Any other access than a scalar one to a page of a 64-bit format is an illegal operand, one of a plane or an atomic too (DESIGN CHOICE, notes/assumptions/109.md). -/
def pageRules (s : State) (st : Strand) (t : Tlb) (pa size ty : Nat) (k : AccKind) : Option Nat :=
  let untyped := t.fmt = 0
  let scaled := t.geom ≠ 0
  if k.ldx && t.cls ≠ 1 then some cPermission
  else if t.cls = 2 then
    if !untyped then some cFormat
    else if k.acc ≠ 0 || !k.plain || !(ty = 10 || ty = 12) || st.level = 0 then some cPermission
    else none
  else if t.cls = 4 then
    if !untyped then some cFormat
    else if windowRights s st.level pa size (k.acc ≠ 0) then none else some cPermission
  else if !k.scalar && (fmtWidth ty = 64 || fmtWidth t.fmt = 64) then some cIllegalOperand
  else if k.plane && !untyped && fmtWidth t.fmt ≠ fmtWidth ty then some cFormat
  else if scaled && !k.qst then
    if k.acc ≠ 0 then some cFormat
    else if geomCodes t.geom ≤ pa % 8192 then some cFormat
    else none
  else if k.acc = 2 && !(untyped || t.fmt = ty) then some cFormat
  else none

/-- A request with every field at rest. -/
def LaneReq.blank : LaneReq where
  lane := 0
  va := 0
  pa := 0
  bytes := 0
  fmt := 0
  geom := 0
  cls := 0
  key := 0
  remote := none
  data := 0
  data2 := 0
  st := .todo
  val := 0
  lap := 0
  dst := 0
  off := 0

/-- The last checks of R108: the access stays within the limit and is aligned. -/
def segTail (g : Seg) (off va msize : Nat) : Option LaneFail :=
  if g.limit.toNat < off + msize then some (.seg cSegLimit)
  else if va % msize ≠ 0 then some (.seg cMisaligned)
  else none

/-- R108 for one access, with the page it reached where it was translated. -/
def access (s : State) (st : Strand) (seg ty size : Nat) (k : AccKind) (a : Acc) : Except LaneFail (LaneReq × Option Tlb) :=
  let g := st.segreg seg
  if a.off < 0 || (g.limit.toNat : Int) ≤ a.off then .error (.seg cSegLimit)
  else if (if k.acc = 0 then !g.canRead else !g.canWrite) then .error (.seg cPermission)
  else
    let off := a.off.toNat
    let va := (g.base.toNat + off) % 2 ^ 64
    let r := { LaneReq.blank with lane := a.lane, va := va, bytes := size, data := a.data, data2 := a.data2, dst := a.dst, off := a.sh }
    if g.scratch then
      if k.ldx then .error (.attr cPermission)
      else
        match segTail g off va size with
        | some f => .error f
        | none => .ok ({ r with pa := scratchPA st.cluster (va % 2 ^ 22), cls := 4 }, none)
    else if g.remote then
      if k.ldx then .error (.attr cPermission) else
      match segTail g off va size with
      | some f => .error f
      | none => .ok ({ r with remote := some (g.device * 65536 + st.asid) }, none)
    else
      match translate s st.core st.part st.asid st.level va k.acc with
      | .error f => .error f
      | .ok (t, pa) =>
        let msize := if t.fmt = 0 || k.qst then size else if t.geom ≠ 0 then 1 else fmtBytes t.fmt
        match pageRules s st t pa msize ty k with
        | some c => .error (.attr c)
        | none =>
          match segTail g off va msize with
          | some f => .error f
          | none => .ok ({ r with pa := pa, bytes := msize, fmt := t.fmt, geom := t.geom, cls := t.cls, key := t.key }, some t)

/-! ## Translation windows and TLB entries (R109, R347) -/

/-- The translation of a page, cached or walked, whatever its rights. -/
def mapPage (s : State) (core part asid va : Nat) : Except LaneFail Tlb :=
  match s.tlbHit core part asid (va / 8192) with
  | some t => .ok t
  | none => walkPage s core part asid va 0

/-- Length of the longest run of pages like the first, contiguous from it. -/
def windowRun (s : State) (st : Strand) (va : Nat) (first : Tlb) (i : Nat) : Nat → Nat
  | 0 => i
  | n + 1 =>
    match mapPage s st.core st.part st.asid (va + 8192 * i) with
    | .ok t =>
      if t.frame = first.frame + i && t.cls = first.cls && t.fmt = first.fmt && t.geom = first.geom && t.key = first.key &&
        t.rights = first.rights then windowRun s st va first (i + 1) n
      else i
    | .error _ => i

/-- The window a segment has under the current translations; none where its base page is not mapped. -/
def buildWindow (s : State) (st : Strand) (g : Seg) : Option Window :=
  if g.scratch || g.remote || g.limit = 0 then none
  else
    match mapPage s st.core st.part st.asid g.base.toNat with
    | .error _ => none
    | .ok t =>
      let b := g.base.toNat
      let last := (b + g.limit.toNat - 1) / 8192 - b / 8192 + 1
      let pages := windowRun s st (b / 8192 * 8192) t 1 (last - 1)
      some { frame := t.frame * 8192 + b % 8192, len := min g.limit.toNat (pages * 8192 - b % 8192), gen := t.gen, gen2 := t.gen2, cls := t.cls,
             fmt := t.fmt, geom := t.geom, key := t.key, rights := t.rights }

/-- A segment's first use builds its window. -/
def touchWindow (s : State) (k : Nat) (st : Strand) (seg : Nat) : List Upd :=
  let g := st.segreg seg
  if g.scratch || g.remote || ((g.win.map fun w => w.gen = (s.part st.part).gen st.asid && w.gen2 = (s.part st.part).gen2).getD false) then []
  else [.seg k seg { g with win := buildWindow s st g }]

/-- Translations made are cached in the core's TLB. -/
def cacheTlb (s : State) (ts : List Tlb) : List Upd :=
  let new := ts.filter fun t => (s.tlbHit t.core t.part t.asid t.vpage).isNone
  if new.isEmpty then [] else [.tlb (s.tlb ++ new.eraseDups)]

/-! ## Issuing a memory operation, or parking at it (R233) -/

/-- Requests and failures of a list of accesses, in order. -/
def tryAll (s : State) (st : Strand) (seg ty size : Nat) (k : AccKind) (l : List Acc) :
    List (LaneReq × Option Tlb) × List (Nat × Nat × LaneFail) :=
  l.foldr (fun a acc =>
    match access s st seg ty size k a with
    | .ok r => (r :: acc.1, acc.2)
    | .error f => (acc.1, (a.lane, ((st.segreg seg).base.toNat + a.off.toNat) % 2 ^ 64, f) :: acc.2)) ([], [])

def LaneFail.isSeg : LaneFail → Bool
  | .seg _ => true
  | _ => false
def LaneFail.need : LaneFail → Option PageNeed
  | .page n => some n
  | _ => none

/-- A lane that failed, as its operation keeps it. -/
def outOf (f : Nat × Nat × LaneFail) : LaneOut := { lane := f.1, va := f.2.1, cause := f.2.2.cause, need := f.2.2.need }

/-- The park of unfinished lanes, listed lowest first: the cause of the lowest; addresses lowest lanes first, and with a page fault those of its requests (R348). -/
def outTrap (op : Nat) (outs : List LaneOut) : TrapInfo × List PageNeed :=
  let needs := outs.filterMap (·.need)
  let page := (outs.head?.bind (·.need)).isSome
  let vas := if page then (distinctPages needs).map (·.va) else outs.map (·.va)
  ({ cause := (outs.head?.map (·.cause)).getD cPermission, detail := 0, kind := 1, unfinished := lanesMask (outs.map (·.lane)),
     addrs := (vas.map (BitVec.ofNat 64)).take 16, more := 16 < vas.length, op := op, at_ := none, place := none, flag := 0 }, needs)

/-- The park of an instruction a lane of which failed a segment check: every active lane is unfinished, and no page is requested (R108). -/
def segTrap (act : Lanes) (op : Nat) (fails : List (Nat × Nat × LaneFail)) : TrapInfo :=
  { cause := ((fails.find? fun f => f.2.2.isSeg).map fun f => f.2.2.cause).getD cPermission, detail := 0, kind := 1, unfinished := act,
    addrs := ((fails.map (·.2.1)).map (BitVec.ofNat 64)).take 16, more := 16 < fails.length, op := op, at_ := none, place := none, flag := 0 }

/-- The trap of failing lanes, listed lowest lane first (R108, R233). -/
def failTrap (act : Lanes) (op : Nat) (fails : List (Nat × Nat × LaneFail)) : TrapInfo × List PageNeed :=
  if fails.any fun f => f.2.2.isSeg then (segTrap act op fails, []) else outTrap op (fails.map outOf)

/-- A memory operation to be issued, before its requests. -/
structure MemSpec where
  kind : MemKind
  ty : Nat
  scalar : Bool
  plane : Bool
  acq : Bool
  rel : Bool
  scope : Nat

/-- The operation of accesses that passed their checks, beside lanes that did not. -/
def MemSpec.op (m : MemSpec) (reqs : List LaneReq) (fails : List LaneOut) : MemOp where
  kind := m.kind
  ty := m.ty
  scalar := m.scalar
  plane := m.plane
  status := 0
  pinned := !fails.isEmpty || reqs.any fun r => r.remote.isSome
  gate := reqs.any fun r => r.cls = 1
  fails := fails
  acq := m.acq
  rel := m.rel
  scope := m.scope
  reqs := reqs

/-- The split once its memory operation has issued: at the instruction while a peer may still refuse a lane, a lane is to be admitted or the instruction is to park; else past it, held with SETF = 0. -/
def memSplit (x : Ctx) (id : Nat) (stays : Bool) : Split :=
  if stays then { x.sp with run := .hold id }
  else if x.c.setf = 0#4 then { x.sp.past with run := .hold id } else x.sp.past

/-- Issues or replays a memory operation. Lanes that passed belong to it and perform; where some failed it parks once they have (R233). A failed segment check leaves no lane performing. -/
def memIssue (x : Ctx) (len : Nat) (m : MemSpec) (reqs : List LaneReq) (fails : List (Nat × Nat × LaneFail)) : Eff := fun s =>
  let reqs := if fails.any fun f => f.2.2.isSeg then [] else reqs
  let now_ := !fails.isEmpty && reqs.isEmpty
  let new := m.op reqs (if now_ then [] else fails.map outOf)
  let old := match x.sp.replay with
    | some (_, id) => s.op? id
    | none => none
  let id := (old.map (·.id)).getD s.nextOp
  let place : List Upd :=
    match old with
    | some o =>
      (match o.kind with
       | .mem y => [.opSet { o with parked := now_, kind := .mem { y with reqs := y.reqs ++ reqs, pinned := new.pinned, gate := new.gate, fails := new.fails } }]
       | _ => [])
    | none =>
      [.opAdd { id := id, owner := x.k, split := x.sp.num, ovl := x.sp.ovl, pc := x.sp.pc, clause := x.sp.clause,
                flag := ((setfFlag x.c).map (· + 1)).getD 0, tl := none, issued := s.now, prior := s.before x.sp, dep := s.stillPending x.sp.dep,
                fences := x.sp.fences, leader := x.leader, parked := now_, tags := [], killed := false, kind := .mem new }, .nextOp] ++
      (match setfFlag x.c with
       | none => []
       | some f => if x.sp.replay.isSome then [] else [.flagUp x.k f])
  if now_ then
    let t := failTrap x.act id fails
    Eff.andThen (fun _ => place ++ [.issued x.k (s.now + len - 1) s.now, .split x.k (s.behind x.sp id)]) (takeTrap x.k x.sp.num t.1 t.2) s
  else place ++ finish x s len (s.behind (memSplit x id (new.pinned || new.gate)) id)

/-- An access-forming instruction: window and TLB, then issue or park. -/
def memRun (x : Ctx) (len : Nat) (m : MemSpec) (seg size : Nat) (k : AccKind) (accs : List Acc) : Eff := fun s =>
  let r := tryAll s x.st seg m.ty size k accs
  Eff.andThen (fun s => touchWindow s x.k x.st seg ++ cacheTlb s (r.1.filterMap (·.2)))
    (memIssue x len m (r.1.map (·.1)) r.2) s

/-! ## Order between accesses -/

/-- The die whose scope instances a strand belongs to: a routine's is its caller's (R278). -/
def State.ordDie (s : State) (st : Strand) : Nat :=
  if st.isRoutine then
    match ((s.wil (st.core - 256)).running.bind fun c => s.op? c.op) with
    | some o => dieOf (s.strand o.owner).core
    | none => st.die
  else dieOf st.core

/-- Dies of a scope instance around a die (Table 13-1). -/
def scopeDies (scope die : Nat) : List Nat := if scope ≤ 3 then [die] else [0, 1, 2, 3]

/-- Every write of a set is applied on the dies. -/
def depsVisible (s : State) (dep dies : List Nat) : Bool :=
  !s.pend.any fun p => dies.contains p.die && dep.contains p.id

/-- Core numbers from which agents of the package other than strands act, and agents of other devices. -/
def drevarCore : Nat := 2 ^ 19
def outsideCore : Nat := 2 ^ 20

/-- Agents of two cores and dies lie in one instance of a scope (Table 13-1). -/
def scopeMeets (scope a da b db : Nat) : Bool :=
  match scope with
  | 0 => false
  | 1 => a = b
  | 2 => a = b || (a < 256 && b < 256 && clusterOf a = clusterOf b)
  | 3 => da = db && a < drevarCore && b < drevarCore
  | 4 => a < outsideCore && b < outsideCore
  | _ => true

/-- R281 condition 2: a release and an acquire by an agent at a core and die reach each other. -/
def synchronises (r : Release) (core die scope : Nat) : Bool :=
  scopeMeets r.scope r.core r.die core die && scopeMeets scope r.core r.die core die

/-- A read of a release's byte, in the copies of a die or at home, returns the release's write or a later one that an atomic or a reduction made (R281 condition 1). -/
def State.shows (s : State) (die : Option Nat) (r : Release) : Bool :=
  let hidden := fun (id : Nat) => match die with
    | some d => s.pend.any fun p => p.die = d && p.id = id && p.old.any fun c => c.1 = r.addr
    | none => false
  match (r.later.filter fun e => !hidden e.1).getLast? with
  | some e => e.2
  | none => !hidden r.id

/-- Releases that a read of these bytes meets. -/
def State.releasesAt (s : State) (die : Option Nat) (pa n : Nat) : List Release :=
  s.rels.filter fun r => pa ≤ r.addr && r.addr < pa + n && s.shows die r

/-- Dependencies an acquire of these bytes brings (R281). -/
def acquiredDeps (s : State) (st : Strand) (die : Option Nat) (scope pa n : Nat) : List Nat :=
  ((s.releasesAt die pa n).filter fun r => synchronises r st.core (s.ordDie st) scope).foldl (fun a r => joinDeps a r.deps) []

/-- An operation has acquired these writes: they happen before what is after it in program order. -/
def acquire (o : Op) (deps : List Nat) : Eff := fun s => [.after o.owner o.id (s.stillPending deps) []]

/-- A memory operation still to perform somewhere. -/
def MemOp.undone (m : MemOp) : Bool := m.reqs.any fun r => r.st ≠ .done

/-- Later accesses of the strand are ordered after this operation (Table 13-2). -/
def OpKind.acquires : OpKind → Bool
  | .mem m => m.acq
  | .fence .. => true
  | .qpop .. => true
  | .tlwait .. => true
  | .gbar .. => true
  | .ovld .. => true
  | _ => false

/-- The bytes an access touches: its own, and the scale of a code (R37). -/
def LaneReq.spans (r : LaneReq) : List (Nat × Nat) := (r.pa, r.bytes) :: (if r.geom = 0 then [] else [(scalePA r.geom r.pa, 1)])

/-- Two accesses touch one byte, or are both of device registers (R114, R115). -/
def LaneReq.meets (q r : LaneReq) : Bool :=
  if r.remote.isSome then q.remote = r.remote && rangesMeet q.va (q.va + q.bytes) r.va (r.va + r.bytes)
  else q.remote.isNone && ((q.cls = 2 && r.cls = 2) || q.spans.any fun a => r.spans.any fun b => rangesMeet a.1 (a.1 + a.2) b.1 (b.1 + b.2))

/-- An operation that is before in program order must still perform before an access: it acquires, or it touches the same bytes (R115, R279). -/
def Op.blocks (p : Op) (r : LaneReq) : Bool :=
  !p.parked && (p.kind.acquires || (match p.kind with
    | .mem m => m.reqs.any fun q => q.st ≠ .done && q.meets r
    | _ => false))
def accessBlocked (s : State) (o : Op) (r : LaneReq) : Bool := s.ops.any fun p => o.prior.contains p.id && p.blocks r

/-- A lower lane of one store has still to write the same bytes: the highest lane's value is left (R132, R237). -/
def MemOp.lowerFirst (m : MemOp) (r : LaneReq) : Bool :=
  m.kind = .store && (m.reqs.takeWhile fun q => !(q = r)).any fun q => q.st ≠ .done && q.meets r

/-- A lane a release still waits for: not performed; a swept one is admitted at least (R128), a remote one is awaited at fabric scope alone (R378). -/
def LaneReq.unreleased (r : LaneReq) (scope : Nat) : Bool :=
  r.st ≠ .done && !(r.remote.isSome && scope < 5) && !(r.cls = 1 && (match r.st with | .admitted _ => true | _ => false))

/-- Every access before an operation is performed, and visible within the scope, as a release requires (R236, R245). -/
def releaseReady (s : State) (o : Op) (scope : Nat) : Bool :=
  (!s.ops.any fun p => o.prior.contains p.id &&
    (match p.kind with | .mem m => p.parked || m.reqs.any fun r => r.unreleased scope | _ => false)) &&
  depsVisible s o.dep (scopeDies scope (s.ordDie (s.strand o.owner)))

/-- Every access and acquire before an operation in program order has performed (R282). -/
def priorDone (s : State) (before : List Nat) : Bool :=
  !s.ops.any fun p => before.contains p.id && !p.parked && (p.kind.acquires || (match p.kind with
    | .mem m => m.undone
    | _ => false))
/-- What is before an operation has performed, and a die's copies show what happens before it: its own accesses may begin (R282). -/
def startReady (s : State) (o : Op) (die : Nat) : Bool := priorDone s o.prior && depsVisible s o.dep [die]

/-- The bytes of a record that a split reads at issue may still change by what is before it in program order, or are stale in its die's copies (R115, R283). -/
def recordBlocked (s : State) (x : Ctx) (cls pa n : Nat) : Bool :=
  let r := { LaneReq.blank with pa := pa, bytes := n, cls := cls }
  (s.ops.any fun p => x.sp.prior.contains p.id && p.blocks r) ||
  (cls = 0 && !x.st.isRoutine && s.pend.any fun p => p.die = x.st.die && x.sp.dep.contains p.id && p.old.any fun c => pa ≤ c.1 && c.1 < pa + n)

/-! ## Performing one lane -/

/-- Bytes as the strand reads them: its die's view, or the home's where no visitor copies exist (R114, R120); a routine reads HBM4E itself (R147, notes/assumptions/96.md). -/
def readFor (s : State) (st : Strand) (r : LaneReq) (pa n : Nat) : Nat :=
  if r.cls = 0 && !st.isRoutine then s.viewKN st.die r.key pa n else s.homeKN r.key pa n

/-- n 64-bit words as the agents of a die read them. -/
def State.viewWords (s : State) (die key pa n : Nat) : List Word :=
  (List.range n).map fun i => BitVec.ofNat 64 (s.viewKN die key (pa + 8 * i) 8)

/-- The same through a page of a class: no visitor copies stand behind another than class 0. -/
def State.strandWords (s : State) (die cls key pa n : Nat) : List Word :=
  if cls = 0 then s.viewWords die key pa n else s.homeKWords key pa n

/-- The die whose copies an access of a class reads; none at home. -/
def Strand.view (st : Strand) (cls : Nat) : Option Nat := if cls = 0 && !st.isRoutine then some st.die else none

/-- The value a load delivers in the instruction's type, with its status; `scale` is the byte of a scaled page's scale (R112, R113). -/
def loadValue (ty : Nat) (r : LaneReq) (raw scale : Nat) : Res :=
  if r.geom ≠ 0 then loadScaled ty raw scale
  else if r.fmt = 0 || r.fmt = ty then (raw % 2 ^ (8 * r.bytes), 0)
  else convertElem r.fmt ty 0 false raw

/-- The bytes a store writes, encoded for the page, with their status (R112). -/
def storeValue (ty : Nat) (r : LaneReq) : Res :=
  if r.fmt = 0 || r.fmt = ty then (r.data.toNat % 2 ^ (8 * r.bytes), 0) else convertElem ty r.fmt 0 false r.data.toNat

/-- The register write of a loaded value: a plane's field, a lane word, or a scalar (R232). -/
def resultUpd (m : MemOp) (r : LaneReq) (v : Nat) : LUpd :=
  if m.scalar then .s r.dst (extend64 (isSigned m.ty) (fmtWidth m.ty) v)
  else if m.plane then
    .lane r.dst (laneFieldMask (fmtWidth m.ty) r.off) (BitVec.ofNat 32 (v % 2 ^ fmtWidth m.ty) <<< (fmtWidth m.ty * r.off))
  else .lane r.dst (BitVec.allOnes 32) ((extend64 (isSigned m.ty) (fmtWidth m.ty) v).setWidth 32)

/-- Changes the first request of a list that is this one. -/
def updReq (l : List LaneReq) (r : LaneReq) (f : LaneReq → LaneReq) : List LaneReq :=
  match l with
  | [] => []
  | q :: l => if q = r then f q :: l else q :: updReq l r f

/-- A request's state and the operation's status, updated. -/
def markReq (o : Op) (r : LaneReq) (f : LaneReq → LaneReq) (st : Status) : Upd :=
  match o.kind with
  | .mem m => .opSet { o with kind := .mem { m with status := m.status ||| st, reqs := updReq m.reqs r f } }
  | _ => .opSet o

def markDone (o : Op) (r : LaneReq) (v : Nat) (st : Status) : Upd :=
  markReq o r (fun q => { q with st := .done, val := BitVec.ofNat 64 v }) st

/-- A lane whose access fails as it is made (R110, R234). -/
def markRefused (o : Op) (r : LaneReq) (cause : Nat) : Upd := markReq o r (fun q => { q with st := .refused cause }) 0

/-- The number the next write at an address takes: none on chip. -/
def writeId (s : State) (pa : Nat) : Nat := if onChip pa then 0 else s.nextWrite

/-- Stores bytes for a strand's operation, whose write happens before what is after it in program order. -/
def strandStore (o : Op) (key : Nat) (atomic : Bool) (pa : Nat) (bs : List Byte) : Eff := fun s =>
  let st := s.strand o.owner
  storeBytes { die := st.die, deps := o.dep, key := key, atomic := atomic, wil := if st.isRoutine then some (st.core - 256) else none } pa bs s ++
  (if onChip pa then [] else [.after o.owner o.id [s.nextWrite] []])

/-- A release at a scope stands at the bytes an operation has written with its write `id` (R281). -/
def standRelease (o : Op) (scope id pa n : Nat) (deps : List Nat) : Eff := fun s =>
  let st := s.strand o.owner
  [.relAdd ((List.range n).map fun i => { addr := pa + i, id := id, deps := s.stillPending (joinDeps deps [id]), core := st.core,
                                          die := s.ordDie st, scope := scope, later := [] })]

/-- What later FENCEs of the strand acquire of a read's bytes: the releases it meets (R280). -/
def noteSeen (o : Op) (die : Option Nat) (pa n : Nat) : Eff := fun s =>
  let new := (s.releasesAt die pa n).filter fun r => !(s.stillPending r.deps).isEmpty
  if new.isEmpty then [] else [.after o.owner o.id [] new]

/-- The releases a store carries: those of the releasing FENCEs before it (R280), and its own. -/
def storeReleases (o : Op) (m : MemOp) (id pa n : Nat) : Eff :=
  Eff.seq ((o.fences.map fun f => standRelease o f.1 id pa n f.2) ++ (if m.rel then [standRelease o m.scope id pa n o.dep] else []))

/-- An uncorrectable scratch or lane-file word met through the on-chip map kills (R319); a write of the whole word does not meet it. -/
def badOnChip (s : State) (pa n : Nat) (write : Bool) : Option Eff :=
  let whole := fun (a k : Nat) => write && pa ≤ a && a + k ≤ pa + n
  if !onChip pa || ocDie pa = 8 then none
  else if ocType pa = 0 then
    ((wordsOf pa n).find? fun a => s.lanesBad.contains (ocPkgCore a * 262144 + ocOff a / 4) && !whole a 4).map fun a =>
      killLane (ocPkgCore a * 262144 + ocOff a / 4)
  else if ocType pa = 3 then
    (s.scratchBad.find? fun w => pa < w * 8 + 8 && w * 8 < pa + n && !whole (w * 8) 8).map fun w => killScratch (w * 8)
  else none

/-- A whole on-chip word written is encoded afresh; a line written whole is poisoned no more (R319, R364). -/
def heal (pa n : Nat) : Eff := fun s =>
  let scratch := s.scratchBad.filter fun w => !(pa ≤ w * 8 && w * 8 + 8 ≤ pa + n)
  let lanes := if onChip pa && ocType pa = 0 then
      s.lanesBad.filter fun k => !((wordsOf pa n).any fun a => pa ≤ a && a + 4 ≤ pa + n && k = ocPkgCore a * 262144 + ocOff a / 4)
    else s.lanesBad
  let lines := s.poison.filter fun l => !(pa ≤ l * 64 && l * 64 + 64 ≤ pa + n)
  (if scratch.length = s.scratchBad.length && lanes.length = s.lanesBad.length then [] else [.bad lanes scratch s.accBad]) ++
  (if lines.length = s.poison.length then [] else [.poison lines])

/-- A read meets a poisoned line (R234). -/
def LaneReq.poisoned (s : State) (r : LaneReq) : Bool := r.spans.any fun a => s.poisoned a.1 a.2

/-- A load that writes part of an uncorrectable lane word reads it first (R319). -/
def badResult (s : State) (o : Op) (m : MemOp) (r : LaneReq) : Option Eff :=
  if m.plane && m.kind = .load && fmtWidth m.ty < 32 && s.lanesBad.contains r.dst then
    some (Eff.andThen (if (s.strand o.owner).isRoutine then dropAfter o.owner o.id else Eff.skip) (killLane r.dst))
  else none

/-- Performs one lane of a load or store at its home. -/
def performLane (o : Op) (m : MemOp) (r : LaneReq) : Eff := fun s =>
  let st := s.strand o.owner
  match (badOnChip s r.pa r.bytes (m.kind = .store)).or (badResult s o m r) with
  | some e => e s
  | none =>
    if m.kind = .store then
      let v := storeValue m.ty r
      Eff.seq [strandStore o r.key false r.pa (bytesOf v.1 r.bytes), heal r.pa r.bytes, storeReleases o m (writeId s r.pa) r.pa r.bytes,
        fun s => match s.op? o.id with | some o => [markDone o r v.1 v.2] | none => []] s
    else if r.poisoned s then [markRefused o r cPoison]
    else
      let v := loadValue m.ty r (readFor s st r r.pa r.bytes) (readFor s st r (scalePA r.geom r.pa) 1)
      Eff.seq [fun _ => [Upd.loc o.owner (resultUpd m r v.1), markDone o r v.1 v.2], noteKey r.key r.pa,
        if m.acq then acquire o (acquiredDeps s st (st.view r.cls) m.scope r.pa r.bytes) else noteSeen o (st.view r.cls) r.pa r.bytes] s

/-- A write that happens before a load is not yet applied to the copy of its bytes that it reads (R283, R284). -/
def viewStale (s : State) (o : Op) (m : MemOp) (r : LaneReq) : Bool :=
  r.cls = 0 && m.kind = .load && !(s.strand o.owner).isRoutine && s.pend.any fun p => p.die = (s.strand o.owner).die && o.dep.contains p.id &&
    r.spans.any fun a => p.old.any fun c => a.1 ≤ c.1 && c.1 < a.1 + a.2

/-- A load of its routine, issued before it, may still meet an error: a store waits until none can end the routine before it (R149). -/
def storeHeld (s : State) (o : Op) (m : MemOp) : Bool :=
  m.kind = .store && (s.strand o.owner).isRoutine && s.ops.any fun p => p.owner = o.owner && p.id < o.id &&
    (match p.kind with
     | .mem n => n.kind = .load && n.undone
     | _ => false)

/-- Nothing before a lane's access holds it back at its home. -/
def laneFree (s : State) (o : Op) (m : MemOp) (r : LaneReq) : Bool :=
  r.st = .todo && !storeHeld s o m && r.cls ≠ 1 && r.remote.isNone && !viewStale s o m r && !accessBlocked s o r && (!m.rel || releaseReady s o m.scope)
/-- A lane that its home may perform now. -/
def laneReady (s : State) (o : Op) (m : MemOp) (r : LaneReq) : Bool := laneFree s o m r && !m.lowerFirst r

/-- Every lane has performed or failed. -/
def LaneReq.refusedCause (r : LaneReq) : Option Nat := match r.st with | .refused c => some c | _ => none
def MemOp.settled (m : MemOp) : Bool := m.reqs.all fun r => r.st = .done || r.refusedCause.isSome

/-- Unfinished lanes, lowest first. -/
def insertOut (l : List LaneOut) (x : LaneOut) : List LaneOut :=
  match l with
  | [] => [x]
  | y :: r => if x.lane < y.lane then x :: y :: r else y :: insertOut r x
/-- The lanes of an operation that are unfinished once it is settled: those that failed a check, and those whose access failed as it was made. -/
def MemOp.outs (m : MemOp) : List LaneOut :=
  (m.fails ++ m.reqs.filterMap fun (r : LaneReq) => r.refusedCause.map fun c => ({ lane := r.lane, va := r.va, cause := c, need := none } : LaneOut)).foldl insertOut []

/-- A poisoned line all of whose bytes one STP has written is poisoned no more (R364). -/
def MemOp.clears (m : MemOp) (s : State) : List Upd :=
  let whole := fun (l : Nat) => (List.range 64).all fun i => m.reqs.any fun r => r.remote.isNone && r.pa ≤ 64 * l + i && 64 * l + i < r.pa + r.bytes
  if m.kind = .store && m.plane && s.poison.any whole then [.poison (s.poison.filter fun l => !whole l)] else []

/-- The split of a strand that a trap of an operation is of: the operation's own, or the lowest where that one has gone. -/
def trapSplit (st : Strand) (o : Op) : Nat :=
  if st.splits.any fun x => x.num = o.split then o.split else ((st.splits.head?).map (·.num)).getD 0

/-- The split still stands at an operation's instruction. -/
def standsAt (st : Strand) (o : Op) : Bool :=
  st.splits.any fun x => x.num = o.split && x.run = .hold o.id && x.ovl = o.ovl && x.pc = o.pc && x.clause = o.clause

/-- The operation has no lane left (R233, R235): it ends with its status bits, or parks with its unfinished lanes. Where the split has gone on, the frame names the instruction, the lanes stay with the operation, and the split goes on afterwards where it stood (R315, notes/assumptions/92.md). -/
def endMem (id : Nat) : Eff := fun s =>
  match s.op? id with
  | some o =>
    match o.kind with
    | .mem m =>
      if o.parked || !m.settled then []
      else
        let st := s.strand o.owner
        if m.outs.isEmpty then
          let sp := st.splitOf o.split
          let on : List Upd := if m.pinned then [.split o.owner { sp.past with run := .hold id }] else []
          let status : List Upd := (if m.status = 0 then [] else [.loc o.owner (.status m.status)]) ++ m.clears s
          Eff.andThen (fun _ => on ++ status) (fun s => match s.op? id with | some o => completeOp o [] [] s | none => []) s
        else
          let t := outTrap id m.outs
          let here := standsAt st o
          let left := if here then m.reqs.filter fun r => r.refusedCause.isNone else m.reqs
          Eff.andThen (fun _ => [.opSet { o with parked := true, kind := .mem { m with reqs := left, fails := [] } }])
            (takeTrap o.owner (trapSplit st o) { t.1 with place := some { (st.splitOf o.split) with num := trapSplit st o, ovl := o.ovl, pc := o.pc, clause := o.clause } } t.2) s
    | _ => []
  | none => []

/-- Performs the lanes of an operation that are ready, in order, each from the state the one before leaves. -/
def performLanes (id : Nat) (lanes : List LaneReq) : Eff :=
  Eff.seq (lanes.map fun r => fun s =>
    match s.op? id with
    | some o =>
      match o.kind with
      | .mem m => if m.reqs.contains r then performLane o m r s else []
      | _ => []
    | none => [])

end Sys2Proof.Machine
end

