-- ==== Sys2Proof/Machine/Memory.lean ====
section
/-! DEFINITION. Loads, stores, planes in memory, the quantising store, MATCH, LDX, PREF, and the completion of memory accesses (R229 to R239, R242, R243, R252). -/

namespace Sys2Proof.Machine

/-! ## Forms -/

/-- A class-2 or class-3 word: it does not issue while a FENCE before it in program order is outstanding (R245, R277). -/
def onMem (c : Common) (len : Ctx → Nat) (body : Ctx → Eff) : Eff :=
  onWord c len fun x s =>
    if s.ops.any fun o => x.sp.prior.contains o.id && (match o.kind with | .fence .. => true | _ => false) then stall x s
    else body x s

/-- Codes a lane form accepts (R230). -/
def laneMemType (t : Nat) : Bool := 1 ≤ t && t ≤ 10
/-- Codes a scalar form accepts (R230). -/
def scalarMemType (t : Nat) : Bool := 1 ≤ t && t ≤ 12

/-- sext64(DISP16)·size. -/
def dispBytes (disp : BitVec 16) (size : Nat) : Int := disp.toInt * size
/-- The offset a lane's register gives. -/
def laneOff (s : State) (st : Strand) (x : Sel) (n : Nat) : Int := (s.laneSrc st x n).toInt
def scalarOff (st : Strand) (x : Sel) : Int := (st.scalar x).toInt

/-- Register n + k of a pair or quadruple. -/
def selPlus (x : Sel) (k : Nat) : Sel :=
  match x with
  | .reg n => .reg (n + BitVec.ofNat 6 k)
  | x => x

/-- A lane-form access: type and lane registers checked, then one access for each active lane (R232). -/
def laneMem (x : Ctx) (a : MemArgs) (m : MemSpec) (k : AccKind) (disp : Int) (checks : List (Bool × Nat))
    (srcs : List Sel) (acc : State → Nat → Word × Word) : Eff :=
  checked x ((laneMemType a.ty.toNat, cIllegalOperand) :: (x.st.laneOk a.d && x.st.laneOk a.x, cIllegalOperand) :: checks)
    (unlessBad (fun _ => laneKeys x.st (lanesOf x.act (winLanes x.st.window)) (a.x :: srcs)) fun s =>
      memRun x 1 m a.seg.toNat (fmtBytes a.ty.toNat) k
        ((lanesOf x.act (winLanes x.st.window)).map fun n =>
          let d := acc s n
          { lane := n, off := laneOff s x.st a.x n + disp, dst := x.st.laneAt n (selNum a.d), sh := 0, data := d.1, data2 := d.2 }) s)

/-- A scalar-form access, made once by the leader (R84, R232). -/
def scalarMem (x : Ctx) (a : MemArgs) (m : MemSpec) (k : AccKind) (disp : Int) (checks : List (Bool × Nat)) (data data2 : Word) : Eff :=
  checked x ((scalarMemType a.ty.toNat, cIllegalOperand) :: checks)
    (memRun x 1 m a.seg.toNat (fmtBytes a.ty.toNat) k
      [{ lane := x.leader, off := scalarOff x.st a.x + disp, dst := selNum a.d, sh := 0, data := data, data2 := data2 }])

def loadSpec (ty : Nat) (scalar acq : Bool) (scope : Nat) : MemSpec :=
  { kind := .load, ty := ty, scalar := scalar, plane := false, acq := acq, rel := false, scope := scope }
def storeSpec (ty : Nat) (scalar rel : Bool) (scope : Nat) : MemSpec :=
  { kind := .store, ty := ty, scalar := scalar, plane := false, acq := false, rel := rel, scope := scope }
def accOf (acc : Nat) (scalar : Bool) : AccKind := { acc := acc, scalar := scalar, ldx := false, qst := false }

/-! ## Loads and stores (R235, R236) -/

def execLd (c : Common) (x : MemArgs) (s : State) : Host.Outcome State Fault Refusal :=
  (onMem c len1 fun cx =>
    laneMem cx x (loadSpec x.ty.toNat false false 0) (accOf 0 false) (dispBytes x.disp (fmtBytes x.ty.toNat)) [] []
      fun _ _ => (0, 0)).next s
def execSt (c : Common) (x : MemArgs) (s : State) : Host.Outcome State Fault Refusal :=
  (onMem c len1 fun cx =>
    laneMem cx x (storeSpec x.ty.toNat false false 0) (accOf 1 false) (dispBytes x.disp (fmtBytes x.ty.toNat)) [] [x.d]
      fun s n => ((s.laneSrc cx.st x.d n).setWidth 64, 0)).next s
def execLds (c : Common) (x : MemArgs) (s : State) : Host.Outcome State Fault Refusal :=
  (onMem c len1 fun cx =>
    scalarMem cx x (loadSpec x.ty.toNat true false 0) { accOf 0 true with plain := true } (dispBytes x.disp (fmtBytes x.ty.toNat)) [] 0 0).next s
def execSts (c : Common) (x : MemArgs) (s : State) : Host.Outcome State Fault Refusal :=
  (onMem c len1 fun cx =>
    scalarMem cx x (storeSpec x.ty.toNat true false 0) { accOf 1 true with plain := true } (dispBytes x.disp (fmtBytes x.ty.toNat)) []
      (cx.st.scalar x.d) 0).next s
/-- LDACQ acquires at its scope (R236). -/
def execLdacq (c : Common) (scope : Scope) (x : MemArgs) (s : State) : Host.Outcome State Fault Refusal :=
  (onMem c len1 fun cx =>
    scalarMem cx x (loadSpec x.ty.toNat true true scope.code.toNat) (accOf 0 true) (dispBytes x.disp (fmtBytes x.ty.toNat)) [] 0 0).next s
/-- STREL releases at its scope (R236). -/
def execStrel (c : Common) (scope : Scope) (x : MemArgs) (s : State) : Host.Outcome State Fault Refusal :=
  (onMem c len1 fun cx =>
    scalarMem cx x (storeSpec x.ty.toNat true true scope.code.toNat) (accOf 1 true) (dispBytes x.disp (fmtBytes x.ty.toNat)) []
      (cx.st.scalar x.d) 0).next s

/-! ## Planes (R237) -/

/-- The elements active lanes hold, in lane order and within a lane in slot order. -/
def Geo.held (g : Geo) (w : Word) (act : Lanes) : List (Nat × Nat × Nat × Nat × Nat) :=
  (lanesOf act (winLanes w)).flatMap fun n =>
    (List.range g.D).flatMap fun d => (List.range g.S).filterMap fun p =>
      let yx := g.elemAt n p
      if yx.1 < g.H && yx.2 < g.W then some (n, d, p, yx.1, yx.2) else none

/-- LDP and STP: one lane access for each element. -/
def planeMem (c : Common) (a : PlaneMemArgs) (store : Bool) : Eff :=
  onMem c (fun x => planeCycles x 1 [a.pd.toNat]) fun x =>
    let st := x.st
    let g := Geo.of st.window (st.pdreg a.pd.toNat)
    let size := g.b / 8
    let m : MemSpec := { kind := if store then .store else .load, ty := a.ty.toNat, scalar := false, plane := true,
                         acq := false, rel := false, scope := 0 }
    checked x
      [(pairOk a.x && a.ty ≠ 0#4 && a.ty ≠ 15#4, cIllegalOperand),
       (planeOk st (st.pdreg a.pd.toNat), cIllegalOperand), (!isBounded g.ty, cBounded), (a.ty.toNat = g.ty, cPlaneMismatch)]
      (unlessBad (fun _ => if store then g.readsIn st.core st.window x.act else []) fun s =>
        let pitch := st.scalar (selPlus a.x 1)
        let base := scalarOff st a.x + dispBytes a.disp size
        memRun x (planeCycles x 1 [a.pd.toNat]) m a.seg.toNat size { accOf (if store then 1 else 0) false with plane := true }
          ((g.held st.window x.act).map fun e =>
            let key := laneAtIn st.core st.window e.1 (g.word e.2.1 e.2.2.1)
            { lane := e.1,
              off := base + ((e.2.1 * fieldOf pitch 32 32 + e.2.2.2.1 * fieldOf pitch 0 32 + e.2.2.2.2 * size : Nat) : Int),
              dst := key, sh := g.fieldNo e.2.2.1,
              data := if store then BitVec.ofNat 64 (laneField g.b (s.laneWord st key) (g.fieldNo e.2.2.1)) else 0, data2 := 0 }) s)
where
  pairOk (x : Sel) : Bool := match x with | .reg n => n.toNat + 1 < 32 | _ => false

def execLdp (c : Common) (x : PlaneMemArgs) (s : State) : Host.Outcome State Fault Refusal := (planeMem c x false).next s
def execStp (c : Common) (x : PlaneMemArgs) (s : State) : Host.Outcome State Fault Refusal := (planeMem c x true).next s

/-! ## The quantising store (R238, R239) -/

/-- ScaledAddr: virtual addresses of a code and of its scale. -/
def scaledAddr (granule e geom : Nat) : Nat × Nat :=
  let l := geomLen geom
  let nl := geomCodes geom
  let g := e / nl
  let j := e % nl
  (granule + g * 8192 + j, granule + g * 8192 + nl + j / l)

/-- The geometry of a block length; 0 for any other length. -/
def geomOf (l : Nat) : Nat := if l = 16 then 1 else if l = 32 then 2 else if l = 64 then 3 else 0

/-- The blocks whose lanes are all active: depth plane, row, number in the row, and lanes. -/
def qstBlocks (x : Ctx) (g sc : Geo) (l : Nat) : List (Nat × Nat × Nat × List Nat) :=
  (List.range g.D).flatMap fun d => (List.range g.H).flatMap fun y => (List.range (g.W / l)).filterMap fun q =>
    let lanes := (sc.place y q).1 :: (List.range l).map fun i => (g.place y (q * l + i)).1
    if lanes.all fun n => x.act.getLsbD n then some (d, y, q, lanes.eraseDups) else none

/-- The lane-file keys of the codes and scales of blocks. -/
def qstKeys (x : Ctx) (g sc : Geo) (l : Nat) (blocks : List (Nat × Nat × Nat × List Nat)) : List Nat :=
  let key := fun (g : Geo) (d y z : Nat) => laneAtIn x.st.core x.st.window (g.place y z).1 (g.word d (g.place y z).2)
  blocks.flatMap fun b => key sc b.1 b.2.1 b.2.2.1 :: (List.range l).map fun i => key g b.1 b.2.1 (b.2.2.1 * l + i)

/-- One byte a QST writes: the lanes that hold its block, virtual address, value. -/
structure QByte where
  lanes : List Nat
  va : Nat
  val : Nat

/-- The bytes of the blocks whose lanes are all active, and the reserved bytes of each granule in which a scale is written. -/
def qstBytes (x : Ctx) (s : State) (g sc : Geo) (granule j0 rp dp geom : Nat) : List QByte :=
  let l := geomLen geom
  let blocks := qstBlocks x g sc l
  let bytes := blocks.flatMap fun b =>
    let e := j0 + b.1 * dp + b.2.1 * rp + b.2.2.1 * l
    ((List.range l).map fun i =>
      ({ lanes := b.2.2.2, va := (scaledAddr granule (e + i) geom).1, val := srcElem x s g b.1 b.2.1 (b.2.2.1 * l + i) } : QByte)) ++
    [{ lanes := b.2.2.2, va := (scaledAddr granule e geom).2, val := srcElem x s sc b.1 b.2.1 b.2.2.1 }]
  let granules := (blocks.map fun b =>
    let e := j0 + b.1 * dp + b.2.1 * rp + b.2.2.1 * l
    ((scaledAddr granule e geom).2 / 8192 * 8192, b.2.2.2)).foldl
      (fun (acc : List (Nat × List Nat)) y => if acc.any fun z => z.1 = y.1 then acc else acc ++ [y]) []
  let first := geomCodes geom + geomCodes geom / l
  bytes ++ granules.flatMap fun y => (List.range (8192 - first)).map fun i => { lanes := y.2, va := y.1 + first + i, val := 0 }

/-- Two bytes of a list share an address. -/
def dupVa (l : List QByte) : Bool :=
  let vs := l.map (·.va)
  vs.eraseDups.length ≠ vs.length

/-- QST: whole blocks of codes and scales; a block that shares a byte with another raises same-address and nothing is written. The bytes of a block, its scale's and its granule's reserved ones lie in one page, and fail or pass together. -/
def execQst (c : Common) (a : PlaneMemArgs) (s : State) : Host.Outcome State Fault Refusal :=
  (onMem c len1 fun x =>
    let st := x.st
    let g := Geo.of st.window (st.pdreg a.pd.toNat)
    let sc := Geo.of st.window (st.pdreg (a.pd.toNat + 1))
    let l := g.W / sc.W
    let geom := geomOf l
    let pitch := st.scalar (selPlus a.x 1)
    let rp := fieldOf pitch 0 32
    let dp := fieldOf pitch 32 32
    let seg := st.segreg a.seg.toNat
    let off : Int := scalarOff st a.x + dispBytes a.disp 1
    let va := (seg.base.toNat + off.toNat) % 2 ^ 64
    let granule := va / 8192 * 8192
    let j0 := va % 8192
    let m : MemSpec := { kind := .store, ty := 4, scalar := false, plane := false, acq := false, rel := false, scope := 0 }
    let qk : AccKind := { acc := 1, scalar := false, ldx := false, qst := true }
    checked x
      [(a.ty.toNat = 4, cIllegalOperand), (planeMem.pairOk a.x && a.pd.toNat < 15, cIllegalOperand),
       (planeOk st (st.pdreg a.pd.toNat) && planeOk st (st.pdreg (a.pd.toNat + 1)), cIllegalOperand),
       (!isBounded g.ty && !isBounded sc.ty, cBounded),
       (g.ty = 4 && sc.ty = 8 && geom ≠ 0 && g.W = l * sc.W && g.H = sc.H && sameFold g sc && sameDepth g sc, cPlaneMismatch),
       (rp % l = 0 && dp % l = 0, cIllegalOperand)]
      (unlessBad (fun _ => qstKeys x g sc l (qstBlocks x g sc l)) fun s =>
        let bytes := qstBytes x s g sc granule j0 rp dp geom
        let allFail (cause : Nat) : Eff := memIssue x 1 m []
          ((lanesOf x.act (winLanes st.window)).map fun n => (n, va, LaneFail.seg cause))
        if off < 0 then allFail cSegLimit s
        else if geomCodes geom ≤ j0 || j0 % l ≠ 0 then allFail cMisaligned s
        else if dupVa bytes then trapNow x cSameAddr s
        else
          let tried := bytes.map fun b =>
            (b, access s st a.seg.toNat 4 1 qk
              { lane := b.lanes.headD 0, off := (b.va : Int) - (seg.base.toNat : Int), dst := b.va, sh := 0,
                data := BitVec.ofNat 64 b.val, data2 := 0 })
          let verdicts := tried.map fun t => match t.2 with
            | .error f => (t.1, Except.error f)
            | .ok (r, tl) =>
              if r.remote.isNone && (r.fmt ≠ 4 || r.geom ≠ geom) then (t.1, Except.error (LaneFail.attr cFormat))
              else (t.1, Except.ok (r, tl))
          let fails := verdicts.flatMap fun t => match t.2 with
            | .error f => t.1.lanes.map fun n => (n, t.1.va, f)
            | .ok _ => []
          let good := verdicts.filterMap fun t => match t.2 with
            | .ok r => some r
            | .error _ => none
          let sorted := (lanesOf x.act (winLanes st.window)).filterMap fun n => fails.find? fun f => f.1 = n
          Eff.andThen (fun s => touchWindow s x.k st a.seg.toNat ++ cacheTlb s (good.filterMap (·.2)))
            (memIssue x 1 m (good.map fun r => { r.1 with geom := 0 }) sorted) s)).next s

/-! ## MATCH, LDX, PREF (R242, R243, R252) -/

/-- MATCH: each active lane receives its group's leader, the lowest lane of equal address. -/
def execMatchAddr (c : Common) (a : MemArgs) (s : State) : Host.Outcome State Fault Refusal :=
  (onMem c len1 fun x s =>
    let st := x.st
    let act := lanesOf x.act (winLanes st.window)
    checked x [(laneMemType a.ty.toNat, cIllegalOperand), (st.laneOk a.d && st.laneOk a.x, cIllegalOperand)]
      (unlessBad (fun _ => laneKeys st act [a.x]) fun s =>
        let addr := fun n => ((st.segreg a.seg.toNat).base + BitVec.ofInt 64 (laneOff s st a.x n + dispBytes a.disp (fmtBytes a.ty.toNat)))
        issueOp x s 1 none (.results false (act.map fun n =>
          let l := (act.find? fun k => addr k = addr n).getD n
          .lane (st.laneAt n (selNum a.d)) (BitVec.allOnes 32) (BitVec.ofNat 32 (bit (l = n) 31 + l))) none)) s).next s

/-- LDX: value and service lap of a swept page's element (R243). -/
def execLdx (c : Common) (x : MemArgs) (s : State) : Host.Outcome State Fault Refusal :=
  (onMem c len1 fun cx =>
    laneMem cx x { loadSpec x.ty.toNat false false 0 with kind := .ldx } { acc := 0, scalar := false, ldx := true, qst := false }
      (dispBytes x.disp (fmtBytes x.ty.toNat))
      [((match x.d with | .reg n => n.toNat ≤ 62 | _ => false) && cx.st.laneOk (selPlus x.d 1), cIllegalOperand)] []
      fun _ n => (0, BitVec.ofNat 64 (cx.st.laneAt n (selNum x.d + 1)))).next s

/-- PREF forms and translates addresses as a load does, so that its segment has a window and the core its translations (R109, R347); it changes no value and never faults (R252). -/
def execPref (c : Common) (ty : BitVec 4) (seg : BitVec 4) (x : Sel) (disp : BitVec 16) (s : State) : Host.Outcome State Fault Refusal :=
  (onMem c len1 fun cx =>
    let act := lanesOf cx.act (winLanes cx.st.window)
    let size := fmtBytes ty.toNat
    checked cx [(laneMemType ty.toNat, cIllegalOperand), (cx.st.laneOk x, cIllegalOperand)]
      (unlessBad (fun _ => laneKeys cx.st act [x]) fun s =>
        let accs := act.map fun n => ({ lane := n, off := laneOff s cx.st x n + dispBytes disp size, dst := 0, sh := 0, data := 0, data2 := 0 } : Acc)
        touchWindow s cx.k cx.st seg.toNat ++ cacheTlb s ((tryAll s cx.st seg.toNat ty.toNat size (accOf 0 false) accs).1.filterMap (·.2)) ++
        finish cx s 1 cx.sp.past)).next s

/-! ## Visitor copies (R284) -/

/-- A die applies a remote write once every write that happens before it is applied there. What writes earlier in the coherence order of its bytes have still to change there is changed with it. -/
def execVisitorWriteApply (die write : Nat) (s : State) : Host.Outcome State Fault Refusal :=
  Eff.when "VISITOR_WRITE_APPLY" (fun s =>
      match s.pend.find? fun p => p.die = die && p.id = write with
      | some p => !s.pend.any fun q => q.die = die && p.deps.contains q.id && q.id ≠ write
      | none => false)
    (fun s =>
      match s.pend.find? fun p => p.die = die && p.id = write with
      | some p =>
        let before := s.pend.takeWhile fun q => !(q.die = die && q.id = write)
        let after := s.pend.drop (before.length + 1)
        let covered := fun (q : Pend) => if q.die = die then { q with old := q.old.filter fun c => !(p.old.any fun b => b.1 = c.1) } else q
        .pend ((before.map covered).filter (fun q => !q.old.isEmpty) ++ after) :: p.old.map fun c => .fire false [die] c.1 1
      | none => []) s

end Sys2Proof.Machine
end

