-- ==== Sys2Proof/Machine/Atomic.lean ====
section
/-! DEFINITION. Atomics and reductions, performed one at a time at the word's home (R129 to R132, R240, R241). -/

namespace Sys2Proof.Machine

/-- Operations allowed for an instruction and a type (Table 11-5): else illegal-instruction. -/
def atomOpOk (op : AtomOp) (ty : Nat) (reduction : Bool) : Bool :=
  match op with
  | .and => isInt ty
  | .or => isInt ty
  | .xor => isInt ty
  | .exch => !reduction
  | .cas => !reduction
  | _ => true

/-- Types an atomic accepts: not tb8, not a 16-bit floating type (R240). -/
def atomType (ty : Nat) : Bool := ty ≠ 4 && ty ≠ 2 && ty ≠ 3

/-- The pair of registers .cas reads exists. -/
def casOk (op : AtomOp) (d : Sel) (limit : Nat) : Bool :=
  match op with
  | .cas => (match d with | .reg n => n.toNat ≤ limit | _ => false)
  | _ => true

/-- The operation as it is issued; with .ord it acquires (not a reduction) and releases at the scope (R241). -/
def atomSpec (a : AtomArgs) (scalar reduction : Bool) : MemSpec :=
  { kind := if reduction then .red a.op.code.toNat else .atom a.op.code.toNat, ty := a.ty.toNat, scalar := scalar, plane := false,
    acq := a.ord = 1#1 && !reduction, rel := a.ord = 1#1, scope := a.scope.code.toNat }

def atomMem (a : AtomArgs) : MemArgs := { ty := a.ty, d := a.d, seg := a.seg, x := a.x, disp := a.disp.signExtend 16 }

/-- Two active lanes' virtual addresses overlap (R132). -/
def lanesOverlap (s : State) (x : Ctx) (a : MemArgs) : Bool :=
  let n := fmtBytes a.ty.toNat
  let base := (x.st.segreg a.seg.toNat).base.toNat
  let vas := (lanesOf x.act (winLanes x.st.window)).map fun l =>
    (((base : Int) + laneOff s x.st a.x l + dispBytes a.disp n) % ((2 ^ 64 : Nat) : Int)).toNat
  (List.range vas.length).any fun i => (List.range i).any fun j =>
    rangesMeet (vas.getD i 0) (vas.getD i 0 + n) (vas.getD j 0) (vas.getD j 0 + n)

/-- Lane form. -/
def atomLane (c : Common) (a : AtomArgs) (reduction : Bool) : Eff :=
  onMem c len1 fun x =>
    let m := atomMem a
    let ty := a.ty.toNat
    let d2 := selPlus a.d 1
    checked x
      [(atomOpOk a.op ty reduction, cIllegalInstr), (laneMemType ty && atomType ty, cIllegalOperand), (casOk a.op a.d 62, cIllegalOperand)]
      fun s =>
        if x.st.laneOk a.d && x.st.laneOk a.x && lanesOverlap s x m then trapNow x cSameAddr s
        else
          laneMem x m (atomSpec a false reduction) (accOf 2 false) (dispBytes m.disp (fmtBytes ty))
            [(a.op ≠ .cas || x.st.laneOk d2, cIllegalOperand)] (if a.op = .cas then [a.d, d2] else [a.d])
            (fun s n => ((s.laneSrc x.st a.d n).setWidth 64, if a.op = .cas then (s.laneSrc x.st d2 n).setWidth 64 else 0)) s

/-- Scalar form. -/
def atomScalar (c : Common) (a : AtomArgs) (reduction : Bool) : Eff :=
  onMem c len1 fun x =>
    let m := atomMem a
    let ty := a.ty.toNat
    checked x
      [(atomOpOk a.op ty reduction, cIllegalInstr), (scalarMemType ty && atomType ty, cIllegalOperand), (casOk a.op a.d 30, cIllegalOperand)]
      (scalarMem x m (atomSpec a true reduction) (accOf 2 true) (dispBytes m.disp (fmtBytes ty)) []
        (x.st.scalar a.d) (if a.op = .cas then x.st.scalar (selPlus a.d 1) else 0))

def execAtom (c : Common) (x : AtomArgs) (s : State) : Host.Outcome State Fault Refusal := (atomLane c x false).next s
def execAtoms (c : Common) (x : AtomArgs) (s : State) : Host.Outcome State Fault Refusal := (atomScalar c x false).next s
def execRed (c : Common) (x : AtomArgs) (s : State) : Host.Outcome State Fault Refusal := (atomLane c x true).next s
def execReds (c : Common) (x : AtomArgs) (s : State) : Host.Outcome State Fault Refusal := (atomScalar c x true).next s

/-! ## At the home -/

/-- The operation of an atomic or reduction. -/
def MemKind.atomic : MemKind → Option Nat
  | .atom op => some op
  | .red op => some op
  | _ => none

/-- Performs one lane's operation: one step from the value found to the value left, in the coherence order of the home. What it acquires happens before its own write. -/
def performAtomic (o : Op) (m : MemOp) (r : LaneReq) : Eff := fun s =>
  let st := s.strand o.owner
  match badOnChip s r.pa r.bytes false with
  | some e => e s
  | none =>
    if r.poisoned s then [markRefused o r cPoison]
    else
    let old := s.homeKN r.key r.pa r.bytes
    let new := atomResult (m.kind.atomic.getD 0) m.ty old r.data.toNat r.data2.toNat
    let result : List Upd := match m.kind with
      | .atom _ => [.loc o.owner (resultUpd m r old)]
      | _ => []
    let deps := if m.acq then acquiredDeps s st none m.scope r.pa r.bytes else []
    let reads := match m.kind with
      | .atom _ => if m.acq then acquire o deps else noteSeen o none r.pa r.bytes
      | _ => Eff.skip
    let own := { o with dep := joinDeps o.dep deps }
    Eff.seq [noteKey r.key r.pa, reads, fun _ => result, strandStore own r.key true r.pa (bytesOf new r.bytes), storeReleases own m (writeId s r.pa) r.pa r.bytes,
      fun s => match s.op? o.id with | some o => [markDone o r old 0] | none => []] s

/-- Arrival order of atomics at a home (kind 2). -/
def atomChoice (s : State) (o : Op) (r : LaneReq) : Choice :=
  let st := s.strand o.owner
  { kind := 2, obj := r.pa, val := r.lane, agent := strandAgent st, strand := st.number }

/-- The lane of an atomic that its home may perform now. -/
def atomLaneOf (s : State) (id lane : Nat) : Option (Op × MemOp × LaneReq) :=
  match s.op? id with
  | some o =>
    match o.kind with
    | .mem m =>
      if m.kind.atomic.isSome then
        match m.reqs.find? fun r => r.lane = lane && laneReady s o m r with
        | some r => some (o, m, r)
        | none => none
      else none
    | _ => none
  | none => none

/-- HOME_ATOMIC_PERFORM (R129, R131). -/
def execHomeAtomicPerform (id lane : Nat) (s : State) : Host.Outcome State Fault Refusal :=
  Eff.when "HOME_ATOMIC_PERFORM" (fun s => match atomLaneOf s id lane with
      | some (o, _, r) => choiceOk s (s.strand o.owner).launch (atomChoice s o r)
      | none => false)
    (fun s => match atomLaneOf s id lane with
      | some (o, m, r) => withChoice (s.strand o.owner).launch (atomChoice s o r) (fun _ => performAtomic o m r) s
      | none => []) s

end Sys2Proof.Machine
end

