-- ==== Sys2Proof/Machine/Swept.lean ====
section
/-! DEFINITION. Swept regions: admission, laps and the service of rows (R124 to R128, R357). -/

namespace Sys2Proof.Machine

/-! ## Placement (R124, R357) -/

def Region.rows (r : Region) : Nat := r.len / 512
/-- The slices of the mask, in ascending order. -/
def Region.slices (r : Region) : List Nat := (List.range 16).filter fun n => r.mask.getLsbD n
/-- Rows of the region in each slice, at most. -/
def Region.perSlice (r : Region) : Nat := (r.rows + r.slices.length - 1) / r.slices.length
/-- The lap period. -/
def Region.period (r : Region) : Nat := r.perSlice + 16
/-- Slice and row in it of an address. -/
def Region.slot (r : Region) (pa : Nat) : Nat × Nat :=
  let n := (pa - r.base) / 512
  (r.slices.getD (n % r.slices.length) 0, n / r.slices.length)

/-- Requests in a slice's queue, or those it has admitted in the lap of each region, over the regions of the die (R125). -/
def sliceLoad (s : State) (die slice : Nat) (lapOnly : Bool) : Nat :=
  let of := fun (r : Region) =>
    (r.queue.filter fun a => a.slice = slice && (!lapOnly || a.lap = r.lap)).length + (if lapOnly then (mapGet r.others slice).getD 0 else 0)
  (s.parts.flatMap fun p => p.2.regions.map fun r => if r.2.die = die then of r.2 else 0).foldl (· + ·) 0

/-! ## Admission (R125) -/

/-- The next request of a lane that waits for admission. -/
def sweptReq (s : State) (id lane : Nat) : Option (Op × MemOp × LaneReq) :=
  match s.op? id with
  | some o =>
    match o.kind with
    | .mem m =>
      match m.reqs.find? fun r => r.lane = lane && r.cls = 1 && r.st = .todo with
      | some r => some (o, m, r)
      | none => none
    | _ => none
  | none => none

/-- A request before an operation in program order on the region waits for admission: laps never decrease in program order. -/
def sweptAhead (s : State) (o : Op) (region : Nat × Nat) : Bool :=
  s.ops.any fun p => o.prior.contains p.id && !p.parked &&
    (p.kind.acquires ||
     (match p.kind with
      | .mem m => m.reqs.any fun r => r.cls = 1 && r.st = .todo && s.sweptAt r.pa = some region
      | _ => false))

/-- A read before an update in program order of the same bytes, admitted in this lap: in one lap the update would be applied first (R126, R279). -/
def sweptReadAhead (s : State) (o : Op) (m : MemOp) (q : LaneReq) (lap : Nat) : Bool :=
  (match m.kind with | .load => false | .ldx => false | _ => true) &&
  s.ops.any fun p => o.prior.contains p.id && (match p.kind with
    | .mem y => (match y.kind with | .load => true | .ldx => true | _ => false) && y.reqs.any fun r => r.st = .admitted lap && r.meets q
    | _ => false)

/-- A lower lane of the store waits for admission with the same bytes: the highest lane's value is left (R132). -/
def MemOp.lowerWaits (m : MemOp) (q : LaneReq) : Bool :=
  m.kind = .store && (m.reqs.takeWhile fun r => !(r = q)).any fun r => r.st = .todo && r.meets q

/-- The choice an admission is (kind 1): slice; lap and sequence in it. -/
def sweptChoice (s : State) (o : Op) (r : Region) (slice : Nat) : Choice :=
  let st := s.strand o.owner
  { kind := 1, obj := slice + 16 * r.die, val := r.lap * 2 ^ 16 + sliceLoad s r.die slice true, agent := strandAgent st, strand := st.number }

/-- A request may be admitted now, in the lap that runs (R125). -/
def admitReady (s : State) (o : Op) (m : MemOp) (q : LaneReq) : Bool :=
  match s.sweptAt q.pa with
  | none => true
  | some pr =>
    let r := (s.part pr.1).region pr.2
    let sl := (r.slot q.pa).1
    !r.busy && r.lapStart ≤ s.now && s.now < r.lapStart + r.period && !sweptReadAhead s o m q r.lap && !m.lowerWaits q && sliceLoad s r.die sl false < 512 && sliceLoad s r.die sl true < 512 && !sweptAhead s o pr &&
    (!m.rel || releaseReady s o m.scope) && choiceOk s (s.strand o.owner).launch (sweptChoice s o r sl)

/-- A region of a partition replaced. -/
def setRegion (part n : Nat) (f : Region → Region) : Eff := fun s =>
  let x := s.part part
  [.part part { x with regions := mapSet x.regions n (f (x.region n)) }]

/-- The split goes on once every lane of its instruction has been admitted (R125); one a lane of which has failed stays at it. -/
def openGate (id : Nat) : Eff := fun s =>
  match s.op? id with
  | some o =>
    match o.kind with
    | .mem m =>
      if !m.gate || m.reqs.any fun r => r.cls = 1 && r.st = .todo then []
      else
        let st := s.strand o.owner
        let sp := st.splitOf o.split
        let stays := m.pinned || m.reqs.any fun r => r.refusedCause.isSome
        [.opSet { o with kind := .mem { m with gate := false, pinned := stays } }] ++
        (if stays || !standsAt st o then [] else [.split o.owner { sp.past with run := if o.flag = 0 then .hold id else .ready }])
    | _ => []
  | none => []

/-- SWEPT_ADMISSION: the request enters its slice's queue in the current lap; where the region is gone, the lane fails with permission (R357). -/
def execSweptAdmission (id lane : Nat) (s : State) : Host.Outcome State Fault Refusal :=
  Eff.when "SWEPT_ADMISSION" (fun s => match sweptReq s id lane with
      | some (o, m, q) => !o.parked && admitReady s o m q
      | none => false)
    (fun s => match sweptReq s id lane with
      | some (o, _, q) =>
        match s.sweptAt q.pa with
        | none => Eff.andThen (fun _ => [markRefused o q cPermission]) (openGate id) s
        | some pr =>
          let r := (s.part pr.1).region pr.2
          let sl := r.slot q.pa
          let a : Admit := { op := id, lane := lane, slice := sl.1, row := sl.2, lap := r.lap }
          withChoice (s.strand o.owner).launch (sweptChoice s o r sl.1) (fun _ =>
            Eff.seq [setRegion pr.1 pr.2 fun x => { x with queue := x.queue ++ [a] },
              fun _ => [markReq o q (fun y => { y with st := .admitted r.lap }) 0], openGate id]) s
      | none => []) s

/-! ## Laps and rows (R126, R127) -/

/-- The tumblers of a region run: it is active, or it finishes what it has admitted. -/
def Region.runs (r : Region) : Bool := (r.active && !r.busy) || (!r.active && r.busy)

/-- LAP_START: the next lap starts once its period is over and every request due has been served. -/
def execLapStart (part region : Nat) (s : State) : Host.Outcome State Fault Refusal :=
  Eff.when "LAP_START" (fun s =>
      let r := (s.part part).region region
      r.runs && r.lapStart + r.period ≤ s.now && r.queue.all fun a => a.lap = r.lap)
    (setRegion part region fun r =>
      { r with lap := (r.lap + 1) % 2 ^ 32, lapStart := r.lapStart + r.period, served := [], others := [] }) s

/-- The request an admission stands for. -/
def admitReq (s : State) (base : Region) (a : Admit) : Option (Op × MemOp × LaneReq) :=
  match s.op? a.op with
  | some o =>
    match o.kind with
    | .mem m =>
      match m.reqs.find? fun r => r.lane = a.lane && r.st = .admitted a.lap && base.slot r.pa = (a.slice, a.row) with
      | some r => some (o, m, r)
      | none => none
    | _ => none
  | none => none

/-- Serves one admitted request; LDX reports the service lap. -/
def serveOne (r : Region) (a : Admit) : Eff := fun s =>
  match admitReq s r a with
  | some (o, m, q) =>
    match m.kind with
    | .atom _ => performAtomic o m q s
    | .red _ => performAtomic o m q s
    | .ldx => if q.poisoned s then performLane o m q s else Eff.andThen (performLane o m q) (fun _ => [.loc o.owner (.lane q.data2.toNat (BitVec.allOnes 32) (BitVec.ofNat 32 r.lap))]) s
    | _ => performLane o m q s
  | none => []

/-- A request that changes its row. -/
def admitUpdates (s : State) (a : Admit) : Bool :=
  match s.op? a.op with
  | some o => (match o.kind with
    | .mem m => (match m.kind with | .load => false | .ldx => false | _ => true)
    | _ => false)
  | none => false

/-- A read of a scaled element whose scale's row has updates due in this lap that are not yet applied: the value is that of its code and its scale after the laps before (R37, R126). -/
def scaleWaits (s : State) (r : Region) (a : Admit) : Bool :=
  match admitReq s r a with
  | some (_, _, q) =>
    q.geom ≠ 0 && (let sc := r.slot (scalePA q.geom q.pa)
      !(sc = (a.slice, a.row)) && r.queue.any fun b => (b.slice, b.row) = sc && (b.lap + 1) % 2 ^ 32 = r.lap && admitUpdates s b)
  | none => false

/-- No request admitted in an earlier lap is still to be served at an address: the region stands as between two laps, and an access that is not a strand's finds what every update admitted before has left (R126, notes/assumptions/94.md). -/
def sweptStill (s : State) (pa : Nat) : Bool :=
  match s.sweptAt pa with
  | some pr =>
    let r := (s.part pr.1).region pr.2
    !r.busy && r.lapStart ≤ s.now && r.queue.all fun a => a.lap = r.lap
  | none => true

/-- A slice of an active region: partition, region number, slice. -/
abbrev SliceOf := (Nat × Nat) × Nat

/-- The slices that accesses at these addresses go to, a request for each line (notes/assumptions/94.md). -/
def sweptSlices (s : State) (l : List Nat) : List SliceOf :=
  ((l.map (· / 64)).eraseDups).filterMap fun line =>
    (s.sweptAt (line * 64)).map fun pr => (pr, (((s.part pr.1).region pr.2).slot (line * 64)).1)

/-- Of n requests to a slice, 512 a lap, those of the last lap. -/
def lastShare (n : Nat) : Nat := (n - 1) % 512 + 1
/-- What each slice is asked for in the last lap of a list of accesses. -/
def sweptShares (s : State) (l : List Nat) : List (SliceOf × Nat) :=
  let all := sweptSlices s l
  all.eraseDups.map fun e => (e, lastShare (all.filter (· = e)).length)

/-- Accesses of an agent that is no strand may be made at these addresses: their rows stand still, and their slices admit them in this lap (R125). -/
def sweptOpen (s : State) (l : List Nat) : Bool :=
  l.all (sweptStill s) &&
  (sweptShares s l).all fun e => sliceLoad s ((s.part e.1.1.1).region e.1.1.2).die e.1.2 true + e.2 ≤ 512

/-- Their slices have admitted them. -/
def sweptCount (l : List Nat) : Eff := fun s =>
  Eff.seq ((sweptShares s l).map fun e =>
    setRegion e.1.1.1 e.1.1.2 fun r => { r with others := mapSet r.others e.1.2 ((mapGet r.others e.1.2).getD 0 + e.2) }) s

/-- TUMBLER_ROW_SERVICE: the row's updates in admission order, then its reads. -/
def execTumblerRowService (part region slice row : Nat) (s : State) : Host.Outcome State Fault Refusal :=
  let due := fun (r : Region) (a : Admit) => a.slice = slice && a.row = row && (a.lap + 1) % 2 ^ 32 = r.lap
  Eff.when "TUMBLER_ROW_SERVICE" (fun s =>
      let r := (s.part part).region region
      r.runs && r.lapStart + row ≤ s.now && !r.served.contains (slice, row) && r.queue.any (due r) &&
      !(r.queue.filter (due r)).any (scaleWaits s r))
    (fun s =>
      let r := (s.part part).region region
      let l := r.queue.filter (due r)
      let ups := l.filter (admitUpdates s)
      let reads := l.filter fun a => !admitUpdates s a
      Eff.seq ((ups ++ reads).map (serveOne r) ++
        [setRegion part region fun x => { x with queue := x.queue.filter fun a => !due r a, served := (slice, row) :: x.served }]) s) s

end Sys2Proof.Machine
end

