-- ==== Sys2Proof/Machine/Chains.lean ====
section
/-! DEFINITION. Launch records and launch chains: the checks of a record, its mask, and linking a record at a chain's tail (R320 to R326, R255). -/

namespace Sys2Proof.Machine

/-! ## Reading a launch record -/

/-- The ASID of a chain (Table 20-1). -/
def chainAsid (s : State) (part chain : Nat) : Nat := (mapGet (s.part part).chainAsid chain).getD 0

/-- The package cores mapped in (R11). -/
def mappedIn (s : State) : BitVec 256 :=
  s.mappedOut.foldl (fun m c => m &&& ~~~(1#256 <<< c)) (BitVec.allOnes 256)

/-- The cores of a cluster. -/
def clusterMask (cl : Nat) : BitVec 256 := 0xF#256 <<< (4 * cl)

/-- Cores of a mask. -/
def coresOf (m : BitVec 256) : List Nat := (List.range 256).filter fun c => m.getLsbD c

/-- A 256-bit mask of four words. -/
def maskOf (ws : List Word) : BitVec 256 := (ws.getD 3 0 ++ ws.getD 2 0 ++ ws.getD 1 0 ++ ws.getD 0 0 : BitVec 256)

/-- The effective mask of a record on a chain, with what else restricts it (R325, R335). -/
def effectiveMask (s : State) (part chain asid : Nat) (r : List Word) (restrict : BitVec 256) : Option (BitVec 256) :=
  match spanWords s part asid 1 (recWord r 6).toNat 4 with
  | .error _ => none
  | .ok ws => some (maskOf ws &&& (s.chain (chainKey part chain)).mask &&& restrict &&& mappedIn s)

/-- The record's window has a legal size. -/
def recSizeOk (r : List Word) : Bool := 1 ≤ recH r && recH r ≤ 128 && 1 ≤ recW r && recW r ≤ 128

/-- Reserved fields of a launch record are zero; w5 is ignored in a template (R198). -/
def recReservedOk (r : List Word) (template : Bool) : Bool :=
  fieldOf (recWord r 0) 37 3 = 0 && fieldOf (recWord r 1) 48 16 = 0 && (template || fieldOf (recWord r 5) 8 56 = 0)

def recCoresident (r : List Word) : Bool := fieldOf (recWord r 0) 36 1 = 1

/-- A footprint that passes the last word of its window (R81). -/
def recFootBad (r : List Word) : Bool :=
  let m := if recSizeOk r then winM (winOf (recH r) (recW r)) else 1
  256 / m < recFpBase r + recFpCount r

/-- The refusal code of a record that can be read (Table 19-2); 0 where no check fails. A chain with no valid ASID refuses with code 9 whatever else it could not read (R342, notes/assumptions/99.md). A template's count and w5 are ignored. -/
def recordCode (s : State) (part chain asid : Nat) (r : List Word) (template : Bool) (restrict : BitVec 256) : Nat :=
  let segBad := match spanWords s part asid 1 (recWord r 3).toNat 48 with
    | .error _ => true
    | .ok ws => !segsOk ws
  let ovlBad := 4095 < recOverlay r ||
    (match ovlEntry s part asid false (recOverlay r) with
     | none => true
     | some e => e.granules * 256 ≤ recEntry r)
  if (asidRoot s (s.part part) asid).isNone then 9
  else if !template && recCount r = 0 then 1
  else if recFootBad r then 2
  else if segBad then 3
  else if !recSizeOk r || !recReservedOk r template then 4
  else if ovlBad then 5
  else
    match effectiveMask s part chain asid r restrict with
    | none => 8
    | some m =>
      if m = 0 then 6
      else if !template && recCoresident r && 16 * (coresOf m).length < recCount r then 7
      else 0

/-- The level a record's entry overlay gives its strands: K for an overlay whose table entry has the K bit (R318). -/
def recLevel (s : State) (part asid : Nat) (r : List Word) : Nat :=
  match ovlEntry s part asid false (recOverlay r) with
  | some e => if e.kbit then 1 else 0
  | none => 0

/-- A launch as its record gives it, before it is numbered. -/
def launchOf (part chain asid addr level prio : Nat) (r : List Word) (mask : BitVec 256) (dep : List Nat) (now : Nat) : Launch where
  ident := 0
  part := part
  chain := chain
  asid := asid
  recAddr := addr
  rec_ := r
  level := level
  prio := prio
  mask := mask
  count := recCount r
  placed := 0
  retired := 0
  ended := false
  ext := (recWord r 1).extractLsb' 40 8
  idempotent := fieldOf (recWord r 0) 34 1 = 1
  record := fieldOf (recWord r 0) 35 1 = 1
  coresident := recCoresident r
  start := dep
  params := []
  asids := []
  spawnDeps := []
  payload := []
  message := false
  dep := []
  waitSince := none
  failedAt := none
  wdog := now
  again := []
  segs := []
  withhold := false
  replay := false

/-! ## Linking (R255, R320) -/

/-- Addresses from here name records the device made itself; no virtual address is one (log 20). -/
def madeBase : Nat := 2 ^ 62

/-- The cluster whose scratch a linked record's address names. -/
def linkCluster (x : Chain) (addr : Nat) : Nat :=
  match x.deps.reverse.find? fun e => e.1 % 2 ^ 64 = addr with
  | some e => e.1 / 2 ^ 64
  | none => 0

/-- A record the device made. -/
def Chain.madeAt (x : Chain) (addr : Nat) : Option Launch := mapGet x.made addr

/-- Physical address of w7 of a chain's tail record. -/
def tailLink (s : State) (part chain : Nat) : Except LaneFail Nat :=
  let x := s.chain (chainKey part chain)
  if x.tail / 2 ^ 63 = 1 then .ok (scratchPA (linkCluster x x.tail) (x.tail % 2 ^ 22 + 56))
  else agentAddr s part (chainAsid s part chain) 1 (x.tail + 56) 1

/-- A record can be linked: the chain is empty, or w7 of its tail can be written. -/
def linkOk (s : State) (part chain : Nat) : Bool :=
  let x := s.chain (chainKey part chain)
  x.head = 0 || (x.madeAt x.tail).isSome || (match tailLink s part chain with | .ok _ => true | .error _ => false)

/-- Links the record at an address at a chain's tail, with the writes that happen before its strands start. -/
def appendRecord (part chain addr cluster : Nat) (deps : List Nat) : Eff := fun s =>
  let key := chainKey part chain
  let x := s.chain key
  let d := x.deps ++ [(addr + 2 ^ 64 * cluster, deps)]
  if x.head = 0 then [.chain key { x with head := addr, tail := addr, deps := d }]
  else
    match x.madeAt x.tail with
    | some l =>
      let l' := { l with rec_ := l.rec_.take 7 ++ [BitVec.ofNat 64 addr] }
      [.chain key { x with tail := addr, deps := d, made := mapSet x.made x.tail l' }]
    | none =>
      match tailLink s part chain with
      | .ok pa => putWord pa (BitVec.ofNat 64 addr) ++ [.chain key { x with tail := addr, deps := d }]
      | .error _ => []

/-- Appends a launch the device made to a chain. -/
def appendMade (l : Launch) : Eff := fun s =>
  let key := chainKey l.part l.chain
  let addr := madeBase + s.nextLaunch
  Eff.seq [fun s => [.chain key { (s.chain key) with made := mapSet (s.chain key).made addr l }, .nextLaunch],
    appendRecord l.part l.chain addr 0 []] s

end Sys2Proof.Machine
end

