-- ==== Sys2Proof/Machine/Sync.lean ====
section
/-! DEFINITION. LAPW, FENCE, WAITA, queues, timelines, CHADV, and the completion of class 2 operations (R133 to R135, R244 to R246, R253 to R255). -/

namespace Sys2Proof.Machine

/-! ## Checked words (R244, R246) -/

/-- A scalar check of 4-byte words at offsets, in order; a failure parks the strand at the word before anything is done. -/
def withWords (x : Ctx) (seg : Nat) (offs : List Int) (rule : LaneReq → Option Nat) (e : List LaneReq → Eff) : Eff := fun s =>
  let accs := offs.map fun o => ({ lane := x.leader, off := o, dst := 0, sh := 0, data := 0, data2 := 0 } : Acc)
  let r := tryAll s x.st seg 10 4 (accOf 0 true) accs
  let late := r.1.filterMap fun q => (rule q.1).map fun c => (q.1.lane, q.1.va, LaneFail.attr c)
  let fails := r.2 ++ late
  Eff.andThen (fun s => touchWindow s x.k x.st seg ++ cacheTlb s (r.1.filterMap (·.2)))
    (fun s =>
      if fails.isEmpty then e (r.1.map (·.1)) s
      else
        let t := failTrap (lanesMask [x.leader]) 0 fails
        parkNow x { t.1 with unfinished := lanesMask [x.leader] } t.2 s) s

/-- LAPW waits for a region's lap (R244). -/
def execLapw (c : Common) (d : Sel) (seg : BitVec 4) (x : Sel) (disp : BitVec 16) (s : State) : Host.Outcome State Fault Refusal :=
  (onMem c len1 fun cx =>
    withWords cx seg.toNat [scalarOff cx.st x + dispBytes disp 4] (fun r => if r.cls = 1 && r.remote.isNone then none else some cPermission)
      fun rs s =>
        let pr := (s.sweptAt ((rs.headD LaneReq.blank).pa)).getD (0, 0)
        issueOp cx s 1 none (.lapw pr.1 pr.2 ((cx.st.scalar d).toNat % 2 ^ 32))).next s

def execFence (c : Common) (kind : FenceKind) (scope : Scope) (s : State) : Host.Outcome State Fault Refusal :=
  (onMem c len1 fun x s => issueOp x s 1 none (.fence kind scope.code.toNat)).next s

/-- WAITA arms one word, or four named by sX to s(X+3), for a time of sD core cycles, 0 meaning without end (R246); a word through a remote segment raises permission (DESIGN CHOICE,
notes/assumptions/110.md). -/
def execWaita (c : Common) (four : BitVec 1) (d : Sel) (seg : BitVec 4) (x : Sel) (disp : BitVec 16) (s : State) :
    Host.Outcome State Fault Refusal :=
  (onMem c len1 fun cx =>
    let n := if four = 1#1 then 4 else 1
    let t := (cx.st.scalar d).toNat
    checked cx [(four = 0#1 || (match x with | .reg r => r.toNat ≤ 28 | _ => false), cIllegalOperand)]
      (withWords cx seg.toNat ((List.range n).map fun i => scalarOff cx.st (selPlus x i) + dispBytes disp 4)
        (fun r => if r.remote.isSome then some cPermission else none)
        fun rs s =>
          issueOp cx s 1 none (.waita (selNum d) (rs.map fun r => (r.pa, r.cls ≠ 0)) none (if t = 0 then 0 else s.now + t) (rs.any fun r => r.cls = 3)))).next s

/-! ## Queues (R133, R134, R253) -/

/-- The queue a strand names. -/
def Strand.queueKey (st : Strand) (q : BitVec 4) : Nat := Machine.queueKey st.cluster q.toNat

/-- QPUSH; the .try form names a status register. -/
def execQpush (c : Common) (try_ : BitVec 1) (d : Sel) (q : BitVec 4) (x : Sel) (s : State) : Host.Outcome State Fault Refusal :=
  (onMem c len1 fun cx s =>
    let k := cx.st.queueKey q
    checked cx [((s.queue k).usable, cQueueMisuse)]
      (fun s => issueOp cx s 1 none (.qpush k (cx.st.scalar d) (if try_ = 1#1 then some (selNum x) else none))) s).next s

def execQpop (c : Common) (try_ : BitVec 1) (d : Sel) (q : BitVec 4) (x : Sel) (s : State) : Host.Outcome State Fault Refusal :=
  (onMem c len1 fun cx s =>
    let k := cx.st.queueKey q
    checked cx [((s.queue k).usable, cQueueMisuse)]
      (fun s => issueOp cx s 1 none (.qpop k (selNum d) (if try_ = 1#1 then some (selNum x) else none))) s).next s

def execQstat (c : Common) (d : Sel) (q : BitVec 4) (s : State) : Host.Outcome State Fault Refusal :=
  (onMem c len1 fun cx s => issueOp cx s 1 none (.qstat (cx.st.queueKey q) (selNum d))).next s

/-- The QSTAT word (R253). -/
def Queue.statWord (q : Queue) : Word :=
  BitVec.ofNat 64 (((q.tail + 2 ^ 32 - q.head) % 2 ^ 32) + q.depth * 2 ^ 32 + bit q.enabled 63)

/-- Scratch address of the slot of a sequence number. -/
def Queue.slotPA (q : Queue) (key seq : Nat) : Nat := scratchPA (key / 16) (q.ring + 8 * (seq % q.depth))

/-- An earlier push, or pop, of the queue still waits: they are served in order of arrival, which for different strands is that of their issue (DESIGN CHOICE, notes/assumptions/114.md). -/
def pushAhead (s : State) (o : Op) (q : Nat) : Bool :=
  s.ops.any fun p => p.id < o.id && !p.parked && (match p.kind with | .qpush k _ _ => k = q | _ => false)
def popAhead (s : State) (o : Op) (q : Nat) : Bool :=
  s.ops.any fun p => p.id < o.id && !p.parked && (match p.kind with | .qpop k _ _ => k = q | _ => false)

/-- A handle into a queue with the release it carries. -/
def queuePush (key : Nat) (v : Word) (deps : List Nat) : Eff := fun s =>
  let q := s.queue key
  Eff.andThen (storeBytes { die := dieOfCluster (key / 16), deps := [], key := 0, atomic := false, wil := none } (q.slotPA key q.tail) (bytesOf v.toNat 8))
    (fun s =>
      let q := s.queue key
      heal (q.slotPA key q.tail) 8 s ++ [.queue key { q with tail := (q.tail + 1) % q.modulus, deps := q.deps ++ [(q.tail, deps)] }]) s

/-- The choice a push or pop is (kind 3). -/
def queueChoice (st : Strand) (key seq : Nat) : Choice :=
  { kind := 3, obj := key, val := seq, agent := strandAgent st, strand := st.number }

/-! ## Timelines and chains (R254, R255) -/

def execTlwait (c : Common) (d : Sel) (tl : BitVec 3) (s : State) : Host.Outcome State Fault Refusal :=
  (onMem c len1 fun x s => issueOp x s 1 none (.tlwait tl.toNat (x.st.scalar d).toNat)).next s
def execTlread (c : Common) (d : Sel) (tl : BitVec 3) (s : State) : Host.Outcome State Fault Refusal :=
  (onMem c len1 fun x s => issueOp x s 1 none (.tlread tl.toNat (selNum d))).next s
def execTladv (c : Common) (d : Sel) (tl : BitVec 3) (s : State) : Host.Outcome State Fault Refusal :=
  (onMem c len1 fun x s => issueOp x s 1 none (.tladv tl.toNat (selNum d))).next s

/-- The writes arrivals up to a value release (R21). -/
def Timeline.depsTo (t : Timeline) (v : Nat) : List Nat := (t.arr.filter fun a => a.1 ≤ v).flatMap (·.2)

/-- Word w7 of a record a CHADV names, in scratch or the strand's own memory: class, key and physical address. -/
def chadvNext (s : State) (st : Strand) (addr : Nat) : Except LaneFail (Nat × Nat × Nat) :=
  if addr / 2 ^ 63 = 1 then .ok (4, 0, scratchPA st.cluster (addr % 2 ^ 22 + 56))
  else
    match translate s st.core st.part st.asid st.level (addr + 56) 0 with
    | .error f => .error f
    | .ok (t, pa) => if s.poisoned pa 8 then .error (.attr cPoison) else .ok (t.cls, t.key, pa)

/-- CHADV reads and checks w7 of the record, once what the strand has still to store or acquire cannot change it (R115). -/
def execChadv (c : Common) (d x : Sel) (s : State) : Host.Outcome State Fault Refusal :=
  (onMem c len1 fun cx s =>
    let h := (cx.st.scalar d).toNat
    let addr := (cx.st.scalar x).toNat
    let launchChain := 16 ≤ h && h < 32
    checked cx
      [(h = 0 || launchChain, cIllegalOperand), (addr % 64 = 0, cMisaligned),
       (!launchChain || (s.chain (chainKey cx.st.part (h - 16))).grant, cPermission)]
      (fun s =>
        match chadvNext s cx.st addr with
        | .error f => parkNow cx { TrapInfo.plain f.cause with kind := 3, addrs := [BitVec.ofNat 64 addr] } f.need.toList s
        | .ok (cls, key, pa) =>
          if recordBlocked s cx cls pa 8 then stall cx s
          else
            match badOnChip s pa 8 false with
            | some k => k s
            | none =>
              let w := (s.strandWords cx.st.die cls key pa 1).getD 0 0
              Eff.andThen (noteKey key pa) (checked cx [(w = 0, cIllegalOperand)] fun s => issueOp cx s 1 none (.chadv h addr)) s) s).next s

/-- Physical address of w7 of a tile record, where its page can be written. -/
def tileNext (s : State) (cl : Nat) (l : TileLink) : Option Nat :=
  if l.addr / 2 ^ 63 = 1 then some (scratchPA cl (l.addr % 2 ^ 22 + 56))
  else match agentAddr s l.part l.asid l.level (l.addr + 56) 1 with
    | .ok pa => some pa
    | .error _ => none

/-- Links the record of a CHADV at the tail of its cluster's tile-task chain; the scheduler keeps the link itself (R255, R392). -/
def appendTile (o : Op) (addr : Nat) : Eff := fun s =>
  let k := o.owner
  let st := s.strand k
  let cl := st.cluster
  let t := s.tile cl
  let link : List Upd := match t.chain.getLast? with
    | none => []
    | some l => match tileNext s cl l with
      | some pa => putWord pa (BitVec.ofNat 64 addr)
      | none => []
  let new : TileLink := { addr := addr, owner := k, number := st.number, launch := st.launch, part := st.part, asid := st.asid, level := st.level,
                          dep := s.stillPending o.dep, tags := [] }
  link ++ [.tile cl { t with chain := t.chain ++ [new] }]

/-! ## Completion of class 2 operations (R231) -/

/-- Every earlier load has its value. -/
def loadsDone (s : State) (o : Op) : Bool :=
  !s.ops.any fun p => o.prior.contains p.id &&
    (match p.kind with
     | .mem m => (m.undone || p.parked) && (match m.kind with | .store => false | .red _ => false | _ => true)
     | _ => false)

/-- A FENCE may complete (R245). -/
def fenceReady (s : State) (o : Op) (kind : FenceKind) (scope : Nat) : Bool :=
  (kind = .rel || loadsDone s o) && (kind = .acq || releaseReady s o scope)

/-- What a FENCE leaves: the writes that earlier loads made visible are acquired, and its release is carried by later stores. -/
def fenceEffect (o : Op) (kind : FenceKind) (scope : Nat) : Eff := fun s =>
  let st := s.strand o.owner
  let seen := (st.splits.filter fun sp => sp.prior.contains o.id).flatMap (·.seen)
  let acq := if kind = .rel then [] else (seen.filter fun r => synchronises r st.core (s.ordDie st) scope).flatMap (·.deps)
  .after o.owner o.id (s.stillPending acq) [] ::
  (if kind = .acq || scope = 0 then [] else [.fenced o.owner o.id (scope, s.stillPending (joinDeps o.dep acq))])

/-- The lap of a region has reached a value, over a half-range (R244). -/
def lapReached (lap value : Nat) : Bool := (lap + 2 ^ 32 - value % 2 ^ 32) % 2 ^ 32 < 2 ^ 31

/-- A load or store whose remaining lanes can all be performed, lowest first. -/
def memReady (s : State) (o : Op) (m : MemOp) : Bool :=
  m.settled ||
  ((match m.kind with | .load => true | .store => true | _ => false) &&
    m.reqs.all fun r => r.st = .done || r.refusedCause.isSome || laneFree s o m r)

/-- The value, choice and result of a WAITA that has fired. -/
def waitaChoice (st : Strand) (i : Nat) : Choice :=
  { kind := 11, obj := st.number, val := i, agent := strandAgent st, strand := st.number }

/-- MEMORY_ACCESS_COMPLETE may happen for an operation. -/
def memoryReady (s : State) (o : Op) : Bool :=
  let st := s.strand o.owner
  match o.kind with
  | .mem m => memReady s o m
  | .results false _ _ => true
  | .fence kind scope => fenceReady s o kind scope
  | .lapw p r v => lapReached ((s.part p).region r).lap v
  | .waita _ _ (some i) _ _ => !st.suspended && choiceOk s st.launch (waitaChoice st i)
  | .qpush q _ try_ =>
    releaseReady s o 2 &&
    (if (s.queue q).allowance = 0 then try_.isSome
     else !pushAhead s o q && choiceOk s st.launch (queueChoice st q (s.queue q).tail))
  | .qpop q _ try_ =>
    if (s.queue q).used = 0 then try_.isSome
    else !popAhead s o q && choiceOk s st.launch (queueChoice st q (s.queue q).head)
  | .qstat .. => true
  | .tlwait tl v => v ≤ (s.tl (tlKey st.launch tl)).count
  | .tlread .. => true
  | .tladv tl _ =>
    releaseReady s o 4 &&
    choiceOk s st.launch { kind := 7, obj := tl, val := (s.tl (tlKey st.launch tl)).count + 1, agent := strandAgent st, strand := st.number }
  | .chadv h _ => if h = 0 then releaseReady s o 2 else releaseReady s o 4 && linkOk s st.part (h - 16)
  | _ => false

/-- QPUSH at its instant. -/
def pushDone (o : Op) (q : Nat) (v : Word) (try_ : Option Nat) : Eff := fun s =>
  let st := s.strand o.owner
  let status (n : Nat) : List Upd := match try_ with | some r => [.loc o.owner (.s r (BitVec.ofNat 64 n))] | none => []
  if (s.queue q).allowance = 0 then completeOp o (status 1) [] s
  else
    withChoice st.launch (queueChoice st q (s.queue q).tail) (fun _ =>
      Eff.seq [queuePush q v (s.stillPending o.dep), completeOp o (status 0) []]) s

/-- QPOP at its instant: the handle, and what its push released (R134). -/
def popDone (o : Op) (q d : Nat) (try_ : Option Nat) : Eff := fun s =>
  let st := s.strand o.owner
  let x := s.queue q
  let status (n : Nat) : List Upd := match try_ with | some r => [.loc o.owner (.s r (BitVec.ofNat 64 n))] | none => []
  if x.used = 0 then completeOp o (status 1) [] s
  else
    let pa := x.slotPA q x.head
    match badOnChip s pa 8 false with
    | some e => e s
    | none =>
      let deps := (x.deps.filter fun e => e.1 = x.head).flatMap (·.2)
      withChoice st.launch (queueChoice st q x.head) (fun _ =>
        Eff.seq [fun s => [.loc o.owner (.s d (BitVec.ofNat 64 (s.homeN pa 8))),
            .queue q { x with head := (x.head + 1) % x.modulus, deps := x.deps.filter fun e => e.1 ≠ x.head }],
          acquire o deps, completeOp o (status 0) []]) s

/-- What the completion of a class 2 operation does. -/
def memoryDone (o : Op) : Eff := fun s =>
  let st := s.strand o.owner
  match o.kind with
  | .mem m => Eff.andThen (performLanes o.id (m.reqs.filter fun r => r.st = .todo)) (endMem o.id) s
  | .results _ ups _ => completeOp o (ups.map (Upd.loc o.owner)) [] s
  | .fence kind scope => Eff.andThen (fenceEffect o kind scope) (completeOp o [] []) s
  | .lapw .. => completeOp o [] [] s
  | .waita d _ (some i) _ _ =>
    withChoice st.launch (waitaChoice st i) (fun v => completeOp o [.loc o.owner (.s d v)] []) s
  | .qpush q v try_ => pushDone o q v try_ s
  | .qpop q d try_ => popDone o q d try_ s
  | .qstat q d => completeOp o [.loc o.owner (.s d (s.queue q).statWord)] [] s
  | .tlwait tl v => Eff.andThen (acquire o ((s.tl (tlKey st.launch tl)).depsTo v)) (completeOp o [] []) s
  | .tlread tl d => completeOp o [.loc o.owner (.s d (BitVec.ofNat 64 (s.tl (tlKey st.launch tl)).count))] [] s
  | .tladv tl d =>
    let n := (s.tl (tlKey st.launch tl)).count + 1
    withChoice st.launch { kind := 7, obj := tl, val := n, agent := strandAgent st, strand := st.number } (fun _ =>
      completeOp o [.arrive (tlKey st.launch tl) (s.stillPending o.dep), .loc o.owner (.s d (BitVec.ofNat 64 n))] []) s
  | .chadv h addr =>
    Eff.andThen (if h = 0 then appendTile o addr
        else appendRecord st.part (h - 16) addr st.cluster (s.stillPending o.dep))
      (completeOp o [] []) s
  | _ => []

/-- MEMORY_ACCESS_COMPLETE (R231, R233, R235). -/
def execMemoryAccessComplete (id : Nat) (s : State) : Host.Outcome State Fault Refusal :=
  Eff.when "MEMORY_ACCESS_COMPLETE" (fun s => match s.op? id with
      | some o => !o.parked && memoryReady s o
      | none => false)
    (fun s => match s.op? id with
      | some o => memoryDone o s
      | none => []) s

/-- WAITA_TIMEOUT: the time is over and no armed word has fired; the result is 4 (R135). -/
def execWaitaTimeout (id : Nat) (s : State) : Host.Outcome State Fault Refusal :=
  Eff.when "WAITA_TIMEOUT" (fun s => match s.op? id with
      | some o => (match o.kind with
        | .waita _ _ none dl _ => dl ≠ 0 && dl ≤ s.now && !(s.strand o.owner).suspended && choiceOk s (s.strand o.owner).launch (waitaChoice (s.strand o.owner) 4)
        | _ => false)
      | none => false)
    (fun s => match s.op? id with
      | some o => (match o.kind with
        | .waita d _ _ _ _ =>
          withChoice (s.strand o.owner).launch (waitaChoice (s.strand o.owner) 4)
            (fun v => completeOp o [.loc o.owner (.s d v)] []) s
        | _ => [])
      | none => []) s

end Sys2Proof.Machine
end

