-- ==== Sys2Proof/Machine/Engine.lean ====
section
/-! DEFINITION. What the engines share: class 3 words, the memory accesses an engine makes for a strand, and page requests an engine waits on (R123, R256, R257, R263, R346). -/

namespace Sys2Proof.Machine

/-- A class-3 word: like class 2, it does not issue while a FENCE of its strand is outstanding (R245). -/
def onEngine (c : Common) (len : Ctx → Nat) (body : Ctx → Eff) : Eff := onMem c len body

/-- Limit of an energy budget of a die, halved while the die is hot (R366, R391). -/
def energyLimit (s : State) (index die : Nat) : Nat :=
  let b := s.budget index die
  if (mapGet s.halved die).getD false then b.limit / 2 else b.limit

/-- The energy of an engine class of a die is spent for the period (R367). -/
def energySpent (s : State) (index die : Nat) : Bool := energyLimit s index die ≤ (s.budget index die).counter

/-- Whom an engine acts for (R346). -/
structure Agent where
  part : Nat
  asid : Nat
  level : Nat
  cluster : Nat
  die : Nat
  deriving DecidableEq, Repr

def agentOf (st : Strand) : Agent := { part := st.part, asid := st.asid, level := st.level, cluster := st.cluster, die := st.die }

/-- Why an engine's access is not made. -/
inductive EFail where
  | page (n : PageNeed)
  | perm
  | format
  | device
  | poison
  | window
  deriving DecidableEq, Repr

/-- The failure a cause is. -/
def EFail.of : LaneFail → EFail
  | .page n => .page n
  | .attr c => if c = cFormat then .format else if c = cPoison then .poison else .perm
  | .seg _ => .perm

/-- One virtual address, translated and checked for an engine: its page and physical address. -/
def enginePage (s : State) (a : Agent) (va acc : Nat) : Except EFail (Tlb × Nat) :=
  match translate s 256 a.part a.asid a.level va acc with
  | .error f => .error (EFail.of f)
  | .ok (t, pa) =>
    if t.cls = 2 then .error .device
    else if t.cls = 4 then
      if t.fmt ≠ 0 then .error .format
      else if windowRights s a.level pa 1 (acc ≠ 0) then .ok (t, pa)
      else .error .window
    else .ok (t, pa)

/-- An address an engine accesses: a read meets a poisoned line. -/
def engineAddr (s : State) (a : Agent) (va acc : Nat) : Except EFail (Tlb × Nat) :=
  match enginePage s a va acc with
  | .ok (t, pa) => if acc = 0 && t.cls ≠ 4 && s.poisoned pa 1 then .error .poison else .ok (t, pa)
  | .error f => .error f

/-- n bytes at a virtual address: the page of the first, and the bytes' physical addresses. -/
def engineSpan (s : State) (a : Agent) (va acc : Nat) : Nat → Except EFail (List (Tlb × Nat))
  | 0 => .ok []
  | n + 1 =>
    match engineAddr s a va acc, engineSpan s a (va + 1) acc n with
    | .error f, _ => .error f
    | .ok _, .error f => .error f
    | .ok p, .ok r => .ok (p :: r)

/-- The swept addresses among those of a list of accesses. -/
def sweptOf (l : List (Tlb × Nat)) : List Nat := l.filterMap fun p => if p.1.cls = 1 then some p.2 else none
/-- Every swept row among physical addresses may be accessed now. -/
def spanStill (s : State) (l : List (Tlb × Nat)) : Bool := sweptOpen s (sweptOf l)
/-- What an engine has read or written at physical addresses: its swept requests were admitted, and the lines it read are kept under their keys (R125, R354). -/
def noteSpan (l : List (Tlb × Nat)) : Eff := Eff.andThen (sweptCount (sweptOf l)) (noteLines (l.map fun p => (p.1.key, p.2)))

/-- The number bytes at physical addresses hold, as the agent's die reads them. -/
def spanValue (s : State) (die : Nat) : List (Tlb × Nat) → Nat
  | [] => 0
  | p :: r => (if p.1.cls = 0 then s.viewKN die p.1.key p.2 1 else s.homeKN p.1.key p.2 1) + 256 * spanValue s die r

/-- An uncorrectable scratch word among n bytes at a scratch offset of a cluster. -/
def scratchBadAt (s : State) (cluster off n : Nat) : Option Nat :=
  s.scratchBad.find? fun w => scratchPA cluster off < w * 8 + 8 && w * 8 < scratchPA cluster off + n

/-- n bytes of a cluster's scratch as a number. -/
def scratchN (s : State) (cluster off n : Nat) : Nat := s.homeN (scratchPA cluster off) n

/-- Kills what an uncorrectable scratch word an engine has read covers (R319). -/
def killBadScratch (w : Option Nat) : Eff :=
  match w with
  | some w => killScratch (w * 8)
  | none => Eff.skip

/-- Bytes at rising addresses as runs. -/
def runsOf : List (Nat × Byte) → Runs
  | [] => []
  | (a, b) :: r =>
    match runsOf r with
    | (c, bs) :: q => if c = a + 1 then (a, b :: bs) :: q else (a, [b]) :: (c, bs) :: q
    | [] => [(a, [b])]

/-- The bytes of a list in the aligned n-byte word w, rising; the last of the list for each address. -/
def wordBytes (n w : Nat) (l : List (Nat × Byte)) : List (Nat × Byte) :=
  (List.range n).filterMap fun i => (l.reverse.find? fun p => p.1 = n * w + i).map fun p => (n * w + i, p.2)

/-- Stores bytes, one physical address each, as one write for each aligned word of n bytes (R121, R250, R263, R279). -/
def engineStore (w : Writer) (n : Nat) (l : List ((Tlb × Nat) × Byte)) : Eff :=
  let bytes := l.map fun p => (p.1.2, p.2)
  Eff.seq (((bytes.map fun p => p.1 / n).eraseDups).map fun word =>
    let rs := runsOf (wordBytes n word bytes)
    let key := ((l.find? fun p => p.1.2 / n = word).map fun p => p.1.1.key).getD 0
    if onChip (n * word) then Eff.seq (rs.map fun r => storeBytes w r.1 r.2) else storeRuns { w with key := key } rs)

/-- An engine's writer: under a die, after the writes that happen before. -/
def engineWriter (die : Nat) (deps : List Nat) : Writer := { die := die, deps := deps, key := 0, atomic := false, wil := none }

/-- Identifiers of the writes an effect makes, from the counter before and after. -/
def writesSince (s t : State) : List Nat := (List.range (t.nextWrite - s.nextWrite)).map fun i => s.nextWrite + i

/-- Refused requests are kept in the operation as this mark; it waits for none. -/
def refusedTag : Nat := 2 ^ 32
/-- Mark before the requests that a copy's signal, not its data, waits for (R250). -/
def signalTag : Nat := 2 ^ 32 + 1

/-- Posts an engine's page request and remembers its tag in the operation (R123). -/
def waitPage (o : Op) (requester : Nat) (marks : List Nat) (n : PageNeed) : Eff := fun s =>
  let st := s.strand o.owner
  let x := s.part st.part
  let id := ((mapGet s.launches st.launch).map (·.ident)).getD 0
  let rs := makeReqs x { asid := st.asid, core := st.core, slot := 0, code := requester, ident := id, strand := none, dev := 0 } [n]
  addReqs st.part rs s ++ [.opSet { o with tags := o.tags ++ marks ++ rs.map (·.tag) }]

/-- The operation waits for no page request. -/
def Op.idle (o : Op) : Bool := !o.parked && o.tags.all fun t => refusedTag ≤ t
/-- A request of an operation's data, or of its signal, has been refused. -/
def Op.dataRefused (o : Op) : Bool := (o.tags.takeWhile fun t => t ≠ signalTag).contains refusedTag
def Op.signalWaits (o : Op) : Bool := o.tags.contains signalTag
def Op.signalRefused (o : Op) : Bool := (o.tags.dropWhile fun t => t ≠ signalTag).contains refusedTag

/-- Elements of a plane in row-major order. -/
def Geo.rowMajor (g : Geo) : List (Nat × Nat) := (List.range g.H).flatMap fun y => (List.range g.W).map fun x => (y, x)

end Sys2Proof.Machine
end

