-- ==== Sys2Proof/Machine/Accum.lean ====
section
/-! DEFINITION. The accumulator slots: their elements and owners, ACCMOV, ACCMOV.in and ACCZERO (R266, R267, R317). -/

namespace Sys2Proof.Machine

/-- Bits of an element, index y·128 + x. -/
def accBits (s : State) (cluster slot i : Nat) : Nat := Memory.readN s.mem (accPA cluster slot 0 i) 4

/-- Stores an element's bits. -/
def accStore (cluster slot i v : Nat) : List Upd :=
  (List.range 4).map fun b => .mem (accPA cluster slot 0 i + b) (BitVec.ofNat 8 (v / 256 ^ b))

/-- Elements written are encoded afresh. -/
def accHeal (s : State) (cluster slot : Nat) (is : List Nat) : List Upd :=
  if s.accBad.isEmpty then []
  else [.bad s.lanesBad s.scratchBad (s.accBad.filter fun a => !(is.any fun i => accPA cluster slot 0 i = a))]

/-- An element among these has a parity error. -/
def accBadAt (s : State) (cluster slot : Nat) (is : List Nat) : Bool :=
  !s.accBad.isEmpty && is.any fun i => s.accBad.contains (accPA cluster slot 0 i)

/-- A task of the cluster runs on the slot. -/
def taskOn (s : State) (cluster slot : Nat) : Bool := (s.tile cluster).running.any fun t => t.slot = slot

/-- Launch identifier of a strand. -/
def launchIdent (s : State) (launch : Nat) : Nat := ((mapGet s.launches launch).map (·.ident)).getD 0

/-- The slot may be used by a launch: free, or its own. -/
def slotOwned (s : State) (key part launch : Nat) : Bool :=
  !(s.accTag key).getLsbD 38 || s.accTag key = ownerTag part (launchIdent s launch)

/-- Claims a slot for a launch. -/
def claimSlot (s : State) (key part launch : Nat) : Upd := .accTag key (ownerTag part (launchIdent s launch))

/-- Strands parked for a slot, and records held for it, are evaluated again once its tag has changed (R317). -/
def slotRecheck (cluster slot : Nat) : Eff := fun s =>
  let t := s.tile cluster
  let ks := s.strands.filterMap fun e =>
    match e.2.frame with
    | some f =>
      if e.1 < 4096 && f.cause = cAccOwner && clusterOf e.2.core = cluster && f.detail = BitVec.ofNat 64 slot &&
        slotOwned s (accKey cluster slot) e.2.part e.2.launch then some e.1 else none
    | none => none
  Eff.andThen (fun _ => if t.held.isEmpty then [] else [.tile cluster { t with held := t.held.map fun h => { h with held := false } }])
    (Eff.seq (ks.map resumeStrand)) s

/-- A use of a slot: a foreign owner parks the strand with accumulator-owner, pending kind 3, once no task of that owner runs on it; a free slot is claimed. -/
def onSlot (x : Ctx) (slot : Nat) (e : Eff) : Eff := fun s =>
  let cl := x.st.cluster
  let key := accKey cl slot
  if slotOwned s key x.st.part x.st.launch then Eff.andThen (fun s => [claimSlot s key x.st.part x.st.launch]) e s
  else if taskOn s cl slot then stall x s
  else parkNow x { TrapInfo.plain cAccOwner with kind := 3, detail := BitVec.ofNat 64 slot } [] s

/-- Types ACCMOV's plane may have at all. -/
def accType (t : Nat) : Bool := t = 1 || t = 2 || t = 3 || isBounded t

/-- Element indices of a window of a slot. -/
def accWindow (g : Geo) (y0 x0 : Nat) : List Nat := g.rowMajor.map fun e => (y0 + e.1) * 128 + (x0 + e.2)

/-- Checks ACCMOV and ACCMOV.in share, in the order of R266. -/
def accChecks (st : Strand) (pd : BitVec 4) (g : Geo) (y0 x0 : Nat) : List (Bool × Nat) :=
  [(planeOk st (st.pdreg pd.toNat), cIllegalOperand), (y0 + g.H ≤ 128 && x0 + g.W ≤ 128 && accType g.ty, cIllegalOperand),
   (!isBounded g.ty, cBounded), (g.D = 1, cPlaneMismatch)]

def execAccmov (c : Common) (slot : BitVec 5) (pd : BitVec 4) (o : Sel) (tl : TlArg) (s : State) : Host.Outcome State Fault Refusal :=
  (onEngine c len1 fun x s =>
    let st := x.st
    let g := Geo.of st.window (st.pdreg pd.toNat)
    let y0 := fieldOf (st.scalar o) 0 7
    let x0 := fieldOf (st.scalar o) 8 7
    checked x (accChecks st pd g y0 x0)
      (onSlot x slot.toNat fun s =>
        if accBadAt s st.cluster slot.toNat (accWindow g y0 x0) then trapNow x cPoison s
        else issueOp x s 1 tl (.accOut slot.toNat pd.toNat (st.pdreg pd.toNat) st.window x.act y0 x0)) s).next s

/-- The exact f32 value of a plane's element; a NaN is the canonical one, of an f32 element too (R26, R266, notes/assumptions/104.md). -/
def toF32 (t v : Nat) : Nat := (roundVal 1 0 (decodeF t v)).1

def execAccmovIn (c : Common) (slot : BitVec 5) (pd : BitVec 4) (o : Sel) (tl : TlArg) (s : State) : Host.Outcome State Fault Refusal :=
  (onEngine c len1 fun x s =>
    let st := x.st
    let g := Geo.of st.window (st.pdreg pd.toNat)
    let y0 := fieldOf (st.scalar o) 0 7
    let x0 := fieldOf (st.scalar o) 8 7
    checked x (accChecks st pd g y0 x0)
      (unlessBad (fun _ => g.readsIn st.core st.window x.act) (onSlot x slot.toNat fun s =>
        let held := g.rowMajor.filter fun e => x.act.getLsbD (g.place e.1 e.2).1
        issueOp x s 1 tl (.accIn slot.toNat (held.map fun e =>
          ((y0 + e.1) * 128 + (x0 + e.2), BitVec.ofNat 32 (toF32 g.ty (s.elem st st.window g 0 e.1 e.2))))))) s).next s

def execAcczero (c : Common) (slot : BitVec 5) (tl : TlArg) (s : State) : Host.Outcome State Fault Refusal :=
  (onEngine c len1 fun x => onSlot x slot.toNat fun s => issueOp x s 1 tl (.accZero slot.toNat)).next s

/-- ACCUMULATOR_MOVE_COMPLETE may happen: writes into a slot take effect while no task runs on it (R267); a trap needs a split that can park. -/
def accReady (s : State) (o : Op) : Bool :=
  let cl := (s.strand o.owner).cluster
  !o.parked && endOk s o &&
  (match o.kind with
   | .accOut .. => (s.strand o.owner).endCode.isSome || (match ((s.strand o.owner).splitOf (trapSplit (s.strand o.owner) o)).run with
     | .parked => false
     | .overlay _ => false
     | _ => true)
   | .accIn slot _ => !taskOn s cl slot
   | .accZero slot => !taskOn s cl slot
   | _ => false)

/-- ACCMOV reads its slot and writes its plane. An element that has a parity error by now raises data-poison with nothing written (R266); the operation is kept, to be made again when the strand is resumed, as an abandoned XBMV is (notes/assumptions/100.md). -/
def accOutDone (o : Op) (slot : Nat) (g : Geo) (window : Word) (act : Lanes) (y0 x0 : Nat) : Eff := fun s =>
  let st := s.strand o.owner
  let cl := st.cluster
  if accBadAt s cl slot (accWindow g y0 x0) then
    if st.endCode.isSome then finishOp o [] [] s
    else
      Eff.andThen (fun _ => [.opSet { o with parked := true }])
        (takeTrap o.owner (trapSplit st o) { TrapInfo.plain cPoison with kind := 2, op := o.id, at_ := some (o.ovl, o.pc) } []) s
  else
    let r := fun y z => roundVal g.ty 0 (decodeF 1 (accBits s cl slot ((y0 + y) * 128 + (x0 + z))))
    let status := planeStatus g act fun _ y z => (r y z).2
    unlessBad (fun _ => g.kept st.core window act) (Eff.andThen (finishOp o ((planeWrites st.core window g act s.fresh fun _ y z => (r y z).1).map (Upd.loc o.owner) ++
        (if status = 0 then [] else [.loc o.owner (.status status)])) []) (fun _ => [.fresh])) s

def execAccumulatorMoveComplete (id : Nat) (s : State) : Host.Outcome State Fault Refusal :=
  Eff.when "ACCUMULATOR_MOVE_COMPLETE" (fun s => match s.op? id with
      | some o => accReady s o
      | none => false)
    (fun s => match s.op? id with
      | some o =>
        let st := s.strand o.owner
        let cl := st.cluster
        (match o.kind with
         | .accOut slot _ dsc window act y0 x0 => accOutDone o slot (Geo.of window dsc) window act y0 x0 s
         | .accIn slot vals =>
           finishOp o (vals.flatMap (fun v => accStore cl slot v.1 v.2.toNat) ++ accHeal s cl slot (vals.map (·.1))) [] s
         | .accZero slot =>
           finishOp o [.memClear (accPA cl slot 0 0) (accPA cl slot 0 0 + 65536), slotHealed s cl slot] [] s
         | _ => [])
      | none => []) s

end Sys2Proof.Machine
end

