-- ==== Sys2Proof/Machine/Peer.lean ====
section
/-! DEFINITION. The peer protocol: the package's own remote accesses, and the home's side of a peer's (R110, R352, R358, R376 to R378). -/

namespace Sys2Proof.Machine

/-! ## Packets (Table 23-1) -/

def pkDest (p : Packet) : Nat := fieldOf p.w0 54 10
def pkSource (p : Packet) : Nat := fieldOf p.w0 44 10
def pkKind (p : Packet) : Nat := fieldOf p.w0 40 4
/-- Length in bytes; the field counts 4-byte units less one. -/
def pkLen (p : Packet) : Nat := 4 * (fieldOf p.w0 32 6 + 1)
def pkAsid (p : Packet) : Nat := fieldOf p.w0 16 16
def pkTag (p : Packet) : Nat := fieldOf p.w0 0 16
def pkVa (p : Packet) : Nat := p.w1.toNat
def pkOp (p : Packet) : Nat := fieldOf p.w2 4 4
def pkTy (p : Packet) : Nat := fieldOf p.w2 0 4

/-- A reserved kind, or a nonzero reserved field (R377). -/
def pkReserved (p : Packet) : Bool :=
  8 < (pkKind p) || fieldOf p.w0 38 2 ≠ 0 || fieldOf p.w2 8 56 ≠ 0 || p.rest.any (fun w => w ≠ 0) ||
  ((pkKind p) ≠ 2 && (pkKind p) ≠ 3 && p.w2 ≠ 0) ||
  ((pkKind p) = 7 && fieldOf p.w1 10 54 ≠ 0) || ((pkKind p) = 8 && fieldOf p.w1 35 13 ≠ 0)

/-- A header word w0. -/
def packetW0 (dest source kind bytes asid tag : Nat) : Word :=
  BitVec.ofNat 64 (dest % 1024 * 2 ^ 54 + source % 1024 * 2 ^ 44 + kind % 16 * 2 ^ 40 + ((bytes + 3) / 4 - 1) % 64 * 2 ^ 32 +
    asid % 65536 * 2 ^ 16 + tag % 65536)

/-- The answer of a kind to a request, on the port it came by. -/
def pkAnswer (p : Packet) (kind : Nat) (data : List Byte) : Packet where
  port := p.port
  w0 := packetW0 (pkSource p) (pkDest p) kind data.length (pkAsid p) (pkTag p)
  w1 := p.w1
  w2 := 0
  rest := []
  payload := data

/-- Cycles a flit takes on a port of a width; twenty flits take two codewords on one wavelength (R374). -/
def flitCycles (width : Nat) : Nat := 4 / width + 1

/-- The package's ports are 16·n + p (R373). -/
def portCount : Nat := 64

/-- The port a packet to a device uses: the first of its routes that is up. -/
def routeTo (s : State) (dev : Nat) : Option Nat := (Config.routes dev).find? fun p => p < portCount && !(s.port p).down

/-- Sends a packet: its flits join the port's queue (R374, R375). A port that is down is left for another route to the device, where there is one (R376). -/
def sendPacket (p : Packet) : Eff := fun s =>
  match if (s.port p.port).down then routeTo s (pkDest p) else some p.port with
  | none => []
  | some port =>
    let x := s.port port
    let flits := 1 + (p.payload.length + 63) / 64
    [.emit { p with port := port }, .port port { x with emptyAt := max s.now x.emptyAt + flits * flitCycles x.width }]

/-- Answers with a refusal. -/
def refusePacket (p : Packet) : Eff := sendPacket ((pkAnswer p) 5 [])

/-! ## Requests of this package's strands (R110, R378) -/

/-- A tag no packet in flight to the device has. -/
def freeTag (s : State) (dev : Nat) : Nat :=
  ((List.range (s.sent.length + 1)).find? fun t => !(s.sent.any fun x => x.dev = dev && x.tag = t)).getD 0

/-- Kind, payload and w2 of a request. -/
def requestOf (m : MemOp) (r : LaneReq) : Nat × List Byte × Word :=
  let w (op : Nat) : Word := BitVec.ofNat 64 (op * 16 + m.ty)
  match m.kind with
  | .load => (0, [], 0)
  | .ldx => (0, [], 0)
  | .store => (1, bytesOf (storeValue m.ty r).1 r.bytes, 0)
  | .atom op => (2, bytesOf r.data.toNat r.bytes ++ (if op = 7 then bytesOf r.data2.toNat r.bytes else []), w op)
  | .red op => (3, bytesOf r.data.toNat r.bytes, w op)

/-- A remote lane that may be sent now. -/
def remoteReady (s : State) (o : Op) (m : MemOp) (r : LaneReq) : Bool :=
  r.st = .todo && r.remote.isSome && !o.parked && !accessBlocked s o r && !m.lowerFirst r && (!m.rel || releaseReady s o m.scope)

/-- The next remote lane of an operation to be sent. -/
def remoteLane (s : State) (id lane : Nat) : Option (Op × MemOp × LaneReq) :=
  match s.op? id with
  | some o =>
    match o.kind with
    | .mem m => (m.reqs.find? fun r => r.lane = lane && remoteReady s o m r).map fun r => (o, m, r)
    | _ => none
  | none => none

/-- Ends a memory operation that a peer has refused lanes of, once every lane is settled (R110). -/
def endRefused (id : Nat) : Eff := fun s =>
  match s.op? id with
  | some o =>
    match o.kind with
    | .mem m => if m.settled && m.reqs.any (fun r => r.refusedCause.isSome) then endMem id s else []
    | _ => []
  | none => []

/-- A remote lane leaves for its peer; with no route it is refused (R376). -/
def sendLane (id lane : Nat) : Eff := fun s =>
  match remoteLane s id lane with
  | none => []
  | some (o, m, r) =>
    let dev := r.remote.getD 0 / 65536
    match routeTo s dev with
    | none => Eff.andThen (fun _ => [markRefused o r cPage2]) (endRefused id) s
    | some port =>
      let q := requestOf m r
      let tag := freeTag s dev
      let p : Packet := {
        port := port, w0 := packetW0 dev Config.deviceNumber q.1 (if q.1 = 0 then r.bytes else q.2.1.length) (r.remote.getD 0 % 65536) tag,
        w1 := BitVec.ofNat 64 r.va, w2 := q.2.2, rest := [], payload := q.2.1 }
      Eff.seq [sendPacket p, fun s => [
        .sent (s.sent ++ [{ dev := dev, tag := tag, op := id, lane := lane, packet := p, port := port }]),
        markReq o r (fun y => { y with st := .sent tag }) 0]] s

/-- The packet an answer is for. -/
def sentFor (s : State) (p : Packet) : Option Sent := s.sent.find? fun x => x.dev = (pkSource p) && x.tag = (pkTag p)

/-- The lane a packet was sent for. -/
def sentLane (s : State) (x : Sent) : Option (Op × MemOp × LaneReq) :=
  match s.op? x.op with
  | some o =>
    match o.kind with
    | .mem m => (m.reqs.find? fun r => r.lane = x.lane && r.st = .sent x.tag && r.remote.map (· / 65536) = some x.dev).map fun r => (o, m, r)
    | _ => none
  | none => none

/-- A packet answered is no longer in flight. -/
def dropSent (x : Sent) : Eff := fun s => [.sent (s.sent.filter fun y => !(y.dev = x.dev && y.tag = x.tag))]

/-- What an answer does to the lane that awaits it; an answer that nothing awaits has no effect. -/
def onAnswer (p : Packet) (kinds : List Nat) (e : Op → MemOp → LaneReq → Eff) : Eff := fun s =>
  match sentFor s p with
  | none => []
  | some x =>
    if kinds.contains (pkKind x.packet) then
      match sentLane s x with
      | some (o, m, r) => Eff.seq [dropSent x, e o m r, endRefused o.id] s
      | none => dropSent x s
    else []

/-- Bytes of an answer's payload as a number. -/
def payloadN (l : List Byte) (off n : Nat) : Nat := (wordOfBytes ((l.drop off).take n)).toNat

/-- A link delivers what arrives by a port: it is up, and no frame before is awaited (R374, R376). -/
def portDelivers (s : State) (p : Packet) : Bool := p.port < portCount && !(s.port p.port).down && !(s.port p.port).bad

/-- A peer event happens for a packet of its kind without a reserved field set. -/
def onPacket (name : String) (kind : Nat) (p : Packet) (ok : State → Bool) (e : Eff) (s : State) : Host.Outcome State Fault Refusal :=
  Eff.when name (fun s => portDelivers s p && (pkKind p) = kind && !(pkReserved p) && ok s) e s

/-- PEER_REPLY: data of a read, or the old value of an atomic (R378). -/
def execPeerReply (p : Packet) (s : State) : Host.Outcome State Fault Refusal :=
  onPacket "PEER_REPLY" 4 p (fun _ => true)
    (onAnswer p [0, 2] fun o m r _ =>
      let v := match m.kind with
        | .atom _ => payloadN p.payload 0 r.bytes
        | _ => payloadN p.payload (if r.bytes < 4 then r.va % 4 else 0) r.bytes
      [.loc o.owner (resultUpd m r v), markDone o r v 0]) s

/-- PEER_REFUSAL: the lane is unfinished, and its operation parks as a page fault of stage 2 (R110, R352). -/
def execPeerRefusal (p : Packet) (s : State) : Host.Outcome State Fault Refusal :=
  onPacket "PEER_REFUSAL" 5 p (fun _ => true)
    (onAnswer p [0, 1, 2, 3] fun o _ r _ => [markRefused o r cPage2]) s

/-- PEER_ACKNOWLEDGEMENT: a remote write or reduction has been performed at its home (R378). -/
def execPeerAcknowledgement (p : Packet) (s : State) : Host.Outcome State Fault Refusal :=
  onPacket "PEER_ACKNOWLEDGEMENT" 6 p (fun _ => true) (onAnswer p [1, 3] fun o _ r _ => [markDone o r 0 0]) s

/-! ## The home's side (R352, R378) -/

/-- Partition and local ASID of the import entry a packet matches. -/
def importFor (s : State) (p : Packet) : Option (Nat × Nat) :=
  s.parts.findSome? fun e =>
    if !e.2.enabled then none
    else
      e.2.imports.findSome? fun i =>
        let w := i.2
        let asid := fieldOf w 32 16
        if fieldOf w 0 1 = 1 && fieldOf w 1 10 = (pkSource p) && fieldOf w 16 16 = (pkAsid p) && e.2.asidFirst ≤ asid && asid < e.2.asidFirst + e.2.asidCount then
          some (e.1, asid)
        else none

/-- Physical addresses of n bytes for a peer, at level U: main memory only; of a scaled page no store, and no read but of code bytes (R108, R113). -/
def peerSpan (s : State) (part asid va acc : Nat) : Nat → Except LaneFail (List (Tlb × Nat))
  | 0 => .ok []
  | n + 1 =>
    match translate s 256 part asid 0 va acc with
    | .error f => .error f
    | .ok (t, pa) =>
      if t.cls = 2 || t.cls = 4 then .error (.attr cPermission)
      else if t.geom ≠ 0 && (acc ≠ 0 || geomCodes t.geom ≤ pa % 8192) then .error (.attr cFormat)
      else if acc ≠ 1 && s.poisoned pa 1 then .error (.attr cPoison)
      else
        match peerSpan s part asid (va + 1) acc n with
        | .error f => .error f
        | .ok r => .ok ((t, pa) :: r)

/-- First address and length of the bytes a request names, and its access kind. -/
def peerRange (p : Packet) : Nat × Nat × Nat :=
  match (pkKind p) with
  | 0 => ((pkVa p) / 4 * 4, (pkLen p), 0)
  | 1 => ((pkVa p), p.payload.length, 1)
  | _ => ((pkVa p), fmtBytes (pkTy p), 2)

/-- A request is well made: its payload is what its kind needs, and an atomic is one of Table 11-5 (R240). -/
def peerFormOk (p : Packet) : Bool :=
  match (pkKind p) with
  | 0 => p.payload.isEmpty
  | 1 => 0 < p.payload.length && (p.payload.length + 3) / 4 * 4 = (pkLen p)
  | _ =>
    let red := (pkKind p) = 3
    (match AtomOp.ofCode (BitVec.ofNat 4 (pkOp p)) with
     | some op => atomOpOk op (pkTy p) red && p.payload.length = fmtBytes (pkTy p) * (if op = AtomOp.cas then 2 else 1)
     | none => false) &&
    scalarMemType (pkTy p) && atomType (pkTy p) && (pkVa p) % fmtBytes (pkTy p) = 0

/-- Device number under which the Drevar side's writes are kept. -/
def drevarDev : Nat := 1024
/-- The writes an agent outside the grid dies has behind it, its own and those it has acquired, that some die has still to apply (R277). -/
def outsideDeps (s : State) (dev : Nat) : List Nat := s.stillPending ((mapGet s.outDeps dev).getD [])
/-- An agent outside has these writes behind it. -/
def outsideBehind (dev : Nat) (deps : List Nat) : Eff := fun s => [.outDep dev (joinDeps (outsideDeps s dev) (s.stillPending deps))]

/-- A peer's read acquires what releases at fabric scope that stand at its bytes carry: a packet does not say whether its strand's access acquires (R110, notes/assumptions/95.md). -/
def peerAcquire (dev : Nat) (pas : List Nat) : Eff := fun s =>
  let rs := s.rels.filter fun r => pas.contains r.addr && s.shows none r && synchronises r (outsideCore + dev) 0 5
  if rs.isEmpty then [] else outsideBehind dev (rs.flatMap (·.deps)) s

/-- Stores a peer's bytes at their home, one write for each aligned 8-byte word; each is a release at fabric scope of what the device has written, since the remote strand's release has waited for it (R378, notes/assumptions/95.md). -/
def peerStore (dev : Nat) (atomic : Bool) (l : List ((Tlb × Nat) × Byte)) : Eff := fun s =>
  match l with
  | [] => []
  | p :: _ =>
    let deps := outsideDeps s dev
    let words := (l.map fun q => q.1.2 / 8).eraseDups
    let id := fun (pa : Nat) => s.nextWrite + words.idxOf (pa / 8)
    let stand := fun (t : State) => [Upd.relAdd (l.map fun q => { addr := q.1.2, id := id q.1.2, deps := t.stillPending (joinDeps deps [id q.1.2]),
                                                                  core := outsideCore + dev, die := 0, scope := 5, later := [] })]
    let w := { engineWriter (homeDie p.1.2) deps with atomic := atomic }
    Eff.andThen (engineStore w 8 l) (fun t => Eff.seq [Eff.seq ((runsOf (l.map fun q => (q.1.2, q.2))).map fun r => heal r.1 r.2.length), outsideBehind dev (writesSince s t), stand] t) s

/-- Performs a request at its home and answers it, waits for a page, or refuses it. -/
def servePacket (p : Packet) : Eff := fun s =>
  match importFor s p with
  | none => refusePacket p s
  | some (part, asid) =>
    if !peerFormOk p then refusePacket p s
    else
      let r := peerRange p
      match peerSpan s part asid r.1 r.2.2 r.2.1 with
      | .error (.page n) =>
        let x := s.part part
        let rs := makeReqs x { asid := asid, core := 0, slot := 0, code := 4, ident := 0, strand := none, dev := pkSource p } [n]
        addReqs part rs s ++ [.peerWaits (s.peerWaits ++ rs.map fun r => { tag := r.tag, part := part, packet := p })]
      | .error _ => refusePacket p s
      | .ok l =>
        let old := l.map fun q => BitVec.ofNat 8 (s.homeKN q.1.key q.2 1)
        let value := payloadN old 0 r.2.1
        let dev := pkSource p
        match (pkKind p) with
        | 0 => Eff.seq [noteSpan l, peerAcquire dev (l.map (·.2)), sendPacket ((pkAnswer p) 4 old)] s
        | 1 => Eff.seq [noteSpan l, peerStore dev false (l.zip p.payload), sendPacket ((pkAnswer p) 6 [])] s
        | _ =>
          if l.any fun q => q.1.fmt ≠ 0 && q.1.fmt ≠ (pkTy p) then refusePacket p s
          else
            let new := atomResult (pkOp p) (pkTy p) value (payloadN p.payload 0 r.2.1) (payloadN p.payload r.2.1 r.2.1)
            Eff.seq [noteSpan l, if (pkKind p) = 2 then peerAcquire dev (l.map (·.2)) else Eff.skip, peerStore dev true (l.zip (bytesOf new r.2.1)),
              sendPacket (if (pkKind p) = 2 then (pkAnswer p) 4 old else (pkAnswer p) 6 [])] s

/-- The swept rows a request names, if any, may be accessed now. -/
def peerStill (s : State) (p : Packet) : Bool :=
  match importFor s p with
  | some (part, asid) =>
    (match peerSpan s part asid (peerRange p).1 (peerRange p).2.2 (peerRange p).2.1 with
     | .ok l => spanStill s l
     | .error _ => true)
  | none => true

/-- PEER_READ, PEER_WRITE, PEER_ATOMIC and PEER_REDUCTION (R352, R378). -/
def execPeerRead (p : Packet) (s : State) : Host.Outcome State Fault Refusal :=
  onPacket "PEER_READ" 0 p (peerStill · p) (servePacket p) s
def execPeerWrite (p : Packet) (s : State) : Host.Outcome State Fault Refusal :=
  onPacket "PEER_WRITE" 1 p (peerStill · p) (servePacket p) s
def execPeerAtomic (p : Packet) (s : State) : Host.Outcome State Fault Refusal :=
  onPacket "PEER_ATOMIC" 2 p (peerStill · p) (servePacket p) s
def execPeerReduction (p : Packet) (s : State) : Host.Outcome State Fault Refusal :=
  onPacket "PEER_REDUCTION" 3 p (peerStill · p) (servePacket p) s

/-- PEER_RESERVED_PACKET: answered with kind 5 (R377). -/
def execPeerReservedPacket (p : Packet) (s : State) : Host.Outcome State Fault Refusal :=
  Eff.when "PEER_RESERVED_PACKET" (fun s => portDelivers s p && (pkReserved p)) (refusePacket p) s

/-! ## Feeds (R358) -/

/-- The launch of a partition that records and still runs; what comes from outside is logged there. -/
def recordedLaunch (s : State) (part : Nat) : Nat :=
  match s.launches.find? fun e => e.2.part = part && e.2.record && !e.2.ended with
  | some e => e.1
  | none => 0

/-- The push a feed makes, as a choice (kind 3). -/
def feedPush (s : State) (key : Nat) : Choice :=
  { kind := 3, obj := key, val := (s.queue key).tail, agent := outsideAgent, strand := 0 }

/-- Result of an external push: 0 it may be pushed, 1 no allowance, 2 refused. -/
def feedQueueCode (q : Queue) (fed : Bool) : Nat := if !q.usable || !fed then 2 else if q.allowance = 0 then 1 else 0

/-- An external push into a queue, logged in a recorded launch of the partition. -/
def pushFrom (part key : Nat) (v : Word) (deps : List Nat) : Eff := fun s =>
  withChoice (recordedLaunch s part) (feedPush s key) (fun _ => queuePush key v deps) s
/-- A push of a strand that came before is still to be made: pushes take their numbers in order of arrival (R134). -/
def pushWaits (s : State) (key : Nat) : Bool :=
  0 < (s.queue key).allowance && s.ops.any fun p => !p.parked && (match p.kind with | .qpush k _ _ => k = key | _ => false)
def pushFromOk (s : State) (part key : Nat) : Bool := !pushWaits s key && choiceOk s (recordedLaunch s part) (feedPush s key)

/-- The live launch of a partition an identifier names. -/
def launchNamed (s : State) (part ident : Nat) : Option (Nat × Launch) :=
  s.launches.find? fun e => e.2.part = part && e.2.ident % 2 ^ 32 = ident && !e.2.ended

/-- A timeline feed word that is not ignored: launch, timeline and count. -/
def feedTarget (s : State) (part : Nat) (v : Word) : Option (Nat × Nat × Nat) :=
  match launchNamed s part (fieldOf v 0 32) with
  | some (id, l) =>
    if l.ext.getLsbD (fieldOf v 32 3) && 0 < fieldOf v 48 16 && fieldOf v 35 13 = 0 then some (id, fieldOf v 32 3, fieldOf v 48 16) else none
  | none => none

/-- The arrival number an external arrival takes (kind 7). -/
def feedArrival (s : State) (id tl : Nat) : Choice :=
  { kind := 7, obj := tl, val := (s.tl (tlKey id tl)).count + 1, agent := outsideAgent, strand := 0 }

/-- n external arrivals, each with its number and what they release. -/
def arriveFrom (id tl n : Nat) (deps : List Nat) : Eff :=
  Eff.seq (List.replicate n fun s => withChoice id (feedArrival s id tl) (fun _ _ => [.arrive (tlKey id tl) deps]) s)

/-- n external arrivals can be made, each logged. -/
def arriveOk (s : State) (id tl n : Nat) : Bool := choiceOk s id (feedArrival s id tl) && roomFor s id n

/-- PEER_QUEUE_PUSH. -/
def execPeerQueuePush (p : Packet) (s : State) : Host.Outcome State Fault Refusal :=
  let key := queueKey (fieldOf p.w1 0 6) (fieldOf p.w1 6 4)
  let takes (s : State) : Option Nat := match importFor s p with
    | some (part, _) =>
      if feedQueueCode (s.queue key) (s.queue key).peerFed = 0 && p.payload.length = 8 && fieldOf p.w0 32 6 = 1 then some part else none
    | none => none
  onPacket "PEER_QUEUE_PUSH" 7 p (fun s => match takes s with | some part => pushFromOk s part key | none => true)
    (fun s => match takes s with
      | some part => Eff.andThen (pushFrom part key (wordOfBytes p.payload) (outsideDeps s (pkSource p))) (sendPacket ((pkAnswer p) 6 [])) s
      | none => refusePacket p s) s

/-- PEER_TIMELINE_FEED. -/
def execPeerTimelineFeed (p : Packet) (s : State) : Host.Outcome State Fault Refusal :=
  let takes (s : State) : Option (Nat × Nat × Nat) := match importFor s p with
    | some (part, _) => if p.payload.isEmpty && fieldOf p.w0 32 6 = 0 then feedTarget s part p.w1 else none
    | none => none
  onPacket "PEER_TIMELINE_FEED" 8 p (fun s => match takes s with | some (id, tl, n) => arriveOk s id tl n | none => true)
    (fun s => match takes s with
      | some (id, tl, n) => Eff.andThen (arriveFrom id tl n (outsideDeps s (pkSource p))) (sendPacket ((pkAnswer p) 6 [])) s
      | none => refusePacket p s) s

end Sys2Proof.Machine
end

