-- ==== Sys2Proof/Machine/Scalar.lean ====
section
/-! DEFINITION. Class 0 arithmetic and queries: the S3 and SI operations, LPARAM, GETID, CLOCK, the segment queries (R175 to R184). -/

namespace Sys2Proof.Machine

/-- A fixed-latency scalar instruction: checks, then one value to its register and the scalar part of its latch. -/
def scalarEff (c : Common) (len : Nat) (d : Sel) (checks : Ctx → List (Bool × Nat)) (v : Ctx → State → Word) : Eff :=
  onWord c (fun _ => len) fun x => checked x (checks x) fun s =>
    fixedResult x s len 1 [.s (selNum d) (v x s)] [.latS c.lat.toNat (v x s)] 0

/-- No checks beyond Table 8-11. -/
def noChecks : Ctx → List (Bool × Nat) := fun _ => []

/-- The typed operations accept the i and n codes alone (R176). -/
def typedCheck (ty : BitVec 4) : Ctx → List (Bool × Nat) := fun _ => [(isInt ty.toNat, cIllegalOperand)]

/-- A typed operation of two sources: `f signed width a b` gives a w-bit pattern, extended by the type (R176). -/
def typed2 (c : Common) (len : Nat) (ty : BitVec 4) (d a b : Sel) (f : Bool → Nat → Nat → Nat → Nat) : Eff :=
  let t := ty.toNat
  scalarEff c len d (typedCheck ty) fun x _ =>
    extend64 (isSigned t) (fmtWidth t) (f (isSigned t) (fmtWidth t) (x.st.scalar a).toNat (x.st.scalar b).toNat)

/-- A typed operation of one source. -/
def typed1 (c : Common) (ty : BitVec 4) (d a : Sel) (f : Bool → Nat → Nat → Nat) : Eff :=
  let t := ty.toNat
  scalarEff c 1 d (typedCheck ty) fun x _ =>
    extend64 (isSigned t) (fmtWidth t) (f (isSigned t) (fmtWidth t) (x.st.scalar a).toNat)

/-- A 64-bit operation on one source (R180). -/
def wide1 (c : Common) (d a : Sel) (f : Word → Word) : Eff :=
  scalarEff c 1 d noChecks fun x _ => f (x.st.scalar a)

/-- IMM28 sign-extended. -/
def sext28 (imm : BitVec 28) : Word := imm.signExtend 64

/-- NOP (R178). -/
def execNop (c : Common) (s : State) : Host.Outcome State Fault Refusal :=
  (onWord c len1 fun x s => finish x s 1 x.sp.past).next s

/-- MOV, typed (R178). -/
def execMov (c : Common) (ty : BitVec 4) (d a : Sel) (s : State) : Host.Outcome State Fault Refusal :=
  (typed1 c ty d a fun _ _ a => a).next s

/-- MOV.getst: the status register, zero-extended (R178). -/
def execMovGetst (c : Common) (d : Sel) (s : State) : Host.Outcome State Fault Refusal :=
  (scalarEff c 1 d noChecks fun x _ => x.st.status.setWidth 64).next s

/-- MOV.setst replaces the status register at its issue (R178); a flag it names falls a cycle later (R92, Table 9-1). It has no scalar result: no latch is written, and NWB keeps nothing back (DESIGN CHOICE, notes/assumptions/81.md). -/
def execMovSetst (c : Common) (a : Sel) (s : State) : Host.Outcome State Fault Refusal :=
  (onWord c len1 fun x s =>
    Upd.loc x.k (.setStatus ((x.st.scalar a).setWidth 7)) :: fixedResult x s 1 1 [] [] 0).next s

def execMovi (c : Common) (d : Sel) (imm : BitVec 28) (s : State) : Host.Outcome State Fault Refusal :=
  (scalarEff c 1 d noChecks fun _ _ => sext28 imm).next s

/-- MOVHI: bits [63:36] from the immediate, the rest from sA (R180). -/
def execMovhi (c : Common) (d a : Sel) (imm : BitVec 28) (s : State) : Host.Outcome State Fault Refusal :=
  (wide1 c d a fun v => (imm ++ v.setWidth 36 : BitVec 64)).next s

def execAdd (c : Common) (ty : BitVec 4) (d a b : Sel) (s : State) : Host.Outcome State Fault Refusal :=
  (typed2 c 1 ty d a b fun sg w a b => iop .add sg false w a b).next s
def execAddi (c : Common) (d a : Sel) (imm : BitVec 28) (s : State) : Host.Outcome State Fault Refusal :=
  (wide1 c d a fun v => v + sext28 imm).next s
def execSub (c : Common) (ty : BitVec 4) (d a b : Sel) (s : State) : Host.Outcome State Fault Refusal :=
  (typed2 c 1 ty d a b fun sg w a b => iop .sub sg false w a b).next s
/-- MUL.lo and MUL.hi (Table 9-2). -/
def execMul (c : Common) (ty : BitVec 4) (hi : BitVec 1) (d a b : Sel) (s : State) : Host.Outcome State Fault Refusal :=
  (typed2 c 1 ty d a b fun sg w a b => iop (if hi = 1#1 then .mulHi else .mulLo) sg false w a b).next s
/-- DIV issues for 16 cycles (Table 9-1) and never traps (R179). -/
def execDiv (c : Common) (ty : BitVec 4) (d a b : Sel) (s : State) : Host.Outcome State Fault Refusal :=
  (typed2 c 16 ty d a b divBits).next s
def execRem (c : Common) (ty : BitVec 4) (d a b : Sel) (s : State) : Host.Outcome State Fault Refusal :=
  (typed2 c 16 ty d a b remBits).next s
def execAnd (c : Common) (ty : BitVec 4) (d a b : Sel) (s : State) : Host.Outcome State Fault Refusal :=
  (typed2 c 1 ty d a b fun sg w a b => iop .and sg false w a b).next s
def execOr (c : Common) (ty : BitVec 4) (d a b : Sel) (s : State) : Host.Outcome State Fault Refusal :=
  (typed2 c 1 ty d a b fun sg w a b => iop .or sg false w a b).next s
def execXor (c : Common) (ty : BitVec 4) (d a b : Sel) (s : State) : Host.Outcome State Fault Refusal :=
  (typed2 c 1 ty d a b fun sg w a b => iop .xor sg false w a b).next s
def execAndi (c : Common) (d a : Sel) (imm : BitVec 28) (s : State) : Host.Outcome State Fault Refusal :=
  (wide1 c d a fun v => v &&& sext28 imm).next s
def execOri (c : Common) (d a : Sel) (imm : BitVec 28) (s : State) : Host.Outcome State Fault Refusal :=
  (wide1 c d a fun v => v ||| sext28 imm).next s
def execXori (c : Common) (d a : Sel) (imm : BitVec 28) (s : State) : Host.Outcome State Fault Refusal :=
  (wide1 c d a fun v => v ^^^ sext28 imm).next s
def execShl (c : Common) (ty : BitVec 4) (d a b : Sel) (s : State) : Host.Outcome State Fault Refusal :=
  (typed2 c 1 ty d a b fun sg w a b => iop .shl sg false w a b).next s
def execShr (c : Common) (ty : BitVec 4) (d a b : Sel) (s : State) : Host.Outcome State Fault Refusal :=
  (typed2 c 1 ty d a b fun sg w a b => iop .shr sg false w a b).next s
def execShli (c : Common) (d a : Sel) (n : BitVec 6) (s : State) : Host.Outcome State Fault Refusal :=
  (wide1 c d a fun v => v <<< n.toNat).next s
/-- SHRI and SHRI.ar (Table 9-3). -/
def execShri (c : Common) (ar : BitVec 1) (d a : Sel) (n : BitVec 6) (s : State) : Host.Outcome State Fault Refusal :=
  (wide1 c d a fun v => if ar = 1#1 then v.sshiftRight n.toNat else v >>> n.toNat).next s
def execRot (c : Common) (ty : BitVec 4) (right : BitVec 1) (d a b : Sel) (s : State) : Host.Outcome State Fault Refusal :=
  (typed2 c 1 ty d a b fun _ w a b => rotBits (right = 1#1) w a b).next s
def execClz (c : Common) (ty : BitVec 4) (d a : Sel) (s : State) : Host.Outcome State Fault Refusal :=
  (typed1 c ty d a fun _ w a => leadZeros w a).next s
def execPopc (c : Common) (ty : BitVec 4) (d a : Sel) (s : State) : Host.Outcome State Fault Refusal :=
  (typed1 c ty d a fun _ w a => popCount w a).next s
/-- CMP: 1 or 0, never extended (Table 9-2). -/
def execCmp (c : Common) (ty : BitVec 4) (cond : BitVec 3) (d a b : Sel) (s : State) : Host.Outcome State Fault Refusal :=
  (scalarEff c 1 d (typedCheck ty) fun x _ =>
    let t := ty.toNat
    if iCond cond.toNat (intOf (isSigned t) (fmtWidth t) (x.st.scalar a).toNat)
      (intOf (isSigned t) (fmtWidth t) (x.st.scalar b).toNat) then 1 else 0).next s
def execSel (c : Common) (d a b t : Sel) (s : State) : Host.Outcome State Fault Refusal :=
  (scalarEff c 1 d noChecks fun x _ => if x.st.scalar t = 0 then x.st.scalar b else x.st.scalar a).next s
def execMin (c : Common) (ty : BitVec 4) (d a b : Sel) (s : State) : Host.Outcome State Fault Refusal :=
  (typed2 c 1 ty d a b fun sg w a b => iop .min sg false w a b).next s
def execMax (c : Common) (ty : BitVec 4) (d a b : Sel) (s : State) : Host.Outcome State Fault Refusal :=
  (typed2 c 1 ty d a b fun sg w a b => iop .max sg false w a b).next s
/-- EXTR: i64 or n64, pos + len at most 64 (R178). -/
def execExtr (c : Common) (ty : BitVec 4) (d a : Sel) (pos lenM1 : BitVec 6) (s : State) : Host.Outcome State Fault Refusal :=
  (scalarEff c 1 d (fun _ => [((ty.toNat = 11 || ty.toNat = 12) && pos.toNat + lenM1.toNat + 1 ≤ 64, cIllegalOperand)]) fun x _ =>
    extend64 (ty.toNat = 11) (lenM1.toNat + 1) ((x.st.scalar a).toNat / 2 ^ pos.toNat % 2 ^ (lenM1.toNat + 1))).next s
/-- INS reads sD as a source (R178). -/
def execIns (c : Common) (d a : Sel) (pos lenM1 : BitVec 6) (s : State) : Host.Outcome State Fault Refusal :=
  (scalarEff c 1 d (fun _ => [(pos.toNat + lenM1.toNat + 1 ≤ 64, cIllegalOperand)]) fun x _ =>
    let m : Word := BitVec.ofNat 64 (2 ^ (lenM1.toNat + 1) - 1) <<< pos.toNat
    (x.st.scalar d &&& ~~~m) ||| ((x.st.scalar a <<< pos.toNat) &&& m)).next s

/-- LEA checks no limit or permission (R184). -/
def execLea (c : Common) (scale : BitVec 2) (d : Sel) (seg : BitVec 4) (b : Sel) (s : State) : Host.Outcome State Fault Refusal :=
  (scalarEff c 1 d noChecks fun x _ => (x.st.segreg seg.toNat).base + (x.st.scalar b <<< scale.toNat)).next s

/-- A translation window is current: the generations it was built under stand (R109). -/
def State.windowOf (s : State) (st : Strand) (g : Seg) : Option Window :=
  match g.win with
  | some w => if w.gen = (s.part st.part).gen st.asid && w.gen2 = (s.part st.part).gen2 then some w else none
  | none => none

/-- SEGLIM.lim, .base, .attr, .win (R184). -/
def execSeglim (c : Common) (field : SegField) (d : Sel) (seg : BitVec 4) (s : State) : Host.Outcome State Fault Refusal :=
  (scalarEff c 1 d noChecks fun x s =>
    let g := x.st.segreg seg.toNat
    match field with
    | .lim => g.limit
    | .base => g.base
    | .attr => g.attr.setWidth 64
    | .win => if g.scratch || g.remote then 0 else BitVec.ofNat 64 (((s.windowOf x.st g).map (·.len)).getD 0)).next s

/-- LPARAM reads the parameter snapshot (R181). -/
def execLparam (c : Common) (d : Sel) (off : BitVec 28) (s : State) : Host.Outcome State Fault Refusal :=
  (scalarEff c 1 d (fun _ => [(off.toNat % 8 = 0 && off.toNat ≤ 504, cIllegalOperand)]) fun x _ =>
    x.st.params.getD (off.toNat / 8) 0).next s

/-- The caller of the routine on a Wilnum core: its strand key. -/
def State.callerOf (s : State) (w : Nat) : Nat :=
  match (s.wil w).running with
  | some cmd => ((s.op? cmd.op).map (·.owner)).getD 0 % 2 ^ 20
  | none => 0

/-- The value of a GETID selector (Table 9-4; in a routine R145). -/
def getidValue (s : State) (st : Strand) (sel : Nat) : Word :=
  if st.isRoutine && sel < 4 then
    let w := st.core - 256
    BitVec.ofNat 64 (match sel with
      | 0 => w
      | 1 => 128
      | 2 => s.callerOf w / 16
      | _ => s.callerOf w % 16)
  else
  match sel with
  | 0 => BitVec.ofNat 64 st.number
  | 1 => BitVec.ofNat 64 (((mapGet s.launches st.launch).map (·.count)).getD 0)
  | 2 => BitVec.ofNat 64 st.core
  | 3 => BitVec.ofNat 64 st.slot
  | 4 => st.window
  | 5 => BitVec.ofNat 64 st.splits.length
  | 6 => BitVec.ofNat 64 st.level
  | _ => BitVec.ofNat 64 (((mapGet s.launches st.launch).map (·.ident)).getD 0)

def execGetid (c : Common) (d : Sel) (which : BitVec 28) (s : State) : Host.Outcome State Fault Refusal :=
  (scalarEff c 1 d (fun _ => [(which.toNat ≤ 7, cIllegalOperand)]) fun x s => getidValue s x.st which.toNat).next s

/-- CLOCK.core reads the core's own counter at issue; its offset from the package timestamp is unspecified (R183). -/
def execClockCore (c : Common) (d : Sel) (s : State) : Host.Outcome State Fault Refusal :=
  (onWord c len1 fun x s => issueOp x s 1 none (.clock (selNum d) (BitVec.ofNat 64 s.now + Config.clockOffset x.st.core))).next s
/-- CLOCK.pkg reads the package timestamp at issue (R183). -/
def execClockPkg (c : Common) (d : Sel) (s : State) : Host.Outcome State Fault Refusal :=
  (onWord c len1 fun x s => issueOp x s 1 none (.clock (selNum d) (BitVec.ofNat 64 s.now))).next s
/-- WINTR rebuilds the segment's window; it completes when the window is built (R184). -/
def execWintr (c : Common) (seg : BitVec 4) (s : State) : Host.Outcome State Fault Refusal :=
  (onWord c len1 fun x s => issueOp x s 1 none (.wintr seg.toNat)).next s

end Sys2Proof.Machine
end

