-- ==== Sys2Proof/Machine/Control.lean ====
section
/-! DEFINITION. Clause headers, branches, loops, calls, SPLIT, MERGE, EXIT, YIELD and TRAP (R85 to R87, R95 to R97, R185 to R192). -/

namespace Sys2Proof.Machine

/-! ## Clause headers -/

/-- The writes of the instructions whose flags a header's waits observe at zero (R280). -/
def waitDeps (st : Strand) (h : Header) (t : Nat) : List Nat :=
  ((List.range 12).filter fun f => h.wait.getLsbD f && st.flagZeroAt f t).foldl (fun a f => joinDeps a ((mapGet st.flagDeps f).getD [])) []

/-- A strand may run in an overlay: at level K only in one whose table entry had the K bit (R301). -/
def runsIn (st : Strand) (o : Option Overlay) : Bool := st.level = 0 || (match o with | some o => o.kbit | none => true)

/-- CLAUSE_ISSUE: where the waits hold the split enters the clause, all latch contents unspecified (R87, R93), after the effects of the instructions it waited for (R280); else it waits. A level-K strand that has come into an overlay without the K bit raises privilege there (R301, notes/assumptions/91.md). -/
def execClauseIssue (h : Header) (s : State) : Host.Outcome State Fault Refusal :=
  Eff.next (fun s =>
    let k := s.cur.1
    let st := s.strand k
    let sp := st.splitOf s.cur.2
    if !runsIn st (s.codeOf st sp.ovl) then takeTrap k sp.num (TrapInfo.plain cPrivilege) [] s
    else if waitsHold st h s.now then
      let c : Clause := { at_ := sp.pc, hdr := h, idx := 0, yielded := h.yield = 1#1 }
      [.split k { sp with clause := some c, pc := sp.pc + 1, yielded := false, dep := s.stillPending (joinDeps sp.dep (waitDeps st h s.now)) },
       .latches k [] [] s.fresh, .delayed k (st.delayed.filter fun d => !isLatch d.2), .fresh]
    else advance (s.now + 1) s) s

/-! ## Transfers within the overlay (R155, R185) -/

/-- A taken transfer to own word index + displacement, after the updates it makes; overlay-end outside the overlay. -/
def jump (x : Ctx) (disp : Int) (ups : List Upd) : Eff := fun s =>
  let t : Int := (x.sp.pc : Int) + disp
  if 0 ≤ t ∧ t < (s.codeLen x.st x.sp.ovl : Int) then ups ++ finish x s 1 (x.sp.goto x.sp.ovl t.toNat)
  else trapNow x cOverlayEnd s

/-- A transfer that is not taken: the header after the clause. -/
def fallThrough (x : Ctx) (ups : List Upd) : Eff := fun s => ups ++ finish x s 1 x.sp.past

/-- Lanes a branch on a mask tests (R163). -/
def testedLanes (x : Ctx) : Lanes := winMask x.st.window &&& x.sp.mask

/-- The condition of Table 8-7. -/
def brCond (x : Ctx) (cond : Nat) (a : Sel) : Bool :=
  let v := x.st.scalar a
  let t := testedLanes x
  let m := x.st.mreg (selNum a) &&& t
  match cond with
  | 1 => v = 0
  | 2 => v ≠ 0
  | 3 => v.msb
  | 4 => !v.msb
  | 5 => m ≠ 0
  | 6 => m = t
  | 7 => m = 0
  | _ => false

def execBr (c : Common) (disp : BitVec 31) (s : State) : Host.Outcome State Fault Refusal :=
  (onWord c len1 fun x => jump x disp.toInt []).next s

def execBrc (c : Common) (cond : BitVec 4) (a : Sel) (disp : BitVec 31) (s : State) : Host.Outcome State Fault Refusal :=
  (onWord c len1 fun x => if brCond x cond.toNat a then jump x disp.toInt [] else fallThrough x []).next s

/-- LOOP: sA − 1 is written, and the branch taken where it is not 0 (Table 9-5). -/
def execLoop (c : Common) (a : Sel) (disp : BitVec 31) (s : State) : Host.Outcome State Fault Refusal :=
  (onWord c len1 fun x =>
    let v := x.st.scalar a - 1
    let ups := [Upd.loc x.k (.s (selNum a) v)]
    if v = 0 then fallThrough x ups else jump x disp.toInt ups).next s

/-- CALL: s30 takes the link of the header after the clause (R185, R186). -/
def execCall (c : Common) (disp : BitVec 31) (s : State) : Host.Outcome State Fault Refusal :=
  (onWord c len1 fun x => jump x disp.toInt [.loc x.k (.s 30 (linkWord false x.sp.ovl (x.sp.pc + 1)))]).next s

/-- RET through a link word (R188). A return of a level-K strand into an overlay without the K bit raises privilege (R301, notes/assumptions/91.md). -/
def execRet (c : Common) (a : Sel) (s : State) : Host.Outcome State Fault Refusal :=
  (onWord c len1 fun x s =>
    let l := x.st.scalar a
    let cross := fieldOf l 63 1 = 1
    let ovl := fieldOf l 32 12
    let pc := fieldOf l 0 15
    checked x
      [(fieldOf l 44 19 = 0 && fieldOf l 15 17 = 0, cIllegalOperand),
       (cross || ovl = x.sp.ovl % 4096, cIllegalOperand),
       (!cross || 0 < countOf x.st.callKeys x.sp.ovl, cIllegalOperand),
       (!cross || (s.codeOf x.st ovl).isSome, cIllegalOperand),
       (!cross || runsIn x.st (s.codeOf x.st ovl), cPrivilege),
       (pc < s.codeLen x.st (if cross then ovl else x.sp.ovl), cOverlayEnd)]
      (Eff.andThen (if cross then Eff.andThen (dropCall x.k x.sp.ovl) (keepQuota x.st.core x.st.part) else Eff.skip)
        (fun s => finish x s 1 (x.sp.goto (if cross then ovl else x.sp.ovl) pc))) s).next s

/-! ## Splits -/

/-- The group of a lane (R95). -/
def splitGroup (x : Ctx) (ma mb : Nat) (n : Nat) : Nat :=
  if x.act.getLsbD n then 2 * (if (x.st.mreg ma).getLsbD n then 1 else 0) + (if (x.st.mreg mb).getLsbD n then 1 else 0)
  else 4

/-- The lanes of group g of the executing split. -/
def groupLanes (x : Ctx) (ma mb g : Nat) : Lanes :=
  let a := x.st.mreg ma
  let b := x.st.mreg mb
  let sel : Lanes := match g with
    | 0 => x.act &&& ~~~a &&& ~~~b
    | 1 => x.act &&& ~~~a &&& b
    | 2 => x.act &&& a &&& ~~~b
    | 3 => x.act &&& a &&& b
    | _ => ~~~x.act
  x.sp.mask &&& sel

/-- Where a SPLIT target lies; one before the overlay's start lies past every overlay's end, so that its split takes overlay-end (R189). -/
def splitTarget (own : Nat) (t : BitVec 9) : Nat :=
  let v : Int := (own : Int) + t.toInt
  if v < 0 then (v + 65536).toNat else v.toNat

/-- New splits take the numbers given, in order. -/
def numberSplits : List Split → List Nat → List Split
  | [], _ => []
  | sp :: r, [] => sp :: numberSplits r []
  | sp :: r, n :: ns => { sp with num := n } :: numberSplits r ns

/-- SPLIT (R95, R189): split-limit before any change where more than four would live. The executing split ceases to exist, so that siblings of it that all wait at one MERGE unite (R97, notes/assumptions/76.md). -/
def execSplit (c : Common) (ma mb : BitVec 3) (t0 t1 t2 t3 : BitVec 9) (s : State) : Host.Outcome State Fault Refusal :=
  (onWord c len1 fun x s =>
    let own := x.sp.pc
    let targets := [splitTarget own t0, splitTarget own t1, splitTarget own t2, splitTarget own t3, own + 1]
    let groups := (List.range 5).filter fun g => groupLanes x ma.toNat mb.toNat g ≠ 0
    let others := x.st.splits.filter fun y => y.num ≠ x.sp.num
    if 4 < others.length + groups.length then trapNow x cSplitLimit s
    else
      let free := (List.range 4).filter fun n => n ≠ x.sp.num && others.all fun y => y.num ≠ n
      let new := groups.map fun g => { x.sp with
        mask := groupLanes x ma.toNat mb.toNat g, pc := targets.getD g 0, clause := none, replay := none, yielded := x.sp.yields,
        origin := x.sp.origin ++ [x.sp.ovl * 32768 + own], lastIssue := s.now }
      Eff.andThen (fun _ => [.issued x.k s.now s.now, .splits x.k ((numberSplits new (x.sp.num :: free)).foldl putSplit others)])
        (mergeCheck x.k x.sp.origin) s).next s

/-- MERGE waits, its split standing at it, until every sibling waits at a MERGE of the same address (R97, R190); with an empty origin it does nothing. -/
def execMerge (c : Common) (s : State) : Host.Outcome State Fault Refusal :=
  (onWord c len1 fun x =>
    if x.sp.origin = [] then fallThrough x []
    else Eff.andThen (fun s => finish x s 1 { x.sp with run := .merge x.sp.ovl x.sp.pc, replay := none }) (mergeCheck x.k x.sp.origin)).next s

/-! ## Ending, yielding, trapping (R191, R192) -/

/-- A split that is not its strand's last ends (R191): its siblings no longer wait for it at MERGE (R97) or GBAR (R99). -/
def splitEnds (x : Ctx) : Eff :=
  Eff.seq [fun s => [.issued x.k s.now s.now, .splits x.k (x.st.splits.filter fun y => y.num ≠ x.sp.num)],
    mergeCheck x.k x.sp.origin,
    fun s => match (s.strand x.k).gang with | some g => closeGang x.st.launch g s | none => []]

/-- EXIT ends the split; the last one waits for the strand's flags and calls, then the strand retires. -/
def execExit (c : Common) (s : State) : Host.Outcome State Fault Refusal :=
  (onWord c len1 fun x =>
    if x.st.splits.length ≤ 1 then
      Eff.andThen (fun s => finish x s 1 { x.sp.past with run := .exiting }) (exitCheck x.k)
    else splitEnds x).next s

/-- YIELD is the header's hint, given later: at the end of the clause the issue unit prefers other strands (R88, R192). -/
def execYield (c : Common) (s : State) : Host.Outcome State Fault Refusal :=
  (onWord c len1 fun x s =>
    finish x s 1 (Split.past { x.sp with clause := x.sp.clause.map fun k => { k with yielded := true } })).next s

/-- TRAP raises user TRAP; the frame records the code and execution goes on after it (R192). -/
def execTrap (c : Common) (code : BitVec 16) (s : State) : Host.Outcome State Fault Refusal :=
  (onWord c len1 fun x =>
    takeTrap x.k x.sp.num { TrapInfo.plain cUserTrap with detail := code.setWidth 64 } []).next s

end Sys2Proof.Machine
end

