-- ==== Sys2Proof/Machine/Overlays.lean ====
section
/-! DEFINITION. Loading code: OVLD and its installation, OVLQ, pins, CALLO, the miss path and the entry overlay (R102 to R105, R187, R193 to R195, R318, R327). -/

namespace Sys2Proof.Machine

/-- Granules of a core's instruction store: 16 of a Wilnum core (R102, R136). -/
def storeGranules (core : Nat) : Nat := if core < 256 then 128 else 16

/-- The residents of a core after adding one overlay fit: the partition's quota, the granules of the store, and 64 overlays on a grid core (R102, R138, R318). -/
def residentsFit (l : List Overlay) (core part quota : Nat) : Bool :=
  let here := l.filter fun o => o.core = core
  let mine := here.filter fun o => o.part = part
  let parts := (here.map (·.part)).eraseDups
  granulesOf mine ≤ quota &&
  (parts.map fun p => granulesOf (here.filter fun o => o.part = p)).foldl (· + ·) 0 ≤ storeGranules core && (256 ≤ core || here.length ≤ 64)

/-- Evicts the least recently called unkeyed overlays of the partition until the new one fits; none where no room can be made. -/
def makeRoom (s : State) (new : Overlay) (quota : Nat) : Nat → List Overlay → Option (List Overlay)
  | 0, _ => none
  | n + 1, l =>
    if residentsFit (l ++ [new]) new.core new.part quota then some l
    else
      match evictee s new.core new.part l with
      | none => none
      | some v => makeRoom s new quota n (l.filter fun o => o ≠ v)

/-- The granules of a core's store that no overlay occupies. -/
def freeGranules (l : List Overlay) (core : Nat) : List Nat :=
  (List.range (storeGranules core)).filter fun g => !l.any fun o => o.core = core && o.slots.contains g

/-- An overlay installed beside the residents: the copy of another overlay of the partition with its hash and length is shared (R318); else it takes the lowest free granules (DESIGN CHOICE, notes/assumptions/88.md). -/
def placeOverlay (l : List Overlay) (new : Overlay) : List Overlay :=
  match l.find? fun o => o.core = new.core && o.part = new.part && !o.stale && o.hash = new.hash && o.granules = new.granules with
  | some o => l ++ [{ new with code := o.code, slots := o.slots }]
  | none => l ++ [{ new with slots := (freeGranules l new.core).take new.granules }]

/-- The words of an overlay's source with the writes that releases standing at them carry to the core at package scope, or the status its refusal has (Table 9-8): every page mapped, class 0, with X; no poisoned line. -/
def sourceWords (s : State) (core part asid src : Nat) : Nat → Except Nat (List (Word × List Nat))
  | 0 => .ok []
  | n + 1 =>
    match sourceWords s core part asid src n with
    | .error e => .error e
    | .ok r =>
      match translate s 256 part asid 1 (src + 8 * n) 3 with
      | .error _ => .error 2
      | .ok (t, pa) =>
        if t.cls ≠ 0 then .error 2
        else if s.poisoned pa 8 then .error 6
        else
          let deps := ((s.releasesAt none pa 8).filter fun r => synchronises r core (dieOf core) 4).foldl (fun a r => joinDeps a r.deps) []
          .ok (r ++ [(BitVec.ofNat 64 (s.homeKN t.key pa 8), deps)])

/-- Each source word is read once, as at issue or as at completion (R288). -/
def mixWords (seed : Nat) (old new : List (Word × List Nat)) : List (Word × List Nat) :=
  (List.range new.length).map fun i => if i < old.length && Config.earlyWrite seed i then old.getD i (0, []) else new.getD i (0, [])

/-- The OVLDs of an index on a core, which join one load (R193). -/
def joinedLoads (s : State) (core part idx : Nat) : List Op :=
  s.ops.filter fun p => match p.kind with
    | .ovld i _ _ _ => i = idx && (s.strand p.owner).core = core && (s.strand p.owner).part = part
    | _ => false

/-- The source words that a load's latest OVLD found at its issue, where they are of this source. -/
def oldWords (os : List Op) (src : Nat) : List (Word × List Nat) :=
  match os.getLast? with
  | some o => (match o.kind with | .ovld _ _ a l => if a = src then l else [] | _ => [])
  | none => []

/-- What a load of an overlay on a core comes to: the status word of Table 9-8, the residents after it, and the writes its package-scope acquire brings (R104). Of several statuses that hold the first of 5, 1, 3, then 2 for a signature that fails, 2 or 6 by the first source word refused, and 4 is reported (DESIGN CHOICE, notes/assumptions/115.md). -/
def loadOverlay (s : State) (core part asid idx : Nat) : Nat × List Overlay × List Nat :=
  match ovlEntry s part asid false idx with
  | none => (5, s.overlays, [])
  | some e =>
    let old := s.resident core part idx false
    let same : Bool := match old with | some o => o.hash = e.hash | none => false
    if same then (1, s.overlays, [])
    else if old.isSome && 0 < s.keyCount core part idx then (3, s.overlays, [])
    else if e.kbit && !Config.overlaySignatureVerifies part e.hash then (2, s.overlays, [])
    else
      match sourceWords s core part asid e.src (e.granules * 256) with
      | .error st => (st, s.overlays, [])
      | .ok now_ =>
        let ws := mixWords s.fresh (oldWords (joinedLoads s core part idx) e.src) now_
        let new : Overlay := { core := core, part := part, idx := idx, routine := false, granules := e.granules,
                               hash := e.hash, kbit := e.kbit, code := ws.map (·.1), slots := [], lastCall := s.now, stale := false }
        let rest := s.overlays.filter fun o => !(o.core = core && o.part = part && o.idx = idx && !o.routine)
        match makeRoom s new (s.part part).quota (rest.length + 1) rest with
        | some l => (0, placeOverlay l new, ws.foldl (fun a w => joinDeps a w.2) [])
        | none => (4, s.overlays, [])

/-- OVLD issues a load; what stands at the source then may be read, unless a store or an acquire before it has still to perform (R288). -/
def execOvld (c : Common) (d : Sel) (ovl : BitVec 12) (s : State) : Host.Outcome State Fault Refusal :=
  (onWord c len1 fun x s =>
    let src := ovlEntry s x.st.part x.st.asid false ovl.toNat
    let old := match src with
      | some e =>
        if priorDone s x.sp.prior then
          (match sourceWords s x.st.core x.st.part x.st.asid e.src (e.granules * 256) with | .ok l => l | .error _ => [])
        else []
      | none => []
    issueOp x s 1 none (.ovld ovl.toNat (selNum d) ((src.map (·.src)).getD 0) old)).next s

/-- A load of the index is in progress on the core, by an OVLD or for a strand that waits. -/
def loading (s : State) (core part idx : Nat) : Bool :=
  (s.ops.any fun o => match o.kind with
    | .ovld i _ _ _ => i = idx && (s.strand o.owner).core = core && (s.strand o.owner).part = part
    | _ => false) ||
  s.strands.any fun e => e.2.core = core && e.2.part = part && e.2.splits.any fun sp => sp.run = .overlay idx

/-- A strand that waits for an overlay goes on once it is installed (R105, R187): a CALLO is executed again, an entry begins. -/
def wakeCallers (core part idx : Nat) : Eff := fun s =>
  if (s.resident core part idx false).isNone then []
  else
    Eff.seq (s.strands.flatMap fun e =>
      if e.2.core = core && e.2.part = part then
        e.2.splits.filterMap fun sp =>
          if sp.run = .overlay idx then
            some (fun s : State =>
              let st := s.strand e.1
              match st.frame with
              | some t =>
                if t.split = sp.num then resumeTrap e.1 s
                else [.pendTrap e.1 (st.pending.filter fun p => p.split ≠ sp.num), .split e.1 (resumeAt sp none)]
              | none => [.split e.1 (resumeAt sp none)])
          else none
      else []) s

/-- An OVLD completes with its load's status, and what the load acquired (R104). -/
def loadDone (status : Nat) (deps : List Nat) (p : Op) : Eff :=
  match p.kind with
  | .ovld _ d _ _ => Eff.andThen (acquire p deps) (completeOp p [.loc p.owner (.s d (BitVec.ofNat 64 status))] deps)
  | _ => Eff.skip

/-- Words of a hash or a measurement. -/
def hashWords (n : Nat) (v : BitVec n) : List Word := (List.range (n / 64)).map fun i => v.extractLsb' (64 * i) 64

/-- The first load of a K overlay, of the grid or a routine's, extends the measurement of its partition (R390). -/
def measureLoad (o : Overlay) : Eff := fun s =>
  let x := s.part o.part
  if o.kbit && !x.kLoads.contains o.hash then
    [.part o.part { x with kLoads := x.kLoads ++ [o.hash] },
     .measure (16 + o.part) (Config.sha384 (hashWords 384 ((mapGet s.measured (16 + o.part)).getD 0) ++ hashWords 128 o.hash))]
  else []

/-- A load's residents. -/
def install (part core idx : Nat) (r : Nat × List Overlay × List Nat) : Eff := fun s =>
  [.overlays r.2.1, .fresh] ++
  (match if r.1 = 0 then r.2.1.find? fun o => o.is core part idx false else none with
   | some o => measureLoad o s
   | none => [])

/-- The source's lines that a load has read (R354). -/
def noteSource (part asid : Nat) (routine : Bool) (idx : Nat) : Eff := fun s =>
  match ovlEntry s part asid routine idx with
  | some e => noteBytes part asid 1 3 e.src (e.granules * 2048) s
  | none => []

/-- The same of a load of a grid overlay, where it has installed one. -/
def noteLoad (part asid idx : Nat) (r : Nat × List Overlay × List Nat) : Eff := if r.1 = 0 then noteSource part asid false idx else Eff.skip

/-- The OVLD that began a load may read: what is before it has performed (R288). The OVLDs that joined it read nothing themselves (R193). -/
def loadReady (s : State) (core part idx : Nat) : Bool := (joinedLoads s core part idx).head?.all fun o => priorDone s o.prior

/-- A load of an index on a core ends: its residents, every OVLD that joined it, the strands that waited for it (R104, R193, R105). -/
def endLoad (core part idx : Nat) (r : Nat × List Overlay × List Nat) : Eff := fun s =>
  Eff.seq (install part core idx r :: (joinedLoads s core part idx).map (loadDone r.1 r.2.2) ++ [wakeCallers core part idx]) s

/-- OVLD_INSTALL: the load completes, and every OVLD of the index on the core with it (R104, R193). -/
def execOvlInstall (id : Nat) (s : State) : Host.Outcome State Fault Refusal :=
  Eff.when "OVLD_INSTALL" (fun s => match s.op? id with
      | some o => (match o.kind with
        | .ovld idx _ _ _ => !o.parked && loadReady s (s.strand o.owner).core (s.strand o.owner).part idx
        | _ => false)
      | none => false)
    (fun s =>
      match s.op? id with
      | some o =>
        match o.kind with
        | .ovld idx _ _ _ =>
          let st := s.strand o.owner
          let r := loadOverlay s st.core st.part st.asid idx
          Eff.andThen (noteLoad st.part st.asid idx r) (endLoad st.core st.part idx r) s
        | _ => []
      | none => []) s

def execOvlq (c : Common) (d : Sel) (ovl : BitVec 12) (s : State) : Host.Outcome State Fault Refusal :=
  (onWord c len1 fun x s => issueOp x s 1 none (.ovlq ovl.toNat (selNum d))).next s

/-- The OVLQ result (Table 9-9). -/
def ovlqWord (s : State) (st : Strand) (idx : Nat) : Word :=
  let r := s.resident st.core st.part idx false
  BitVec.ofNat 64 (((r.map (·.granules)).getD 0) * 2 ^ 32 + s.keyCount st.core st.part idx % 65536 * 2 ^ 16 +
    bit (0 < countOf st.pins idx) 2 + bit (loading s st.core st.part idx) 1 + bit r.isSome 0)

/-- OVLPIN takes one pin before the strand's next instruction (R195). -/
def execOvlpin (c : Common) (ovl : BitVec 12) (s : State) : Host.Outcome State Fault Refusal :=
  (onWord c len1 fun x s =>
    let i := ovl.toNat
    if s.keyCount x.st.core x.st.part i < 65535 then
      Upd.keys x.k x.st.callKeys (mapSet x.st.pins i (countOf x.st.pins i + 1)) x.st.entryKey :: finish x s 1 x.sp.past
    else trapNow x cIllegalOperand s).next s

def execOvlunpin (c : Common) (ovl : BitVec 12) (s : State) : Host.Outcome State Fault Refusal :=
  (onWord c len1 fun x s =>
    let i := ovl.toNat
    if 0 < countOf x.st.pins i then
      Eff.seq [fun _ => [.keys x.k x.st.callKeys (mapSet x.st.pins i (countOf x.st.pins i - 1)) x.st.entryKey],
        keepQuota x.st.core x.st.part, fun s => finish x s 1 x.sp.past] s
    else trapNow x cIllegalOperand s).next s

/-- CALLO (R187): a missing overlay parks the strand, and the call is executed again from the start. A call of a level-K strand into an overlay without the K bit raises privilege (R301, notes/assumptions/91.md). -/
def execCallo (c : Common) (ovl : BitVec 12) (entry : BitVec 16) (s : State) : Host.Outcome State Fault Refusal :=
  (onWord c len1 fun x s =>
    let i := ovl.toNat
    match s.resident x.st.core x.st.part i false with
    | none => takeTrap x.k x.sp.num { TrapInfo.plain cOverlayMiss with kind := 3, detail := BitVec.ofNat 64 i } [] s
    | some o =>
      checked x [(runsIn x.st (some o), cPrivilege), (entry.toNat < o.words, cOverlayEnd), (s.keyCount x.st.core x.st.part i < 65535, cIllegalOperand)]
        (Eff.andThen (takeCall x.k i) fun s =>
          [.loc x.k (.s 30 (linkWord true x.sp.ovl (x.sp.pc + 1))),
           .overlays (s.overlays.map fun y => if y = o then { y with lastCall := s.now } else y)] ++
          finish x s 1 (x.sp.goto i entry.toNat)) s).next s

/-- The load a waiting split needs, failed: the miss goes to the K handler with the status as detail (R105). -/
def missFails (k n status : Nat) : Eff := fun s =>
  let st := s.strand k
  let sp := st.splitOf n
  let park : List Upd := [.split k { sp with run := .parked }]
  let t0 := mkTrap st sp { TrapInfo.plain cOverlayMiss with kind := 3, detail := BitVec.ofNat 64 status }
  let frame := match st.frame with
    | some t => if t.split = n then some { t with detail := BitVec.ofNat 64 status } else none
    | none => some t0
  match frame with
  | none => park
  | some t =>
    let us := park ++ [Upd.trap k (some t)]
    Eff.andThen (fun _ => us) (fun s =>
      let toQueue := postTrap st.part (trapRecord s k t) s
      if st.level ≠ 0 then toQueue
      else
        match startHandler s st.core st.part st.asid (slotKey st.core st.slot) false
            [(1, BitVec.ofNat 64 cOverlayMiss), (2, t.frame0)] with
        | some us => us
        | none => toQueue) s

/-- OVERLAY_MISS_LOAD: the overlay unit finishes the load for a CALLO's strand and resumes the call, or sends the miss on (R105). -/
def execOverlayMissLoad (k n : Nat) (s : State) : Host.Outcome State Fault Refusal :=
  Eff.when "OVERLAY_MISS_LOAD" (fun s =>
      let st := s.strand k
      (match (st.splitOf n).run with | .overlay i => loadReady s st.core st.part i | _ => false) &&
      (match st.frame with | some t => t.split = n && t.cause = cOverlayMiss | none => false))
    (fun s =>
      let st := s.strand k
      match (st.splitOf n).run with
      | .overlay idx =>
        let r := loadOverlay s st.core st.part st.asid idx
        Eff.seq [noteLoad st.part st.asid idx r, endLoad st.core st.part idx r, if r.1 ≤ 1 then Eff.skip else missFails k n r.1] s
      | _ => []) s

/-- ENTRY_OVERLAY_LOADED: the placed strand that waited for its entry overlay becomes ready (R327). -/
def execEntryOverlayLoaded (k : Nat) (s : State) : Host.Outcome State Fault Refusal :=
  Eff.when "ENTRY_OVERLAY_LOADED" (fun s =>
      let st := s.strand k
      st.frame.isNone && st.splits.any fun sp => match sp.run with | .overlay i => loadReady s st.core st.part i | _ => false)
    (fun s =>
      let st := s.strand k
      match st.splits.findSome? fun sp => match sp.run with | .overlay i => some (sp.num, i) | _ => none with
      | some (n, idx) =>
        let r := loadOverlay s st.core st.part st.asid idx
        Eff.seq [noteLoad st.part st.asid idx r, endLoad st.core st.part idx r, if r.1 ≤ 1 then Eff.skip else missFails k n r.1] s
      | none => []) s

end Sys2Proof.Machine
end

