-- ==== Sys2Proof/Machine/System.lean ====
section
/-! DEFINITION. Class 4: system registers, GENUP, RESUME, TRET, CTXSAVE, CTXLOAD, ACCSPILL and ACCFILL, and their completion (R302 to R310, R317). -/

namespace Sys2Proof.Machine

/-- A class-4 word: privilege at level U (Table 8-11). -/
def onSystem (c : Common) (body : Ctx → Eff) : Eff :=
  onWord c len1 fun x => checked x [(1 ≤ x.st.level, cPrivilege)] (body x)

/-! ## System registers (Table 18-2) -/

/-- How a strand may use a system register: not listed, read only, written at K, or written at M. -/
inductive SysAccess where
  | unlisted | readOnly | kernel | firmware
  deriving DecidableEq, Repr

def sysAccess (n : Nat) : SysAccess :=
  match n with
  | 0x000 => .readOnly
  | 0x001 => .firmware
  | 0x002 => .firmware
  | 0x003 => .firmware
  | 0x004 => .firmware
  | 0x010 => .kernel
  | 0x011 => .kernel
  | 0x012 => .firmware
  | 0x013 => .firmware
  | 0x020 => .kernel
  | 0x021 => .readOnly
  | n =>
    if n = 0x102 || n = 0x103 then .kernel
    else if 0x100 ≤ n && n < 0x140 then .readOnly
    else if 0x200 ≤ n && n < 0x220 then .readOnly
    else .unlisted

/-- A frame word's register. -/
def isFrame (n : Nat) : Bool := 0x100 ≤ n && n < 0x140

/-- The strand TGT names, where its slot is not empty. -/
def State.target (s : State) (st : Strand) : Option Strand := mapGet s.strands st.tgt

/-- The target is parked. -/
def State.targetParked (s : State) (st : Strand) : Bool := ((s.target st).bind (·.frame)).isSome

/-- The value of a system register for a strand. -/
def sysValue (s : State) (st : Strand) (n : Nat) : Word :=
  let x := s.part st.part
  match n with
  | 0x000 => BitVec.ofNat 64 (st.part % 64)
  | 0x001 => BitVec.ofNat 64 (st.asid % 65536 + x.gen st.asid % 65536 * 65536)
  | 0x002 => x.ktempl
  | 0x003 => x.trapq
  | 0x004 => x.pageq
  | 0x010 => x.ovltab
  | 0x011 => x.rtntab
  | 0x012 => BitVec.ofNat 64 x.quota
  | 0x013 => x.accarea
  | 0x020 => BitVec.ofNat 64 (st.tgt % 4096)
  | 0x021 => BitVec.ofNat 64 (s.strandCode st.tgt)
  | n =>
    if isFrame n then (match (s.target st).bind (·.frame) with | some t => t.word (n - 0x100) | none => 0)
    else if 0x200 ≤ n && n < 0x220 then (s.accTag (accKey st.cluster (n - 0x200))).setWidth 64
    else 0

/-- A frame access needs a target; a handler started for a tile record only reaches a parked one (R303, R317). -/
def frameOk (s : State) (st : Strand) : Bool :=
  (s.target st).isSome && (!((st.handler.map (·.tile)).getD false) || s.targetParked st)

def execSysrd (c : Common) (num : BitVec 12) (d : Sel) (s : State) : Host.Outcome State Fault Refusal :=
  (onSystem c fun x s =>
    let n := num.toNat
    checked x [(sysAccess n ≠ .unlisted, cIllegalOperand), (!isFrame n || frameOk s x.st, cIllegalOperand)]
      (fun s => issueOp x s 1 none (.sysrd n (selNum d))) s).next s

/-- A value TGT may take: a strand of the writer's own partition on its own core. -/
def tgtOk (s : State) (st : Strand) (v : Word) : Bool :=
  let k := fieldOf v 0 12
  k / 16 = st.core && (match mapGet s.strands k with | some t => t.part = st.part | none => false)

def execSyswr (c : Common) (num : BitVec 12) (a : Sel) (s : State) : Host.Outcome State Fault Refusal :=
  (onSystem c fun x s =>
    let n := num.toNat
    let v := x.st.scalar a
    checked x
      [(sysAccess n ≠ .unlisted && sysAccess n ≠ .readOnly, cIllegalOperand),
       (sysAccess n ≠ .firmware || 2 ≤ x.st.level, cPrivilege),
       (n ≠ 0x020 || tgtOk s x.st v, cIllegalOperand),
       (!isFrame n || s.targetParked x.st, cIllegalOperand)]
      (fun s => issueOp x s 1 none (.syswr n v)) s).next s

/-- A system register written at completion (R304); a lower overlay quota evicts what nothing holds (R318, notes/assumptions/98.md). -/
def sysWrite (k n : Nat) (v : Word) : Eff := fun s =>
  let st := s.strand k
  let x := s.part st.part
  match n with
  | 0x001 => [.part st.part { x with gens := mapSet x.gens (fieldOf v 0 16) (fieldOf v 16 16) }, .strand k { st with asid := fieldOf v 0 16 }]
  | 0x002 => [.part st.part { x with ktempl := v }]
  | 0x003 => [.part st.part { x with trapq := v }]
  | 0x004 => [.part st.part { x with pageq := v }]
  | 0x010 => [.part st.part { x with ovltab := v }]
  | 0x011 => [.part st.part { x with rtntab := v }]
  | 0x012 =>
    let q := fieldOf v 0 8
    let cores := (s.overlays.map (·.core)).eraseDups
    [.part st.part { x with quota := q }, .overlays (cores.foldl (fun l core => shrinkTo s core st.part q l.length l) s.overlays)]
  | 0x013 => [.part st.part { x with accarea := v }]
  | 0x020 => [.tgt k (fieldOf v 0 12)]
  | n =>
    match (s.target st).bind (·.frame) with
    | some t =>
      if n = 0x102 || n = 0x103 then [.trap st.tgt (some (t.setWord (n - 0x100) v))]
      else []
    | none => []

/-! ## GENUP (R305) -/

/-- The ASID lies in the partition's grant. -/
def Part.grants (x : Part) (asid : Nat) : Bool := x.asidFirst ≤ asid && asid < x.asidFirst + x.asidCount

def execGenup (c : Common) (a : Sel) (s : State) : Host.Outcome State Fault Refusal :=
  (onSystem c fun x s =>
    let asid := fieldOf (x.st.scalar a) 0 16
    checked x [((s.part x.st.part).grants asid, cIllegalOperand)]
      (fun s => issueOp x s 1 none (.genup asid (selNum a))) s).next s

/-! ## RESUME and TRET (R306) -/

/-- The handler has resumed its target. -/
def markResumed (x : Ctx) : List Upd :=
  match x.st.handler with
  | some h => if h.target = x.st.tgt then [.handler x.k (some { h with resumed := true })] else []
  | none => []

/-- The target is resumed at issue, so that a second resumption of one park fails. -/
def execResume (c : Common) (s : State) : Host.Outcome State Fault Refusal :=
  (onSystem c fun x s =>
    checked x [(s.targetParked x.st, cIllegalOperand)]
      (Eff.seq [fun _ => markResumed x, fun s => issueOp x s 1 none .resume, resumeStrand x.st.tgt]) s).next s

def execResumeEnd (c : Common) (s : State) : Host.Outcome State Fault Refusal :=
  (onSystem c fun x s =>
    checked x [(s.targetParked x.st, cIllegalOperand)]
      (Eff.seq [fun _ => markResumed x, fun s => issueOp x s 1 none (.resumeEnd x.st.tgt), endStrand x.st.tgt]) s).next s

/-- TRET retires the handler as EXIT does; a target still parked and not resumed by it then goes to the trap queue (R306). -/
def execTret (c : Common) (s : State) : Host.Outcome State Fault Refusal :=
  (onSystem c fun x =>
    if x.st.splits.length ≤ 1 then
      Eff.andThen (fun s => .handler x.k (x.st.handler.map fun h => { h with tret := true }) :: finish x s 1 { x.sp.past with run := .exiting }) (exitCheck x.k)
    else splitEnds x).next s

/-! ## Save areas (R307, R309) -/

/-- Bytes of the image proper. -/
def imageBytes : Nat := 0x6000

/-- Lane-file keys of a strand's footprint, lane by lane (R307). -/
def footKeys (st : Strand) : List Nat :=
  let b := winBox st.launchWin
  let f := footRange st.launchWin st.fpBase st.fpCount
  (List.range (b.2.1 - b.1)).flatMap fun i => (List.range (b.2.2.2 - b.2.2.1)).flatMap fun j => (List.range (f.2 - f.1)).map fun w =>
    laneKey st.core (32 * (b.1 + i) + (b.2.2.1 + j)) (f.1 + w)

/-- Frames of the pages of an area, by page, for an access. -/
def areaFrames (s : State) (a : Agent) (va acc : Nat) : Nat → Except EFail (List (Tlb × Nat))
  | 0 => .ok []
  | n + 1 =>
    match areaFrames s a va acc n with
    | .error f => .error f
    | .ok l =>
      -- poison is a matter of the lines read, not of the page
      match engineAddr { s with poison := [] } a ((va / 8192 + n) * 8192) acc with
      | .error f => .error f
      | .ok p => if p.1.geom ≠ 0 then .error .format else .ok (l ++ [p])

/-- Pages an area of n bytes touches. -/
def areaPages (va n : Nat) : Nat := if n = 0 then 0 else (va + n - 1) / 8192 - va / 8192 + 1

/-- Physical address of byte i of an area. -/
def areaAt (frames : List (Tlb × Nat)) (va i : Nat) : Nat :=
  let o := va % 8192 + i
  match frames[o / 8192]? with
  | some p => p.2 / 8192 * 8192 + o % 8192
  | none => 0
def areaKey (frames : List (Tlb × Nat)) (va i : Nat) : Nat :=
  match frames[(va % 8192 + i) / 8192]? with
  | some p => p.1.key
  | none => 0

/-- Stores an area's bytes, eight at a time. -/
def areaStore (die : Nat) (deps : List Nat) (frames : List (Tlb × Nat)) (va : Nat) (ws : List Word) : Eff :=
  Eff.seq ((List.range ws.length).map fun i =>
    storeBytes { engineWriter die deps with key := areaKey frames va (8 * i) } (areaAt frames va (8 * i)) (bytesOf (ws.getD i 0).toNat 8))

/-- Word i of an area. -/
def areaWord (s : State) (die : Nat) (frames : List (Tlb × Nat)) (va i : Nat) : Word := BitVec.ofNat 64 (s.viewKN die (areaKey frames va (8 * i)) (areaAt frames va (8 * i)) 8)

/-- The memory of an area of n bytes, a line each. -/
def areaSpan (frames : List (Tlb × Nat)) (va n : Nat) : List (Tlb × Nat) :=
  (List.range ((n + 63) / 64)).filterMap fun i => (frames[(va % 8192 + 64 * i) / 8192]?).map fun p => (p.1, areaAt frames va (64 * i))

/-- The swept rows of an area may be accessed now. -/
def areaStill (s : State) (a : Agent) (va acc n : Nat) : Bool :=
  match areaFrames s a va acc (areaPages va n) with
  | .ok frames => !(frames.any fun p => p.1.cls = 1) || spanStill s (areaSpan frames va n)
  | .error _ => true

/-- A line of an area is poisoned. -/
def areaPoisoned (s : State) (frames : List (Tlb × Nat)) (va n : Nat) : Bool :=
  !s.poison.isEmpty && (List.range ((n + 63) / 64)).any fun i => s.poisoned (areaAt frames va (64 * i)) 1

/-- Lane-file words two by two, as the footprint stands in an area. -/
def pairWords : List Nat → List Word
  | a :: b :: r => pair32 a b :: pairWords r
  | [a] => [pair32 a 0]
  | [] => []

/-- The words of a strand's save area: image, then footprint. -/
def saveWords (s : State) (k token : Nat) : List Word :=
  let st := s.strand k
  (List.range (imageBytes / 8)).map (savedWord s k token) ++ pairWords ((footKeys st).map fun key => (s.laneWord st key).toNat)

/-- Bytes of a strand's save area. -/
def saveBytes (st : Strand) : Nat := imageBytes + 4 * (footKeys st).length

/-- Everything that names a strand by key names it by another. -/
def repoint (a b : Nat) : Eff := fun s =>
  (s.ops.filter fun o => o.owner = a).map (fun o => .opSet { o with owner := b }) ++
  s.xbars.filterMap (fun e => if e.2.bound = some a then some (.xbar e.1 { e.2 with bound := some b }) else none) ++
  s.parts.filterMap fun e =>
    if e.2.reqs.any (fun r => r.strand = some a) || e.2.traps.any (fun r => r.strand = some a) then
      some (.part e.1 { e.2 with
        reqs := e.2.reqs.map fun r => if r.strand = some a then { r with strand := some b } else r,
        traps := e.2.traps.map fun r => if r.strand = some a then { r with strand := some b } else r })
    else none

/-- The strand leaves its slot for a save area: its keys, pins and operations stay with it. -/
def moveOut (k token addr : Nat) (pool : Option Nat) : Eff := fun s =>
  let key := ghostKey s k
  Eff.seq [fun s => [.ghost key (s.strand k)], repoint k key,
    fun s => [.strandDel k, .saved (s.saved ++ [{ token := token, addr := addr, key := key, pool := pool, late := [] }]), .nextOp]] s

/-- A saved strand comes back into a slot with the image's words, and what has reached its registers since (R258). -/
def moveIn (x : Saved) (slot : Nat) (image : List Word) (foot : List Nat) : Eff := fun s =>
  let st := s.strand x.key
  let back := (List.range (imageBytes / 8)).foldl (fun st n => imageSet s.launches st n (image.getD n 0)) st
  let key := slotKey st.core slot
  Eff.seq [fun _ => [.strand key { back with slot := slot, suspended := st.suspended }], repoint x.key key, freePool x,
    fun s => [.ghostDel x.key, .saved (s.saved.filter fun y => y.token ≠ x.token)] ++ x.late.map (Upd.loc key) ++
      ((footKeys st).zip foot).map fun p => .loc key (.lane p.1 (BitVec.ofNat 32 (2 ^ 32 - 1)) (BitVec.ofNat 32 p.2))] s

/-- Results on their way into the strand's lane-file words: it cannot leave its slot before them. -/
def laneResults (s : State) (k : Nat) : Bool := s.ops.any fun o => o.owner = k && o.kind.writesLanes && !o.parked

/-- The access an instruction needs of an area parks it, to be executed again; any other failure is left to its status. -/
def areaPark (x : Ctx) (va n acc : Nat) (e : Eff) : Eff := fun s =>
  match areaFrames s (agentOf x.st) va acc (areaPages va n) with
  | .error (.page p) =>
    parkNow x { TrapInfo.plain (if p.stage = 0 then cPage1 else cPage2) with kind := 3, addrs := [BitVec.ofNat 64 p.va] } [p] s
  | _ => e s

def execCtxsave (c : Common) (st a : Sel) (s : State) : Host.Outcome State Fault Refusal :=
  (onSystem c fun x s =>
    let va := (x.st.scalar a).toNat
    checked x [((s.target x.st).isSome, cIllegalOperand), (va % 64 = 0, cMisaligned)]
      (areaPark x va (saveBytes (s.strand x.st.tgt)) 1 fun s => issueOp x s 1 none (.ctxsave (selNum st) va)) s).next s

/-- A read failure of an image that no status reports traps. -/
def loadTrap (x : Ctx) (va n : Nat) (e : Eff) : Eff := fun s =>
  match areaFrames s (agentOf x.st) va 0 (areaPages va n) with
  | .error .format => trapNow x cFormat s
  | .error (.page _) => e s
  | .error _ => trapNow x cPermission s
  | .ok _ => e s

/-- The saved strand that the image of an area names. -/
def savedImage (s : State) (die : Nat) (frames : List (Tlb × Nat)) (va : Nat) : Option Saved :=
  s.saved.find? fun x => BitVec.ofNat 64 x.token = areaWord s die frames va 0x1C0 && x.pool.isNone

/-- Bytes of the save area that CTXLOAD reads: the footprint's too, where the image is of a saved strand. -/
def loadSize (s : State) (st : Strand) (va : Nat) : Nat :=
  match areaFrames s (agentOf st) va 0 (areaPages va imageBytes) with
  | .ok frames => ((savedImage s st.die frames va).map fun x => saveBytes (s.strand x.key)).getD imageBytes
  | .error _ => imageBytes

def execCtxload (c : Common) (st a : Sel) (s : State) : Host.Outcome State Fault Refusal :=
  (onSystem c fun x =>
    let va := (x.st.scalar a).toNat
    checked x [(va % 64 = 0, cMisaligned)]
      (areaPark x va imageBytes 0 (loadTrap x va imageBytes fun s =>
        areaPark x va (loadSize s x.st va) 0 (fun s => issueOp x s 1 none (.ctxload (selNum st) va)) s))).next s

def execAccspill (c : Common) (st : Sel) (slot : BitVec 5) (a : Sel) (s : State) : Host.Outcome State Fault Refusal :=
  (onSystem c fun x =>
    let va := (x.st.scalar a).toNat
    checked x [(va % 64 = 0, cMisaligned)]
      (areaPark x va 65536 1 fun s => issueOp x s 1 none (.accspill slot.toNat (selNum st) va))).next s

def execAccfill (c : Common) (st : Sel) (slot : BitVec 5) (a : Sel) (s : State) : Host.Outcome State Fault Refusal :=
  (onSystem c fun x s =>
    let va := (x.st.scalar a).toNat
    checked x [((s.target x.st).isSome, cIllegalOperand), (va % 64 = 0, cMisaligned)]
      (areaPark x va 65536 0 fun s => issueOp x s 1 none (.accfill slot.toNat (selNum st) va)) s).next s

/-! ## Completion -/

/-- A scalar result of a class-4 operation. -/
def statusOf (o : Op) (d n : Nat) : List Upd := [.loc o.owner (.s d (BitVec.ofNat 64 n))]

/-- The page of an area is gone by now: the strand parks, and its operation is made again after service (R307, notes/assumptions/118.md). -/
def areaWaits (o : Op) (n : PageNeed) : Eff := fun s =>
  let st := s.strand o.owner
  if st.endCode.isSome then completeOp o [] [] s
  else
    Eff.andThen (fun _ => [.opSet { o with parked := true }])
      (takeTrap o.owner (trapSplit st o) { TrapInfo.plain (if n.stage = 0 then cPage1 else cPage2) with
        kind := 2, op := o.id, at_ := some (o.ovl, o.pc), addrs := [BitVec.ofNat 64 n.va] } [n]) s

/-- CTXSAVE at completion: its status, and the save. -/
def ctxsaveDone (o : Op) (d addr : Nat) : Eff := fun s =>
  let st := s.strand o.owner
  match mapGet s.strands st.tgt with
  | none => completeOp o (statusOf o d 1) [] s
  | some t =>
    if !t.suspended && t.frame.isNone then completeOp o (statusOf o d 1) [] s
    else
      match areaFrames s (agentOf st) addr 1 (areaPages addr (saveBytes t)) with
      | .error (.page n) => areaWaits o n s
      | .error _ => completeOp o (statusOf o d 2) [] s
      | .ok frames =>
        let token := s.nextOp
        Eff.seq [noteSpan (areaSpan frames addr (saveBytes t)), areaStore st.die o.dep frames addr (saveWords s st.tgt token),
          fun t1 => Eff.seq [moveOut st.tgt token addr none, completeOp o (statusOf o d 0) (t1.stillPending (writesSince s t1))] t1] s

/-- What CTXLOAD does with an image it can read. -/
def loadImage (o : Op) (d addr : Nat) (frames : List (Tlb × Nat)) : Eff := fun s =>
  let st := s.strand o.owner
  let w := areaWord s st.die frames addr
  match savedImage s st.die frames addr with
  | none => completeOp o (statusOf o d 3) [] s
  | some x =>
    let t := s.strand x.key
    let n := saveBytes t
    if areaPoisoned s frames addr imageBytes then completeOp o (statusOf o d 4) [] s
    else if fieldOf (w 0xEC) 24 8 ≠ st.core || fieldOf (w 0xEC) 32 6 ≠ st.part || t.core ≠ st.core || t.part ≠ st.part then
      completeOp o (statusOf o d 3) [] s
    else
      match s.freeSlot st.core with
      | none => completeOp o (statusOf o d 1) [] s
      | some slot =>
        if !s.footFree st.core t.launchWin t.fpBase t.fpCount then completeOp o (statusOf o d 2) [] s
        else
          match areaFrames s (agentOf st) addr 0 (areaPages addr n) with
          | .error (.page n) => areaWaits o n s
          | .error _ => completeOp o (statusOf o d 4) [] s
          | .ok all =>
            if areaPoisoned s all addr n then completeOp o (statusOf o d 4) [] s
            else
              let image := (List.range (imageBytes / 8)).map (areaWord s st.die all addr)
              let foot := (List.range (footKeys t).length).map fun i => s.viewKN st.die (areaKey all addr (imageBytes + 4 * i)) (areaAt all addr (imageBytes + 4 * i)) 4
              Eff.seq [noteSpan (areaSpan all addr n), moveIn x slot image foot, fun _ => [.tgt o.owner (slotKey st.core slot)],
                completeOp o (statusOf o d 0) []] s

/-- CTXLOAD at completion. -/
def ctxloadDone (o : Op) (d addr : Nat) : Eff := fun s =>
  let st := s.strand o.owner
  match areaFrames s (agentOf st) addr 0 (areaPages addr imageBytes) with
  | .error (.page n) => areaWaits o n s
  | .error _ => completeOp o (statusOf o d 3) [] s
  | .ok frames => Eff.andThen (noteLines ((areaSpan frames addr imageBytes).map fun p => (p.1.key, p.2))) (loadImage o d addr frames) s

/-- ACCSPILL at completion: the slot to memory, its tag free (R308). -/
def accspillDone (o : Op) (slot d addr : Nat) : Eff := fun s =>
  let st := s.strand o.owner
  let cl := st.cluster
  match areaFrames s (agentOf st) addr 1 (areaPages addr 65536) with
  | .error (.page n) => areaWaits o n s
  | .error _ => completeOp o (statusOf o d 2) [] s
  | .ok frames =>
    let bad := accBadAt s cl slot (List.range 16384)
    let ws := (List.range 1024).flatMap fun i =>
      let p := slotPiece s cl slot i
      (List.range 8).map fun j => wordOfBytes ((p.drop (8 * j)).take 8)
    Eff.seq [noteSpan (areaSpan frames addr 65536), areaStore st.die o.dep frames addr ws,
      fun t => Eff.seq [fun _ => [.accTag (accKey cl slot) 0, slotHealed t cl slot],
        completeOp o (statusOf o d (if bad then 1 else 0)) (t.stillPending (writesSince s t)), slotRecheck cl slot] t] s

/-- ACCFILL at completion: the slot from memory, tagged for the target's launch; a failure leaves the slot unspecified and free. -/
def accfillDone (o : Op) (slot d addr : Nat) : Eff := fun s =>
  let st := s.strand o.owner
  let cl := st.cluster
  let owner := s.strand st.tgt
  let fails : Eff := Eff.seq [fun s => (List.range 16384).flatMap (fun i => accStore cl slot i (Config.freeLane s.fresh i).toNat) ++
    [slotHealed s cl slot, .fresh, .accTag (accKey cl slot) 0], completeOp o (statusOf o d 2) [], slotRecheck cl slot]
  match areaFrames s (agentOf st) addr 0 (areaPages addr 65536) with
  | .error (.page n) => areaWaits o n s
  | .error _ => fails s
  | .ok frames =>
    if areaPoisoned s frames addr 65536 then fails s
    else
    Eff.seq [noteSpan (areaSpan frames addr 65536), fun s => (List.range 16384).flatMap (fun i => accStore cl slot i (s.viewKN st.die (areaKey frames addr (4 * i)) (areaAt frames addr (4 * i)) 4)) ++
        [slotHealed s cl slot, .accTag (accKey cl slot) (ownerTag owner.part (launchIdent s owner.launch))],
      completeOp o (statusOf o d 0) [], slotRecheck cl slot] s

/-- An area's page is there, or the split of its operation can park for it. -/
def areaReady (s : State) (o : Op) (addr acc n : Nat) : Bool :=
  let st := s.strand o.owner
  areaStill s (agentOf st) addr acc n &&
  (match areaFrames s (agentOf st) addr acc (areaPages addr n) with
   | .error (.page _) => st.endCode.isSome || (match (st.splitOf (trapSplit st o)).run with
     | .parked => false
     | .overlay _ => false
     | _ => true)
   | _ => true)

/-- A class-4 operation may complete: RESUME.end once its target has left its slot (R306); what reads or writes an area once what is before it has performed. -/
def systemReady (s : State) (o : Op) : Bool :=
  let st := s.strand o.owner
  match o.kind with
  | .sysrd .. => true
  | .syswr .. => true
  | .genup .. => true
  | .resume => true
  | .resumeEnd k => (mapGet s.strands k).all fun t => t.endCode ≠ some 0
  | .ctxsave _ addr => !laneResults s st.tgt && startReady s o st.die && areaReady s o addr 1 (saveBytes (s.strand st.tgt))
  | .ctxload _ addr => startReady s o st.die && areaReady s o addr 0 (loadSize s st addr)
  | .accspill slot _ addr => !taskOn s st.cluster slot && startReady s o st.die && areaReady s o addr 1 65536
  | .accfill slot _ addr => !taskOn s st.cluster slot && startReady s o st.die && areaReady s o addr 0 65536
  | _ => false

/-- SYSTEM_INSTRUCTION_COMPLETE (R303 to R308). -/
def execSystemInstructionComplete (id : Nat) (s : State) : Host.Outcome State Fault Refusal :=
  Eff.when "SYSTEM_INSTRUCTION_COMPLETE" (fun s => match s.op? id with
      | some o => !o.parked && systemReady s o
      | none => false)
    (fun s => match s.op? id with
      | some o =>
        let st := s.strand o.owner
        (match o.kind with
         | .sysrd n d => completeOp o [.loc o.owner (.s d (sysValue s st n))] [] s
         | .syswr n v => Eff.andThen (sysWrite o.owner n v) (completeOp o [] []) s
         | .genup asid r =>
           let x := s.part st.part
           if x.gen asid = 0xFFFF then completeOp o [.loc o.owner (.s r (BitVec.allOnes 64))] [] s
           else completeOp o [.part st.part { x with gens := mapSet x.gens asid (x.gen asid + 1) },
                              .loc o.owner (.s r (BitVec.ofNat 64 (x.gen asid + 1)))] [] s
         | .resume => completeOp o [] [] s
         | .resumeEnd _ => completeOp o [] [] s
         | .ctxsave d addr => ctxsaveDone o d addr s
         | .ctxload d addr => ctxloadDone o d addr s
         | .accspill slot d addr => accspillDone o slot d addr s
         | .accfill slot d addr => accfillDone o slot d addr s
         | _ => [])
      | none => []) s

end Sys2Proof.Machine
end

