-- ==== Sys2Proof/Machine/Drevar.lean ====
section
/-! DEFINITION. What the Drevar side writes and answers: the trap and page-request queues, resuming, memory, control registers and feeds (R302, R313, R320, R321, R347 to R352, R356 to R358, R364). -/

namespace Sys2Proof.Machine

/-! ## The trap queue (R313) -/

/-- Records a ring holds: two to the power of its low six bits, at most 2^16. -/
def ringDepth (v : Word) : Nat := 2 ^ min 16 (fieldOf v 0 6)
/-- Base of a ring. -/
def ringBase (v : Word) : Nat := fieldOf v 6 58 * 64

/-- The ring has room: both counters are of 32 bits. -/
def ringRoom (v : Word) (head tail : Nat) : Bool := (tail + 2 ^ 32 - head % 2 ^ 32) % 2 ^ 32 < ringDepth v

/-- A strand's frame has been posted. -/
def markPosted (k : Option Nat) : Eff := fun s =>
  match k with
  | some k =>
    match (s.strand k).frame with
    | some t => [.trap k (some { t with posted := true })]
    | none => []
  | none => []

/-- TRAP_QUEUE_POST: the oldest record waiting goes to the next slot. -/
def execTrapQueuePost (part : Nat) (s : State) : Host.Outcome State Fault Refusal :=
  Eff.when "TRAP_QUEUE_POST" (fun s =>
      let x := s.part part
      !x.traps.isEmpty && ringRoom x.trapq x.trapHead x.trapTail)
    (fun s =>
      let x := s.part part
      match x.traps with
      | r :: l =>
        putWords (ringBase x.trapq + x.trapTail % ringDepth x.trapq * 64) [r.w0, r.w1, r.w2, r.w3, r.w4, 0, 0, 0] ++
        [.part part { x with traps := l, trapTail := (x.trapTail + 1) % 2 ^ 32 }] ++ markPosted r.strand s
      | [] => []) s

/-- The strand of a slot is parked with its frame posted. -/
def answerable (s : State) (core slot : Nat) : Bool :=
  slot < 16 && (((mapGet s.strands (slotKey core slot)).bind (·.frame)).map (·.posted)).getD false

/-- A strand whose last page request is answered replays with the replies' release acquired: what the Drevar side has written happens before the replay's walk and access (Table 13-2, R351). -/
def replayAnswered (k : Nat) : Eff := fun s =>
  let st := s.strand k
  let deps := outsideDeps s drevarDev
  let acquired : List Upd := match st.frame with
    | some t =>
      let sp := st.splitOf t.split
      .split k { sp with dep := joinDeps sp.dep deps } ::
        (match s.op? t.op with
         | some o => [.opSet { o with dep := joinDeps o.dep deps }]
         | none => [])
    | none => []
  Eff.andThen (fun _ => acquired) (resumeStrand k) s

/-- DREVAR_RESUME: the effect of RESUME (R313, R315). -/
def execDrevarResume (core slot : Nat) (s : State) : Host.Outcome State Fault Refusal :=
  Eff.when "DREVAR_RESUME" (fun s => answerable s core slot) (resumeStrand (slotKey core slot)) s

/-- DREVAR_RESUME_END: the effect of RESUME.end (R306, R313). -/
def execDrevarResumeEnd (core slot : Nat) (s : State) : Host.Outcome State Fault Refusal :=
  Eff.when "DREVAR_RESUME_END" (fun s => answerable s core slot) (endStrand (slotKey core slot)) s

/-! ## Page requests (R349 to R352) -/

/-- The first request not yet posted. -/
def nextReq (x : Part) : Option PageReq := x.reqs.find? fun r => !r.posted

/-- PAGE_REQUEST_POST. -/
def execPageRequestPost (part : Nat) (s : State) : Host.Outcome State Fault Refusal :=
  Eff.when "PAGE_REQUEST_POST" (fun s =>
      let x := s.part part
      (nextReq x).isSome && ringRoom x.pageq x.pageHead x.pageTail)
    (fun s =>
      let x := s.part part
      match nextReq x with
      | some r =>
        putWords (ringBase x.pageq + x.pageTail % ringDepth x.pageq * 32) [r.w0, r.w1, r.w2, r.w3] ++
        [.part part { x with reqs := x.reqs.map fun q => if q.tag = r.tag then { q with posted := true } else q,
                             pageTail := (x.pageTail + 1) % 2 ^ 32 }]
      | none => []) s

/-- Tags awaited, once one is answered: a retry is gone, a refusal stays as a mark. -/
def answerTags (tag : Nat) (refuse : Bool) (l : List Nat) : List Nat :=
  if refuse then l.map fun t => if t = tag then refusedTag else t else l.filter fun t => t ≠ tag

/-- Of tags issued from `first` on, the one posted first. -/
def firstTag (first : Nat) (l : List Nat) : Nat :=
  l.foldl (fun a t => if (t + 2 ^ 32 - first) % 2 ^ 32 < (a + 2 ^ 32 - first) % 2 ^ 32 then t else a) (l.headD 0)

/-- A strand's park hears the answer to one of its requests (R351). -/
def answerStrand (k tag : Nat) (refuse : Bool) : Eff := fun s =>
  let st := s.strand k
  match st.frame with
  | none => []
  | some t =>
    if !t.tags.contains tag then []
    else
      let t' := { t with tags := t.tags.filter fun x => x ≠ tag, refused := if refuse then t.refused ++ [tag] else t.refused }
      -- a park of another cause is resumed by its own route
      if !t'.tags.isEmpty || !t.paging then [.trap k (some t')]
      else if t'.refused.isEmpty then Eff.andThen (fun _ => [.trap k (some t')]) (replayAnswered k) s
      else
        let t2 := { t' with detail := BitVec.ofNat 64 (firstTag t.detail.toNat t'.refused) }
        Upd.trap k (some t2) :: postTrap st.part (trapRecord s k t2) s

/-- The peer's request that waits under a tag. -/
def peerWaiting (s : State) (part tag : Nat) : Option PeerWait := s.peerWaits.find? fun w => w.part = part && w.tag = tag

/-- A peer's request that waited is served again, after what the Drevar side has written, or refused. -/
def answerPeer (part tag : Nat) (refuse : Bool) : Eff := fun s =>
  match peerWaiting s part tag with
  | none => []
  | some w =>
    Eff.andThen (fun _ => [.peerWaits (s.peerWaits.filter fun y => y ≠ w)])
      (if refuse then refusePacket w.packet
       else Eff.andThen (fun s => outsideBehind (pkSource w.packet) (outsideDeps s drevarDev) s) (servePacket w.packet)) s

/-- Everything of a partition that waits on the tag hears the answer; what is done again acquires what the reply releases (Table 13-2). -/
def answerEngines (part tag : Nat) (refuse : Bool) : Eff := fun s =>
  let deps := outsideDeps s drevarDev
  (s.ops.filterMap fun o =>
    if o.tags.contains tag && (s.strand o.owner).part = part then some (.opSet { o with tags := answerTags tag refuse o.tags, dep := joinDeps o.dep deps }) else none) ++
  (s.tiles.filterMap fun e =>
    let f (l : TileLink) : TileLink :=
      if l.part = part && l.tags.contains tag then { l with tags := answerTags tag refuse l.tags, dep := joinDeps l.dep deps } else l
    let g (t : TileTask) : TileTask := { t with link := f t.link }
    if (e.2.chain ++ (e.2.held ++ e.2.running).map (·.link)).any fun l => l.part = part && l.tags.contains tag then
      some (.tile e.1 { chain := e.2.chain.map f, held := e.2.held.map g, running := e.2.running.map g })
    else none) ++
  s.chains.filterMap fun e =>
    if e.1 / 16 = part && e.2.tags.contains tag then some (.chain e.1 { e.2 with tags := answerTags tag refuse e.2.tags }) else none

/-- A peer's request that the reply lets go on may act now: the swept rows it names stand still, and their slices admit it (R125, R378). -/
def replyStill (s : State) (part tag : Nat) (refuse : Bool) : Bool := refuse || (peerWaiting s part tag).all fun w => peerStill s w.packet

/-- PAGE_REQUEST_REPLY: a reply that matches no outstanding request is ignored (R350, R351). -/
def execPageRequestReply (part tag : Nat) (refuse : Bool) (s : State) : Host.Outcome State Fault Refusal :=
  Eff.when "PAGE_REQUEST_REPLY" (fun s => replyStill s part tag refuse) (fun s =>
    let x := s.part part
    match x.reqs.find? fun r => r.tag = tag with
    | none => []
    | some r =>
      Eff.seq [fun _ => [.part part { x with reqs := x.reqs.filter fun q => q.tag ≠ tag }],
        match r.strand with
        | some k => answerStrand k tag refuse
        | none => Eff.andThen (answerEngines part tag refuse) (answerPeer part tag refuse)] s) s

/-! ## Launch chains from outside (R320, R321, R337) -/

/-- LAUNCH_APPEND_PORT links the record at an address as CHADV does: what the Drevar side has written is released with it, and its strands start behind it (R255, R320, notes/assumptions/101.md). -/
def execLaunchAppendPort (part chain addr : Nat) (s : State) : Host.Outcome State Fault Refusal :=
  Eff.when "LAUNCH_APPEND_PORT" (fun s => chain < 16 && linkOk s part chain)
    (fun s => appendRecord part chain (addr % 2 ^ 64) 0 (outsideDeps s drevarDev) s) s

/-- CHAIN_TIMELINE_WRITE raises the timeline; a lower or equal value is ignored. -/
def execChainTimelineWrite (part chain ct value : Nat) (s : State) : Host.Outcome State Fault Refusal :=
  Eff.when "CHAIN_TIMELINE_WRITE" (fun _ => chain < 16 && ct < 8)
    (fun s => [.ctAdvance (ctKey part chain ct) (value % 2 ^ 64) (outsideDeps s drevarDev)]) s

/-- LAUNCH_END_REQUEST: the Drevar side ends a launch. -/
def execLaunchEndRequest (launch : Nat) (s : State) : Host.Outcome State Fault Refusal :=
  Eff.when "LAUNCH_END_REQUEST" (fun s => match mapGet s.launches launch with | some l => !l.ended | none => false)
    (endLaunch launch) s

/-! ## Feeds (R358) -/

/-- TIMELINE_FEED. -/
def execTimelineFeed (part : Nat) (value : Word) (s : State) : Host.Outcome State Fault Refusal :=
  Eff.when "TIMELINE_FEED" (fun s => match feedTarget s part value with | some (id, tl, n) => arriveOk s id tl n | none => true)
    (fun s => match feedTarget s part value with
      | some (id, tl, n) => arriveFrom id tl n (outsideDeps s drevarDev) s
      | none => [.part part { (s.part part) with feedIgnored := ((s.part part).feedIgnored + 1) % 2 ^ 32 }]) s

/-- QUEUE_FEED. -/
def execQueueFeed (part : Nat) (handle : Word) (s : State) : Host.Outcome State Fault Refusal :=
  let key (s : State) := queueKey ((s.part part).feedTarget % 64) ((s.part part).feedTarget / 64 % 16)
  let code (s : State) := feedQueueCode (s.queue (key s)) (s.queue (key s)).hostFed
  Eff.when "QUEUE_FEED" (fun s => code s ≠ 0 || pushFromOk s part (key s))
    (fun s =>
      let c := code s
      Eff.andThen (if c = 0 then fun s => pushFrom part (key s) handle (outsideDeps s drevarDev) s else Eff.skip)
        (fun s => [.part part { (s.part part) with feedResult := c }]) s) s

/-! ## Translations (R347) -/

/-- STAGE2_GENERATION_RAISE: every older translation of the partition is out of date; at 0xFFFF nothing changes. -/
def execStage2GenerationRaise (part : Nat) (s : State) : Host.Outcome State Fault Refusal :=
  Eff.next (fun s =>
    let x := s.part part
    if x.gen2 = 0xFFFF then [] else [.part part { x with gen2 := x.gen2 + 1, genBusy := true }]) s

/-- The windows of a strand are gone. -/
def dropWindows (k : Nat) (st : Strand) : List Upd :=
  st.g.filterMap fun g => if g.2.win.isSome then some (.seg k g.1 { g.2 with win := none }) else none

/-- Every cached translation of a partition, or of one of its ASIDs, is removed. -/
def dropCached (part : Nat) (whole : Bool) (asid : Nat) : Eff := fun s =>
  let named (p a : Nat) : Bool := p = part && (whole || a = asid)
  .tlb (s.tlb.filter fun t => !named t.part t.asid) ::
  (s.strands ++ s.ghosts).flatMap fun e => if named e.2.part e.2.asid then dropWindows e.1 e.2 else []

/-- INVALIDATE_PORT: cached entries are removed and the generation reset to 0. -/
def execInvalidatePort (part : Nat) (whole : Bool) (asid : Nat) (s : State) : Host.Outcome State Fault Refusal :=
  Eff.next (Eff.andThen (dropCached part whole asid) fun s =>
    let x := s.part part
    if whole then [.part part { x with gen2 := 0, gens := [], invBusy := true }]
    else [.part part { x with gens := mapSet x.gens asid 0, invBusy := true }]) s

/-- TRANSLATION_INVALIDATE_COMPLETE. -/
def execTranslationInvalidateComplete (part : Nat) (s : State) : Host.Outcome State Fault Refusal :=
  Eff.when "TRANSLATION_INVALIDATE_COMPLETE" (fun s => (s.part part).invBusy || (s.part part).genBusy)
    (fun s => [.part part { (s.part part) with invBusy := false, genBusy := false }]) s

/-! ## Partitions (R341) -/

/-- Two ranges of numbers share one. -/
def rangesShare (a n b m : Nat) : Bool := 0 < n && 0 < m && a < b + m && b < a + n

/-- The checks of enabling a partition. -/
def enableOk (s : State) (part : Nat) : Bool :=
  let x := s.part part
  x.asidFirst + x.asidCount ≤ 65536 && x.keyFirst + x.keyCount ≤ 1024 &&
  s.parts.all fun e => e.1 = part || !e.2.enabled ||
    !(rangesShare x.asidFirst x.asidCount e.2.asidFirst e.2.asidCount || rangesShare x.keyFirst x.keyCount e.2.keyFirst e.2.keyCount)

/-- PARTITION_ENABLE. -/
def execPartitionEnable (part : Nat) (s : State) : Host.Outcome State Fault Refusal :=
  Eff.when "PARTITION_ENABLE" (fun s => part < 64 && !(s.part part).busy)
    (fun s =>
      let x := s.part part
      if x.enabled then [] else
        [.part part { x with enabled := enableOk s part, kLoads := [] },
         .measure (16 + part) (Config.sha384 [BitVec.ofNat 64 x.s2root, BitVec.ofNat 64 x.keyFirst, BitVec.ofNat 64 x.keyCount])]) s

/-- Launches of a partition that have not ended. -/
def liveLaunches (s : State) (part : Nat) : List Nat := (s.launches.filter fun e => e.2.part = part && !e.2.ended).map (·.1)

/-- Bindings and accumulator tags of a partition are freed, its cached translations gone. -/
def freePart (part : Nat) : Eff := fun s =>
  (s.xbars.filterMap fun e => if e.2.part = part && e.2.bound.isSome then some (.xbar e.1 { e.2 with bound := none }) else none) ++
  (s.accTags.filterMap fun e => if e.2.getLsbD 38 && tagPart e.2 = part then some (.accTag e.1 0) else none) ++
  dropCached part true 0 s

/-- PARTITION_DISABLE. -/
def execPartitionDisable (part : Nat) (s : State) : Host.Outcome State Fault Refusal :=
  Eff.when "PARTITION_DISABLE" (fun s => (s.part part).enabled)
    (fun s =>
      Eff.seq ((fun s => [.part part { (s.part part) with enabled := false, busy := true }]) :: (liveLaunches s part).map endLaunch ++ [freePart part]) s) s

/-- PARTITION_DISABLE_COMPLETE: every launch has ended; what ending ones have bound meanwhile is freed too. -/
def execPartitionDisableComplete (part : Nat) (s : State) : Host.Outcome State Fault Refusal :=
  Eff.when "PARTITION_DISABLE_COMPLETE" (fun s => (s.part part).busy && (liveLaunches s part).isEmpty)
    (Eff.andThen (freePart part) fun s => [.part part { (s.part part) with busy := false }]) s

/-! ## Swept regions (R357) -/

/-- Active regions but one. -/
def otherRegions (s : State) (part n : Nat) : List Region :=
  s.parts.flatMap fun p => p.2.regions.filterMap fun r =>
    if (r.2.active || r.2.busy) && !(p.1 = part && r.1 = n) then some r.2 else none

/-- The checks of creating a region. -/
def sweptOk (s : State) (part n : Nat) (r : Region) : Bool :=
  r.len ≠ 0 && r.len % 8192 = 0 && r.base % 8192 = 0 && r.die < 4 && r.mask ≠ 0 &&
  r.die * 2 ^ 37 ≤ r.base && r.base + r.len ≤ (r.die + 1) * 2 ^ 37 &&
  !rangesMeet r.base (r.base + r.len) s.regs.drevarBase s.regs.drevarLimit &&
  (otherRegions s part n).all (fun q => !rangesMeet r.base (r.base + r.len) q.base (q.base + q.len)) &&
  r.slices.all fun sl =>
    ((otherRegions s part n).filter fun q => q.die = r.die && q.mask.getLsbD sl).foldl (fun a q => a + q.perSlice) r.perSlice ≤ 4096

/-- SWEPT_CREATE: the descriptor is written and active set; a check that fails leaves failed set. -/
def execSweptCreate (part region die base mask len : Nat) (s : State) : Host.Outcome State Fault Refusal :=
  Eff.when "SWEPT_CREATE" (fun s => region < 4 && !((s.part part).region region).active && !((s.part part).region region).busy)
    (fun s =>
      let r : Region := { Region.blank with die := die, base := base, len := len, mask := BitVec.ofNat 16 mask }
      let ok := sweptOk s part region r
      setRegion part region (fun _ => { r with active := ok, busy := ok, failed := !ok }) s) s

/-- The stage-2 leaves under a table, by the entries that memory lists. -/
def leaves2 (s : State) (x : Part) : List Nat → Nat → List Nat
  | [], _ => []
  | sh :: r, tbl =>
    (s.mem.filter fun c => tbl ≤ c.1 && c.1 < tbl + 8192 && c.1 % 8 = 0).flatMap fun c =>
      let e := Memory.readN s.mem c.1 8
      if !pteBit e 0 then []
      else if pteRights e = 0 && sh ≠ 13 then (if e / 16 % 2 ^ 22 = 0 then leaves2 s x r (pteFrame e) else [])
      else if leafOk x true sh e then [e] else []

/-- The keys that a partition's class-1 leaves of a region's range carry. -/
def leafKeys (s : State) (part : Nat) (r : Region) : List Nat :=
  let x := s.part part
  (((leaves2 s x levels x.s2root).filter fun e =>
    pteCls e = 1 && rangesMeet (pteFrame e) (pteFrame e + 2 ^ sizeBits (pteSize e)) r.base (r.base + r.len)).map pteKey).eraseDups

/-- The leaf keys a region's range has now are kept with those it had. -/
def noteLeaves (s : State) (part : Nat) (r : Region) : Region := { r with keys := (r.keys ++ leafKeys s part r).eraseDups }

/-- SWEPT_CREATE_COMPLETE: lap 0 starts at the first multiple of the lap period (R357). -/
def execSweptCreateComplete (part region : Nat) (s : State) : Host.Outcome State Fault Refusal :=
  Eff.when "SWEPT_CREATE_COMPLETE" (fun s => ((s.part part).region region).active && ((s.part part).region region).busy)
    (fun s => setRegion part region (fun r => { noteLeaves s part r with busy := false, lap := 0, lapStart := (s.now + r.period - 1) / r.period * r.period }) s) s

/-- SWEPT_DESTROY. -/
def execSweptDestroy (part region : Nat) (s : State) : Host.Outcome State Fault Refusal :=
  Eff.when "SWEPT_DESTROY" (fun s => ((s.part part).region region).active && !((s.part part).region region).busy)
    (fun s => setRegion part region (fun r => { noteLeaves s part r with active := false, busy := true }) s) s

/-- Keys that a region's leaves have carried, and that its lines have been written or read under. -/
def regionKeys (s : State) (part : Nat) (r : Region) : List Nat :=
  ((noteLeaves s part r).keys ++
    (s.lineKeys.filter fun e => r.base ≤ 64 * e.1 && 64 * e.1 < r.base + r.len && e.2 ≠ anyKey).map (·.2)).eraseDups

/-- SWEPT_DESTROY_COMPLETE: every admitted request is served and the rows are back in memory; where the region's pages have had different keys what is written back is unspecified. -/
def execSweptDestroyComplete (part region : Nat) (s : State) : Host.Outcome State Fault Refusal :=
  Eff.when "SWEPT_DESTROY_COMPLETE" (fun s =>
      let r := (s.part part).region region
      !r.active && r.busy && r.queue.isEmpty)
    (Eff.andThen (fun s =>
        let r := (s.part part).region region
        if (regionKeys s part r).length ≤ 1 then []
        else (List.range r.len).map (fun i => Upd.mem (r.base + i) (Config.freeByte s.fresh (r.base + i))) ++ [.cover [0, 1, 2, 3] r.base r.len, .fresh])
      (setRegion part region fun r => { r with busy := false })) s

/-! ## Memory (R364) -/

/-- Bytes from an address, by aligned 8-byte word. -/
def wordPieces (addr : Nat) (bs : List Byte) : Nat → List (Nat × List Byte)
  | 0 => []
  | n + 1 =>
    if bs.isEmpty then []
    else
      let m := 8 - addr % 8
      (addr, bs.take m) :: wordPieces (addr + m) (bs.drop m) n

/-- The Drevar side writes n bytes here: main memory outside the log area (R356), or a cluster's scratch, which its loader fills (R277, R294). -/
def drevarWrites (s : State) (addr n : Nat) : Bool :=
  (s.inMain addr && s.inMain (addr + n - 1) && !rangesMeet addr (addr + n) s.regs.logBase s.regs.logLimit) || (onChip addr && ocType addr = 3 && ocAllowed addr n 1 true)

/-- DREVAR_MEMORY_WRITE stores at the home, word by word, each after what the Drevar side has written before, under the key that the line has; a whole line is poisoned no more. -/
def execDrevarMemoryWrite (addr : Nat) (bytes : List Byte) (s : State) : Host.Outcome State Fault Refusal :=
  Eff.when "DREVAR_MEMORY_WRITE" (fun s => !bytes.isEmpty && drevarWrites s addr bytes.length)
    (fun s =>
      let w := engineWriter 4 (outsideDeps s drevarDev)
      Eff.seq [Eff.seq ((wordPieces addr bytes bytes.length).map fun p s => storeBytes { w with key := (mapGet s.lineKeys (p.1 / 64)).getD anyKey } p.1 p.2 s),
        heal addr bytes.length, fun t => outsideBehind drevarDev (writesSince s t) t] s) s

/-! ## Control registers (R302, R329, R352, R356, R366, R371, R384) -/

/-- A word of a swept region descriptor, as the Drevar side writes it (Table 20-7): die, base, and length with slice mask; those of a region in use keep what they hold (notes/assumptions/102.md). -/
def regionWrite (r : Region) (n : Nat) (v : Word) : Region :=
  if r.active || r.busy then r
  else
    match n with
    | 0 => { r with die := fieldOf v 4 2 }
    | 1 => { r with base := fieldOf v 13 38 * 8192 }
    | 2 => { r with len := fieldOf v 0 32, mask := v.extractLsb' 32 16 }
    | _ => r

/-- A field of the partition control window that only stores (Table 20-1). -/
def partWrite (x : Part) (off : Nat) (v : Word) : Part :=
  match off with
  | 0x0008 => { x with s2root := fieldOf v 13 38 * 8192 }
  | 0x0010 => { x with asidFirst := fieldOf v 0 16, asidCount := fieldOf v 16 16 }
  | 0x0018 => { x with asidTab := fieldOf v 6 45 * 64 }
  | 0x0020 => { x with plaintext := fieldOf v 31 1 = 1, keyCount := fieldOf v 10 11, keyFirst := fieldOf v 0 10 }
  | 0x0040 => { x with ktempl := v }
  | 0x0048 => { x with trapq := v }
  | 0x0050 => { x with pageq := v }
  | 0x0058 => { x with accarea := v }
  | 0x0068 => { x with pageHead := fieldOf v 0 32 }
  | 0x0078 => { x with trapHead := fieldOf v 0 32 }
  | 0x0080 => { x with poolBase := fieldOf v 13 38 * 8192 }
  | 0x0088 => { x with poolEntries := fieldOf v 0 16 }
  | 0x00A0 => { x with feedTarget := fieldOf v 0 10 }
  | 0x3F00 => { x with sched := v &&& 0xFFFF0007#64 }
  | off =>
    if 0x0100 ≤ off && off < 0x0180 then { x with chainAsid := mapSet x.chainAsid ((off - 0x100) / 8) (fieldOf v 0 16) }
    else if 0x0200 ≤ off && off < 0x0400 then { x with imports := mapSet x.imports ((off - 0x200) / 8) (v &&& 0xFFFFFFFF07FF#64) }
    else if 0x0400 ≤ off && off < 0x0480 then
      let n := (off - 0x400) / 32
      { x with regions := mapSet x.regions n (regionWrite (x.region n) ((off - 0x400) % 32 / 8) v) }
    else x

/-- Word n of a chain's control block, as the Drevar side writes it (Table 19-1). -/
def chainWrite (x : Chain) (n : Nat) (v : Word) : Chain :=
  if n = 0 then
    { x with enabled := fieldOf v 0 1 = 1, halted := x.halted && fieldOf v 1 1 = 1, grant := fieldOf v 2 1 = 1, ceiling := fieldOf v 4 2,
             refusal := if fieldOf v 8 8 = 0 then 0 else x.refusal }
  else if 8 ≤ n && n < 12 then
    let sh := 64 * (n - 8)
    { x with mask := (x.mask &&& ~~~((BitVec.allOnes 64).setWidth 256 <<< sh)) ||| (v.setWidth 256 <<< sh) }
  else x

/-- A log control block's word (R371). Replay begins at the head. -/
def logWrite (x : Part) (n : Nat) (v : Word) : Part :=
  match n with
  | 0 => { x with logBase := fieldOf v 13 38 * 8192 }
  | 1 => { x with logSize := v.toNat }
  | 2 => { x with logHead := v.toNat }
  | 3 => { x with logTail := v.toNat }
  | 4 =>
    let on := fieldOf v 0 1 = 1
    { x with replayMode := on, replayIdent := fieldOf v 32 32, replayPos := if on && !x.replayMode then x.logHead else x.replayPos }
  | _ => x

/-- A feed entry's word: enabled, ring base, ring size (R384). -/
def feedWrite (x : Part) (c n : Nat) (v : Word) : Part :=
  let e := (mapGet x.feedEntries c).getD (false, 0, 0)
  match n with
  | 0 => { x with feedEntries := mapSet x.feedEntries c (fieldOf v 0 1 = 1, fieldOf v 6 45 * 64, e.2.2) }
  | 1 => { x with feedEntries := mapSet x.feedEntries c (e.1, e.2.1, fieldOf v 0 16) }
  | _ => x

/-- The region registers are legal (R356): in the populated LPDDR 6, not overlapping. -/
def regsOk (s : State) (r : RegionRegs) : Bool :=
  ([r.drevarBase, r.drevarLimit, r.logBase, r.logLimit].all fun a => a = 0 || (2 ^ 40 ≤ a && a ≤ 2 ^ 40 + s.lpddr)) &&
  !rangesMeet r.drevarBase r.drevarLimit r.logBase r.logLimit
def regsWrite (s : State) (n : Nat) (v : Word) : RegionRegs :=
  let r := s.regs
  let a := fieldOf v 13 38 * 8192
  let r' : RegionRegs := match n with
    | 0 => { r with drevarBase := a }
    | 1 => { r with drevarLimit := a }
    | 2 => { r with logBase := a }
    | 3 => { r with logLimit := a }
    | 4 => { r with lock := fieldOf v 0 1 = 1 }
    | _ => r
  if r.lock then r else if regsOk s r' then r' else r

/-- REGISTER_WRITE: a 64-bit word of the hinge die's on-chip space; anything with a behaviour of its own, or reserved, keeps what it holds. -/
def execRegisterWrite (addr : Nat) (value : Word) (s : State) : Host.Outcome State Fault Refusal :=
  Eff.when "REGISTER_WRITE" (fun _ => onChip addr && ocDie addr = 8 && addr % 8 = 0)
    (fun s =>
      let off := addr % 2 ^ 40
      if off < 64 * 65536 then
        let p := off / 65536
        let o := off % 65536
        if 0x4000 ≤ o && o < 0x5000 then
          let k := chainKey p ((o - 0x4000) / 256)
          [.chain k (chainWrite (s.chain k) ((o - 0x4000) % 256 / 8) value)]
        else [.part p (partWrite (s.part p) o value)]
      else if 0x10000000 ≤ off && off < 0x10000000 + 16 * 256 * 7 then
        let n := (off - 0x10000000) / 16
        let b := s.budget (n / 256) (n % 256)
        if off % 16 = 0 && fieldOf value 0 32 ≤ b.cap then [.budget n { b with limit := fieldOf value 0 32 }] else []
      else if 0x20000000 ≤ off && off < 0x20000000 + 64 * 64 then
        let p := (off - 0x20000000) / 64
        [.part p (logWrite (s.part p) (off % 64 / 8) value)]
      else if 0x30000000 ≤ off && off < 0x30000000 + 256 * 64 then
        let p := (off - 0x30000000) / 256
        [.part p (feedWrite (s.part p) (off % 256 / 16) (off % 16 / 8) value)]
      else if 0x40000000 ≤ off && off < 0x40000000 + 40 then [.regs (regsWrite s ((off - 0x40000000) / 8) value)]
      else []) s

end Sys2Proof.Machine
end

