-- ==== Sys2Proof/Machine/NearMem.lean ====
section
/-! DEFINITION. NMCALL, the Wilnum cores, ZSKIP and the end of a routine (R136 to R152, R276, R299). -/

namespace Sys2Proof.Machine

/-! ## The mesh of the base dies (R380, R381) -/

/-- Key of a source and destination pair of routers. -/
def meshKey (src dst : Nat) : Nat := 8 * src + dst

/-- A packet of a type (Table 23-2) enters the mesh with the next sequence number of its pair, and an address or command tag. -/
def meshSend (src dst kind : Nat) (tag : Word) : Eff := fun s =>
  if src = dst then []
  else
    let n := (mapGet s.meshNext (meshKey src dst)).getD 0
    [.mesh (s.mesh ++ [{ src := src, dst := dst, seq := n, kind := kind, tag := tag, escape := false, at_ := some src, via := src,
                         since := s.now, sentAt := s.now, resends := 0 }]),
     .meshNext (meshKey src dst) ((n + 1) % 2 ^ 20)]

/-- The router at which a compute die's commands enter the mesh: its lower stack (log 31). -/
def entryRouter (die : Nat) : Nat := 2 * die

/-! ## The command packet (Table 6-2) -/

def pktOvl (r : List Word) : Nat := fieldOf (recWord r 0) 0 16
def pktEntry (r : List Word) : Nat := fieldOf (recWord r 0) 16 16
def pktArgs (r : List Word) : Nat := fieldOf (recWord r 0) 32 4
def pktWords (r : List Word) : Nat := fieldOf (recWord r 0) 36 4
def pktRow (r : List Word) : Nat := fieldOf (recWord r 0) 40 7
def pktCol (r : List Word) : Nat := fieldOf (recWord r 0) 47 7
def pktFirst (r : List Word) : Nat := fieldOf (recWord r 0) 54 6
def pktReturn (r : List Word) : Bool := fieldOf (recWord r 0) 60 1 = 1
def pktTarget (r : List Word) : Nat := (recWord r 1).toNat
def pktRange (r : List Word) : Nat := (recWord r 2).toNat

/-- R140: what makes the packet an illegal operand. -/
def pktOk (st : Strand) (r : List Word) : Bool :=
  let n := pktWords r
  fieldOf (recWord r 0) 61 3 = 0 && recWord r 7 = 0 && pktArgs r ≤ 8 && n ≤ 8 && pktRange r ≤ 2 ^ 36 &&
  (n = 0 ||
    (pktRow r + 8 ≤ winH st.window && pktCol r + 8 ≤ winW st.window && pktFirst r + n ≤ 64 &&
     (List.range n).all fun i => st.wordOk (pktFirst r + i)))

/-- Lane-file keys of the slice, by row, column and word of the sub-window (R141). -/
def sliceKeys (st : Strand) (r : List Word) : List Nat :=
  (List.range 8).flatMap fun i => (List.range 8).flatMap fun j => (List.range (pktWords r)).map fun k =>
    st.laneAt ((pktRow r + i) * winW st.window + pktCol r + j) (pktFirst r + k)

/-! ## NMCALL (R140 to R142, R276) -/

/-- Wilnum core of a physical address (R142). -/
def wilOf (pa : Nat) : Nat := pa / 2 ^ 32 % 128

/-- The choice a command's arrival in a FIFO is (kind 8). -/
def cmdChoice (s : State) (o : Op) (w : Nat) : Choice :=
  let st := s.strand o.owner
  { kind := 8, obj := w, val := (s.wil w).seq, agent := strandAgent st, strand := st.number }

/-- The commands of a core that their callers hold at issue, oldest first. -/
def waitingCmds (s : State) (w : Nat) : List (Op × Cmd) :=
  s.ops.filterMap fun o =>
    match o.kind with
    | .nmcall _ cmd =>
      let x := s.wil w
      if wilOf cmd.pa = w && !o.parked && !(x.fifo.any fun c => c.op = o.id) && !(x.running.any fun c => c.op = o.id) then some (o, cmd)
      else none
    | _ => none

/-- One waiting command enters the FIFO, where it has a place and the arrival may be made. -/
def admitCmd (w : Nat) : Eff := fun s =>
  let x := s.wil w
  if 32 ≤ x.fifo.length then []
  else
    match (waitingCmds s w).find? fun p => choiceOk s (s.strand p.1.owner).launch (cmdChoice s p.1 w) with
    | none => []
    | some (o, cmd) =>
      withChoice (s.strand o.owner).launch (cmdChoice s o w) (fun _ s =>
        let x := s.wil w
        [.wilnum w { x with fifo := x.fifo ++ [cmd], seq := x.seq + 1 }] ++
        (if o.flag = 0 then [] else releaseHold s o []) ++
        meshSend (entryRouter (s.strand o.owner).die) (w / 16) 0 (BitVec.ofNat 64 o.id) s) s

/-- Every waiting command that can enters. -/
def admitCmds (w : Nat) : Eff := Eff.seq (List.replicate 32 (admitCmd w))

/-- NMCALL captures its packet, once what the strand has still to store or acquire cannot change it (R115), its arguments and its slice (R141). -/
def execNmcall (c : Common) (d a : Sel) (tl : TlArg) (s : State) : Host.Outcome State Fault Refusal :=
  (onEngine c len1 fun x s =>
    let st := x.st
    let off := (st.scalar a).toNat
    checked x [(st.laneOk d, cIllegalOperand), (off % 64 = 0, cMisaligned), (off + 64 ≤ 2 ^ 22, cPermission)]
      (fun s =>
        match scratchBadAt s st.cluster off 64 with
        | some w => killScratch (w * 8) s
        | none =>
        if recordBlocked s x 4 (scratchPA st.cluster off) 64 then stall x s
        else
        let r := s.homeWords (scratchPA st.cluster off) 8
        checked x [(pktOk st r, cIllegalOperand)]
          (fun s =>
            let va := pktTarget r
            match translate s st.core st.part st.asid st.level va 0 with
            | .error f => parkNow x { TrapInfo.plain f.cause with kind := 3, addrs := [BitVec.ofNat 64 va] } f.need.toList s
            | .ok (t, pa) =>
              let keys := sliceKeys st r
              checked x [(t.cls ≠ 2 && t.cls ≠ 4 && inHbm pa, cPermission)]
                (unlessBad (fun _ => keys) fun s =>
                  let id := s.nextOp
                  let cmd : Cmd := {
                    op := id, packet := r, a4 := (List.range 4).map fun i => st.sreg (4 + i),
                    slice := keys.map fun k => (k, s.laneWord st k), pa := pa }
                  Eff.seq [fun s => issueOp x s 1 tl (.nmcall (st.laneAt x.leader (selNum d)) cmd),
                    fun s => [.split x.k { (s.strand x.k).splitOf x.sp.num with run := .hold id }],
                    admitCmds (wilOf pa)] s) s) s) s).next s

/-! ## Loading a routine overlay (R138) -/

/-- Evicts the least recently started routine overlays, of the same partition first, until the new one fits; none where it cannot, as beyond the partition's granule quota (R104, R318). -/
def routineRoom (s : State) (new : Overlay) (quota : Nat) : Nat → List Overlay → Option (List Overlay)
  | 0, _ => none
  | n + 1, l =>
    if residentsFit (l ++ [new]) new.core new.part quota then some l
    else if quota < new.granules then none
    else
      let v := match evictee s new.core new.part l with
        | some v => some v
        | none => leastRecent (l.filter fun o => o.core = new.core && !s.inUse o)
      match v with
      | none => none
      | some v => routineRoom s new quota n (l.filter fun o => o ≠ v)

/-- The residents once an overlay is loaded on a Wilnum core and about to start; none where the load fails (R104). -/
def loadRoutine (s : State) (w part asid idx : Nat) : Option (List Overlay) :=
  let core := 256 + w
  match s.resident core part idx true with
  | some _ => some (s.overlays.map fun o => if o.is core part idx true then { o with lastCall := s.now } else o)
  | none =>
    match ovlEntry s part asid true idx with
    | none => none
    | some e =>
      if e.kbit && !Config.overlaySignatureVerifies part e.hash then none
      else
        match sourceWords s core part asid e.src (e.granules * 256) with
        | .error _ => none
        | .ok code =>
          let new : Overlay := { core := core, part := part, idx := idx, routine := true, granules := e.granules, hash := e.hash,
                                 kbit := e.kbit, code := code.map (·.1), slots := [], lastCall := s.now, stale := false }
          let rest := s.overlays.filter fun o => !o.is core part idx true
          (routineRoom s new (s.part part).quota (rest.length + 1) rest).map fun l => placeOverlay l new

/-- What a routine overlay fetched leaves beside its core: the lines read of its source (R354), and the measurement of a K overlay (R390). -/
def routineLoaded (w part asid idx : Nat) : Eff := fun s =>
  Eff.andThen (noteSource part asid true idx)
    (match s.resident (256 + w) part idx true with
     | some o => measureLoad o
     | none => Eff.skip) s

/-! ## Starting a routine (R143, R144) -/

/-- Pages of a range: how many, from its first. -/
def rangePages (r : List Word) : Nat :=
  if pktRange r = 0 then 0 else (pktTarget r + pktRange r - 1) / 8192 - pktTarget r / 8192 + 1

/-- Translation of page i of a range. -/
def rangePage (s : State) (part asid : Nat) (r : List Word) (i : Nat) : Except LaneFail Tlb :=
  walkPage s 256 part asid ((pktTarget r / 8192 + i) * 8192 % 2 ^ 64) 0

/-- The code the range refuses a command with; 0 where none does (R143). -/
def rangeCode (s : State) (part asid stack : Nat) (r : List Word) : Nat :=
  ((List.range (rangePages r)).findSome? fun i =>
    match rangePage s part asid r i with
    | .error _ => some 3
    | .ok t =>
      if !(pteBit t.rights 0 && pteBit t.rights 4) || t.cls ≠ 0 || t.frame / 2 ^ 23 ≠ stack then some 3
      else if t.key ≠ 0 then some 2
      else none).getD 0

/-- A command's routine as it starts, after what a release of its caller at die scope or wider carried to the NMCALL (R151, R282). -/
def startStrand (s : State) (w : Nat) (cmd : Cmd) (o : Op) : Strand :=
  let r := cmd.packet
  let caller := s.strand o.owner
  let win := winOf 8 8
  let dep := s.stillPending o.behind
  let args := (List.range 8).map fun i => if i < pktArgs r then (if i < 4 then recWord r (3 + i) else cmd.a4.getD (i - 4) 0) else 0
  { Strand.empty with
    core := 256 + w, slot := 0, window := win, launchWin := win, fpBase := 0, fpCount := 256,
    s := (2, BitVec.ofNat 64 (pktRange r)) :: (List.range 8).map fun i => (8 + i, args.getD i 0),
    g := [(0, { base := recWord r 1, limit := recWord r 2, attr := 0x1800#14, win := none })],
    launch := caller.launch, number := caller.number, part := caller.part, asid := caller.asid, level := 0,
    latSeed := s.fresh, lastEnd := s.now, placedAt := s.now, routine := some (pktTarget r, pktRange r, true), dep := dep,
    splits := [{ Split.none_ with mask := winMask win, ovl := pktOvl r, pc := pktEntry r, lastIssue := s.now, dep := dep }] }

/-- The slice's words in the Wilnum lane file (R141). -/
def sliceIn (w : Nat) (cmd : Cmd) : List Upd :=
  let n := pktWords cmd.packet
  (List.range cmd.slice.length).map fun i =>
    .loc (wilKey w) (.lane (laneAtIn (256 + w) (winOf 8 8) (i / n) (i % n)) (BitVec.allOnes 32) ((cmd.slice.getD i (0, 0)).2))

/-- The core may take its next command. -/
def wilReady (s : State) (w : Nat) : Bool := w < 128 && (s.wil w).running.isNone && !(s.wil w).fifo.isEmpty

/-- ROUTINE_START: the core takes the next command; a command refused before its routine runs ends at once with its code. -/
def execRoutineStart (w : Nat) (s : State) : Host.Outcome State Fault Refusal :=
  Eff.when "ROUTINE_START" (fun s => wilReady s w)
    (fun s =>
      let x := s.wil w
      match x.fifo with
      | [] => []
      | cmd :: rest =>
        match s.op? cmd.op with
        | none => [.wilnum w { x with fifo := rest }]
        | some o =>
          let st := startStrand s w cmd o
          let range := rangeCode s st.part st.asid (w / 16) cmd.packet
          let load := if range = 0 then loadRoutine s w st.part st.asid (pktOvl cmd.packet) else none
          let code := if range ≠ 0 then some range else if load.isNone then some 7 else none
          let caller := s.strand o.owner
          let src := BitVec.ofNat 64 (((ovlEntry s st.part st.asid true (pktOvl cmd.packet)).map (·.src)).getD 0)
          let fetched := load.isSome && (s.resident (256 + w) st.part (pktOvl cmd.packet) true).isNone
          Eff.seq [fun _ => [.wilnum w { x with fifo := rest, running := some cmd, starts := x.starts + 1, own := [], others := [] }, .lanesClear (256 + w), .fresh,
              .strand (wilKey w) { st with endCode := code }],
            fun _ => (match load with
              | some l => [.overlays l]
              | none => []) ++ (if code.isNone then sliceIn w cmd else []),
            if fetched then
              Eff.seq [routineLoaded w st.part st.asid (pktOvl cmd.packet),
                meshSend (w / 16) (entryRouter caller.die) 2 src, meshSend (entryRouter caller.die) (w / 16) 3 src]
            else Eff.skip,
            admitCmds w] s) s

/-! ## ZSKIP (R146, R227) -/

/-- ZSKIP reads the next index of the stream in g0, untyped, after the routine's own stores to it; only a routine has one. -/
def execZskip (c : Common) (d a b : Sel) (s : State) : Host.Outcome State Fault Refusal :=
  (onWord c len1 fun x s =>
    let st := x.st
    let va := (st.scalar a).toNat
    let g := st.segreg 0
    if !st.isRoutine then trapNow x cIllegalInstr s
    else if (st.scalar b).toNat ≤ va then
      issueOp x s 1 none (.zskip (selNum d) (selNum a) (BitVec.allOnes 64) (st.scalar a))
    else if va % 4 ≠ 0 || g.limit.toNat < va + 4 then trapNow x cSegLimit s
    else
      let addr := (g.base.toNat + va) % 2 ^ 64
      match engineSpan s { part := st.part, asid := st.asid, level := 0, cluster := 0, die := st.die } addr 0 4 with
      | .error .poison => trapNow x cPoison s
      | .error .format => trapNow x cFormat s
      | .error (.page n) => takeTrap x.k x.sp.num (TrapInfo.plain cPage1) [n] s
      | .error _ => trapNow x cPermission s
      | .ok sp =>
        if addr % 4 ≠ 0 then trapNow x cMisaligned s
        else if sp.any fun p => recordBlocked s x p.1.cls p.2 1 then stall x s
        else
          let v := sp.foldr (fun p v => s.homeKN p.1.key p.2 1 + 256 * v) 0
          Eff.andThen (noteSpan sp) (fun s => issueOp x s 1 none (.zskip (selNum d) (selNum a) (BitVec.ofNat 64 v) (st.scalar a + 4))) s).next s

/-! ## The end of a routine (R147 to R149) -/

/-- What a routine's operations still have to do: the stores of those that parked, and nothing else. -/
def routineStores (s : State) (k : Nat) : List Op :=
  s.ops.filter fun o => o.owner = k && (match o.kind with | .mem m => m.kind = .store && m.undone | _ => false)

/-- The routine has ended and nothing of it is under way. -/
def routineOver (s : State) (w : Nat) : Bool :=
  let k := wilKey w
  (s.wil w).running.isSome && ((mapGet s.strands k).bind (·.endCode)).isSome &&
  s.ops.all fun o => o.owner ≠ k || o.parked

/-- The status word (Table 6-3). -/
def routineStatus (st : Strand) (code : Nat) : Word :=
  BitVec.ofNat 64 (fieldOf (st.sreg 1) 0 24 * 256 + code * 16 + bit (code ≠ 0) 1 + 1)

/-- Status bits of a routine, those of results still under way among them. -/
def routineBits (st : Strand) : BitVec 7 :=
  st.delayed.foldl (fun a d => match d.2 with | .status v => a ||| v | _ => a) st.status

/-- Physical addresses of the lines of a range, as first and past, a page each. -/
def rangeLines (s : State) (part asid : Nat) (r : List Word) : List (Nat × Nat) :=
  let lo := pktTarget r / 64 * 64
  let hi := (pktTarget r + pktRange r + 63) / 64 * 64
  (List.range (rangePages r)).filterMap fun i =>
    match rangePage s part asid r i with
    | .ok t =>
      let page := (pktTarget r / 8192 + i) * 8192
      some (t.frame * 8192 + (max lo page - page), t.frame * 8192 + (min hi (page + 8192) - page))
    | .error _ => none

/-- Copies of the range's lines are dropped on every die, which then read what stands in HBM4E (R147 step 2). -/
def dropRange (cmd : Cmd) (part asid : Nat) : Eff := fun s =>
  if s.pend.isEmpty then []
  else
    let ls := rangeLines s part asid cmd.packet
    let hit := fun (c : Host.Cell) => ls.any fun l => l.1 ≤ c.1 && c.1 < l.2
    .pend ((s.pend.map fun p => { p with old := p.old.filter fun c => !hit c }).filter fun p => !p.old.isEmpty) ::
    s.pend.flatMap fun p => (p.old.filter hit).map fun c => .fire false [p.die] c.1 1

/-- A word that the routine and another agent have both stored to while it ran holds the value of either, unspecified which (R152). -/
def mixRange (w : Nat) : Eff := fun s =>
  let x := s.wil w
  .fresh :: x.own.flatMap fun e =>
    match mapGet x.others e.1 with
    | some v =>
      let want := if Config.earlyWrite s.fresh e.1 then e.2 else v
      if BitVec.ofNat 32 (Memory.readN s.mem e.1 4) = want then []
      else (List.range 4).map (fun i => Upd.mem (e.1 + i) (want.extractLsb' (8 * i) 8)) ++
        [.cover [0, 1, 2, 3] e.1 4, .fire true [0, 1, 2, 3] e.1 4]
    | none => []

/-- ROUTINE_END: the completion steps, in order. A killed caller's words are no longer its own. Lane words of fixed-latency results that have not come due at the NMRET are written back as they stand (DESIGN CHOICE, notes/assumptions/89.md). -/
def execRoutineEnd (w : Nat) (s : State) : Host.Outcome State Fault Refusal :=
  Eff.when "ROUTINE_END" (fun s => routineOver s w && (match (s.wil w).running with
      | some cmd => (match s.op? cmd.op with | some o => endOk s o | none => true)
      | none => false))
    (fun s =>
      let k := wilKey w
      let st := s.strand k
      let code := st.endCode.getD 0
      match (s.wil w).running with
      | none => []
      | some cmd =>
        let n := pktWords cmd.packet
        let clean : Eff := fun s =>
          ((s.ops.filter fun o => o.owner = k).map fun o => Upd.opDel o.id) ++
          [.strandDel k, .wilnum w { (s.wil w) with running := none, last := some ((routineStatus st code).setWidth 32) }]
        Eff.seq [Eff.seq ((routineStores s k).map fun o => match o.kind with
            | .mem m => performLanes o.id (m.reqs.filter fun r => r.st = .todo)
            | _ => Eff.skip),
          mixRange w, dropRange cmd st.part st.asid,
          fun s => match s.op? cmd.op with
            | none => []
            | some o =>
              (match o.kind with
               | .nmcall dKey _ =>
                 let back : List Upd :=
                   if pktReturn cmd.packet && code = 0 then
                     (List.range cmd.slice.length).map fun i =>
                       Upd.loc o.owner (.lane ((cmd.slice.getD i (0, 0)).1) (BitVec.allOnes 32)
                         (s.laneWord st (laneAtIn (256 + w) (winOf 8 8) (i / n) (i % n))))
                   else []
                 let own : List Upd := if 2 ^ 20 ≤ o.owner then [] else
                   back ++ [.loc o.owner (.lane dKey (BitVec.allOnes 32) ((routineStatus st code).setWidth 32)), .loc o.owner (.status (routineBits st))]
                 Eff.andThen (finishOp o own (s.stillPending (s.strand k).dep))
                   (meshSend (w / 16) (entryRouter (s.strand o.owner).die) 1 (BitVec.ofNat 64 o.id)) s
               | _ => []),
          clean, keepQuota (256 + w) st.part, admitCmds w] s) s

/-- NM_INJECT_PARITY: the debugger of a partition arms one fault at a word of one of the partition's routine overlays, named as partition · 65536 + index, for a routine that starts later (R299, notes/assumptions/97.md). -/
def execNmInjectParity (w ovl word : Nat) (s : State) : Host.Outcome State Fault Refusal :=
  Eff.when "NM_INJECT_PARITY" (fun s => w < 128 && (s.part (ovl / 65536)).enabled)
    (fun s => [.wilnum w { (s.wil w) with parity := some (ovl / 65536, ovl % 65536, word, (s.wil w).starts) }]) s

end Sys2Proof.Machine
end

