-- ==== Sys2Proof/Machine/Links.lean ====
section
/-! DEFINITION. The optical ports, die-to-die links, the base-die mesh and package faults (R373 to R376, R379 to R381). -/

namespace Sys2Proof.Machine

/-! ## Package faults (R379) -/

/-- Every launch of every partition ends, every enabled partition is told, and the management controller (R379). -/
def faultAll : Eff := fun s =>
  let live := (s.launches.filter fun e => !e.2.ended).map (·.1)
  let told := (s.parts.filter fun e => e.2.enabled).map (·.1)
  let r : TrapRec := { w0 := 0x1D, w1 := 0, w2 := 0, w3 := 0, w4 := 0, strand := none }
  Eff.seq (live.map endLaunch ++ (told.map fun p => postTrap p r) ++ [fun _ => [.faulted 0x1D]]) s

/-- The management controller reports temperatures, the budget window and its fault records (R391). -/
def reportNow : Eff := fun s => [.report { cores := s.temps, dies := s.dieTemps, budgets := s.budgets, faults := s.faults }]

/-! ## Ports (R374 to R376) -/

/-- FABRIC_FRAME_RECEIVE: a frame arrives whole, or fails its FEC or its CRC and is awaited again. -/
def execFabricFrameReceive (port : Nat) (ok : Bool) (s : State) : Host.Outcome State Fault Refusal :=
  Eff.when "FABRIC_FRAME_RECEIVE" (fun s => port < 64 && !(s.port port).down && !(s.port port).bad)
    (fun s => if ok then [] else [.port port { (s.port port) with bad := true, fails := 0 }]) s

/-- Failed retransmissions of one frame that bring a port down. -/
def portLimit : Nat := 16

/-- FRAME_RETRANSMIT. -/
def execFrameRetransmit (port : Nat) (ok : Bool) (s : State) : Host.Outcome State Fault Refusal :=
  Eff.when "FRAME_RETRANSMIT" (fun s => port < 64 && (s.port port).bad && !(s.port port).down && (s.port port).fails < portLimit)
    (fun s =>
      let x := s.port port
      [.port port (if ok then { x with bad := false, fails := 0 } else { x with fails := x.fails + 1 })]) s

/-- A request in flight on a port that is down goes by another, or ends as a refusal (R376). -/
def reroute (x : Sent) : Eff := fun s =>
  match routeTo s x.dev with
  | some p =>
    let q := { x.packet with port := p }
    Upd.sent (s.sent.map fun y => if y = x then { y with port := p, packet := q } else y) :: sendPacket q s
  | none =>
    match sentLane s x with
    | some (o, _, r) =>
      Eff.seq [dropSent x, fun _ => [markReq o r (fun q => { q with st := .refused cPage2 }) 0], endRefused o.id] s
    | none => dropSent x s

/-- A partition imports from a peer that a port reaches. -/
def importsBy (x : Part) (port : Nat) : Bool :=
  x.imports.any fun e => fieldOf e.2 0 1 = 1 && (Config.routes (fieldOf e.2 1 10)).contains port

/-- PORT_DOWN (R376). -/
def execPortDown (port : Nat) (s : State) : Host.Outcome State Fault Refusal :=
  Eff.when "PORT_DOWN" (fun s => port < 64 && (s.port port).bad && !(s.port port).down && portLimit ≤ (s.port port).fails)
    (fun s =>
      let told := (s.parts.filter fun e => importsBy e.2 port).map (·.1)
      let r : TrapRec := { w0 := 0x1C, w1 := BitVec.ofNat 64 port, w2 := 0, w3 := 0, w4 := 0, strand := none }
      Eff.seq ((fun s => [.port port { (s.port port) with down := true }]) ::
        (s.sent.filter fun x => x.port = port).map reroute ++ told.map fun p => postTrap p r) s) s

/-- The Drevar side sets the park level, one of the widths below the full one, the park delay and the wake threshold (R375). -/
def setPark (level delay wake : Nat) : Eff := fun _ => if [6, 4, 2].contains level then [.parkAt level delay wake] else []

/-- Flits waiting in a transmit half's queue. -/
def Port.waiting (x : Port) (now : Nat) : Nat := (x.emptyAt - now) / flitCycles x.width

/-- WAVELENGTH_PARK. -/
def execWavelengthPark (port : Nat) (s : State) : Host.Outcome State Fault Refusal :=
  Eff.when "WAVELENGTH_PARK" (fun s =>
      let x := s.port port
      port < 64 && !x.down && s.parkLevel < x.width && x.emptyAt + s.parkDelay ≤ s.now)
    (fun s => [.port port { (s.port port) with width := s.parkLevel }]) s

/-- WAVELENGTH_WAKE. -/
def execWavelengthWake (port : Nat) (s : State) : Host.Outcome State Fault Refusal :=
  Eff.when "WAVELENGTH_WAKE" (fun s =>
      let x := s.port port
      port < 64 && !x.down && x.width < 8 && s.wakeFlits < x.waiting s.now)
    (fun s =>
      let x := s.port port
      [.port port { x with width := 8, emptyAt := s.now + x.waiting s.now * flitCycles 8 }]) s

/-! ## Die-to-die links and photonic channels (R379) -/

/-- Consecutive failures on a link that are a package fault. -/
def d2dLimit : Nat := 64
def State.d2dFailed (s : State) (link : Nat) : Nat := (mapGet s.d2dFails link).getD 0

/-- D2D_FLIT_REPLAY: a flit or burst that failed its CRC is sent again, well or not. -/
def execD2dFlitReplay (link : Nat) (ok : Bool) (s : State) : Host.Outcome State Fault Refusal :=
  Eff.when "D2D_FLIT_REPLAY" (fun s => s.d2dFailed link < d2dLimit)
    (fun s => [.d2d link (if ok then 0 else s.d2dFailed link + 1)]) s

/-! ## The mesh (R380, R381) -/

/-- Cycles after which an unacknowledged packet is resent: 4 µs. -/
def resendCycles : Nat := 3400
def resendLimit : Nat := 16

/-- The packet in flight of a pair and sequence number. -/
def flight (s : State) (src dst seq : Nat) : Option MeshFlight := s.mesh.find? fun f => f.src = src && f.dst = dst && f.seq = seq
def setFlight (src dst seq : Nat) (g : MeshFlight → MeshFlight) : Eff := fun s =>
  [.mesh (s.mesh.map fun f => if f.src = src && f.dst = dst && f.seq = seq then g f else f)]

/-- The sequence number of a pair delivered next. -/
def State.meshDue (s : State) (src dst : Nat) : Nat := (mapGet s.meshSeen (meshKey src dst)).getD 0

/-- Column and row of a router. -/
def routerCol (r : Nat) : Nat := r % 2
def routerRow (r : Nat) : Nat := r / 2
/-- The next router of router r in the column direction toward another, where the columns differ (notes/assumptions/117.md). -/
def colHop (r dst : Nat) : Option Nat := if routerCol r = routerCol dst then none else some (2 * routerRow r + routerCol dst)
/-- The next router in the row direction, where the rows differ. -/
def rowHop (r dst : Nat) : Option Nat :=
  if routerRow r = routerRow dst then none else some (if routerRow r < routerRow dst then r + 2 else r - 2)

/-- The packets on their way that stand at a router: its region's occupancy (notes/assumptions/117.md). -/
def occupancy (s : State) (r : Nat) : Nat := (s.mesh.filter fun f => f.at_ = some r && f.dst ≠ r).length
/-- Free buffers of a channel at a router's input from another: those that no packet stands in (R381). -/
def freeBuffers (s : State) (r via : Nat) (escape : Bool) : Nat :=
  Config.meshBuffers + 1 - (s.mesh.filter fun f => f.at_ = some r && f.dst ≠ r && f.via = via && f.src ≠ r && f.escape = escape).length

/-- The next router of a packet: on the adaptive channel the productive direction of the lower occupancy, on a tie the column's; on the escape channel the column's first (R381). -/
def nextRouter (s : State) (f : MeshFlight) (r : Nat) : Option Nat :=
  match colHop r f.dst, rowHop r f.dst with
  | some c, some w => some (if f.escape || occupancy s c ≤ occupancy s w then c else w)
  | some c, none => some c
  | none, w => w

/-- Where a packet can go on to now: its next router has a free buffer for its channel. -/
def hopOf (s : State) (f : MeshFlight) : Option Nat :=
  match f.at_ with
  | none => none
  | some r => (nextRouter s f r).filter fun n => n = f.dst || 0 < freeBuffers s n r f.escape

/-- A packet goes on to its next router, where a buffer is free there. -/
def meshHop (src dst seq : Nat) : Eff := fun s =>
  match flight s src dst seq with
  | none => []
  | some f =>
    match hopOf s f with
    | none => []
    | some n => setFlight src dst seq (fun f => { f with at_ := some n, via := f.at_.getD src, since := s.now }) s

/-- A base die's firmware sends a maintenance packet to another. -/
def meshMaintain (src dst : Nat) : Eff := fun s => if src < 8 && dst < 8 then meshSend src dst 4 0 s else []

/-- A packet of the type an event names arrives, as it was sent: one whose CRC fails is not acknowledged; the others are delivered in sequence order. -/
def meshArrive (name : String) (kind : Nat) (p : MeshPacket) (e : Eff) (s : State) : Host.Outcome State Fault Refusal :=
  Eff.when name (fun s =>
      p.src < 8 && p.dst < 8 && p.payload.length ≤ 64 && p.kind = kind &&
      (match flight s p.src p.dst p.seq with
       | some f => f.at_ = some p.dst && f.kind = kind && f.tag = p.tag && f.escape = p.escape
       | none => false) &&
      (!p.crcOk || s.meshDue p.src p.dst = p.seq))
    (fun s =>
      if p.crcOk then
        Eff.andThen (fun s => [.mesh (s.mesh.filter fun f => !(f.src = p.src && f.dst = p.dst && f.seq = p.seq)),
          .meshSeen (meshKey p.src p.dst) ((p.seq + 1) % 2 ^ 20)]) e s
      else setFlight p.src p.dst p.seq (fun f => { f with at_ := none }) s) s

/-- MESH_COMMAND: the cores of the stack take what waits for them. -/
def execMeshCommand (p : MeshPacket) (s : State) : Host.Outcome State Fault Refusal :=
  meshArrive "MESH_COMMAND" 0 p (Eff.seq ((List.range 16).map fun i => admitCmds (16 * p.dst + i))) s
def execMeshCompletion (p : MeshPacket) (s : State) : Host.Outcome State Fault Refusal := meshArrive "MESH_COMPLETION" 1 p Eff.skip s
def execMeshOverlayRead (p : MeshPacket) (s : State) : Host.Outcome State Fault Refusal := meshArrive "MESH_OVERLAY_READ" 2 p Eff.skip s
def execMeshOverlayData (p : MeshPacket) (s : State) : Host.Outcome State Fault Refusal := meshArrive "MESH_OVERLAY_DATA" 3 p Eff.skip s
def execMeshMaintenance (p : MeshPacket) (s : State) : Host.Outcome State Fault Refusal := meshArrive "MESH_MAINTENANCE" 4 p Eff.skip s

/-- MESH_ESCAPE: a packet that has stood 32 cycles at a router and finds no adaptive buffer moves to the escape channel (R381, notes/assumptions/117.md). -/
def execMeshEscape (src dst seq : Nat) (s : State) : Host.Outcome State Fault Refusal :=
  Eff.when "MESH_ESCAPE" (fun s => match flight s src dst seq with
      | some f => f.at_.isSome && f.at_ ≠ some f.dst && !f.escape && f.since + 32 ≤ s.now && (hopOf s f).isNone
      | none => false)
    (setFlight src dst seq fun f => { f with escape := true }) s

/-- MESH_RESEND: the packet leaves its source again. -/
def execMeshResend (src dst seq : Nat) (s : State) : Host.Outcome State Fault Refusal :=
  Eff.when "MESH_RESEND" (fun s => match flight s src dst seq with
      | some f => f.resends < resendLimit && f.sentAt + resendCycles ≤ s.now
      | none => false)
    (fun s => setFlight src dst seq (fun f =>
      { f with resends := f.resends + 1, sentAt := s.now, escape := false, at_ := some src, via := src, since := s.now }) s) s

/-- A packet resent sixteen times and still not acknowledged. -/
def MeshFlight.lost (f : MeshFlight) (now : Nat) : Bool := resendLimit ≤ f.resends && f.sentAt + resendCycles ≤ now

/-- PACKAGE_FAULT: a link has failed 64 times in a row, or the mesh has given a packet up (R379, R381). -/
def execPackageFault (s : State) : Host.Outcome State Fault Refusal :=
  Eff.when "PACKAGE_FAULT" (fun s => (s.d2dFails.any fun e => d2dLimit ≤ e.2) || s.mesh.any fun f => f.lost s.now)
    (fun s =>
      Eff.andThen faultAll (fun t =>
        (t.d2dFails.filterMap fun e => if d2dLimit ≤ e.2 then some (.d2d e.1 0) else none) ++
        [.mesh (t.mesh.filter fun f => !f.lost t.now)]) s) s

end Sys2Proof.Machine
end

