-- ==== Sys2Proof/Machine/Integrity.lean ====
section
/-! DEFINITION. Patrol scrub, budget periods, droops and temperature (R319, R328, R362 to R368, R391). -/

namespace Sys2Proof.Machine

/-! ## Patrol scrub (R365) -/

/-- Stack of an HBM4E address. -/
def stackOf (pa : Nat) : Nat := pa / 2 ^ 36

/-- A budget has something left. -/
def budgetLeft (s : State) (index inst : Nat) : Bool := (s.budget index inst).counter < (s.budget index inst).limit
/-- A budget is charged. -/
def chargeBudget (index inst n : Nat) : Eff := fun s =>
  [.budget (budgetKey index inst) { (s.budget index inst) with counter := (s.budget index inst).counter + n }]

/-- A line found uncorrectable is poisoned wherever it is held (R364). -/
def poisonLine (pa : Nat) : Eff := fun s => if s.poison.contains (pa / 64) then [] else [.poison (s.poison ++ [pa / 64])]

/-- An overlay with an uncorrectable word in an instruction store, a Wilnum core's too, is resident no more: the next call of it takes the miss path (Table 22-1). -/
def spoilCode (core part idx : Nat) : Eff := fun s =>
  match s.overlays.find? fun o => o.is core part idx (256 ≤ core) with
  | some x =>
    -- the overlays that share its copy with it (R318)
    let with_ := fun (o : Overlay) => o = x || (o.core = core && !o.routine && !x.routine && o.slots = x.slots)
    [.overlays (s.overlays.map fun o => if with_ o then { o with stale := true } else o)]
  | none => []

/-- PATROL_SCRUB: a word with a single-bit error is written back as it was; an uncorrectable one poisons its line, kills, or makes its overlay not resident. -/
def execPatrolScrub (t : ScrubTarget) (s : State) : Host.Outcome State Fault Refusal :=
  match t with
  | .line pa bad =>
    Eff.when "PATROL_SCRUB" (fun s => inHbm pa && budgetLeft s 1 (stackOf pa))
      (Eff.andThen (chargeBudget 1 (stackOf pa) 64) (if bad then poisonLine pa else Eff.skip)) s
  | .slice die slice pa bad =>
    Eff.when "PATROL_SCRUB" (fun s => die < 4 && slice < 16 && s.inMain pa && budgetLeft s 0 (16 * die + slice))
      (Eff.andThen (chargeBudget 0 (16 * die + slice) Config.scrubCycles) (if bad then poisonLine pa else Eff.skip)) s
  | .scratch pa bad =>
    Eff.when "PATROL_SCRUB" (fun _ => onChip pa && ocDie pa < 4 && ocType pa = 3)
      (fun s => if bad || s.scratchBad.contains (pa / 8) then killScratch pa s else []) s
  | .code core part idx bad =>
    Eff.when "PATROL_SCRUB" (fun s => (s.resident core part idx (256 ≤ core)).isSome) (if bad then spoilCode core part idx else Eff.skip) s

/-! ## Budget periods (R366) -/

/-- Core cycles of a period. -/
def periodCycles : Nat := 108800

/-- BUDGET_PERIOD_START: every counter of the period before is kept and starts again; droops of the period before count for placement (R328). -/
def execBudgetPeriodStart (s : State) : Host.Outcome State Fault Refusal :=
  Eff.when "BUDGET_PERIOD_START" (fun s => s.period < s.now / periodCycles)
    (fun s =>
      [.period (s.now / periodCycles), .droop [] s.droops] ++
      s.budgets.map fun e => .budget e.1 { e.2 with prev := e.2.counter, counter := 0 }) s

/-- VOLTAGE_DROOP_EVENT. -/
def execVoltageDroopEvent (core : Nat) (s : State) : Host.Outcome State Fault Refusal :=
  Eff.when "VOLTAGE_DROOP_EVENT" (fun _ => core < 256)
    (fun s => [.droop (mapSet s.droops core ((mapGet s.droops core).getD 0 + 1)) s.droopsPrev]) s

/-! ## Temperature (R391) -/

/-- A die's budgets are halved. -/
def State.isHalved (s : State) (die : Nat) : Bool := (mapGet s.halved die).getD false

def execThermalThrottle (die temp : Nat) (s : State) : Host.Outcome State Fault Refusal :=
  Eff.when "THERMAL_THROTTLE" (fun s => die < 4 && 105 ≤ temp && !s.isHalved die) (fun _ => [.dieTemp die temp, .halved die true]) s

def execThermalRestore (die temp : Nat) (s : State) : Host.Outcome State Fault Refusal :=
  Eff.when "THERMAL_RESTORE" (fun s => die < 4 && temp ≤ 100 && s.isHalved die) (fun _ => [.dieTemp die temp, .halved die false]) s

/-- THERMAL_SHUTDOWN: a package fault, and power is removed. -/
def execThermalShutdown (die temp : Nat) (s : State) : Host.Outcome State Fault Refusal :=
  Eff.when "THERMAL_SHUTDOWN" (fun _ => die < 4 && 115 ≤ temp) (Eff.andThen (fun _ => [.dieTemp die temp]) (Eff.andThen faultAll fun _ => [.powered false])) s

end Sys2Proof.Machine
end

