-- ==== Sys2Proof/Machine/Boot.lean ====
section
/-! DEFINITION. Power-on, the anti-rollback counter, keys and attestation (R11, R386 to R390). -/

namespace Sys2Proof.Machine

/-! ## The configuration record (R386, R387); its layout is the model's (notes/assumptions/33.md) -/

def cfgVersion (r : List Word) : Nat := (r.getD 0 0).toNat
/-- LPDDR 6 capacity in GiB, and rate in tenths of Gb/s. -/
def cfgCapacity (r : List Word) : Nat := (r.getD 1 0).toNat
def cfgRate (r : List Word) : Nat := (r.getD 2 0).toNat
/-- The 68-bit map of the cores of a die that are mapped out. -/
def cfgMap (r : List Word) (die : Nat) : Nat := (r.getD (3 + 2 * die) 0).toNat + (r.getD (4 + 2 * die) 0).toNat * 2 ^ 64
def cfgOut (r : List Word) (die : Nat) : List Nat := (List.range 68).filter fun c => cfgMap r die / 2 ^ c % 2 = 1
/-- Limit of a budget row. -/
def cfgLimit (r : List Word) (index : Nat) : Nat := (r.getD (11 + index) 0).toNat % 2 ^ 32

/-- A record that M firmware accepts: capacity, rate and core maps are of those R11 and R386 allow, the link trims verify, and every link trains (R387). -/
def cfgOk (r : List Word) : Bool :=
  Config.linksTrain r && [256, 512, 1024].contains (cfgCapacity r) && [144, 128, 96].contains (cfgRate r) &&
  (List.range 4).all fun d => cfgMap r d < 2 ^ 68 && (cfgOut r d).length = 4

/-- The first of the two copies that verifies and is not older than the counter: what the boot ROM takes. -/
def firstGood (rollback : Nat) : List (List Word × List Word) → Option (List Word)
  | [] => none
  | c :: r => if Config.signatureVerifies c.1 c.2 && rollback ≤ cfgVersion c.1 then some c.1 else firstGood rollback r

/-- Instances of a budget row (R368). -/
def budgetInstances (index : Nat) : Nat :=
  match index with
  | 0 => 64
  | 1 => 8
  | 2 => 256
  | 3 => 64
  | _ => 4

/-- Physical cores mapped out; the package numbering has no gaps, so none of them has a number below 256 (R11). -/
def outCores (r : List Word) : List Nat := (List.range 4).flatMap fun d => (cfgOut r d).map fun c => 65536 + 68 * d + c

/-- POWER_ON_RESET, by the stages of Table 23-3: the ROM verifies and measures firmware and record, and where both copies of either fail the package waits for a new image; M firmware verifies what the record says, and its failure is a package fault, after which the boot goes no further. -/
def execPowerOnReset (f : Flash) (s : State) : Host.Outcome State Fault Refusal :=
  Eff.next (Eff.andThen (fun _ => [.powerOn f]) fun s =>
    match firstGood s.antiRollback (f.images.take 2), firstGood s.antiRollback (f.records.take 2) with
    | some image, some r =>
      [.measure 1 (Config.sha384 Config.bootRom), .measure 2 (Config.sha384 image), .measure 3 (Config.sha384 r),
       .identity (Config.identityKey f.helper)] ++
      (if cfgOk r then
        [.measure 4 (Config.sha384 Config.uefiImage), .booted (some (cfgVersion r)), .lpddr (cfgCapacity r * 2 ^ 30), .mappedOut (outCores r)] ++
        (List.range 7).flatMap fun i => (List.range (budgetInstances i)).map fun n =>
          .budget (budgetKey i n) { cap := cfgLimit r i, limit := cfgLimit r i, counter := 0, prev := 0 }
      else faultAll s ++ [.powered false])
    | _, _ => [.powered false]) s

/-- ANTI_ROLLBACK_RAISE. -/
def execAntiRollbackRaise (s : State) : Host.Outcome State Fault Refusal :=
  Eff.when "ANTI_ROLLBACK_RAISE" (fun s => s.bootedVersion.isSome)
    (fun s => [.antiRollback (max s.antiRollback (s.bootedVersion.getD 0))]) s

/-- A key slot lies in the range of an enabled partition. -/
def slotInUse (s : State) (slot : Nat) : Bool :=
  s.parts.any fun e => e.2.enabled && e.2.keyFirst ≤ slot && slot < e.2.keyFirst + e.2.keyCount

/-- KEY_SLOT_LOAD: a wrapped key that does not verify, or a slot in use, loads nothing. -/
def execKeySlotLoad (feed : Bool) (part slot : Nat) (wrapped : List Word) (s : State) : Host.Outcome State Fault Refusal :=
  Eff.when "KEY_SLOT_LOAD" (fun _ => if feed then part < 64 && slot < 64 else 1 ≤ slot && slot ≤ 1023)
    (fun s =>
      match s.identity.bind fun d => Config.unwrapKey d wrapped with
      | none => []
      | some k =>
        if feed then [.feedKey (64 * part + slot) k]
        else if slotInUse s slot then []
        else [.keySlot slot k]) s

/-- The public half of the identity key pair, once it is derived (R388). -/
def State.publicIdentity (s : State) : List Word := (s.identity.map Config.publicKey).getD []

/-- SPDM_REQUEST: index 0 asks for the certificate chain and the identity's public key, another for its measurement block. -/
def execSpdmRequest (index : Nat) (s : State) : Host.Outcome State Fault Refusal :=
  Eff.next (fun s =>
    if index = 0 then [.answer (s.flash.certificate ++ s.publicIdentity)]
    else
      match mapGet s.measured index with
      | some m => [.answer (BitVec.ofNat 64 index :: hashWords 384 m)]
      | none => [.answer [BitVec.ofNat 64 index]]) s

end Sys2Proof.Machine
end

