-- ==== Sys2Proof/Machine/Copy.lean ====
section
/-! DEFINITION. CPY and the copy engine (R121 to R123, R247 to R251). -/

namespace Sys2Proof.Machine

/-! ## Issue (R247) -/

/-- Register named by a lane selector, with a limit. -/
def laneRegOk (x : Sel) (limit : Nat) : Bool := match x with | .reg n => n.toNat ≤ limit | _ => false

/-- Whether a direction reads, or writes, a plane, and where memory stands. -/
def dirPlane (d : Nat) : Bool := d = 0 || d = 3 || d = 4 || d = 5
def dirMemSrc (d : Nat) : Bool := d = 0 || d = 1
def dirMemDst (d : Nat) : Bool := d = 2 || d = 3
/-- Number of the plane of a record, in its source or destination word; the word's other bits are not looked at (DESIGN CHOICE, notes/assumptions/111.md). -/
def copyPlane (r : List Word) : Nat :=
  let d := fieldOf (recWord r 0) 0 4
  fieldOf (recWord r (if d = 3 || d = 5 then 1 else 2)) 0 4

/-- CPY captures the record, the origin, the expected CRC, the plane's descriptor and the window; the record is read once what the strand has still to store or acquire cannot change it (R115), and meets an uncorrectable word (R319). The expected CRC is read where the record asks for one. A bounded plane raises bounded-type (R47). -/
def execCpy (c : Common) (d a o : Sel) (tl : TlArg) (s : State) : Host.Outcome State Fault Refusal :=
  (onMem c len1 fun x =>
    let st := x.st
    let l := x.leader
    checked x
      [(laneRegOk o 60 && laneRegOk d 62, cIllegalOperand),
       (st.laneOk a && (List.range 4).all (fun i => st.laneOk (selPlus o i)) && st.laneOk d, cIllegalOperand)]
      (unlessBad (fun _ => laneKeys st [l] (a :: (List.range 4).map (selPlus o))) fun s =>
        let off := (s.laneSrc st a l).toNat
        checked x [(off % 128 = 0, cMisaligned), (off + 128 ≤ 2 ^ 22, cPermission)]
          (fun s =>
            let pa := scratchPA st.cluster off
            let r := s.homeWords pa 16
            if recordBlocked s x 4 pa 128 then stall x s
            else
            match badOnChip s pa 128 false with
            | some k => k s
            | none =>
            let on := fieldOf (recWord r 0) 13 1 = 1
            let cp : CopyOp := {
              rec_ := r, origin := (List.range 4).map fun i => (s.laneSrc st (selPlus o i) l).toInt,
              crc := if on then s.laneSrc st (selPlus d 1) l else 0, pd := st.pdreg (copyPlane r), window := st.window, leader := l,
              dKey := st.laneAt l (selNum d), crcKey := st.laneAt l (selNum d + 1),
              vals := [], words := [], wrote := [] }
            checked x [(!on || st.laneOk (selPlus d 1), cIllegalOperand), (!(dirPlane (fieldOf (recWord r 0) 0 4) && isBounded (fieldOf cp.pd 32 4)), cBounded)]
              (unlessBad (fun _ => if on then laneKeys st [l] [selPlus d 1] else []) fun s => issueOp x s 1 tl (.copy cp)) s) s)).next s

/-! ## The record (Table 11-6) -/

def CopyOp.dir (x : CopyOp) : Nat := fieldOf (recWord x.rec_ 0) 0 4
def CopyOp.rank (x : CopyOp) : Nat := fieldOf (recWord x.rec_ 0) 4 4 + 1
def CopyOp.fmt (x : CopyOp) : Nat := fieldOf (recWord x.rec_ 0) 8 4
def CopyOp.signal (x : CopyOp) : Bool := fieldOf (recWord x.rec_ 0) 12 1 = 1
def CopyOp.crcOn (x : CopyOp) : Bool := fieldOf (recWord x.rec_ 0) 13 1 = 1
def CopyOp.fill (x : CopyOp) : Nat := fieldOf (recWord x.rec_ 0) 14 2
def CopyOp.box (x : CopyOp) : List Nat := (List.range x.rank).map fun k => fieldOf (recWord x.rec_ 8) (16 * k) 16
def CopyOp.size (x : CopyOp) (k : Nat) : Nat := fieldOf (recWord x.rec_ (3 + k / 2)) (32 * (k % 2)) 32
def CopyOp.stride (x : CopyOp) (k : Nat) : Int := (recWord x.rec_ (4 + k)).toInt

/-- The plane as the captured descriptor and window lay it out. -/
def CopyOp.geo (x : CopyOp) : Geo := Geo.of x.window x.pd

/-- The record is refused whatever it reaches (code 6, R250): reserved fields, codes, box sizes, and what a plane must be. -/
def CopyOp.refused (x : CopyOp) (st : Strand) : Bool :=
  let r := x.rec_
  let d := x.dir
  let g := x.geo
  let w0 := recWord r 0
  let mem := dirMemSrc d || dirMemDst d
  fieldOf w0 16 48 ≠ 0 || 5 < d || 4 < x.rank || x.fmt = 15 || isBounded x.fmt || x.fill = 3 ||
  (!dirMemSrc d && (x.fill ≠ 0 || recWord r 9 ≠ 0)) ||
  (!mem && [3, 4, 5, 6, 7].any fun i => recWord r i ≠ 0) ||
  [12, 13, 14, 15].any (fun i => recWord r i ≠ 0) || x.box.any (fun b => b = 0) ||
  (dirPlane d &&
    (x.rank = 4 || !planeOk { st with window := x.window } x.pd || isBounded g.ty ||
     g.W ≠ x.box.getD 0 1 || g.H ≠ x.box.getD 1 1 || g.D ≠ x.box.getD 2 1 || (x.fmt ≠ 0 && x.fmt ≠ g.ty)))

/-- Elements of a box, e0 fastest. -/
def boxElems : List Nat → List (List Nat)
  | [] => [[]]
  | b :: r => (boxElems r).flatMap fun t => (List.range b).map fun i => i :: t

/-! ## The two sides (R249) -/

/-- Tensor coordinates of an element, and whether it lies inside. -/
def CopyOp.coord (x : CopyOp) (e : List Nat) (k : Nat) : Int := x.origin.getD k 0 + (e.getD k 0 : Int)
def CopyOp.inside (x : CopyOp) (e : List Nat) : Bool :=
  (List.range x.rank).all fun k => 0 ≤ x.coord e k && x.coord e k < (x.size k : Int)

/-- The memory endpoint. -/
def CopyOp.endpoint (x : CopyOp) : Nat := (recWord x.rec_ (if dirMemSrc x.dir then 1 else 2)).toNat

/-- Virtual address of an element on the memory side, and of its scale on a scaled page. -/
def CopyOp.memVA (x : CopyOp) (geom msize : Nat) (e : List Nat) : Nat × Nat :=
  let tail : Int := (List.range (x.rank - 1)).foldl (fun a i => a + x.coord e (i + 1) * x.stride (i + 1)) 0
  if geom = 0 then
    ((((x.endpoint : Int) + x.coord e 0 * msize + tail) % ((2 ^ 64 : Nat) : Int)).toNat, 0)
  else
    let granule := x.endpoint / 8192 * 8192
    let i : Int := ((x.endpoint % 8192 : Nat) : Int) + x.coord e 0 + tail
    let nl : Int := (geomCodes geom : Nat)
    let g := i / nl
    let j := (i % nl).toNat
    let base := (((granule : Int) + g * 8192) % ((2 ^ 64 : Nat) : Int)).toNat
    (base + j, base + geomCodes geom + j / geomLen geom)

/-- The fill value's bits. -/
def CopyOp.fillBits (x : CopyOp) (f : Nat) : Nat :=
  match x.fill with
  | 1 => (recWord x.rec_ 9).toNat % 2 ^ fmtWidth f
  | 2 => if isFloat f then fpNaN f else if f = 4 then (roundTB8 (decodeF 1 (fpNaN 1))).1 else 0
  | _ => 0

/-- Index of an element in e0-fastest order. -/
def boxIndex : List Nat → List Nat → Nat
  | b :: bs, e :: es => e + b * boxIndex bs es
  | _, _ => 0

/-- Scratch offset of the scratch side: bits [21:0] of its word, the others not looked at (DESIGN CHOICE, notes/assumptions/111.md). -/
def CopyOp.scratchOff (x : CopyOp) (src : Bool) : Nat := fieldOf (recWord x.rec_ (if src then 1 else 2)) 0 22

/-- A memory element's value in f: raw where the page agrees, else converted (R112, R113). -/
def memToF (s : State) (a : Agent) (f va scaleVA : Nat) (t : Tlb) : Except EFail Nat :=
  let n := if t.geom ≠ 0 then 1 else if t.fmt = 0 then fmtBytes f else fmtBytes t.fmt
  match engineSpan s a va 0 n with
  | .error e => .error e
  | .ok sp =>
    let raw := spanValue s a.die sp
    if t.geom ≠ 0 then
      match engineSpan s a scaleVA 0 1 with
      | .error e => .error e
      | .ok k => .ok (loadScaled f raw (spanValue s a.die k)).1
    else if t.fmt = 0 || t.fmt = f then .ok raw
    else .ok (convertElem t.fmt f 0 false raw).1

/-- What one element comes to: its value in f, and the bytes it writes where memory is the destination. -/
structure CopyElem where
  e : List Nat
  inside : Bool
  val : Nat
  dst : List ((Tlb × Nat) × Byte)
  deriving DecidableEq, Repr

/-- One element as its source holds it. An element that memory would hold outside the tensor is not read (R122). -/
def CopyOp.fetch (x : CopyOp) (s : State) (st : Strand) (f geom msize : Nat) (e : List Nat) : Except EFail Nat :=
  let a := agentOf st
  let d := x.dir
  if dirMemSrc d then
    if x.inside e then
      let v := x.memVA geom msize e
      match engineAddr s a v.1 0 with
      | .error er => .error er
      | .ok (t, _) => if t.geom ≠ geom then .error .format else memToF s a f v.1 v.2 t
    else .ok (x.fillBits f)
  else if dirMemDst d && !x.inside e then .ok 0
  else if d = 2 || d = 4 then
    let off := x.scratchOff true + boxIndex x.box e * fmtBytes f
    if 2 ^ 22 < off + fmtBytes f then .error .window
    else if (scratchBadAt s a.cluster off (fmtBytes f)).isSome then .error .poison
    else .ok (scratchN s a.cluster off (fmtBytes f))
  else .ok (s.elem st x.window x.geo (e.getD 2 0) (e.getD 1 0) (e.getD 0 0))

/-- An element's value: each is read once (R121). -/
def CopyOp.read (x : CopyOp) (s : State) (st : Strand) (f geom msize : Nat) (e : List Nat) : Except EFail Nat :=
  match x.vals.find? fun v => v.1 = e with
  | some v => .ok v.2
  | none => x.fetch s st f geom msize e

/-- Bytes an element writes in memory; nothing outside, and no store into a scaled page (R113, R122). -/
def CopyOp.write (x : CopyOp) (s : State) (st : Strand) (f msize : Nat) (e : List Nat) (v : Nat) :
    Except EFail (List ((Tlb × Nat) × Byte)) :=
  if dirMemDst x.dir && x.inside e then
    let a := agentOf st
    let va := (x.memVA 0 msize e).1
    match engineAddr s a va 1 with
    | .error er => .error er
    | .ok (t, _) =>
      if t.geom ≠ 0 then .error .format
      else
        let n := if t.fmt = 0 then fmtBytes f else fmtBytes t.fmt
        let out := if t.fmt = 0 || t.fmt = f then v else (convertElem f t.fmt 0 false v).1
        match engineSpan s a va 1 n with
        | .error er => .error er
        | .ok sp => .ok (sp.zip (bytesOf out n))
  else if x.dir = 1 || x.dir = 5 then
    if 2 ^ 22 < x.scratchOff false + boxIndex x.box e * fmtBytes f + fmtBytes f then .error .window else .ok []
  else .ok []

/-- Elements in order until one fails. -/
def CopyOp.elems (x : CopyOp) (s : State) (st : Strand) (f geom msize : Nat) : List (List Nat) → List CopyElem × Option EFail
  | [] => ([], none)
  | e :: r =>
    match x.read s st f geom msize e with
    | .error er => ([], some er)
    | .ok v =>
      match x.write s st f msize e v with
      | .error er => ([], some er)
      | .ok d =>
        let t := CopyOp.elems x s st f geom msize r
        ({ e := e, inside := x.inside e, val := v, dst := d } :: t.1, t.2)

/-- Code of a failure while running (Table 11-7). -/
def EFail.copyCode : EFail → Nat
  | .page _ => 1
  | .perm => 2
  | .format => 3
  | .device => 4
  | .poison => 5
  | .window => 7

/-- What running a copy comes to: elements done, a failure or a page to wait for, the element format (0 where nothing was read or written), the width of an element on the source's side, and the destination words that elements not done share in. -/
structure CopyRun where
  elems : List CopyElem
  fail : Option EFail
  fmt : Nat
  unit : Nat
  short : List Nat
  deriving DecidableEq, Repr

/-- A copy that reads and writes nothing. -/
def CopyRun.none_ (f : Option EFail) : CopyRun := { elems := [], fail := f, fmt := 0, unit := 0, short := [] }

/-- The 4-byte words, on chip, in memory or of a lane file, that an element writes, msize bytes in memory. -/
def CopyOp.wordsAt (x : CopyOp) (s : State) (st : Strand) (f msize : Nat) (e : List Nat) : List Nat :=
  if x.dir = 0 || x.dir = 4 then
    let p := x.geo.place (e.getD 1 0) (e.getD 0 0)
    [laneAtIn st.core x.window p.1 (x.geo.word (e.getD 2 0) p.2)]
  else if x.dir = 1 || x.dir = 5 then wordsOf (scratchPA st.cluster (x.scratchOff false + boxIndex x.box e * fmtBytes f)) (fmtBytes f)
  else if x.inside e then
    (List.range msize).foldl (fun l i => match enginePage s (agentOf st) ((x.memVA 0 msize e).1 + i) 1 with
      | .ok p => if l.contains (p.2 / 4 * 4) then l else l ++ [p.2 / 4 * 4]
      | .error _ => l) []
  else []

/-- Runs the elements of a box in order. -/
def CopyOp.runElems (x : CopyOp) (s : State) (st : Strand) (f geom msize unit : Nat) : CopyRun :=
  let all := boxElems x.box
  let r := x.elems s st f geom msize all
  { elems := r.1, fail := r.2, fmt := f, unit := unit,
    short := if r.2.isNone then [] else (all.drop r.1.length).flatMap (x.wordsAt s st f msize) }

/-- Runs a record that is not refused: the endpoint's page first, of which nothing is read for its own sake, then every element (R122, R249). -/
def CopyOp.run (x : CopyOp) (s : State) (st : Strand) : CopyRun :=
  let g := x.geo
  if dirMemSrc x.dir || dirMemDst x.dir then
    match enginePage s (agentOf st) x.endpoint (if dirMemSrc x.dir then 0 else 1) with
    | .error f => .none_ (some f)
    | .ok (t, pa) =>
      let f := if x.fmt = 0 then t.fmt else x.fmt
      if f = 0 then .none_ (some .format)
      else if dirPlane x.dir && f ≠ g.ty then { CopyRun.none_ none with fmt := f }
      else if t.geom ≠ 0 && geomCodes t.geom ≤ pa % 8192 then .none_ (some .format)
      else
        let msize := if t.geom ≠ 0 then 1 else if t.fmt = 0 then fmtBytes f else fmtBytes t.fmt
        x.runElems s st f t.geom msize (if dirMemSrc x.dir then msize else fmtBytes f)
  else
    let f := if x.fmt = 0 then g.ty else x.fmt
    if f ≠ g.ty then { CopyRun.none_ none with fmt := f } else x.runElems s st f 0 (fmtBytes f) (fmtBytes f)

/-! ## The end (R250) -/

/-- The words that an element done writes. -/
def CopyOp.destWords (x : CopyOp) (s : State) (st : Strand) (f : Nat) (e : CopyElem) : List Nat :=
  if dirMemDst x.dir then (e.dst.map fun p => p.1.2 / 4 * 4).eraseDups else x.wordsAt s st f 0 e.e

/-- A destination word is written: each of a copy that ends normally; of one that fails those written before, and of the others that hold elements done alone some, unspecified which (R121, R123). -/
def CopyOp.keeps (x : CopyOp) (r : CopyRun) (seed w : Nat) : Bool :=
  r.fail.isNone || x.words.contains w || (!r.short.contains w && Config.earlyWrite seed w)

/-- The elements all of whose words are written. -/
def CopyOp.whole (x : CopyOp) (s : State) (st : Strand) (seed : Nat) (r : CopyRun) : List CopyElem :=
  r.elems.filter fun e => (x.destWords s st r.fmt e).all (x.keeps r seed)

/-- Bytes of a box in scratch, with their addresses. -/
def CopyOp.scratchBytes (x : CopyOp) (st : Strand) (r : CopyRun) : List (Nat × Byte) :=
  r.elems.flatMap fun e =>
    let pa := scratchPA st.cluster (x.scratchOff false + boxIndex x.box e.e * fmtBytes r.fmt)
    (List.range (fmtBytes r.fmt)).map fun i => (pa + i, (bytesOf e.val (fmtBytes r.fmt)).getD i 0)

/-- Destination updates of those words written that are asked for (R121, R123). -/
def CopyOp.writes (x : CopyOp) (st : Strand) (o : Op) (r : CopyRun) (only : Nat → Bool) : Eff := fun s =>
  let now_ := fun (w : Nat) => only w && x.keeps r s.fresh w
  let w := engineWriter st.die o.dep
  if x.dir = 0 || x.dir = 4 then
    let kept := x.whole s st s.fresh r
    let val := fun d y z => (kept.find? fun e => e.e.getD 2 0 = d && e.e.getD 1 0 = y && e.e.getD 0 0 = z).map (·.val)
    let g := x.geo
    let ups := (planeWrites st.core x.window g (winMask x.window) s.fresh fun d y z => (val d y z).getD 0).filter fun u => match u with
      | .lane key _ _ => only key
      | _ => true
    if r.fmt = 0 then [.fresh]
    else if r.fail.isNone then ups.map (Upd.loc o.owner) ++ [.fresh]
    else
      ((kept.filter fun e => (x.destWords s st r.fmt e).all only).map fun e =>
        let p := g.place (e.e.getD 1 0) (e.e.getD 0 0)
        let key := laneAtIn st.core x.window p.1 (g.word (e.e.getD 2 0) p.2)
        Upd.loc o.owner (.lane key (laneFieldMask g.b (g.fieldNo p.2)) (BitVec.ofNat 32 (e.val % 2 ^ g.b) <<< (g.b * g.fieldNo p.2)))) ++
      (planeWrites st.core x.window g 0 s.fresh fun _ _ _ => 0).map (Upd.loc o.owner) ++ [.fresh]
  else if x.dir = 1 || x.dir = 5 then
    let rs := runsOf ((x.scratchBytes st r).filter fun p => now_ (p.1 / 4 * 4))
    Eff.andThen (Eff.seq (rs.map fun p => Eff.andThen (storeBytes w p.1 p.2) (heal p.1 p.2.length))) (fun _ => [.fresh]) s
  else
    let l := (r.elems.flatMap (·.dst)).filter fun p => now_ (p.1.2 / 4 * 4)
    Eff.seq [engineStore w 4 l, Eff.seq ((l.map fun p => p.1.2 / 64).eraseDups.map fun line =>
      if (List.range 64).all fun i => l.any fun p => p.1.2 = line * 64 + i then heal (line * 64) 64 else Eff.skip), fun _ => [.fresh]] s

/-- The signal's physical bytes: none where it fails; a page to wait for (R250). -/
def CopyOp.signalAt (x : CopyOp) (s : State) (st : Strand) : Except EFail (List (Tlb × Nat)) :=
  let a := (recWord x.rec_ 10).toNat
  if a % 8 ≠ 0 then .error .perm
  else if a / 2 ^ 63 = 1 then
    if 2 ^ 22 < a % 2 ^ 63 + 8 then .error .window
    else .ok ((List.range 8).map fun i =>
      ({ core := 256, part := 0, asid := 0, gen := 0, gen2 := 0, vpage := 0, gpage := 0, frame := 0, cls := 4, fmt := 0, geom := 0, key := 0, rights := 0 },
       scratchPA st.cluster (a % 2 ^ 22) + i))
  else
    match engineSpan s (agentOf st) a 1 8 with
    | .error f => .error f
    | .ok sp => if sp.all fun p => p.1.geom = 0 && (p.1.fmt = 0 || p.1.fmt = 11 || p.1.fmt = 12) then .ok sp else .error .format

/-- The status word (Table 11-7). How much a copy had read that fails after its first element is not stated: a free value up to all it reads (notes/assumptions/77.md). -/
def CopyOp.status (x : CopyOp) (seed code : Nat) (crc : LWord) (r : CopyRun) : Nat :=
  let all := boxElems x.box
  let out := if (dirMemSrc x.dir || dirMemDst x.dir) && code ≠ 6 then (all.filter fun e => !x.inside e).length else 0
  let read := if x.dir = 0 || x.dir = 1 || x.dir = 2 then (all.filter x.inside).length * r.unit
    else if x.dir = 4 then all.length * r.unit else 0
  let most := min ((read + 31) / 32) 0xFFFFFF
  let units := if code = 6 || r.fmt = 0 then 0
    else if r.fail.isNone then most
    else if r.elems.isEmpty then 0
    else (Config.freeWord seed).toNat % (most + 1)
  bit true 31 + bit (x.crcOn && crc ≠ x.crc) 30 + bit (0 < out && out = all.length) 29 + bit (0 < out) 28 + code * 2 ^ 24 + units

/-- The CRC over the elements written, each as its bytes in f (R249). -/
def CopyOp.crcOf (x : CopyOp) (s : State) (st : Strand) (seed : Nat) (r : CopyRun) : LWord :=
  crc32c (((x.whole s st seed r).filter fun e => e.inside || !dirMemDst x.dir).flatMap fun e => bytesOf e.val (fmtBytes r.fmt))

/-- The first and last byte, and the scale's, of each memory element of a copy, where its page is mapped. -/
def CopyOp.memBytes (x : CopyOp) (s : State) (st : Strand) : List (Tlb × Nat) :=
  if dirMemSrc x.dir || dirMemDst x.dir then
    match enginePage s (agentOf st) x.endpoint (if dirMemSrc x.dir then 0 else 1) with
    | .ok (t, _) =>
      let f := if x.fmt = 0 then t.fmt else x.fmt
      let msize := if t.geom ≠ 0 then 1 else if t.fmt = 0 then fmtBytes f else fmtBytes t.fmt
      ((boxElems x.box).filter x.inside).flatMap fun e =>
        let v := x.memVA t.geom msize e
        ([v.1, v.1 + (msize - 1)] ++ (if t.geom = 0 then [] else [v.2])).filterMap fun a =>
          match enginePage s (agentOf st) a (if dirMemSrc x.dir then 0 else 1) with
          | .ok p => some p
          | .error _ => none
    | .error _ => []
  else []

/-- The memory a copy reads or writes, its signal's too. -/
def CopyOp.touched (x : CopyOp) (s : State) (st : Strand) : List (Tlb × Nat) :=
  x.memBytes s st ++ (if x.signal then (match x.signalAt s st with | .ok sp => sp | .error _ => []) else [])

/-- The swept rows a copy reads or writes, and its signal's, may be accessed now. -/
def CopyOp.still (x : CopyOp) (s : State) (st : Strand) : Bool :=
  !(s.parts.any fun p => p.2.regions.any fun r => r.2.active || r.2.busy) || spanStill s (x.touched s st)

/-- Uncorrectable lane-file words a copy meets: those of its source plane, and those of a destination plane of which it keeps a part (R319). -/
def CopyOp.badLane (x : CopyOp) (s : State) (st : Strand) : Option Nat :=
  if x.dir = 3 || x.dir = 5 then s.badKey (x.geo.reads st.core x.window)
  else if x.dir = 0 || x.dir = 4 then s.badKey (x.geo.kept st.core x.window (winMask x.window))
  else none

/-- An uncorrectable scratch word a copy meets: in its source, or at the edge of its destination (R319). -/
def CopyOp.badScratch (x : CopyOp) (s : State) (st : Strand) (r : CopyRun) : Option Nat :=
  let n := (boxElems x.box).length * fmtBytes r.fmt
  let dst := scratchPA st.cluster (x.scratchOff false)
  if x.dir = 1 || x.dir = 5 then
    s.scratchBad.find? fun w => !r.elems.isEmpty && dst < w * 8 + 8 && w * 8 < dst + n && !(dst ≤ w * 8 && w * 8 + 8 ≤ dst + n)
  else
    (boxElems x.box).findSome? fun e =>
      if x.dir = 4 || (x.dir = 2 && x.inside e) then
        scratchBadAt s st.cluster (x.scratchOff true + boxIndex x.box e * fmtBytes r.fmt) (fmtBytes r.fmt) else none

/-- How a copy stands at an attempt to end it: a page to wait for, or its code and signal. -/
inductive CopyEnd where
  | wait (signal : Bool) (n : PageNeed)
  | done (code : Nat) (r : CopyRun) (signal : List (Tlb × Nat))

/-- The outcome of a copy now. A refused page request of its data ends it with code 1, one of its signal with 8 where it had no other code (R250). -/
def CopyOp.outcome (x : CopyOp) (s : State) (st : Strand) (dataRefused signalRefused : Bool) : CopyEnd :=
  if x.refused st then finishSignal 6 (.none_ none)
  else
    let r := x.run s st
    match r.fail with
    | some (.page n) => if dataRefused then finishSignal 1 r else .wait false n
    | some f => finishSignal f.copyCode r
    | none =>
      if dirPlane x.dir && r.fmt ≠ x.geo.ty then finishSignal 6 (.none_ none) else finishSignal 0 r
where
  finishSignal (code : Nat) (r : CopyRun) : CopyEnd :=
    if x.signal then
      match x.signalAt s st with
      | .ok sp => .done code r sp
      | .error (.page n) => if signalRefused then .done (if code = 0 then 8 else code) r [] else .wait true n
      | .error _ => .done (if code = 0 then 8 else code) r []
    else .done code r []

/-- A copy's signal releases what the copy has written, at package scope (Table 13-2). -/
def copySignal (o : Op) (sig : List (Tlb × Nat)) (deps : List Nat) (id : Nat) : Eff :=
  match sig with
  | [] => Eff.skip
  | p :: _ => standRelease o 4 (if onChip p.2 then 0 else id) p.2 8 deps

/-- A copy may read and write now. -/
def copyRuns (s : State) (o : Op) (x : CopyOp) : Bool := o.idle && startReady s o (s.strand o.owner).die && x.still s (s.strand o.owner)

/-- A copy that runs writes the destination words of element i before the others: no order of its words is promised (R121, R283). -/
def copyElem (o : Op) (x : CopyOp) (i : Nat) : Eff := fun s =>
  let st := s.strand o.owner
  let r := x.run s st
  let bad := x.refused st || r.fail.isSome || r.fmt = 0 || (dirPlane x.dir && r.fmt ≠ x.geo.ty) || (x.badLane s st).isSome || (x.badScratch s st r).isSome
  match if bad then none else r.elems[i]? with
  | none => []
  | some e =>
    let words := (x.destWords s st r.fmt e).filter fun w => !x.words.contains w
    let read := r.elems.filter fun y => (x.destWords s st r.fmt y).any words.contains && !x.vals.any fun v => v.1 = y.e
    if words.isEmpty then []
    else
      Eff.seq [noteSpan (x.memBytes s st), x.writes st o r words.contains, fun t =>
        [.opSet { o with kind := .copy { x with vals := x.vals ++ read.map (fun y => (y.e, y.val)), words := x.words ++ words, wrote := x.wrote ++ writesSince s t } }]] s

/-- COPY_COMPLETE: the copy runs to its end, or waits in its engine for a page (R123, R250). -/
def execCopyComplete (id : Nat) (s : State) : Host.Outcome State Fault Refusal :=
  Eff.when "COPY_COMPLETE" (fun s => match s.op? id with
      | some o => (match o.kind with
        | .copy x => copyRuns s o x && endOk s o
        | _ => false)
      | none => false)
    (fun s => match s.op? id with
      | some o => (match o.kind with
        | .copy x =>
          let st := s.strand o.owner
          match x.badLane s st with
          | some key => killLane key s
          | none =>
            match x.outcome s st o.dataRefused o.signalRefused with
            | .wait signal n => waitPage o 1 (if signal && !o.signalWaits then [signalTag] else []) n s
            | .done code r sig =>
              let crc := x.crcOf s st s.fresh r
              let status := BitVec.ofNat 32 (x.status s.fresh code crc r)
              Eff.seq [noteSpan (x.touched s st), x.writes st o r fun w => !x.words.contains w, fun s1 =>
                let own := joinDeps (joinDeps o.dep x.wrote) (writesSince s s1)
                Eff.seq [engineStore (engineWriter st.die (s1.stillPending own)) 8 (sig.zip (bytesOf (recWord x.rec_ 11).toNat 8)),
                  copySignal o sig own s1.nextWrite,
                  fun s3 =>
                    finishOp o
                      (([Upd.loc o.owner (.lane x.dKey (BitVec.allOnes 32) status)]) ++
                        (if x.crcOn then [.loc o.owner (.lane x.crcKey (BitVec.allOnes 32) crc)] else []))
                      (s3.stillPending (x.wrote ++ writesSince s s3)) s3,
                  killBadScratch (x.badScratch s st r)] s1] s
        | _ => [])
      | none => []) s

end Sys2Proof.Machine
end

