-- ==== Sys2Proof/Machine/Crossbar.lean ====
section
/-! DEFINITION. The crossbar arrays: XBMV, XBPROG, XBCAL, XBSTAT, XBBIND, drift, calibration, allocation and retirement (R45 to R49, R268 to R275, R296, R366, R370). -/

namespace Sys2Proof.Machine

/-! ## Arrays and who may use them (R269) -/

/-- The array a strand names. -/
def Strand.arrKey (st : Strand) (arr : BitVec 2) : Nat := xbKey st.cluster arr.toNat

/-- Level U needs the binding; above it, allocation to the partition suffices. -/
def arrayAllowed (s : State) (k : Nat) (st : Strand) (key : Nat) : Bool :=
  let x := s.xbar key
  if st.level = 0 then x.bound = some k else x.allocated && x.part = st.part

/-- A crossbar word: permission first; issue is held while the die's crossbar energy is spent (R367). -/
def onArray (c : Common) (arr : BitVec 2) (body : Ctx → Nat → Eff) : Eff :=
  onEngine c len1 fun x s =>
    if energySpent s 6 x.st.die then stall x s
    else checked x [(arrayAllowed s x.k x.st (x.st.arrKey arr), cPermission)] (body x (x.st.arrKey arr)) s

/-- The operation runs in an array. -/
def OpKind.inArray : OpKind → Option Nat
  | .xbmv arr .. => some arr
  | .xbprog arr .. => some arr
  | .xbcal arr _ => some arr
  | _ => none

/-- An earlier operation of the array is not over: they run one at a time, in issue order (R270). -/
def arrayAhead (s : State) (o : Op) (arr : Nat) : Bool :=
  s.ops.any fun p => p.id < o.id && !p.parked && p.kind.inArray = some arr

/-! ## XBMV (R274) -/

/-- Types an XBMV source and destination may have at all. -/
def xbSrcType (t : Nat) : Bool := t = 1 || t = 2 || t = 3 || isBounded t
def xbDstType (t : Nat) : Bool := t = 1 || t = 2 || isBounded t

/-- XBMV captures its descriptors, window, active lanes and source at issue (R274). -/
def execXbmv (c : Common) (arr : BitVec 2) (pd pa : BitVec 4) (o : Sel) (tl : TlArg) (s : State) : Host.Outcome State Fault Refusal :=
  (onArray c arr fun x key s =>
    let st := x.st
    let dsc := st.pdreg pd.toNat
    let g := Geo.of st.window dsc
    let a := Geo.of st.window (st.pdreg pa.toNat)
    let v := st.scalar o
    checked x
      [(planeOk st dsc && planeOk st (st.pdreg pa.toNat), cIllegalOperand),
       (fieldOf v 0 10 + a.H * a.W ≤ 1024 && fieldOf v 16 10 + g.H * g.W ≤ 1024 && a.D ≤ 16, cIllegalOperand),
       (xbSrcType a.ty && xbDstType g.ty, cIllegalOperand),
       (isBounded g.ty && !isBounded a.ty, cBounded), (sameDepth g a, cPlaneMismatch)]
      (unlessBad (fun _ => a.reads st.core st.window) fun s =>
        let src := (List.range a.D).map fun d => a.rowMajor.map fun e => s.elem st st.window a d e.1 e.2
        issueOp x s 1 tl (.xbmv key pd.toNat dsc st.window x.act v src a.ty x.leader)) s).next s

/-- Weight code of a cell. -/
def Xbar.code (x : Xbar) (row col : Nat) : Int := ((mapGet x.codes (1024 * row + col)).getD 0).toInt

/-- q·σ, exact. -/
def Xbar.weight (x : Xbar) (row col : Nat) : FVal :=
  let q := x.code row col
  (mulVal (.num (q < 0) q.natAbs 0) (boundVal x.sigma)).1

/-- A value of magnitude at most 2^64, and whether it was clipped (R49). -/
def clipInput (v : FVal) : FVal × Bool :=
  if FVal.lt (.num false 1 64) v.absV then (.num v.neg 1 64, true) else (v, false)

/-- One depth plane's results: the patterns, the bound, the status bits. -/
structure XbOut where
  vals : List Nat
  bound : LWord
  st : Status

/-- y_j of R274, exact. -/
def xbSum (x : Xbar) (row col : Nat) (ins : List FVal) : FVal :=
  boundSum ((List.range ins.length).map fun i => (mulVal (ins.getD i (.num false 0 0)) (x.weight (row + i) col)).1)

/-- |a − b| ≤ β. -/
def withinBound (a b β : FVal) : Bool := !FVal.lt β (addVal 0 a b.negate).1.absV

/-- An output element: the exact sum and an analogue error within the bound, coded in the destination type. -/
def xbCode (t : Nat) (y β : FVal) (noise : Int) : Nat :=
  let n : Int := max (-65536) (min 65536 noise)
  let err := (mulVal β (.num (n < 0) n.natAbs (-16))).1
  let r := (roundVal t 0 (addVal 0 y err).1).1
  if t = 2 || withinBound (decodeF t r) y β then r else (roundVal t 0 y).1

/-- The results of depth plane d (R49, R274). -/
def xbPlane (x : Xbar) (seed d row col n t : Nat) (ins : List FVal) : XbOut :=
  if ins.any fun v => match v with | .num .. => false | _ => true then
    { vals := List.replicate n (fpNaN t), bound := BitVec.ofNat 32 (fpInfBits 1), st := stInvalid }
  else
    let cl := ins.map clipInput
    let clipped := cl.any (·.2)
    let norm := boundSum (ins.map FVal.absV)
    let G := boundVal x.g
    let β := boundSum [(mulVal (mulVal (boundVal x.alpha) G).1 norm).1, (mulVal (boundVal x.gamma) G).1]
    let vals := (List.range n).map fun j => xbCode t (xbSum x row (col + j) (cl.map (·.1))) β (Config.analogueNoise seed d j)
    let finite := vals.all fun r => match decodeF t r with | .num .. => true | _ => false
    let bound := if clipped || !finite then .inf false else boundSum (β :: if t = 2 then [rhoOf t vals] else [])
    { vals := vals, bound := boundBits bound, st := if clipped then stClip else 0 }

/-- The choice an XBMV's result is (kind 12): the address of its result block. -/
def xbChoice (st : Strand) (block : Nat) : Choice :=
  { kind := 12, obj := st.number, val := block, agent := strandAgent st, strand := st.number }

/-- What a block in the log area keeps clear of: the rings, and the blocks of records that the Drevar side has not yet taken, as first and past (R370, R371). -/
def State.logTaken (s : State) : List (Nat × Nat) :=
  (s.parts.filterMap fun e => if logValid s e.2 then some (e.2.logBase, e.2.logBase + e.2.logSize) else none) ++
  s.blocks.filterMap fun b => if (s.part b.part).logHead ≤ b.pos then some (b.addr, b.addr + b.len) else none

/-- Where n bytes find a place of their own in the log area: at its base or behind what stands there (notes/assumptions/24.md). -/
def blockPlaces (s : State) (n : Nat) : List Nat :=
  (s.regs.logBase :: s.logTaken.map (·.2)).filter fun a =>
    a % 4 = 0 && s.regs.logBase ≤ a && a + n ≤ s.regs.logLimit && s.logTaken.all fun b => !rangesMeet a (a + n) b.1 b.2

/-- Address of a result block of n elements and their bound; none where the log area has no room for it. -/
def resultAddr (s : State) (n : Nat) : Option Nat :=
  let l := blockPlaces s (4 * (n + 1))
  l[Config.resultBlock s.fresh % max 1 l.length]?

/-- An XBMV's result block has a place, where its launch is recorded and not replayed; else the result is held as at a full ring (R370, R371). -/
def blockReady (s : State) (o : Op) (n : Nat) : Bool :=
  match mapGet s.launches (s.strand o.owner).launch with
  | some l => !l.record || l.replay || (resultAddr s n).isSome
  | none => true

/-- The split on which a drift trap is raised (R275): the live one that holds the leader lane, else the lowest. -/
def driftSplit (st : Strand) (leader : Nat) : Option Split :=
  match st.splits.find? fun sp => sp.mask.getLsbD leader with
  | some sp => some sp
  | none => st.splits.head?

/-- An XBMV of D depth planes issued in a cycle finds drift pending now, at the start of one of them: drift that was set after the last plane had begun lets it complete (R275). -/
def Xbar.drifted (x : Xbar) (issued D now : Nat) : Bool :=
  !x.calibrated || (x.drift && (now < max issued x.freeAt + 55 * D || x.driftAt + 55 ≤ now))

/-- XBMV_COMPLETE may happen: nothing ahead of it in the array, 55 cycles a plane have passed, or a plane has found drift pending; a trap needs its split at an instruction boundary. -/
def xbmvReady (s : State) (o : Op) : Bool :=
  match o.kind with
  | .xbmv arr _ dsc window _ _ _ _ leader =>
    let st := s.strand o.owner
    let x := s.xbar arr
    let D := (Geo.of window dsc).D
    !o.parked && !arrayAhead s o arr && max o.issued x.freeAt + (if x.drifted o.issued D s.now then 0 else 55 * D) ≤ s.now &&
    (if x.drifted o.issued D s.now then
       st.endCode.isSome || (match driftSplit st leader with
         | some sp => sp.run ≠ .parked && (match sp.run with | .overlay _ => false | _ => true)
         | none => true)
     else endOk s o && choiceOk s st.launch (xbChoice st 0) && blockReady s o (let g := Geo.of window dsc; g.D * (g.H * g.W)))
  | _ => false

/-- The product's results and bound, written at completion (R46, R62, R226). -/
def xbFinish (o : Op) (arr pd : Nat) (g : Geo) (window : Word) (act : Lanes) (seed : Nat) (vals : List (List Nat)) (bound : LWord) (status : Status) : Eff := fun s =>
  let st := s.strand o.owner
  let ups := planeWrites st.core window g act seed (fun d y z => (vals.getD d []).getD (y * g.W + z) 0)
  finishOp o (.xbar arr { (s.xbar arr) with freeAt := s.now } :: ups.map (Upd.loc o.owner) ++ [.loc o.owner (boundWrite st pd (g.full act) bound)] ++
    (if status = 0 then [] else [.loc o.owner (.status status)])) [] s

/-- The elements and the bound as a result block keeps them. -/
def blockWrites (addr : Nat) (vals : List Nat) (bound : LWord) : List Upd :=
  (List.range vals.length).flatMap (fun i => (List.range 4).map fun b => Upd.mem (addr + 4 * i + b) (BitVec.ofNat 8 (vals.getD i 0 / 256 ^ b))) ++
  (List.range 4).map fun b => Upd.mem (addr + 4 * vals.length + b) (BitVec.ofNat 8 (bound.toNat / 256 ^ b))

/-- XBMV_COMPLETE: the products and the bound, or crossbar-drift with nothing written. -/
def execXbmvComplete (id : Nat) (s : State) : Host.Outcome State Fault Refusal :=
  Eff.when "XBMV_COMPLETE" (fun s => match s.op? id with
      | some o => xbmvReady s o
      | none => false)
    (fun s => match s.op? id with
      | some o => (match o.kind with
        | .xbmv arr pd dsc window act origin src srcTy leader =>
          let st := s.strand o.owner
          let x := s.xbar arr
          let g := Geo.of window dsc
          let n := g.H * g.W
          if x.drifted o.issued g.D s.now then
            if st.endCode.isSome then completeOp o [] [] s
            else
              match driftSplit st leader with
              | none => completeOp o [] [] s
              | some sp =>
                Eff.andThen (fun _ => [.opSet { o with parked := true }, .xbar arr { x with freeAt := s.now }])
                  (takeTrap o.owner sp.num { TrapInfo.plain cDrift with
                    kind := 2, detail := BitVec.ofNat 64 (arr % 4), op := id, at_ := some (o.ovl, o.pc) } []) s
          else
            let t := exactOf g.ty
            let outs := (List.range g.D).map fun d =>
              xbPlane x s.fresh d (fieldOf origin 0 10) (fieldOf origin 16 10) n t ((src.getD d []).map (decodeF srcTy))
            let vals := outs.map (·.vals)
            let bound := outs.foldl (fun b y => boundMax b y.bound) 0#32
            let status := outs.foldl (fun b y => b ||| y.st) 0
            let l := mapGet s.launches st.launch
            let rec_ := (l.map (·.record)).getD false
            let replay := (l.map (·.replay)).getD false
            let addr := (resultAddr s (g.D * n)).getD 0
            let block : Block := { addr := addr, len := 4 * (g.D * n + 1), part := st.part, pos := (s.part st.part).logTail }
            let own := xbFinish o arr pd g window act s.fresh vals bound status
            unlessBad (fun _ => g.kept st.core window act) (Eff.andThen (fun _ => [.fresh]) (withChoice st.launch (xbChoice st addr) fun v =>
              if rec_ && replay then fun s =>
                let got := (List.range g.D).map fun d => (List.range n).map fun j => s.homeN (v.toNat + 4 * (d * n + j)) 4
                xbFinish o arr pd g window act s.fresh got (BitVec.ofNat 32 (s.homeN (v.toNat + 4 * (g.D * n)) 4)) status s
              else if rec_ then Eff.andThen (fun s => .blocks (s.blocks ++ [block]) :: blockWrites addr vals.flatten bound) own
              else own)) s
        | _ => [])
      | none => []) s

/-! ## Programming and calibration (R271, R272) -/

/-- XBPROG reads its record when it runs. -/
def execXbprog (c : Common) (arr : BitVec 2) (d a : Sel) (tl : TlArg) (s : State) : Host.Outcome State Fault Refusal :=
  (onArray c arr fun x key =>
    let off := (x.st.scalar a).toNat
    checked x [(off % 64 = 0, cMisaligned), (off + 64 ≤ 2 ^ 22, cPermission)] fun s =>
      issueOp x s 1 tl (.xbprog key (selNum d) off none) ++ [.xbar key { (s.xbar key) with programming := true }]).next s

def execXbcal (c : Common) (arr : BitVec 2) (d : Sel) (tl : TlArg) (s : State) : Host.Outcome State Fault Refusal :=
  (onArray c arr fun x key s =>
    issueOp x s 1 tl (.xbcal key (selNum d)) ++ [.xbar key { (s.xbar key) with calibrating := true }]).next s

def execXbstat (c : Common) (arr : BitVec 2) (field : XbField) (d : Sel) (tl : TlArg) (s : State) : Host.Outcome State Fault Refusal :=
  (onArray c arr fun x key s => issueOp x s 1 tl (.xbstat key (selNum d) field)).next s

/-- XBBIND and XBBIND.rel need no binding. -/
def bindEff (c : Common) (arr : BitVec 2) (d : Sel) (release : Bool) (tl : TlArg) : Eff :=
  onEngine c len1 fun x s =>
    if energySpent s 6 x.st.die then stall x s
    else issueOp x s 1 tl (.xbbind (x.st.arrKey arr) (selNum d) release)
def execXbbind (c : Common) (arr : BitVec 2) (d : Sel) (tl : TlArg) (s : State) : Host.Outcome State Fault Refusal :=
  (bindEff c arr d false tl).next s
def execXbbindRel (c : Common) (arr : BitVec 2) (d : Sel) (tl : TlArg) (s : State) : Host.Outcome State Fault Refusal :=
  (bindEff c arr d true tl).next s

/-- G: the largest |q|·σ, rounded upward to f32 (R268). -/
def Xbar.withG (x : Xbar) : Xbar :=
  let q := x.codes.foldl (fun a e => max a e.2.toInt.natAbs) 0
  { x with g := boundBits (mulVal (.num false q 0) (boundVal x.sigma)).1 }

/-- Calibration with the constants measured, its success among them (R272). -/
def Xbar.calibrate (x : Xbar) (seed : Nat) : Xbar × Bool :=
  let α := Config.measuredAlpha seed &&& 0x7FFFFFFF#32
  let γ := Config.measuredGamma seed &&& 0x7FFFFFFF#32
  let ok := !(boundVal α).isNaN && !(boundVal γ).isNaN && !FVal.lt (.num false 1 (-7)) (boundVal α) && !FVal.lt (.num false 1 (-9)) (boundVal γ)
  ({ x.withG with alpha := α, gamma := γ, calibrated := ok, drift := x.drift && !ok, cals := (x.cals + 1) % 2 ^ 64 }, ok)

def progRows (r : List Word) : Nat := fieldOf (recWord r 0) 16 16
def progCols (r : List Word) : Nat := fieldOf (recWord r 0) 48 16
def progRow (r : List Word) : Nat := fieldOf (recWord r 0) 0 16
def progCol (r : List Word) : Nat := fieldOf (recWord r 0) 32 16
def progOff (r : List Word) : Nat := fieldOf (recWord r 1) 0 22

/-- A positive normal f32. -/
def positiveNormal (b : Nat) : Bool := b < 2 ^ 31 && 0 < b / 2 ^ 23 && b / 2 ^ 23 < 255

/-- The record is refused whatever its codes are (code 1). -/
def progRefused (r : List Word) : Bool :=
  fieldOf (recWord r 1) 22 42 ≠ 0 || fieldOf (recWord r 2) 32 32 ≠ 0 || [3, 4, 5, 6, 7].any (fun i => recWord r i ≠ 0) ||
  progRows r = 0 || progCols r = 0 || 1024 < progRow r + progRows r || 1024 < progCol r + progCols r ||
  2 ^ 22 < progOff r + progRows r * progCols r || !positiveNormal (fieldOf (recWord r 2) 0 32)

/-- One row is programmed: its wear, a spare where the row is at its limit, its codes; none where no spare is left. -/
def Xbar.progRow1 (x : Xbar) (row col : Nat) (codes : List (BitVec 8)) : Option Xbar :=
  let wear := (mapGet x.wear row).getD 0
  let x' : Option Xbar :=
    if wear < Config.wearLimit then some { x with wear := mapSet x.wear row (wear + 1) }
    else if x.spares = 0 then none
    else some { x with spares := x.spares - 1, spareMap := x.spareMap ++ [row], wear := mapSet x.wear row 1 }
  x'.map fun y =>
    { y with rowsProg := (y.rowsProg + 1) % 2 ^ 64,
             codes := (List.range codes.length).foldl (fun m j => mapSet m (1024 * row + col + j) (codes.getD j 0)) y.codes }

/-- Rows in order: the array after them, how many were programmed, whether all were. -/
def Xbar.progAll (x : Xbar) (col : Nat) : List (Nat × List (BitVec 8)) → Nat → Xbar × Nat × Bool
  | [], n => (x, n, true)
  | r :: rs, n =>
    match x.progRow1 r.1 col r.2 with
    | none => (x, n, false)
    | some y => Xbar.progAll y col rs (n + 1)

/-- What an XBPROG programs, from its record and its codes; none where they are refused. -/
def progRun (r : List Word) (codes : Nat → Nat → BitVec 8) : Option ProgRun :=
  let rows := (List.range (progRows r)).map fun i => (progRow r + i, (List.range (progCols r)).map fun j => codes i j)
  if progRefused r || rows.any fun row => row.2.any fun q => q = 0x80#8 then none
  else some { sigma := (recWord r 2).setWidth 32, col := progCol r, rows := rows }

/-- What the rest of an XBPROG comes to: the array, the rows charged, the status. -/
def xbProgram (x : Xbar) (run : Option ProgRun) (seed : Nat) : Xbar × Nat × Nat :=
  match run with
  | none => (x, 0, 1)
  | some q =>
    let p := x.progAll q.col q.rows 0
    if !p.2.2 then ({ p.1 with worn := true }.withG, p.2.1, 2)
    else
      let c := { p.1 with sigma := q.sigma }.calibrate seed
      (c.1, p.2.1, if c.2 then 0 else 3)

/-- Status of XBBIND and XBBIND.rel (R269): 2 before 3 before 1; an array the strand holds is released. -/
def bindStatus (s : State) (k : Nat) (arr : Nat) (release : Bool) : Nat :=
  let x := s.xbar arr
  let st := s.strand k
  if !x.allocated || x.part ≠ st.part then 2
  else if release then (if x.bound = some k then 0 else if x.retired then 3 else 1)
  else if x.retired then 3
  else if x.bound.isSome && x.bound ≠ some k then 1
  else 0

/-- A field of XBSTAT (Table 12-7). -/
def Xbar.field (x : Xbar) (f : XbField) : Nat :=
  match f with
  | .alpha => x.alpha.toNat
  | .gamma => x.gamma.toNat
  | .g => x.g.toNat
  | .sigma => x.sigma.toNat
  | .state => x.stateWord
  | .cals => x.cals

/-- Another operation of the kind is outstanding on the array. -/
def stillBusy (s : State) (o : Op) (arr : Nat) (prog : Bool) : Bool :=
  s.ops.any fun p => p.id ≠ o.id && (match p.kind with
    | .xbprog a .. => prog && a = arr
    | .xbcal a _ => !prog && a = arr
    | _ => false)

/-- Rows that the programming budget of a partition has left in the period (R271, R366). -/
def progBudget (s : State) (part : Nat) : Nat := (s.budget 3 part).limit - (s.budget 3 part).counter

/-- An uncorrectable scratch word that an XBPROG reads: of its record, or of its codes. -/
def progBad (s : State) (cl off : Nat) : Option Nat :=
  let r := s.homeWords (scratchPA cl off) 8
  match scratchBadAt s cl off 64 with
  | some w => some w
  | none => if progRefused r then none else scratchBadAt s cl (progOff r) (progRows r * progCols r)

/-- What an XBPROG has still to program: as it stands, or as it reads its record and codes now. -/
def progNow (s : State) (cl off : Nat) : Option ProgRun → Option ProgRun
  | some run => some run
  | none =>
    let r := s.homeWords (scratchPA cl off) 8
    progRun r fun i j => BitVec.ofNat 8 (scratchN s cl (progOff r + i * progCols r + j) 1)

/-- An XBPROG may go on: nothing is ahead of it in the array, and the partition has programming budget left, where it has rows still to program. -/
def progReady (s : State) (o : Op) (arr : Nat) (run : Option ProgRun) : Bool :=
  !o.parked && !arrayAhead s o arr && startReady s o (s.strand o.owner).die &&
  (0 < progBudget s (s.strand o.owner).part || run.any fun r => r.rows.isEmpty)

/-- One row is programmed, and charged, before the others (R366). -/
def progStep (o : Op) (arr d off : Nat) (run : Option ProgRun) : Eff := fun s =>
  let st := s.strand o.owner
  if !progReady s o arr run || (run.isNone && (progBad s st.cluster off).isSome) then []
  else
    match progNow s st.cluster off run with
    | some q =>
      match q.rows with
      | [] => []
      | r :: rs =>
        match (s.xbar arr).progRow1 r.1 q.col r.2 with
        | none => []
        | some y =>
          let b := s.budget 3 st.part
          [.xbar arr y, .budget (budgetKey 3 st.part) { b with counter := b.counter + 1 },
           .opSet { o with kind := .xbprog arr d off (some { q with rows := rs }) }]
    | none => []

def arrayOpReady (s : State) (o : Op) : Bool :=
  endOk s o &&
  (match o.kind with
   | .xbprog arr _ off run =>
     let st := s.strand o.owner
     progReady s o arr run &&
     ((run.isNone && (progBad s st.cluster off).isSome) || (xbProgram (s.xbar arr) (progNow s st.cluster off run) s.fresh).2.1 ≤ progBudget s st.part)
   | .xbcal arr _ => !arrayAhead s o arr
   | .xbstat .. => true
   | .xbbind .. => true
   | _ => false)

/-- CROSSBAR_OPERATION_COMPLETE (R269 to R273). An XBPROG ends in a period whose budget its last rows fit (R366). -/
def execCrossbarOperationComplete (id : Nat) (s : State) : Host.Outcome State Fault Refusal :=
  Eff.when "CROSSBAR_OPERATION_COMPLETE" (fun s => match s.op? id with
      | some o => !o.parked && arrayOpReady s o
      | none => false)
    (fun s => match s.op? id with
      | some o =>
        let st := s.strand o.owner
        let status (d n : Nat) : List Upd := [.loc o.owner (.s d (BitVec.ofNat 64 n))]
        (match o.kind with
         | .xbprog arr d off run =>
           match if run.isNone then progBad s st.cluster off else none with
           | some w => killScratch (w * 8) s
           | none =>
             let p := xbProgram (s.xbar arr) (progNow s st.cluster off run) s.fresh
             let b := s.budget 3 st.part
             Eff.andThen (fun _ => [.xbar arr { p.1 with programming := stillBusy s o arr true, freeAt := s.now },
                 .budget (budgetKey 3 st.part) { b with counter := b.counter + p.2.1 }, .fresh])
               (finishOp o (status d p.2.2) []) s
         | .xbcal arr d =>
           let p := (s.xbar arr).calibrate s.fresh
           Eff.andThen (fun _ => [.xbar arr { p.1 with calibrating := stillBusy s o arr false, freeAt := s.now }, .fresh])
             (finishOp o (status d (if p.2 then 0 else 1)) []) s
         | .xbstat arr d f => finishOp o (status d ((s.xbar arr).field f)) [] s
         | .xbbind arr d release =>
           let n := bindStatus s o.owner arr release
           Eff.andThen (fun s => if n = 0 then [.xbar arr { (s.xbar arr) with bound := if release then none else some o.owner }] else [])
             (finishOp o (status d n) []) s
         | _ => [])
      | none => []) s

/-! ## Drift, background calibration, allocation, retirement -/

/-- An array of the package. -/
def arrayOk (cluster arr : Nat) : Bool := cluster < 64 && arr < 4

/-- Drift pending is set, from the cycle in which it was first. -/
def Xbar.findsDrift (x : Xbar) (now : Nat) : Xbar := if x.drift then x else { x with drift := true, driftAt := now }

/-- CROSSBAR_DRIFT_PENDING: the drift monitor sets drift pending (R275). -/
def execCrossbarDriftPending (cluster arr : Nat) (s : State) : Host.Outcome State Fault Refusal :=
  Eff.when "CROSSBAR_DRIFT_PENDING" (fun _ => arrayOk cluster arr)
    (fun s => [.xbar (xbKey cluster arr) ((s.xbar (xbKey cluster arr)).findsDrift s.now)]) s

/-- XB_DRIFT_INJECT: the debugger of the partition that the array is allocated to, which holds its K rights, sets drift pending as the monitor does (R296, notes/assumptions/97.md). -/
def execXbDriftInject (cluster arr : Nat) (s : State) : Host.Outcome State Fault Refusal :=
  let key := xbKey cluster arr
  Eff.when "XB_DRIFT_INJECT" (fun s => arrayOk cluster arr && (s.xbar key).allocated && (s.part (s.xbar key).part).enabled)
    (fun s => [.xbar key ((s.xbar key).findsDrift s.now)]) s

/-- BACKGROUND_CALIBRATION runs between crossbar instructions, within its budget (R270, R367). -/
def execBackgroundCalibration (cluster arr : Nat) (s : State) : Host.Outcome State Fault Refusal :=
  let key := xbKey cluster arr
  Eff.when "BACKGROUND_CALIBRATION" (fun s => arrayOk cluster arr && (s.xbar key).allocated && (s.budget 2 key).counter < (s.budget 2 key).limit &&
      !s.ops.any fun o => !o.parked && o.kind.inArray = some key)
    (fun s =>
      let b := s.budget 2 key
      [.xbar key { ((s.xbar key).calibrate s.fresh).1 with freeAt := s.now }, .budget (budgetKey 2 key) { b with counter := b.counter + 1 }, .fresh]) s

/-- CROSSBAR_ALLOCATION: a fresh array of a partition; wear, spares, worn and retired stay (R268). -/
def execCrossbarAllocation (cluster arr part : Nat) (s : State) : Host.Outcome State Fault Refusal :=
  let key := xbKey cluster arr
  Eff.when "CROSSBAR_ALLOCATION" (fun _ => arrayOk cluster arr && part < 64)
    (fun s =>
      let x := s.xbar key
      [.xbar key { Xbar.blank with
        allocated := true, part := part, worn := x.worn, retired := x.retired, spares := x.spares, spareMap := x.spareMap,
        wear := x.wear, programming := x.programming, calibrating := x.calibrating, freeAt := x.freeAt }]) s

/-- CROSSBAR_RETIREMENT (R275). -/
def execCrossbarRetirement (cluster arr : Nat) (s : State) : Host.Outcome State Fault Refusal :=
  Eff.when "CROSSBAR_RETIREMENT" (fun _ => arrayOk cluster arr)
    (fun s => [.xbar (xbKey cluster arr) { (s.xbar (xbKey cluster arr)) with retired := true }]) s

end Sys2Proof.Machine
end

