-- ==== Sys2Proof/Machine/Feed.lean ====
section
/-! DEFINITION. The Ethernet queue feed (R382 to R384). -/

namespace Sys2Proof.Machine

def gramKind (g : Datagram) : Nat := fieldOf g.w0 48 8
def gramPart (g : Datagram) : Nat := fieldOf g.w0 42 6
def gramChain (g : Datagram) : Nat := fieldOf g.w0 38 4
def gramKey (g : Datagram) : Nat := fieldOf g.w0 32 6
def gramLen (g : Datagram) : Nat := fieldOf g.w0 16 16

/-- Version, kind, lengths and reserved fields are valid. -/
def gramForm (g : Datagram) : Bool :=
  let k := gramKind g
  let n := gramLen g
  fieldOf g.w0 56 8 = 1 && fieldOf g.w0 3 13 = 0 && g.w3 = 0 && g.body.length = 8 * n && g.tag.length = 2 &&
  (match k with
   | 1 => 1 ≤ n && n ≤ 16 && fieldOf g.w0 0 3 = 0 && g.w2 = 0
   | 2 => 1 ≤ n && n ≤ 128 && fieldOf g.w0 0 3 = 0 && fieldOf g.w2 0 6 = 0
   | 3 => n = 0
   | _ => false)

/-- The header, which is authenticated. -/
def gramHeader (g : Datagram) : List Word := [g.w0, g.w1, g.w2, g.w3]
/-- The nonce: partition, k, zeros, sequence number (R383). -/
def gramNonce (g : Datagram) : BitVec 96 :=
  BitVec.ofNat 96 (gramPart g * 2 ^ 90 + gramKey g * 2 ^ 84 + g.w1.toNat)

/-- Feed key of a datagram, where it is loaded. -/
def feedKeyOf (s : State) (g : Datagram) : Option (BitVec 256) := mapGet s.feedKeys (64 * gramPart g + gramKey g)

/-- Last sequence number accepted under a datagram's key. -/
def lastSeq (s : State) (g : Datagram) : Nat := (mapGet (s.part (gramPart g)).feedSeq (gramKey g)).getD 0

/-- The feed entry of a datagram's chain. -/
def feedEntry (s : State) (g : Datagram) : Bool × Nat × Nat := (mapGet (s.part (gramPart g)).feedEntries (gramChain g)).getD (false, 0, 0)

/-- The checks of R384. -/
def gramOk (s : State) (g : Datagram) : Bool :=
  gramForm g && (feedEntry s g).1 && g.w1.toNat = lastSeq s g + 1 &&
  (match feedKeyOf s g with
   | some k => Config.gcmVerifies k (gramNonce g) (gramHeader g) g.body g.tag
   | none => false)

/-- The body in the clear. -/
def gramBody (s : State) (g : Datagram) : List Word :=
  match feedKeyOf s g with
  | some k => (List.range g.body.length).map fun i => (Config.gcmOpen k (gramNonce g) g.body).getD i 0
  | none => []

/-- Pages and physical addresses of 64-byte pieces in a chain's address space, to be written. -/
def feedPages (s : State) (part chain : Nat) : List Nat → Option (List (Tlb × Nat))
  | [] => some []
  | va :: r =>
    match translate s 256 part (chainAsid s part chain) 1 va 1, feedPages s part chain r with
    | .ok p, some l => if p.1.cls = 2 || p.1.cls = 4 then none else some (p :: l)
    | _, _ => none

/-- Stores 64-byte pieces at their pages, word by word, as the Drevar side writes; a release at package scope stands at each of their bytes (R384). -/
def feedStore (ps : List (Tlb × Nat)) (body : List Word) : Eff := fun s =>
  let deps := outsideDeps s drevarDev
  let w := engineWriter 4 deps
  -- the writes of a piece are its eight words, one number each
  let id := fun (i b : Nat) => s.nextWrite + 8 * i + b / 8
  let stand := fun (t : State) => [Upd.relAdd ((List.range ps.length).flatMap fun i =>
    match ps[i]? with
    | some p => (List.range 64).map fun b =>
        { addr := p.2 + b, id := id i b, deps := t.stillPending (joinDeps deps [id i b]), core := drevarCore, die := 0, scope := 4, later := [] }
    | none => [])]
  Eff.seq ((List.range ps.length).map (fun i =>
    match ps[i]? with
    | some p =>
      let bs := ((body.drop (8 * i)).take 8).flatMap fun w => bytesOf w.toNat 8
      Eff.andThen (Eff.seq ((wordPieces p.2 bs bs.length).map fun x => storeBytes { w with key := p.1.key } x.1 x.2)) (heal p.2 64)
    | none => Eff.skip) ++ [fun t => outsideBehind drevarDev (writesSince s t) t, stand, noteSpan ps]) s

/-- Addresses of the next ring slots. -/
def nextSlots (s : State) (g : Datagram) : List Nat :=
  let e := feedEntry s g
  let n := (mapGet (s.part (gramPart g)).feedSlot (gramChain g)).getD 0
  (List.range (gramLen g)).map fun i => e.2.1 + 64 * ((n + i) % e.2.2)

/-- Slots are free: the chain's head has passed what they held. -/
def slotsFree (s : State) (g : Datagram) : Bool :=
  gramLen g ≤ (feedEntry s g).2.2 &&
  (nextSlots s g).all fun a => !(s.chain (chainKey (gramPart g) (gramChain g))).deps.any fun d => d.1 % 2 ^ 64 = a

/-- What a datagram writes can be written. -/
def gramTargets (s : State) (g : Datagram) : Option (List (Tlb × Nat)) :=
  match gramKind g with
  | 1 => if slotsFree s g && linkOk s (gramPart g) (gramChain g) then feedPages s (gramPart g) (gramChain g) (nextSlots s g) else none
  | 2 => feedPages s (gramPart g) (gramChain g) ((List.range (gramLen g)).map fun i => g.w2.toNat + 64 * i)
  | _ => some []

/-- The datagram is applied; else it is discarded whole. -/
def accepted (s : State) (g : Datagram) : Bool := gramOk s g && (gramTargets s g).isSome

/-- The swept rows a datagram writes to, if any, may be accessed now (R125, R126). -/
def gramStill (s : State) (g : Datagram) : Bool :=
  match gramTargets s g with
  | some l => spanStill s l
  | none => true

/-- The sequence number is the last accepted, and the answer says so (R384). -/
def gramDone (g : Datagram) : Eff := fun s =>
  let x := s.part (gramPart g)
  [.part (gramPart g) { x with feedSeq := mapSet x.feedSeq (gramKey g) g.w1.toNat },
   .answer [BitVec.ofNat 64 (2 ^ 56 + 0x80 * 2 ^ 48 + fieldOf g.w0 32 16 * 2 ^ 32), g.w1, 0, 0]]

/-- FEED_LAUNCH_RECORDS: records to the ring, and to the chain in body order. -/
def execFeedLaunchRecords (g : Datagram) (s : State) : Host.Outcome State Fault Refusal :=
  Eff.when "FEED_LAUNCH_RECORDS" (fun s => gramKind g = 1 && accepted s g && gramStill s g)
    (fun s =>
      let part := gramPart g
      let chain := gramChain g
      let slots := nextSlots s g
      Eff.seq ([feedStore ((gramTargets s g).getD []) (gramBody s g),
        fun s => [.part part { (s.part part) with
          feedSlot := mapSet (s.part part).feedSlot chain ((((mapGet (s.part part).feedSlot chain).getD 0) + slots.length) % (feedEntry s g).2.2) }]] ++
        slots.map (fun a s => appendRecord part chain a 0 (outsideDeps s drevarDev) s) ++ [gramDone g]) s) s

/-- FEED_DATA_WRITE. -/
def execFeedDataWrite (g : Datagram) (s : State) : Host.Outcome State Fault Refusal :=
  Eff.when "FEED_DATA_WRITE" (fun s => gramKind g = 2 && accepted s g && gramStill s g)
    (fun s => Eff.andThen (feedStore ((gramTargets s g).getD []) (gramBody s g)) (gramDone g) s) s

/-- FEED_TIMELINE_ADVANCE. -/
def execFeedTimelineAdvance (g : Datagram) (s : State) : Host.Outcome State Fault Refusal :=
  Eff.when "FEED_TIMELINE_ADVANCE" (fun s => gramKind g = 3 && accepted s g)
    (fun s => Upd.ctAdvance (ctKey (gramPart g) (gramChain g) (fieldOf g.w0 0 3)) g.w2.toNat (outsideDeps s drevarDev) :: gramDone g s) s

/-- FEED_DATAGRAM_DISCARD. -/
def execFeedDatagramDiscard (g : Datagram) (s : State) : Host.Outcome State Fault Refusal :=
  Eff.when "FEED_DATAGRAM_DISCARD" (fun s => !accepted s g) (fun _ => [.discard]) s

end Sys2Proof.Machine
end

