-- ==== Sys2Proof/Machine/Gang.lean ====
section
/-! DEFINITION. NMRET, gangs, SPAWN and MSGSEND, the spawn merger, and the completion of class 0 operations (R98, R99, R147, R196 to R200, R334, R335). -/

namespace Sys2Proof.Machine

/-- NMRET ends a near-memory routine; in a grid strand it raises illegal-instruction (R192). -/
def execNmret (c : Common) (s : State) : Host.Outcome State Fault Refusal :=
  (onWord c len1 fun x s =>
    if x.st.isRoutine then
      finish x s 1 x.sp.past ++ [.endCode x.k (some 0), .splits x.k (x.st.splits.map fun y => { y with run := .parked })]
    else trapNow x cIllegalInstr s).next s

/-! ## Gangs (R98, R197) -/

/-- Live gangs of a launch were a strand to leave its own and join gang g. -/
def gangsAfter (s : State) (st : Strand) (g : Nat) : Nat :=
  let l := (liveGangs s st.launch).filter fun x => !(st.gang = some x && gangSize s st.launch x ≤ 1)
  if l.contains g then l.length else l.length + 1

def execJoin (c : Common) (a : Sel) (s : State) : Host.Outcome State Fault Refusal :=
  (onWord c len1 fun x s =>
    let v := x.st.scalar a
    let g := fieldOf v 0 32
    let own := x.st.gang = some g
    checked x [(fieldOf v 32 32 = 0, cIllegalOperand), (own || gangsAfter s x.st g ≤ 1024, cIllegalOperand)]
      (Eff.seq [if own then Eff.skip else leaveGang x.k,
        fun s => if own then [] else [.gang x.k (some g) (gangOpen s x.st.launch g)],
        fun s => issueOp (x.again s) s 1 none (.results false [] none)]) s).next s

def execLeave (c : Common) (s : State) : Host.Outcome State Fault Refusal :=
  (onWord c len1 fun x =>
    Eff.seq [leaveGang x.k, fun s => issueOp (x.again s) s 1 none (.results false [] none)]).next s

/-- GBAR arrives; outside a gang it is a full fence at strand scope (R99). -/
def execGbar (c : Common) (s : State) : Host.Outcome State Fault Refusal :=
  (onWord c len1 fun x =>
    match x.st.gang with
    | some g =>
      Eff.seq [fun s => issueOp { x with sp := { x.sp with gbars := x.sp.gbars + 1 } } s 1 none (.gbar (some g) x.sp.gbars [] false),
        closeGang x.st.launch g]
    | none => fun s => issueOp x s 1 none (.gbar none 0 [] false)).next s

def execGinfo (c : Common) (d : Sel) (s : State) : Host.Outcome State Fault Refusal :=
  (onWord c len1 fun x s =>
    let v := match x.st.gang with
      | some g => BitVec.ofNat 64 (gangSize s x.st.launch g + g % 2 ^ 32 * 2 ^ 32)
      | none => 0#64
    issueOp x s 1 none (.results false [.s (selNum d) v] none)).next s

/-! ## SPAWN and MSGSEND (R198 to R200) -/

/-- A 64-byte record read by a strand at an address of its own address space: class, key and physical address. -/
def strandRecord (s : State) (st : Strand) (va : Nat) : Except LaneFail (Nat × Nat × Nat) :=
  match translate s st.core st.part st.asid st.level va 0 with
  | .error f => .error f
  | .ok (t, pa) => if s.poisoned pa 64 then .error (.attr cPoison) else .ok (t.cls, t.key, pa)

/-- A template read at sA: misaligned, or a fault the strand is parked for, replayed from the start (R198). It is read once what the strand has still to store or acquire cannot change it (R115), and meets an uncorrectable word (R319). -/
def withTemplate (x : Ctx) (va : Nat) (e : List Word → Eff) : Eff := fun s =>
  if va % 64 ≠ 0 then trapNow x cMisaligned s
  else
    match strandRecord s x.st va with
    | .ok (cls, key, pa) =>
      if recordBlocked s x cls pa 64 then stall x s
      else
        match badOnChip s pa 64 false with
        | some k => k s
        | none => Eff.andThen (noteKey key pa) (e (s.strandWords x.st.die cls key pa 8)) s
    | .error f =>
      parkNow x { TrapInfo.plain f.cause with kind := 3, addrs := [BitVec.ofNat 64 va] } f.need.toList s

def execSpawn (c : Common) (d a b : Sel) (s : State) : Host.Outcome State Fault Refusal :=
  (onWord c len1 fun x =>
    let va := (x.st.scalar a).toNat
    withTemplate x va fun r s => issueOp x s 1 none (.spawn (selNum d) r va (x.st.scalar b).toNat none)).next s

/-- MSGSEND captures its payload and target at issue (R199, R200). -/
def execMsgsend (c : Common) (n : BitVec 4) (d a b : Sel) (s : State) : Host.Outcome State Fault Refusal :=
  (onWord c len1 fun x =>
    let va := (x.st.scalar a).toNat
    let payload := (List.range n.toNat).map fun i => x.st.sreg (8 + i)
    withTemplate x va fun r s =>
      issueOp x s 1 none (.spawn (selNum d) r va 0 (some ((x.st.scalar b).toNat, payload)))).next s

/-- Chain of a strand's launch. -/
def State.chainOf (s : State) (st : Strand) : Nat := ((mapGet s.launches st.launch).map (·.chain)).getD 0

/-- The status of Table 9-10. -/
def spawnStatus (s : State) (st : Strand) (r : List Word) (msg : Option (Nat × List Word)) : Nat :=
  let chain := s.chainOf st
  if recordCode s st.part chain st.asid r true (BitVec.allOnes 256) ≠ 0 then 1
  else
    match msg with
    | none => 0
    | some (cl, _) =>
      if 63 < cl then 2
      else match effectiveMask s st.part chain st.asid r (clusterMask cl) with
        | some m => if m = 0 then 2 else 0
        | none => 1

/-- 2 µs in core cycles (a period of 108,800 cycles is 128 µs, R366). -/
def mergeCycles : Nat := 1700

/-- The open launch a spawn joins. -/
def OpenLaunch.takes (l : OpenLaunch) (now template part : Nat) : Bool :=
  l.template = template && l.part = part && l.spawns.length < 64 && now < l.opened + mergeCycles

/-- The merger of a cluster can take a spawn of a template now (R334). -/
def mergerTakes (s : State) (cl template part : Nat) : Bool :=
  let l := s.merger cl
  match l.find? fun m => m.template = template && m.part = part with
  | some m => m.takes s.now template part
  | none => l.length < 8

/-- A spawn arrives at the merger with the release it carries. -/
def mergerAdd (st : Strand) (r : List Word) (template params : Nat) (deps : List Nat) : Eff := fun s =>
  let cl := st.cluster
  let l := s.merger cl
  if l.any fun m => m.takes s.now template st.part then
    [.merger cl (l.map fun m => if m.takes s.now template st.part then { m with spawns := m.spawns ++ [(params, st.asid, deps)] } else m)]
  else
    let m : OpenLaunch := {
      template := template, part := st.part, asid := st.asid, chain := s.chainOf st, level := recLevel s st.part st.asid r,
      rec_ := r, opened := s.now, spawns := [(params, st.asid, deps)] }
    [.merger cl (l ++ [m])]

/-- Words a device-made record keeps of its template: no wait, no signal, no next; its count as given. -/
def madeRecord (r : List Word) (count params : Nat) : List Word :=
  let w1 := (recWord r 1 &&& ~~~0xFFFFFFFF#64) ||| BitVec.ofNat 64 (count % 2 ^ 32)
  [recWord r 0, w1, BitVec.ofNat 64 params, recWord r 3, 0, 0, recWord r 6, 0]

/-- A message's arrival: a launch of one strand on a core of the target cluster (R199, R335). -/
def messageAdd (st : Strand) (r : List Word) (cl : Nat) (payload : List Word) (deps : List Nat) : Eff := fun s =>
  let chain := s.chainOf st
  let l := launchOf st.part chain st.asid 0 (recLevel s st.part st.asid r) 0 (madeRecord r 1 (recWord r 2).toNat) (clusterMask cl) [] s.now
  Eff.seq [fun s => [.msgs cl ((mapGet s.msgs cl).getD 0 + 1)],
    appendMade { l with payload := payload, message := true, spawnDeps := [deps] }] s

/-- The choice a spawn's or message's arrival is (kinds 4 and 5). -/
def spawnChoice (s : State) (st : Strand) (template : Nat) (msg : Option (Nat × List Word)) : Choice :=
  match msg with
  | none =>
    let n := match (s.merger st.cluster).find? fun m => m.takes s.now template st.part with
      | some m => m.spawns.length
      | none => 0
    { kind := 4, obj := template, val := n, agent := strandAgent st, strand := st.number }
  | some (cl, _) => { kind := 5, obj := cl, val := (mapGet s.msgs cl).getD 0, agent := strandAgent st, strand := st.number }

/-- SPAWN_MERGER_CLOSE: the 64th spawn has arrived, or 2 µs have passed (R334). -/
def execSpawnMergerClose (cl index : Nat) (s : State) : Host.Outcome State Fault Refusal :=
  Eff.when "SPAWN_MERGER_CLOSE" (fun s =>
      match (s.merger cl)[index]? with
      | some m => (64 ≤ m.spawns.length || m.opened + mergeCycles ≤ s.now) && linkOk s m.part m.chain
      | none => false)
    (fun s =>
      match (s.merger cl)[index]? with
      | some m =>
        let l := launchOf m.part m.chain m.asid 0 m.level 0 (madeRecord m.rec_ m.spawns.length 0) (BitVec.allOnes 256) [] s.now
        Eff.seq [fun _ => [.merger cl ((s.merger cl).eraseIdx index)],
          appendMade { l with params := m.spawns.map (·.1), asids := m.spawns.map (·.2.1), spawnDeps := m.spawns.map (·.2.2) }] s
      | none => []) s

/-! ## Completion of class 0 operations (R91) -/

/-- Gang and operations of a GBAR that may complete: every member's earlier accesses are performed and visible within the scope (R99, R245). -/
def gbarScope (s : State) (o : Op) (gang : Option Nat) (inst : List Nat) : Nat :=
  match gang with
  | some g => gangScope s (s.strand o.owner).launch g (inst.filterMap fun i => (s.op? i).map fun p => (s.strand p.owner).core)
  | none => 0

def gbarReady (s : State) (o : Op) (gang : Option Nat) (inst : List Nat) : Bool :=
  match gang with
  | none => releaseReady s o 0
  | some _ => !inst.isEmpty && inst.all fun i => match s.op? i with
    | some p => releaseReady s p (gbarScope s o gang inst)
    | none => true

/-- Every GBAR of an instance completes, each an acquire of every member's release. -/
def gbarDone (o : Op) (gang : Option Nat) (inst : List Nat) : Eff := fun s =>
  match gang with
  | none => completeOp o [] [] s
  | some _ =>
    let ps := inst.filterMap s.op?
    let deps := ps.foldl (fun a p => joinDeps a p.dep) []
    Eff.seq (ps.flatMap fun p => [acquire p deps, completeOp p [] []]) s

/-- SCALAR_INSTRUCTION_COMPLETE may happen for an operation. -/
def scalarReady (s : State) (o : Op) : Bool :=
  let st := s.strand o.owner
  match o.kind with
  | .clock _ v => choiceOk s st.launch { kind := 10, obj := st.number, val := v.toNat, agent := strandAgent st, strand := st.number }
  | .wintr _ => true
  | .ovlq .. => true
  | .results false _ _ => true
  | .gbar g _ inst _ => gbarReady s o g inst
  | .spawn _ r template _ msg =>
    releaseReady s o 4 &&
    (spawnStatus s st r msg ≠ 0 ||
      ((match msg with
        | none => mergerTakes s st.cluster template st.part
        | some _ => linkOk s st.part (s.chainOf st)) && choiceOk s st.launch (spawnChoice s st template msg)))
  | _ => false

/-- SCALAR_INSTRUCTION_COMPLETE. -/
def execScalarInstructionComplete (id : Nat) (s : State) : Host.Outcome State Fault Refusal :=
  Eff.when "SCALAR_INSTRUCTION_COMPLETE" (fun s => match s.op? id with
      | some o => !o.parked && scalarReady s o
      | none => false)
    (fun s => match s.op? id with
      | none => []
      | some o =>
        let st := s.strand o.owner
        match o.kind with
        | .clock d v =>
          withChoice st.launch { kind := 10, obj := st.number, val := v.toNat, agent := strandAgent st, strand := st.number }
            (fun w => completeOp o [.loc o.owner (.s d w)] []) s
        | .wintr seg =>
          let g := st.segreg seg
          completeOp o (if g.scratch || g.remote then [] else [.seg o.owner seg { g with win := buildWindow s st g }]) [] s
        | .ovlq idx d => completeOp o [.loc o.owner (.s d (ovlqWord s st idx))] [] s
        | .results _ ups _ => completeOp o (ups.map (Upd.loc o.owner)) [] s
        | .gbar g _ inst _ => gbarDone o g inst s
        | .spawn d r template params msg =>
          let status := spawnStatus s st r msg
          let deps := s.stillPending o.dep
          let end_ := completeOp o [.loc o.owner (.s d (BitVec.ofNat 64 status))] []
          if status ≠ 0 then end_ s
          else
            withChoice st.launch (spawnChoice s st template msg) (fun _ =>
              Eff.seq [match msg with
                | none => mergerAdd st r template params deps
                | some (cl, payload) => messageAdd st r cl payload deps, end_]) s
        | _ => []) s

end Sys2Proof.Machine
end

