-- ==== Sys2Proof/Machine/Lane.lean ====
section
/-! DEFINITION. Elementwise operations of class 1, lane and plane forms: floating, integer, conversion, comparison, selection, moves and fills (R208 to R214). -/

namespace Sys2Proof.Machine

/-! ## Floating (Table 10-3) -/

def execFadd (c : Common) (x : Bin) (s : State) : Host.Outcome State Fault Refusal :=
  (binEff c (timing 4) floatTypes .add false x fun t r _ a b => fAdd t r a b).next s
def execFsub (c : Common) (x : Bin) (s : State) : Host.Outcome State Fault Refusal :=
  (binEff c (timing 4) floatTypes .add false x fun t r _ a b => fSub t r a b).next s
def execFmul (c : Common) (x : Bin) (s : State) : Host.Outcome State Fault Refusal :=
  (binEff c (timing 4) floatTypes .mulScalar false x fun t r _ a b => fMul t r a b).next s
/-- FMA: the product exact, one rounding. -/
def execFma (c : Common) (x : Tern) (s : State) : Host.Outcome State Fault Refusal :=
  (ternEff c (timing 4) floatTypes x fun t r _ a b m => fFma t r a b m).next s
def execFmin (c : Common) (x : Bin) (s : State) : Host.Outcome State Fault Refusal :=
  (binEff c (timing 4) floatTypes .none false x fun t _ _ a b => fMinMax false t a b).next s
def execFmax (c : Common) (x : Bin) (s : State) : Host.Outcome State Fault Refusal :=
  (binEff c (timing 4) floatTypes .none false x fun t _ _ a b => fMinMax true t a b).next s
/-- FSGN acts on the sign alone and sets no status bit (R209). -/
def execFsgn (c : Common) (op : SgnOp) (x : Bin) (s : State) : Host.Outcome State Fault Refusal :=
  (binEff c (timing 4) floatTypes .none (op ≠ .copy) x fun t _ _ a b => (fSgn op.code.toNat t a b, 0)).next s
/-- FRINT (R209). -/
def execFrint (c : Common) (x : Un) (s : State) : Host.Outcome State Fault Refusal :=
  (unEff c (timing 4) floatTypes .none x fun t r _ a => fRint t r a).next s

/-- Timing of FRCP, FRSQ, FEXP2 and FLOG2: their plane forms are variable (Table 10-2). -/
def unitTiming (i : Instr) : Timing := { laneIssue := 4, laneLat := 8, factor := 4, how := .variable false i }

def execFrcp (c : Common) (x : Un) (s : State) : Host.Outcome State Fault Refusal :=
  (unEff c (unitTiming (.frcp c x)) floatTypes .none x fun t r _ a => funit .rcp t r a).next s
def execFrsq (c : Common) (x : Un) (s : State) : Host.Outcome State Fault Refusal :=
  (unEff c (unitTiming (.frsq c x)) floatTypes .none x fun t r _ a => funit .rsq t r a).next s
def execFsqrt (c : Common) (x : Un) (s : State) : Host.Outcome State Fault Refusal :=
  (unEff c { laneIssue := 4, laneLat := 16, factor := 4, how := .fixed 16 } floatTypes .none x
    fun t r _ a => funit .sqrt t r a).next s
def execFexp2 (c : Common) (x : Un) (s : State) : Host.Outcome State Fault Refusal :=
  (unEff c (unitTiming (.fexp2 c x)) floatTypes .none x fun t r _ a => funit .exp2 t r a).next s
def execFlog2 (c : Common) (x : Un) (s : State) : Host.Outcome State Fault Refusal :=
  (unEff c (unitTiming (.flog2 c x)) floatTypes .none x fun t r _ a => funit .log2 t r a).next s

/-- FCLASS: the result plane is n32 or n16 of the source's width (R209). -/
def execFclass (c : Common) (x : Un) (s : State) : Host.Outcome State Fault Refusal :=
  (onWord c (unLen (timing 4) x) fun cx =>
    match x with
    | .lane ty _ _ d a =>
      laneFields cx 1 4 ty.toNat floatTypes d [a] fun v => (fClass ty.toNat (v.getD 0 0), 0)
    | .plane ty _ _ pd pa =>
      planePair cx pd pa []
        (fun g a => [(isBounded a.ty || isFloat a.ty, cIllegalOperand), (!isBounded a.ty && !isBounded g.ty, cBounded),
          (tyField ty g && g.ty = (if a.ty = 1 then 10 else 9) && sameFold a g && sameShape a g && sameDepth a g, cPlaneMismatch)])
        fun s g a => deliver cx s (planeCycles cx 1 [pd.toNat, pa.toNat]) (.fixed 4) []
          (planeWrites cx.st.core cx.st.window g cx.act s.fresh fun d y z => fClass a.ty (srcElem cx s a d y z)) 0).next s

/-! ## Conversions (R210) -/

/-- The word a lane FCVT gives: whole fields, widening from part p, or narrowing into part p of the old word. -/
def fcvtWord (td ts mode : Nat) (sat : Bool) (p : Nat) (src old : LWord) : LWord × Status :=
  let bs := fmtWidth ts
  let bd := fmtWidth td
  let es := 32 / bs
  let ed := 32 / bd
  let cv := fun (j : Nat) => convertElem ts td mode sat (laneField bs src j)
  if es < ed then
    (List.range es).foldl (fun acc j =>
      let r := cv j
      let f := p * es + j
      ((acc.1 &&& ~~~laneFieldMask bd f) ||| (BitVec.ofNat 32 (r.1 % 2 ^ bd) <<< (bd * f)), acc.2 ||| r.2)) (old, 0)
  else packFields bd fun j => cv (if es = ed then j else p * ed + j)

/-- The part limit (R210). -/
def partOk (td ts p : Nat) : Bool :=
  let es := 32 / fmtWidth ts
  let ed := 32 / fmtWidth td
  p < max (es / ed) (ed / es)

def execFcvt (c : Common) (part : BitVec 2) (ts : BitVec 4) (x : Un) (s : State) : Host.Outcome State Fault Refusal :=
  (onWord c (unLen (timing 4) x) fun cx =>
    match x with
    | .lane ty rnd sat d a =>
      let td := ty.toNat
      let narrow := fmtWidth td < fmtWidth ts.toNat
      laneForm cx 1 4 d (if narrow then [a, d] else [a])
        [(laneType td && laneType ts.toNat, cIllegalOperand), (partOk td ts.toNat part.toNat, cIllegalOperand)]
        fun s i => fcvtWord td ts.toNat rnd.toNat (sat = 1#1) part.toNat (s.laneSrc cx.st a i) (s.laneSrc cx.st d i)
    | .plane ty rnd sat pd pa =>
      let rawTy := fun (n : BitVec 4) => fieldOf (cx.st.pdreg n.toNat) 32 4
      planePair cx pd pa [(sat = 0#1 || (isInt (rawTy pd) && isInt (rawTy pa)), cIllegalInstr)]
        (fun g a => [(!isBounded a.ty && !isBounded g.ty, cBounded),
          (tyField ty g && sameFold a g && sameShape a g && sameDepth a g, cPlaneMismatch)])
        fun s g a =>
          let r := fun d y z => convertElem a.ty g.ty rnd.toNat (sat = 1#1) (srcElem cx s a d y z)
          deliver cx s (planeCycles cx 1 [pd.toNat, pa.toNat]) (.fixed 4) []
            (planeWrites cx.st.core cx.st.window g cx.act s.fresh fun d y z => (r d y z).1)
            (planeStatus g cx.act fun d y z => (r d y z).2)).next s

/-! ## Integer (Table 10-5) -/

/-- A binary integer operation in both forms. -/
def intBin (c : Common) (x : Bin) (f : Bool → Bool → Nat → Nat → Nat → Nat) : Eff :=
  binEff c (timing 2) intTypes .none false x fun t _ sat a b => (f (isSigned t) sat (fmtWidth t) a b, 0)

def execIadd (c : Common) (x : Bin) (s : State) : Host.Outcome State Fault Refusal :=
  (intBin c x fun sg sat w a b => iop .add sg sat w a b).next s
def execIsub (c : Common) (x : Bin) (s : State) : Host.Outcome State Fault Refusal :=
  (intBin c x fun sg sat w a b => iop .sub sg sat w a b).next s
def execImul (c : Common) (hi : BitVec 1) (x : Bin) (s : State) : Host.Outcome State Fault Refusal :=
  (intBin c x fun sg sat w a b => iop (if hi = 1#1 then .mulHi else .mulLo) sg sat w a b).next s
/-- IMAD: the exact sum reduced once. -/
def execImad (c : Common) (x : Tern) (s : State) : Host.Outcome State Fault Refusal :=
  (ternEff c (timing 2) intTypes x fun t _ sat a b m =>
    let v := intOf (isSigned t) (fmtWidth t)
    (intResult (isSigned t) sat (fmtWidth t) (v a * v b + v m), 0)).next s
def execImin (c : Common) (x : Bin) (s : State) : Host.Outcome State Fault Refusal :=
  (intBin c x fun sg _ w a b => iop .min sg false w a b).next s
def execImax (c : Common) (x : Bin) (s : State) : Host.Outcome State Fault Refusal :=
  (intBin c x fun sg _ w a b => iop .max sg false w a b).next s
def execIand (c : Common) (x : Bin) (s : State) : Host.Outcome State Fault Refusal :=
  (intBin c x fun sg _ w a b => iop .and sg false w a b).next s
def execIor (c : Common) (x : Bin) (s : State) : Host.Outcome State Fault Refusal :=
  (intBin c x fun sg _ w a b => iop .or sg false w a b).next s
def execIxor (c : Common) (x : Bin) (s : State) : Host.Outcome State Fault Refusal :=
  (intBin c x fun sg _ w a b => iop .xor sg false w a b).next s
def execIshl (c : Common) (x : Bin) (s : State) : Host.Outcome State Fault Refusal :=
  (intBin c x fun sg _ w a b => iop .shl sg false w a b).next s
def execIshr (c : Common) (x : Bin) (s : State) : Host.Outcome State Fault Refusal :=
  (intBin c x fun sg _ w a b => iop .shr sg false w a b).next s
/-- IBITS.popc and IBITS.clz. -/
def execIbits (c : Common) (clz : BitVec 1) (x : Un) (s : State) : Host.Outcome State Fault Refusal :=
  (unEff c (timing 2) intTypes .none x fun t _ _ a =>
    (if clz = 1#1 then leadZeros (fmtWidth t) a else popCount (fmtWidth t) a, 0)).next s

/-! ## Immediates (R212) -/

/-- The f32 constant of an LI immediate (R159). -/
def immF32 (imm : BitVec 28) : Nat := imm.toNat * 16

def execIaddi (c : Common) (d a : Sel) (imm : BitVec 28) (s : State) : Host.Outcome State Fault Refusal :=
  (onWord c (laneLen 1) fun x => laneFields x 1 2 7 intTypes d [a] fun v =>
    (iop .add true false 32 (v.getD 0 0) (imm.signExtend 32).toNat, 0)).next s
def execFmuli (c : Common) (d a : Sel) (imm : BitVec 28) (s : State) : Host.Outcome State Fault Refusal :=
  (onWord c (laneLen 1) fun x => laneFields x 1 4 1 floatTypes d [a] fun v => fMul 1 0 (v.getD 0 0) (immF32 imm)).next s
def execFaddi (c : Common) (d a : Sel) (imm : BitVec 28) (s : State) : Host.Outcome State Fault Refusal :=
  (onWord c (laneLen 1) fun x => laneFields x 1 4 1 floatTypes d [a] fun v => fAdd 1 0 (v.getD 0 0) (immF32 imm)).next s

/-! ## Comparisons, selection, moves, fills (R213, R214) -/

/-- Field `part` of both sources compared, in each active lane. -/
def compareForm (c : Common) (lat ty part : Nat) (accepts : Nat → Bool) (d a b : Sel) (f : Nat → Nat → Bool × Status) : Eff :=
  onWord c (laneLen 1) fun x =>
    let w := fmtWidth ty
    maskForm x lat d [a, b]
      [(laneType ty && accepts ty, cIllegalOperand), (part < 32 / w, cIllegalOperand)]
      fun s i => f (laneField w (s.laneSrc x.st a i) part) (laneField w (s.laneSrc x.st b i) part)

def execFcmp (c : Common) (cond : BitVec 3) (ty : BitVec 4) (part : BitVec 2) (d a b : Sel) (s : State) : Host.Outcome State Fault Refusal :=
  (compareForm c 4 ty.toNat part.toNat floatTypes d a b fun u v => fCond cond.toNat ty.toNat u v).next s
def execIcmp (c : Common) (cond : BitVec 3) (ty : BitVec 4) (part : BitVec 2) (d a b : Sel) (s : State) : Host.Outcome State Fault Refusal :=
  (compareForm c 2 ty.toNat part.toNat intTypes d a b fun u v =>
    (iCond cond.toNat (intOf (isSigned ty.toNat) (fmtWidth ty.toNat) u) (intOf (isSigned ty.toNat) (fmtWidth ty.toNat) v), 0)).next s
/-- SELECT reads both sources in every active lane (DESIGN CHOICE, notes/assumptions/63.md). -/
def execSelect (c : Common) (d a b m : Sel) (s : State) : Host.Outcome State Fault Refusal :=
  (onWord c (laneLen 1) fun x => laneForm x 1 2 d [a, b] [] fun s i =>
    (if (x.st.mreg (selNum m)).getLsbD i then s.laneSrc x.st a i else s.laneSrc x.st b i, 0)).next s

/-- MOVE: whole words in a lane, elements as raw bits in a plane (R214). -/
def execMove (c : Common) (x : Un) (s : State) : Host.Outcome State Fault Refusal :=
  (onWord c (unLen (timing 2) x) fun cx =>
    match x with
    | .lane _ _ _ d a => laneForm cx 1 2 d [a] [] fun s i => (s.laneSrc cx.st a i, 0)
    | .plane ty _ _ pd pa =>
      elementwise cx ty 1 (.fixed 2) pd [.plane pa.toNat] exactTypes .copy fun _ v => (v.getD 0 0, 0)).next s

/-- FILL: the low bits of a scalar in every field or element (R214). -/
def execFill (c : Common) (x : Un) (s : State) : Host.Outcome State Fault Refusal :=
  (onWord c (fun cx => match x with
      | .lane .. => laneLen 1 cx
      | .plane _ _ _ pd _ => planeCycles cx 1 [pd.toNat]) fun cx =>
    match x with
    | .lane ty _ _ d a =>
      laneForm cx 1 2 d [] [(laneType ty.toNat, cIllegalOperand)] fun _ _ =>
        packFields (fmtWidth ty.toNat) fun _ => ((cx.st.scalar a).toNat, 0)
    | .plane ty _ _ pd sa =>
      elementwise cx ty 1 (.fixed 2) pd [.scalar sa.toNat] exactTypes .none fun _ v => (v.getD 0 0, 0)).next s

end Sys2Proof.Machine
end

