-- ==== Sys2Proof/Machine/Mask.lean ====
section
/-! DEFINITION. Mask operations, neighbours and lane numbers (R215 to R217). -/

namespace Sys2Proof.Machine

/-- A mask operation on masks alone, two cycles (Table 10-6). -/
def maskOp (c : Common) (d : Sel) (f : Ctx → Nat → Bool) : Eff :=
  onWord c (laneLen 1) fun x => maskForm x 2 d [] [] fun _ i => (f x i, 0)

/-- Bit of a mask register in a lane. -/
def maskBit (x : Ctx) (a : Sel) (i : Nat) : Bool := (x.st.mreg (selNum a)).getLsbD i

def execMand (c : Common) (d a b : Sel) (s : State) : Host.Outcome State Fault Refusal :=
  (maskOp c d fun x i => maskBit x a i && maskBit x b i).next s
def execMor (c : Common) (d a b : Sel) (s : State) : Host.Outcome State Fault Refusal :=
  (maskOp c d fun x i => maskBit x a i || maskBit x b i).next s
def execMxor (c : Common) (d a b : Sel) (s : State) : Host.Outcome State Fault Refusal :=
  (maskOp c d fun x i => maskBit x a i != maskBit x b i).next s
def execMnot (c : Common) (d a : Sel) (s : State) : Host.Outcome State Fault Refusal :=
  (maskOp c d fun x i => !maskBit x a i).next s
/-- MFROM: the lane word is not zero. -/
def execMfrom (c : Common) (d a : Sel) (s : State) : Host.Outcome State Fault Refusal :=
  (onWord c (laneLen 1) fun x => maskForm x 2 d [a] [] fun s i => (s.laneSrc x.st a i ≠ 0, 0)).next s
/-- MTOV.one and MTOV.ones. -/
def execMtov (c : Common) (ones : BitVec 1) (d a : Sel) (s : State) : Host.Outcome State Fault Refusal :=
  (onWord c (laneLen 1) fun x => laneForm x 1 2 d [] [] fun _ i =>
    (if maskBit x a i then (if ones = 1#1 then BitVec.allOnes 32 else 1) else 0, 0)).next s

/-- Result of MRED over the active lanes. -/
def mredValue (op : MredOp) (act m : Lanes) : Word :=
  let on := act &&& m
  match op with
  | .any => if on = 0 then 0 else 1
  | .all => if on = act then 1 else 0
  | .count => BitVec.ofNat 64 (popCount 16384 on.toNat)
  | .first => if on = 0 then BitVec.allOnes 64 else BitVec.ofNat 64 (lowestLane on)

def execMred (c : Common) (op : MredOp) (d a : Sel) (s : State) : Host.Outcome State Fault Refusal :=
  (onWord c (laneLen 1) fun x s =>
    let v := mredValue op x.act (x.st.mreg (selNum a))
    fixedResult x s (laneLen 1 x) 2 [.s (selNum d) v] [.latS c.lat.toNat v] 0).next s
/-- MLEAD: one in the lowest active lane that is set. -/
def execMlead (c : Common) (d a : Sel) (s : State) : Host.Outcome State Fault Refusal :=
  (maskOp c d fun x i =>
    let on := x.act &&& x.st.mreg (selNum a)
    on ≠ 0 && i = lowestLane on).next s

/-- The window lane whose word NBR takes for lane n at distance d, or none outside (R216). -/
def nbrLane (w : Word) (axis : Bool) (mode : NbrMode) (dist : Int) (n : Nat) : Option Nat :=
  let i := n / winW w
  let j := n % winW w
  let len : Int := if axis then winH w else winW w
  let v : Int := (if axis then (i : Int) else j) - dist
  let pick : Option Int :=
    if 0 ≤ v ∧ v < len then some v
    else
      match mode with
      | .wrap => some (v % len)
      | .clamp => some (if v < 0 then 0 else len - 1)
      | _ => none
  pick.map fun u => if axis then u.toNat * winW w + j else i * winW w + u.toNat

def execNbr (c : Common) (axis : BitVec 1) (mode : NbrMode) (d a b : Sel) (dist : BitVec 7) (s : State) : Host.Outcome State Fault Refusal :=
  (onWord c (laneLen 1) fun x =>
    unlessBad (fun _ => if x.st.laneOk d && x.st.laneOk a then laneKeys x.st (List.range (winLanes x.st.window)) [a] else []) <|
    laneForm x 1 2 d [a] [] fun s n =>
      (match nbrLane x.st.window (axis = 1#1) mode dist.toInt n with
       | some m => s.laneSrc x.st a m
       | none => if mode = .const then (x.st.scalar b).setWidth 32 else 0, 0)).next s

/-- LANEIDX: i·w + j, i or j (R217). -/
def execLaneidx (c : Common) (which : IdxSel) (d : Sel) (s : State) : Host.Outcome State Fault Refusal :=
  (onWord c (laneLen 1) fun x => laneForm x 1 2 d [] [] fun _ n =>
    (BitVec.ofNat 32 (match which with
      | .whole => n
      | .row => n / winW x.st.window
      | .col => n % winW x.st.window), 0)).next s

end Sys2Proof.Machine
end

