-- ==== Sys2Proof/Machine/Movement.lean ====
section
/-! DEFINITION. Whole-plane movements (R64 to R75, R218, R219). -/

namespace Sys2Proof.Machine

/-! ## Costs along an axis (Table 3-6) -/

/-- A plane and window seen along an axis: window length, slots, plane length along it; slots across. -/
structure Along where
  w : Nat
  sw : Nat
  sh : Nat
  len : Nat

def Geo.along (g : Geo) (axis : BitVec 1) : Along :=
  if axis = 1#1 then { w := g.h, sw := g.sh, sh := g.sw, len := g.H } else { w := g.w, sw := g.sw, sh := g.sh, len := g.W }

/-- SHIFT by a distance. -/
def shiftCost (g : Geo) (a : Along) (d : Nat) : Nat :=
  if g.fold = 1 then g.wd * (d / a.sw + 1) + (d % a.sw * a.sh + g.e - 1) / g.e
  else g.wd * max 1 (d % a.w + (if 0 < d % a.w && 1 < a.sw then 1 else 0))

/-- The halving steps of FOLD: ⌈u/2⌉ until one element is left. -/
def foldCost (g : Geo) (a : Along) : Nat → Nat → Nat
  | 0, _ => 0
  | n + 1, u => if u ≤ 1 then 0 else shiftCost g a ((u + 1) / 2) + foldCost g a n ((u + 1) / 2)

/-- ⌈log2 n⌉. -/
def ceilLog2 (n : Nat) : Nat := if n ≤ 1 then 0 else Nat.log2 (n - 1) + 1

/-! ## A movement's effect -/

/-- Both planes have one slot and depth 1: the fixed case of R75. -/
def movesFixed (g a : Geo) : Bool := g.S = 1 && g.D = 1 && a.S = 1 && a.D = 1

/-- The cycle in which the last fixed movement on a core's network is readable. -/
def State.netUntil (s : State) (core : Nat) : Nat := (s.issuers core).foldl (fun a e => max a e.2.moves) 0

/-- The core's movement network is in use: by a variable-latency movement outstanding, or by a fixed one, which holds it for its cost and is readable two cycles later (R75, notes/assumptions/10.md). -/
def netHeld (s : State) (core : Nat) : Bool :=
  s.now + 2 < s.netUntil core ||
  s.ops.any fun p => (s.strand p.owner).core = core && (match p.kind with | .results true _ _ => true | _ => false)

/-- A movement `i`: type and bounded checks, agreement, then the destination's elements from `val` and the bound from `β`, +∞ beside an element that is no finite number (R46). A fixed one waits at issue for those before it on the network, then has its cost plus two cycles; the others complete on the movement network (R75, notes/assumptions/10.md). -/
def movement (x : Ctx) (i : Instr) (ty : BitVec 4) (pd pa : BitVec 4) (accepts : Nat → Bool) (bounded : Bool)
    (pre : List (Bool × Nat)) (agree : Geo → Geo → Bool) (cost : Geo → Geo → Nat)
    (val : State → Geo → Geo → Nat → Nat → Nat → Res) (β : State → Geo → Geo → LWord) : Eff :=
  planePair x pd pa pre
    (fun g a =>
      let ok := fun (t : Nat) => isBounded t || accepts t
      [(ok g.ty && ok a.ty, cIllegalOperand),
       ((if bounded then isBounded a.ty = isBounded g.ty else !isBounded a.ty && !isBounded g.ty) &&
          !(x.st.isRoutine && (isBounded a.ty || isBounded g.ty)), cBounded),
       (tyField ty g && g.ty = a.ty && sameDepth g a && agree g a, cPlaneMismatch)])
    fun s g a =>
      let f := val s g a
      let bound : List LUpd :=
        if isBounded g.ty then
          [boundWrite x.st pd.toNat (g.full x.act)
            (boundOver (exactOf g.ty) (g.elems.map fun e => (f e.1 e.2.1 e.2.2).1) (β s g a))]
        else []
      let time := cost g a * winM x.st.window + 2
      let put := fun how => deliver x s 1 how (a.reads x.st.core x.st.window)
        (planeWrites x.st.core x.st.window g x.act s.fresh (fun d y z => (f d y z).1) ++ bound)
        (planeStatus g x.act fun d y z => (f d y z).2)
      if !movesFixed g a then put (.variable true i)
      else if netHeld s x.st.core then stall x s
      else put (.fixed time) ++ [.moves x.k (s.now + time)]

/-- The source's bound, passed on. -/
def passBound (x : Ctx) (pa : BitVec 4) : State → Geo → Geo → LWord := fun _ _ _ => x.st.pbreg pa.toNat

/-- Any plane type is accepted. -/
def anyPlane : Nat → Bool := exactTypes

/-- An element's coordinate along an axis replaced. -/
def alongAt (axis : BitVec 1) (y z v : Nat) : Nat × Nat := if axis = 1#1 then (v, z) else (y, v)
def alongOf (axis : BitVec 1) (y z : Nat) : Nat := if axis = 1#1 then y else z

/-- SHIFT with its edge fill (R64). -/
def execShift (c : Common) (ty : BitVec 4) (axis : BitVec 1) (edge : Edge) (pd pa sc : BitVec 4) (dist : BitVec 16)
    (s : State) : Host.Outcome State Fault Refusal :=
  (onWord c len1 fun x =>
    movement x (.shift c ty axis edge pd pa sc dist) ty pd pa anyPlane true [] (fun g a => sameFold g a && sameShape g a)
      (fun _ a => shiftCost a (a.along axis) dist.toInt.natAbs)
      (fun s _ a d y z =>
        let len : Int := (a.along axis).len
        let v : Int := (alongOf axis y z : Int) - dist.toInt
        let at_ := fun (u : Nat) => let p := alongAt axis y z u; srcElem x s a d p.1 p.2
        (if 0 ≤ v ∧ v < len then at_ v.toNat
         else
           match edge with
           | .zero => 0
           | .clamp => at_ (if v < 0 then 0 else (len - 1).toNat)
           | .const => (x.st.sreg sc.toNat).toNat % 2 ^ a.b, 0))
      (passBound x pa)).next s

/-- ROT wraps at the plane's edge; its edge field is ignored (R65). -/
def execRotPlane (c : Common) (ty : BitVec 4) (axis : BitVec 1) (edge : BitVec 2) (pd pa : BitVec 4) (dist : BitVec 16)
    (s : State) : Host.Outcome State Fault Refusal :=
  (onWord c len1 fun x =>
    movement x (.rotPlane c ty axis edge pd pa dist) ty pd pa anyPlane true [] (fun g a => sameFold g a && sameShape g a)
      (fun _ a =>
        let l := a.along axis
        shiftCost a l (dist.toInt % (l.len : Int)).toNat + (if l.len < l.sw * l.w then a.wd else 0))
      (fun s _ a d y z =>
        let p := alongAt axis y z (((alongOf axis y z : Int) - dist.toInt) % ((a.along axis).len : Int)).toNat
        (srcElem x s a d p.1 p.2, 0))
      (passBound x pa)).next s

/-- SPREAD: the source has length 1 along the axis (R66). -/
def execSpread (c : Common) (ty : BitVec 4) (axis : BitVec 1) (pd pa : BitVec 4) (s : State) : Host.Outcome State Fault Refusal :=
  (onWord c len1 fun x =>
    movement x (.spread c ty axis pd pa) ty pd pa anyPlane true []
      (fun g a => sameFold g a && (if axis = 1#1 then a.H = 1 && g.W = a.W else a.W = 1 && g.H = a.H))
      (fun g a => a.wd * ceilLog2 (a.along axis).w + g.wd)
      (fun s _ a d y z => let p := alongAt axis y z 0; (srcElem x s a d p.1 p.2, 0))
      (passBound x pa)).next s

/-- Types FOLD and SCAN accept: floating and integer; .and and .or only integer (Table 10-1). -/
def foldTypes (op : FoldOp) (t : Nat) : Bool :=
  match op with
  | .and => intTypes t
  | .or => intTypes t
  | _ => floatTypes t || intTypes t

/-- Rounding applies to .add on floating types and saturation to .add on integer types; elsewhere they are reserved (R219). The type is the descriptor's, whatever the type field names (DESIGN CHOICE, notes/assumptions/82.md). -/
def foldReserved (x : Ctx) (pd : BitVec 4) (op : FoldOp) (rnd : BitVec 2) (sat : BitVec 1) : List (Bool × Nat) :=
  let t := exactOf (fieldOf (x.st.pdreg pd.toNat) 32 4)
  [((rnd = 0#2 || (op = .add && isFloat t)) && (sat = 0#1 || (op = .add && isInt t)), cIllegalInstr)]

/-- The source elements of a line along the axis. -/
def lineOf (x : Ctx) (s : State) (a : Geo) (axis : BitVec 1) (d y z : Nat) : List Nat :=
  (List.range (a.along axis).len).map fun v => let p := alongAt axis y z v; srcElem x s a d p.1 p.2

/-- FOLD in the halving order of R40; a bounded source propagates its bound (Table 2-8). -/
def execFold (c : Common) (ty : BitVec 4) (axis : BitVec 1) (op : FoldOp) (rnd : BitVec 2) (sat : BitVec 1)
    (pd pa : BitVec 4) (s : State) : Host.Outcome State Fault Refusal :=
  (onWord c len1 fun x =>
    let run := fun (s : State) (a : Geo) (d y z : Nat) =>
      let l := lineOf x s a axis d y z
      foldAll op.code.toNat (exactOf a.ty) rnd.toNat (sat = 1#1) l.length l 0 []
    movement x (.fold c ty axis op rnd sat pd pa) ty pd pa (foldTypes op) (op = .add || op = .max || op = .min) (foldReserved x pd op rnd sat)
      (fun g a => sameFold g a && (if axis = 1#1 then g.H = 1 && g.W = a.W else g.W = 1 && g.H = a.H))
      (fun g a => let l := a.along axis; foldCost a l l.len l.len + g.wd)
      (fun s _ a d y z => let r := run s a d y z; (r.1, r.2.1))
      (fun s g a =>
        let β := boundVal (x.st.pbreg pa.toNat)
        if op = .add then
          let w := (a.along axis).len
          let sums := g.elems.flatMap fun e =>
            let r := run s a e.1 e.2.1 e.2.2
            r.1 :: r.2.2
          let ρ := rhoOf (exactOf a.ty) sums
          boundBits (boundSum [scaleBound (.num false w 0) β, scaleBound (.num false (w - 1) 0) ρ])
        else x.st.pbreg pa.toNat)).next s

/-- SCAN along an axis (R68, R41). -/
def execScan (c : Common) (ty : BitVec 4) (axis : BitVec 1) (op : FoldOp) (rnd : BitVec 2) (sat : BitVec 1)
    (pd pa : BitVec 4) (s : State) : Host.Outcome State Fault Refusal :=
  (onWord c len1 fun x =>
    movement x (.scan c ty axis op rnd sat pd pa) ty pd pa (foldTypes op) false (foldReserved x pd op rnd sat)
      (fun g a => sameFold g a && sameShape g a)
      (fun _ a => a.wd + (if isFloat a.ty then 4 else 2) * ((a.along axis).len - 1))
      (fun s _ a d y z =>
        (scanAll op.code.toNat a.ty rnd.toNat (sat = 1#1) (lineOf x s a axis d y z) none).getD (alongOf axis y z) (0, 0))
      (passBound x pa)).next s

/-- REFOLD alone may change the folding (R70). -/
def execRefold (c : Common) (ty : BitVec 4) (pd pa : BitVec 4) (s : State) : Host.Outcome State Fault Refusal :=
  (onWord c len1 fun x =>
    movement x (.refold c ty pd pa) ty pd pa anyPlane true [] sameShape
      (fun g a => if g.fold = a.fold || a.S = 1 then a.wd else a.wd * (a.h + a.w + 1))
      (fun s _ a d y z => (srcElem x s a d y z, 0))
      (passBound x pa)).next s

/-- TRANSP of a square exact plane (R69). -/
def execTransp (c : Common) (ty : BitVec 4) (pd pa : BitVec 4) (s : State) : Host.Outcome State Fault Refusal :=
  (onWord c len1 fun x =>
    movement x (.transp c ty pd pa) ty pd pa exactTypes false [] (fun g a => sameFold g a && sameShape g a && a.H = a.W)
      (fun _ a => a.wd * (2 * (max a.h a.w - 1) + 1))
      (fun s _ a d y z => (srcElem x s a d z y, 0))
      (passBound x pa)).next s

end Sys2Proof.Machine
end

