-- ==== Sys2Proof/Machine/Plane.lean ====
section
/-! DEFINITION. INDEX, descriptors and windows, QUANT, ACCEPT and BOUND (R220 to R225). -/

namespace Sys2Proof.Machine

/-- INDEX (R220): integer destinations, modulo 2^b. -/
def execIndex (c : Common) (ty : BitVec 4) (which : IdxSel) (pd sa : BitVec 4) (s : State) : Host.Outcome State Fault Refusal :=
  (onWord c (fun x => planeCycles x 1 [pd.toNat]) fun x s =>
    let g := Geo.of x.st.window (x.st.pdreg pd.toNat)
    checked x
      [(planeOk x.st (x.st.pdreg pd.toNat), cIllegalOperand), (isBounded g.ty || intTypes g.ty, cIllegalOperand),
       (!isBounded g.ty, cBounded), (tyField ty g, cPlaneMismatch)]
      (unlessBad (fun _ => g.kept x.st.core x.st.window x.act) fun s =>
        let v := (x.st.sreg sa.toNat).toNat
        deliver x s (planeCycles x 1 [pd.toNat]) (.variable false (.index c ty which pd sa)) []
          (planeWrites x.st.core x.st.window g x.act s.fresh fun _ y z =>
            (match which with
             | .whole => y * g.W + z
             | .row => y
             | .col => z) + v) 0) s).next s

/-- PDSET writes a descriptor unchecked, one cycle after issue (R221). -/
def execPdset (c : Common) (pd sa : BitVec 4) (s : State) : Host.Outcome State Fault Refusal :=
  (onWord c len1 fun x s => fixedResult x s 1 1 [.pd pd.toNat (x.st.sreg sa.toNat)] [] 0).next s

/-- PDGET and PDGET.bound (R221). -/
def execPdget (c : Common) (bound : BitVec 1) (sd pa : BitVec 4) (s : State) : Host.Outcome State Fault Refusal :=
  (onWord c len1 fun x s =>
    let v : Word := if bound = 1#1 then (x.st.pbreg pa.toNat).setWidth 64 else x.st.pdreg pa.toNat
    fixedResult x s 1 1 [.s sd.toNat v] [] 0).next s

/-- A legal window register (R51), covering only lanes of the launch's window (R222). -/
def windowOk (launch w : Word) : Bool :=
  fieldOf w 24 40 = 0 &&
  (if winVirtual w then winRow w = 0 && winCol w = 0 else winRow w + winH w ≤ 32 && winCol w + winW w ≤ 32) &&
  (let a := winBox w
   let b := winBox launch
   b.1 ≤ a.1 && a.2.1 ≤ b.2.1 && b.2.2.1 ≤ a.2.2.1 && a.2.2.2 ≤ b.2.2.2)

/-- WINSET replaces the window register at its completion, one cycle after issue (R222). -/
def execWinset (c : Common) (sa : BitVec 4) (s : State) : Host.Outcome State Fault Refusal :=
  (onWord c len1 fun x =>
    checked x [(windowOk x.st.launchWin (x.st.sreg sa.toNat), cIllegalOperand)] fun s =>
      fixedResult x s 1 1 [.window (x.st.sreg sa.toNat)] [] 0).next s

/-! ## QUANT (R223) -/

def blockLen : BlockLen → Nat
  | .l16 => 16
  | .l32 => 32
  | .l64 => 64

/-- Block q of row y of a source plane, as values. -/
def blockVals (x : Ctx) (s : State) (a : Geo) (len d y q : Nat) : List FVal :=
  (List.range len).map fun i => decodeF a.ty (srcElem x s a d y (q * len + i))

/-- Code, clip and status of one element of a block (R38). In a block with a NaN, invalid is set with the code of the element that holds the signalling one alone (DESIGN CHOICE, notes/assumptions/108.md). -/
def quantElem (vs : List FVal) (i : Nat) : Nat × Bool × Status :=
  let r := quantBlock vs
  let v := vs.getD i (.num false 0 0)
  let st : Status := if r.1 = 255 then (if v.isSNaN then stInvalid else 0)
    else match v with
      | .num n m e => (roundTB8 (.num n m (e - r.1 + 127))).2
      | v => (roundTB8 v).2
  (r.2.1.getD i 0, r.1 ≠ 255 && (match v with | .inf _ => true | _ => false), st)

def execQuant (c : Common) (ty : BitVec 4) (len : BlockLen) (pd pa pb sc : BitVec 4) (s : State) : Host.Outcome State Fault Refusal :=
  (onWord c (fun x => planeCycles x 1 [pd.toNat, pa.toNat, pb.toNat]) fun x =>
    let L := blockLen len
    let b := Geo.of x.st.window (x.st.pdreg pb.toNat)
    planePair x pd pa [(planeOk x.st (x.st.pdreg pb.toNat), cIllegalOperand)]
      (fun g a =>
        [(isBounded a.ty || isFloat a.ty, cIllegalOperand),
         (!isBounded a.ty && !isBounded g.ty && !isBounded b.ty, cBounded),
         (tyField ty g && g.ty = 4 && b.ty = 8 && a.W % L = 0 && sameShape g a && b.H = a.H && b.W * L = a.W &&
            sameFold g a && sameFold b a && sameDepth g a && sameDepth b a, cPlaneMismatch)])
      fun s g a => unlessBad (fun _ => b.kept x.st.core x.st.window x.act) (fun s =>
        let vals := fun d y q => blockVals x s a L d y q
        let elem := fun d y z => quantElem (vals d y (z / L)) (z % L)
        let written := g.elems.filter fun e => x.act.getLsbD (g.place e.2.1 e.2.2).1
        let clipped := (written.filter fun e => (elem e.1 e.2.1 e.2.2).2.1).length
        deliver x s (planeCycles x 1 [pd.toNat, pa.toNat, pb.toNat]) (.variable false (.quant c ty len pd pa pb sc)) (a.reads x.st.core x.st.window)
          (planeWrites x.st.core x.st.window g x.act s.fresh (fun d y z => (elem d y z).1) ++
           planeWrites x.st.core x.st.window b x.act (s.fresh + 1) (fun d y q => (quantBlock (vals d y q)).1) ++
           [.s sc.toNat (BitVec.ofNat 64 clipped)])
          (planeStatus g x.act fun d y z => (elem d y z).2.2) ++ [.fresh]) s).next s

/-! ## Bounded values (R224, R225) -/

/-- pbA > θ, or θ is NaN. -/
def boundExceeds (β θ : LWord) : Bool := (boundVal θ).isNaN || (boundVal θ).lt (boundVal β)

def execAccept (c : Common) (ty : BitVec 4) (mode : AcceptMode) (pd pa sb mc : BitVec 4) (s : State) : Host.Outcome State Fault Refusal :=
  (onWord c (fun x => planeCycles x 1 [pd.toNat, pa.toNat]) fun x =>
    let above := boundExceeds (x.st.pbreg pa.toNat) ((x.st.sreg sb.toNat).setWidth 32)
    planePair x pd pa []
      (fun g a =>
        [(isBounded a.ty, cIllegalOperand),
         (tyField ty g && g.ty = exactOf a.ty && sameFold g a && sameShape g a && sameDepth g a, cPlaneMismatch),
         (!(mode = .trap && above), cBoundExceeded)])
      fun s g a =>
        deliver x s (planeCycles x 1 [pd.toNat, pa.toNat]) (.variable false (.accept c ty mode pd pa sb mc)) (a.reads x.st.core x.st.window)
          (planeWrites x.st.core x.st.window g x.act s.fresh (fun d y z => srcElem x s a d y z) ++
           (if mode = .mask then [.m mc.toNat x.act (if above then BitVec.allOnes 16384 else 0)] else []))
          (if mode = .flag && above then stBound else 0)).next s

def execBound (c : Common) (ty : BitVec 4) (pd pa sb : BitVec 4) (s : State) : Host.Outcome State Fault Refusal :=
  (onWord c (fun x => planeCycles x 1 [pd.toNat, pa.toNat]) fun x =>
    let θ := boundVal ((x.st.sreg sb.toNat).setWidth 32)
    planePair x pd pa [(!θ.isNaN && (!θ.neg || θ.isZero), cIllegalOperand)]
      (fun g a =>
        [(a.ty = 1 || a.ty = 2 || isBounded a.ty, cIllegalOperand),
         (!isBounded a.ty || isBounded g.ty, cBounded),
         (tyField ty g && isBounded g.ty && exactOf g.ty = exactOf a.ty && sameFold g a && sameShape g a && sameDepth g a, cPlaneMismatch)])
      fun s g a =>
        let β := if isBounded a.ty then x.st.pbreg pa.toNat else 0#32
        let new := boundOver (exactOf a.ty) (g.elems.map fun e => srcElem x s a e.1 e.2.1 e.2.2) (boundMax β (boundBits θ.absV))
        deliver x s (planeCycles x 1 [pd.toNat, pa.toNat]) (.variable false (.bound c ty pd pa sb)) (a.reads x.st.core x.st.window)
          (planeWrites x.st.core x.st.window g x.act s.fresh (fun d y z => srcElem x s a d y z) ++
           [boundWrite x.st pd.toNat (g.full x.act) new]) 0).next s

/-! ## Completion (R75, R91, R207) -/

/-- A movement of the same core issued before this one is still under way: the network serves in issue order (R75). -/
def networkBusy (s : State) (o : Op) : Bool :=
  let core := (s.strand o.owner).core
  (s.ops.any fun p => p.id < o.id && (s.strand p.owner).core = core &&
    (match p.kind with | .results true _ _ => true | _ => false)) ||
  (s.issuers core).any fun e => s.now < e.2.moves

/-- The plane instructions of variable latency, each by its meaning. -/
def planeAgain (i : Instr) (s : State) : Host.Outcome State Fault Refusal :=
  match i with
  | .frcp c x => execFrcp c x s
  | .frsq c x => execFrsq c x s
  | .fexp2 c x => execFexp2 c x s
  | .flog2 c x => execFlog2 c x s
  | .shift c ty axis edge pd pa sc dist => execShift c ty axis edge pd pa sc dist s
  | .rotPlane c ty axis edge pd pa dist => execRotPlane c ty axis edge pd pa dist s
  | .spread c ty axis pd pa => execSpread c ty axis pd pa s
  | .fold c ty axis op rnd sat pd pa => execFold c ty axis op rnd sat pd pa s
  | .scan c ty axis op rnd sat pd pa => execScan c ty axis op rnd sat pd pa s
  | .refold c ty pd pa => execRefold c ty pd pa s
  | .transp c ty pd pa => execTransp c ty pd pa s
  | .index c ty which pd sa => execIndex c ty which pd sa s
  | .quant c ty len pd pa pb sc => execQuant c ty len pd pa pb sc s
  | .accept c ty mode pd pa sb mc => execAccept c ty mode pd pa sb mc s
  | .bound c ty pd pa sb => execBound c ty pd pa sb s
  | _ => .next s

/-- The source words another agent has changed since issue: each reads as its old or its new value, by a free choice (R207). -/
def Again.changed (g : Again) (s : State) : List (Nat × LWord) :=
  g.src.filterMap fun e =>
    let v := s.laneWord g.st e.1
    if v = e.2.2 then (if e.2.1 = e.2.2 then none else some (e.1, e.2.1))
    else some (e.1, if Config.earlyWrite s.fresh e.1 then v else e.2.1)

/-- The results an operation of variable latency delivers: those computed at issue, or, where a source word has changed, those its instruction computes from the sources so read, with its descriptors, masks, window and scalars as at issue (R207). That a source word is correctable is checked at issue alone (DESIGN CHOICE, notes/assumptions/63.md). -/
def resultsOf (s : State) (o : Op) (ups : List LUpd) (g : Again) : List LUpd :=
  if g.src.all fun e => s.laneWord g.st e.1 = e.2.2 then ups
  else
    let lanes := (g.changed s).foldl (fun m e => mapSet m e.1 e.2) s.lanes
    let t := { s with cur := (o.owner, o.split), strands := mapSet s.strands o.owner g.st, lanes := lanes, lanesBad := [], fresh := g.seed }
    match planeAgain g.i t with
    | .next u =>
      (match u.op? s.nextOp with
       | some p => (match p.kind with | .results _ ups' _ => ups' | _ => ups)
       | none => ups)
    | _ => ups

/-- PLANE_COMPLETE: the destination is written, status and bound with it, and the flag falls (R75, R91). -/
def execPlaneComplete (id : Nat) (s : State) : Host.Outcome State Fault Refusal :=
  Eff.when "PLANE_COMPLETE" (fun s => match s.op? id with
      | some o => (match o.kind with
        | .results net _ _ => !net || !networkBusy s o
        | .zskip .. => true
        | _ => false)
      | none => false)
    (fun s => match s.op? id with
      | some o => (match o.kind with
        | .results _ ups none => completeOp o (ups.map (Upd.loc o.owner)) [] s
        | .results _ ups (some g) => Upd.fresh :: completeOp o ((resultsOf s o ups g).map (Upd.loc o.owner)) [] (s.apply .fresh)
        | .zskip d a v next =>
          completeOp o ((if v = BitVec.allOnes 64 then [] else [Upd.loc o.owner (.s a next)]) ++ [.loc o.owner (.s d v)]) [] s
        | _ => [])
      | none => []) s

end Sys2Proof.Machine
end

