-- ==== Sys2Proof/Machine/Schedule.lean ====
section
/-! DEFINITION. The dispatchers, placement, pre-emption and the watchdog (R316, R323 to R333, R338, R339, R355). -/

namespace Sys2Proof.Machine

/-! ## Taking a record from a chain (R323, R324) -/

/-- A chain's dispatcher may act: its partition is enabled, the chain enabled and not halted. -/
def dispatching (s : State) (part chain : Nat) : Bool :=
  let x := s.chain (chainKey part chain)
  (s.part part).enabled && !(s.part part).busy && x.enabled && !x.halted

/-- The busy bit of a partition: it is being disabled, or its translations invalidated; its chains take no records (R341, R347). -/
def Part.takesNone (x : Part) : Bool := x.busy || x.invBusy || x.genBusy

/-- The head record as it can be read: what the device made, or 64 bytes. -/
def headRecord (s : State) (part chain : Nat) : Except LaneFail (List Word) :=
  let x := s.chain (chainKey part chain)
  match x.madeAt x.head with
  | some l => .ok l.rec_
  | none => recordWords s (linkCluster x x.head) part (chainAsid s part chain) 1 x.head 8

/-- The line of memory the head record is read from, where it is. -/
def headSpan (s : State) (part chain : Nat) : List (Tlb × Nat) :=
  let x := s.chain (chainKey part chain)
  if (x.madeAt x.head).isSome || x.head / 2 ^ 63 = 1 then []
  else
    match translate s 256 part (chainAsid s part chain) 1 x.head 0 with
    | .ok p => [p]
    | .error _ => []

/-- ASID and further core restriction of the head record. -/
def headAsid (s : State) (part chain : Nat) : Nat :=
  match (s.chain (chainKey part chain)).madeAt (s.chain (chainKey part chain)).head with
  | some l => l.asid
  | none => chainAsid s part chain
def headLimit (s : State) (part chain : Nat) : BitVec 256 :=
  match (s.chain (chainKey part chain)).madeAt (s.chain (chainKey part chain)).head with
  | some l => l.mask
  | none => BitVec.allOnes 256

/-- The refusal code of the head record, 0 where it passes (Table 19-2); 9 before all else (R342, notes/assumptions/99.md). -/
def headCode (s : State) (part chain : Nat) : Nat :=
  if (asidRoot s (s.part part) (headAsid s part chain)).isNone then 9
  else
  match headRecord s part chain with
  | .error _ => 8
  | .ok r => recordCode s part chain (headAsid s part chain) r false (headLimit s part chain)

/-- The chain timeline a record waits for, and the value. -/
def recWait (r : List Word) : Option (Nat × Nat) :=
  let w5 := recWord r 5
  if fieldOf w5 3 1 = 1 then some (fieldOf w5 0 3, (recWord r 4).toNat) else none

/-- The record's wait holds. -/
def waitHolds (s : State) (part chain : Nat) (r : List Word) : Bool :=
  match recWait r with
  | some (ct, v) => v ≤ (s.ct (ctKey part chain ct)).count
  | none => true

/-- A record is refused: the chain halts, and a trap-queue record says so (R324). -/
def refuseHead (part chain code : Nat) : Eff := fun s =>
  let key := chainKey part chain
  let x := s.chain key
  let r : TrapRec := { w0 := BitVec.ofNat 64 (0x1A + code * 256), w1 := BitVec.ofNat 64 x.head, w2 := 0,
                       w3 := BitVec.ofNat 64 (chain * 256), w4 := 0, strand := none }
  .chain key { x with halted := true, refusal := code, refused := x.head } :: postTrap part r s

/-- The launch of the head record: what its wait acquires and what its appender released happens before its strands (R286). -/
def headLaunch (s : State) (part chain : Nat) (r : List Word) : Launch :=
  let x := s.chain (chainKey part chain)
  let asid := headAsid s part chain
  let waited := match recWait r with
    | some (ct, v) => (s.ct (ctKey part chain ct)).depsTo v
    | none => []
  let linked := match x.deps.find? fun e => e.1 % 2 ^ 64 = x.head with
    | some e => e.2
    | none => []
  let mask := (effectiveMask s part chain asid r (headLimit s part chain)).getD 0
  let segs := match spanWords s part asid 1 (recWord r 3).toNat 48 with
    | .ok ws => segsOf ws
    | .error _ => []
  let base := match x.madeAt x.head with
    | some l => { l with mask := mask }
    | none => launchOf part chain asid x.head (recLevel s part asid r) 0 r mask [] s.now
  let replays := base.record && (s.part part).replayMode
  { base with
    ident := (s.part part).nextIdent, prio := min (recPrio r) x.ceiling, segs := segs, replay := replays, wdog := s.now,
    start := s.stillPending (joinDeps waited linked), dep := [], waitSince := some s.now, failedAt := none }

/-- The dispatcher takes the head record. -/
def takeHead (part chain : Nat) (r : List Word) : Eff := fun s =>
  let key := chainKey part chain
  let x := s.chain key
  let l := headLaunch s part chain r
  let p := s.part part
  [.launch s.nextLaunch l, .nextLaunch, .chain key { x with current := some s.nextLaunch, tags := [] },
   .part part { p with nextIdent := (p.nextIdent + 1) % 2 ^ 32, replayMode := p.replayMode && !l.replay }]

/-- Address of the record after the head, 0 where the head is the tail. -/
def nextHead (s : State) (part chain : Nat) : Option Nat :=
  let x := s.chain (chainKey part chain)
  if x.head = x.tail then some 0
  else
    match x.madeAt x.head with
    | some l => some (recWord l.rec_ 7).toNat
    | none =>
      if x.head / 2 ^ 63 = 1 then some (s.homeN (scratchPA (linkCluster x x.head) (x.head % 2 ^ 22 + 56)) 8)
      else
        match translate s 256 part (chainAsid s part chain) 1 (x.head + 56) 0 with
        | .ok (t, pa) => some (s.homeKN t.key pa 8)
        | .error _ => none

/-- Every strand of the launch at the head has been placed. -/
def headPlaced (s : State) (id : Nat) : Bool :=
  match mapGet s.launches id with
  | some l => l.count ≤ l.placed
  | none => true

/-- Moves to the next record. -/
def advanceHead (part chain next : Nat) : Eff := fun s =>
  let key := chainKey part chain
  let x := s.chain key
  let n := x.deps.findIdx fun e => e.1 % 2 ^ 64 = x.head
  [.chain key { x with head := next, current := none, tags := [], deps := x.deps.eraseIdx n, made := mapDel x.made x.head }]

/-- LAUNCH_DISPATCH: the head record is checked and refused, or taken once its wait holds; or, all its strands placed, the dispatcher moves on. -/
def execLaunchDispatch (part chain : Nat) (s : State) : Host.Outcome State Fault Refusal :=
  Eff.when "LAUNCH_DISPATCH" (fun s =>
      let x := s.chain (chainKey part chain)
      dispatching s part chain && x.head ≠ 0 &&
      (match x.current with
       | some id => headPlaced s id && (nextHead s part chain).isSome
       | none =>
         !(s.part part).takesNone && spanStill s (headSpan s part chain) &&
         (headCode s part chain ≠ 0 ||
          (match headRecord s part chain with
           | .ok r => waitHolds s part chain r
           | .error _ => true))))
    (fun s =>
      match (s.chain (chainKey part chain)).current with
      | some _ => advanceHead part chain ((nextHead s part chain).getD 0) s
      | none =>
        let c := headCode s part chain
        if c ≠ 0 then refuseHead part chain c s
        else
          match headRecord s part chain with
          | .ok r => Eff.andThen (noteSpan (headSpan s part chain)) (takeHead part chain r) s
          | .error _ => refuseHead part chain 8 s) s

/-! ## Suspended and saved strands (R333) -/

/-- A launch of higher priority than a strand's is ready, its dispatcher acting, and waits for the core. -/
def higherWaits (s : State) (core prio : Nat) : Bool :=
  s.chains.any fun e =>
    dispatching s (e.1 / 16) (e.1 % 16) &&
    (match e.2.current.bind (mapGet s.launches) with
     | some l => prio < l.prio && l.placed < l.count && l.mask.getLsbD core
     | none => false)

/-- The saved strand of a key, where a pre-emption saved it. -/
def pooled (s : State) (k : Nat) : Option Saved := s.saved.find? fun x => x.key = k && x.pool.isSome

/-- A suspended strand, in its slot or saved by a pre-emption, can go on by itself. -/
def canResume (s : State) (k : Nat) : Bool :=
  let st := s.strand k
  st.suspended && !higherWaits s st.core st.prio &&
  (match pooled s k with
   | some _ => (s.freeSlot st.core).isSome && s.footFree st.core st.launchWin st.fpBase st.fpCount
   | none => (mapGet s.strands k).isSome)

/-- Strands of a launch that a pre-emption has stopped or is stopping, wherever they are. -/
def suspendedOf (s : State) (launch : Nat) : List Nat :=
  ((s.strands.filter fun e => e.2.launch = launch && (e.2.suspended || e.2.preempt)).map (·.1)) ++
  ((s.saved.filter fun x => (s.strand x.key).launch = launch && (s.strand x.key).suspended).map (·.key))

/-- What stood before or after an operation in program order stands so to it under its new number. -/
def Split.renamed (old new : Nat) (sp : Split) : Split :=
  { sp with run := if sp.run = .hold old then .hold new else sp.run, prior := sp.prior.map fun i => if i = old then new else i }

/-- A withdrawn wait is issued again: it waits behind the others (R253, R254). -/
def reissue (k : Nat) : Eff := fun s =>
  let l := s.ops.filter fun o => o.owner = k && o.parked && (match o.kind with
    | .qpush .. => true | .qpop .. => true | .tlwait .. => true | .lapw .. => true | .gbar _ _ [] _ => true | _ => false)
  Eff.seq (l.map fun o => fun s =>
    let n := s.nextOp
    [.opDel o.id, .opAdd { o with id := n, parked := false, issued := s.now }, .nextOp, .splits k ((s.strand k).splits.map (Split.renamed o.id n))]) s

/-- One strand goes on: into a slot where it was saved, its image read back (R333, R355). -/
def resumeOne (k : Nat) : Eff := fun s =>
  let st := s.strand k
  let back : Nat → Eff := fun k => Eff.seq [fun _ => [.marks k false false], reissue k,
    match st.gang with
    | some g => closeGang st.launch g
    | none => Eff.skip]
  match pooled s k with
  | none => back k s
  | some x =>
    match s.freeSlot st.core with
    | none => []
    | some slot =>
      let image := s.homeWords x.addr (imageBytes / 8)
      let foot := (List.range (footKeys st).length).map fun i => s.homeN (x.addr + imageBytes + 4 * i) 4
      Eff.andThen (moveIn x slot image foot) (back (slotKey st.core slot)) s

/-- Strands that resume together: a co-resident launch's all, one after the other where each finds its place. -/
def resumeGroup (s : State) (k : Nat) : List Nat :=
  match mapGet s.launches (s.strand k).launch with
  | some l => if l.coresident then suspendedOf s (s.strand k).launch else [k]
  | none => [k]
def resumeAllOk : List Nat → State → Bool
  | [], _ => true
  | k :: r, s => canResume s k && resumeAllOk r ((resumeOne k).run s)

/-- STRAND_RESUME. -/
def execStrandResume (k : Nat) (s : State) : Host.Outcome State Fault Refusal :=
  Eff.when "STRAND_RESUME" (fun s => (s.strand k).suspended && (resumeGroup s k).contains k && resumeAllOk (resumeGroup s k) s)
    (fun s => Eff.seq ((resumeGroup s k).map resumeOne) s) s

/-- A suspended strand of at least a priority comes before a new one on the core. -/
def resumesFirst (s : State) (core prio : Nat) : Bool :=
  (s.strands.map (·.1) ++ s.saved.map (·.key)).any fun k =>
    let st := s.strand k
    st.core = core && st.suspended && prio ≤ st.prio && resumeAllOk (resumeGroup s k) s

/-! ## Placement (R327 to R331) -/

/-- A core may take a strand of a launch (R327). -/
def eligible (s : State) (l : Launch) (core : Nat) : Bool :=
  l.mask.getLsbD core && (s.freeSlot core).isSome &&
  s.footFree core (winOf (recH l.rec_) (recW l.rec_)) (recFpBase l.rec_) (recFpCount l.rec_) && !resumesFirst s core l.prio

/-- The score of a core (R328). -/
def coreScore (s : State) (core : Nat) : Nat := ((mapGet s.temps core).getD 0 - 60) + 4 * (mapGet s.droopsPrev core).getD 0

/-- The next D + 1 eligible cores from the pointer. -/
def candidates (s : State) (l : Launch) (pointer d : Nat) : List Nat :=
  (((List.range 256).map fun i => (pointer + i) % 256).filter (eligible s l)).take (d + 1)

/-- The lowest score, the earliest on a tie. -/
def bestCore (s : State) : List Nat → Option Nat
  | [] => none
  | c :: r =>
    match bestCore s r with
    | none => some c
    | some b => if coreScore s b < coreScore s c then some b else some c

/-- Placement deviation of a partition. -/
def deviation (s : State) (part : Nat) : Nat := fieldOf (s.part part).sched 0 3

/-- A log record is the placement of a strand (kind 6). -/
def placesStrand (number : Nat) (r : List Word) : Bool :=
  fieldOf (r.getD 0 0) 56 8 = 6 && fieldOf (r.getD 3 0) 0 32 = number

/-- In a replay, the place the log's next choice gives a strand, with the position after it: core, slot (R328, R372). -/
def loggedSlot (s : State) (l : Launch) (number : Nat) : Option (Nat × Nat × Nat) :=
  match nextOfLaunch s l with
  | some (n, r) => if placesStrand number r then some (n + 1, (r.getD 2 0).toNat, (r.getD 1 0).toNat) else none
  | none => none

/-- In a replay, the log holds a placement of a strand later: its dispatcher is held until then (R372). -/
def loggedLater (s : State) (l : Launch) (number : Nat) : Bool :=
  let x := s.part l.part
  l.replay && (!logValid s x || (List.range (x.logTail - x.replayPos)).any fun i =>
    let r := logRecord s x (x.replayPos + i)
    fieldOf (r.getD 0 0) 0 32 = x.replayIdent && placesStrand number r)

/-- Core and slot a strand gets, and the updates of a choice taken from the log (R328). -/
def pickSlot (s : State) (l : Launch) (number pointer : Nat) : Option (Nat × Nat × List Upd) :=
  match loggedSlot s l number with
  | some (pos, core, slot) =>
    if eligible s l core && slot < 16 && (mapGet s.strands (slotKey core slot)).isNone
    then some (core, slot, [.part l.part { (s.part l.part) with replayPos := pos }]) else none
  | none => if loggedLater s l number then none else (bestCore s (candidates s l pointer (deviation s l.part))).bind fun c => (s.freeSlot c).map fun n => (c, n, [])

/-- The strand as it stands in its slot, its entry overlay resident or awaited. -/
def placedStrand (s : State) (id : Nat) (l : Launch) (number core slot : Nat) (params : List Word) : Strand :=
  let l := { l with asid := l.asids.getD number l.asid }
  let st := newStrand s core slot id l number l.segs params (joinDeps l.start (l.spawnDeps.getD number []))
  let ovl := recOverlay l.rec_
  let run : Run := if (s.resident core l.part ovl false).isSome then .ready else .overlay ovl
  { st with
    s := (List.range l.payload.length).map fun i => (8 + i, l.payload.getD i 0),
    splits := st.splits.map fun sp => { sp with run := run } }

/-- A placement of every strand of a list against one state, and the pointer after. -/
def planAll (id : Nat) (l : Launch) : List Nat → State → Nat → Option (List (Nat × Nat × Nat) × Nat)
  | [], _, ptr => some ([], ptr)
  | n :: r, s, ptr =>
    match pickSlot s l n ptr with
    | none => none
    | some (c, slot, us) =>
      match planAll id l r (s.applyAll (us ++ [.strand (slotKey c slot) (placedStrand s id l n c slot [])])) ((c + 1) % 256) with
      | some (ps, p) => some ((n, c, slot) :: ps, p)
      | none => none

/-- Strands of a chain to be placed next: killed ones again, else the head launch's next, or all of a co-resident launch's. -/
def toPlace (s : State) (part chain : Nat) : Option (Nat × Launch × List Nat × Bool) :=
  match s.launches.find? fun e => e.2.part = part && e.2.chain = chain && !e.2.again.isEmpty with
  | some (id, l) =>
    let ns := l.again.map (·.1)
    some (id, l, if l.coresident then ns else ns.take 1, true)
  | none =>
    match (s.chain (chainKey part chain)).current with
    | some id =>
      match mapGet s.launches id with
      | some l =>
        if dispatching s part chain && l.placed < l.count then
          some (id, l, if l.coresident then (List.range (l.count - l.placed)).map (l.placed + ·) else [l.placed], false)
        else none
      | none => none
    | none => none

/-- A placement the chain's dispatcher can make now. -/
def planOf (s : State) (part chain : Nat) : Option (Nat × Launch × List (Nat × Nat × Nat) × Nat × Bool) :=
  match toPlace s part chain with
  | none => none
  | some (id, l, ns, again) =>
    match planAll id l ns s (s.chain (chainKey part chain)).pointer with
    | some (ps, ptr) => some (id, l, ps, ptr, again)
    | none => none

/-- n words at an address, each translated and checked as a copy at the agent's level would, and read at home (R326). -/
def snapWords (s : State) (a : Agent) (va : Nat) : Nat → Except EFail (List Word)
  | 0 => .ok []
  | n + 1 =>
    match enginePage s a va 0 with
    | .error f => .error f
    | .ok (t, pa) =>
      if t.cls ≠ 4 && s.poisoned pa 8 then .error .poison
      else
        match snapWords s a (va + 8) n with
        | .error f => .error f
        | .ok r => .ok (BitVec.ofNat 64 (s.homeKN t.key pa 8) :: r)

/-- The parameter snapshot of a strand, in the address space it runs in (R181, R198, R326, R342). -/
def snapshot (s : State) (l : Launch) (number : Nat) : Except EFail (List Word) :=
  match l.again.find? fun a => a.1 = number with
  | some a => .ok a.2
  | none =>
    snapWords s { part := l.part, asid := l.asids.getD number l.asid, level := l.level, cluster := 0, die := 0 }
      (l.params.getD number (recWord l.rec_ 2).toNat) 64

/-- The memory a strand's parameter snapshot is read from. -/
def snapSpan (s : State) (l : Launch) (number : Nat) : List (Tlb × Nat) :=
  if l.again.any fun a => a.1 = number then []
  else
    (List.range 64).filterMap fun i =>
      match enginePage s { part := l.part, asid := l.asids.getD number l.asid, level := l.level, cluster := 0, die := 0 }
          (l.params.getD number (recWord l.rec_ 2).toNat + 8 * i) 0 with
      | .ok p => some p
      | .error _ => none

/-- The choice a placement is (kind 6), a killed strand's too. -/
def placeChoice (p : Nat × Nat × Nat) : Choice :=
  { kind := 6, obj := p.2.2, val := p.2.1, agent := p.2.1 + p.2.2 * 256, strand := p.1 }

/-- A strand whose snapshot cannot be read retires without issuing (R326). -/
def placeFails (id number : Nat) : Eff := fun s =>
  match mapGet s.launches id with
  | none => []
  | some l =>
    let r : TrapRec := { w0 := BitVec.ofNat 64 cPermission, w1 := 0, w2 := 0,
                         w3 := BitVec.ofNat 64 (l.level * 2 ^ 12 + l.ident % 2 ^ 32 * 2 ^ 32), w4 := BitVec.ofNat 64 number, strand := none }
    Eff.seq [postTrap l.part r, fun _ => [.launch id { l with placed := l.placed + 1 }], launchRetire id []] s

/-- One strand into its slot. -/
def placeOne (id : Nat) (again : Bool) (p : Nat × Nat × Nat) (params : List Word) : Eff := fun s =>
  withChoice id (placeChoice p) (fun _ s =>
    match mapGet s.launches id with
    | none => []
    | some l =>
      [.strand (slotKey p.2.1 p.2.2) (placedStrand s id l p.1 p.2.1 p.2.2 params), .fresh,
       .launch id (if again then { l with again := l.again.filter fun a => a.1 ≠ p.1, failedAt := none }
                   else { l with placed := l.placed + 1, failedAt := none })]) s

/-- What placing comes to for one strand of a plan: placed, or retired where its snapshot was refused or can not be read. -/
def placeStep (id : Nat) (again refused : Bool) (p : Nat × Nat × Nat) : Eff := fun s =>
  match mapGet s.launches id with
  | none => []
  | some l =>
    match snapshot s l p.1 with
    | .ok ps => Eff.andThen (noteSpan (snapSpan s l p.1)) (placeOne id again p ps) s
    | .error (.page _) => if refused then placeFails id p.1 s else []
    | .error _ => placeFails id p.1 s

/-- The first page a plan's snapshots wait for, with the core of its strand. -/
def snapshotNeed (s : State) (l : Launch) (ps : List (Nat × Nat × Nat)) : Option (PageNeed × Nat) :=
  ps.findSome? fun p => match snapshot s l p.1 with
    | .error (.page n) => some (n, p.2.1)
    | _ => none

/-- In a replay the log's next choice is a kill: the strand it names is killed and placed again (R372). -/
def replayKill (s : State) (part chain : Nat) : Option Nat :=
  s.launches.findSome? fun e =>
    if e.2.part = part && e.2.chain = chain && !e.2.ended && e.2.again.isEmpty then
      match nextOfLaunch s e.2 with
      | some (_, r) =>
        if fieldOf (r.getD 0 0) 56 8 = 13 then
          (s.strands.find? fun t => t.2.launch = e.1 && !t.2.isRoutine && t.2.number = fieldOf (r.getD 3 0) 0 32).map (·.1)
        else none
      | none => none
    else none

/-- A placement that no page request keeps waiting, with the page its snapshots need first. -/
def placing (s : State) (part chain : Nat) : Option ((Nat × Launch × List (Nat × Nat × Nat) × Nat × Bool) × Option (PageNeed × Nat)) :=
  let x := s.chain (chainKey part chain)
  if (s.part part).enabled && !(s.part part).busy && x.tags.all (fun t => t = refusedTag) then
    (planOf s part chain).map fun p => (p, if x.tags.contains refusedTag then none else snapshotNeed s p.2.1 p.2.2.1)
  else none

/-- A head launch ready to place (R331): its strands find their places, their snapshots can be read, in swept rows too (R357), and the log allows the choice. -/
def placeReady (s : State) (part chain : Nat) : Option Launch :=
  match placing s part chain with
  | some ((id, l, p :: r, _, _), none) =>
    if roomFor s id (r.length + 1) && choiceOk s id (placeChoice p) && (p :: r).all (fun q => spanStill s (snapSpan s l q.1)) then some l else none
  | _ => none

/-- No other head launch ready to place is served before: higher priority, then longer waiting (R331). -/
def servedFirst (s : State) (part chain : Nat) (l : Launch) : Bool :=
  s.chains.all fun e =>
    e.1 = chainKey part chain ||
    (match placeReady s (e.1 / 16) (e.1 % 16) with
     | some m => m.prio < l.prio || (m.prio = l.prio && l.waitSince.getD 0 ≤ m.waitSince.getD 0)
     | none => true)

/-- STRAND_PLACE: the next strand of the chain, with its parameter snapshot; a snapshot's page request is awaited. -/
def execStrandPlace (part chain : Nat) (s : State) : Host.Outcome State Fault Refusal :=
  let key := chainKey part chain
  Eff.when "STRAND_PLACE" (fun s =>
      ((s.part part).enabled && !(s.part part).busy && (replayKill s part chain).isSome) ||
      (match placing s part chain with
       | some (_, some _) => true
       | some (_, none) => (match placeReady s part chain with | some l => servedFirst s part chain l | none => false)
       | none => false))
    (fun s =>
      match replayKill s part chain with
      | some k => killStrand k s
      | none =>
        match placing s part chain with
        | none => []
        | some ((_, l, ps, _, _), some (n, core)) =>
          let asid := match ps with | p :: _ => l.asids.getD p.1 l.asid | [] => l.asid
          let rs := makeReqs (s.part part) { asid := asid, core := core, slot := 0, code := 3, ident := l.ident, strand := none, dev := 0 } [n]
          addReqs part rs s ++ [.chain key { (s.chain key) with tags := rs.map (·.tag) }]
        | some ((id, _, ps, ptr, again), none) =>
          Eff.seq (ps.map (placeStep id again ((s.chain key).tags.contains refusedTag)) ++
            [fun s => [.chain key { (s.chain key) with pointer := ptr, tags := [] }]]) s) s

/-! ## Pre-emption (R316, R332, R355) -/

/-- Units a strand may not be suspended under: NMCALL, XBMV, ACCMOV, and copies of its planes (R150, R251, R258). -/
def heldByEngine (s : State) (k : Nat) : Bool :=
  s.ops.any fun o => o.owner = k && (match o.kind with
    | .nmcall .. => true
    | .xbmv .. => true
    | .accOut .. => true
    | .accIn .. => true
    | .copy x => [0, 3, 4, 5].contains (fieldOf (x.rec_.getD 0 0) 0 4)
    | _ => false)

/-- A wait of which suspension withdraws the strand. -/
def OpKind.withdrawn : OpKind → Bool
  | .qpush .. => true
  | .qpop .. => true
  | .tlwait .. => true
  | .lapw .. => true
  | .waita .. => true
  | .gbar _ _ [] _ => true
  | _ => false

/-- An engine operation that does not delay suspension (R258). -/
def OpKind.staysBehind : OpKind → Bool
  | .xbprog .. => true
  | .xbcal .. => true
  | .xbstat .. => true
  | .xbbind .. => true
  | .accZero _ => true
  | _ => false

/-- A split stands where a pre-emption may stop it. -/
def splitStops (s : State) (sp : Split) : Bool :=
  match sp.run with
  | .ready => sp.clause.isNone
  | .hold i => (match s.op? i with | some o => o.kind.withdrawn || (o.kind.staysBehind && sp.clause.isNone) | none => false)
  | .merge .. => true
  | .overlay _ => true
  | .parked => true
  | .exiting => false

/-- Uses of a flag that a parked replay holds: those of parked operations, and of words parked to be executed whole again (R92). -/
def parkedUses (s : State) (k f : Nat) : Nat :=
  let st := s.strand k
  (s.ops.filter fun o => o.owner = k && o.parked && o.flag = f + 1).length + ((st.frame.toList ++ st.pending).filter fun t => t.flag = f + 1).length

/-- A pre-emption request takes effect: the strand's splits are at a boundary, its flags zero but for parked replays, no engine holds it (R316). -/
def suspendReady (s : State) (k : Nat) : Bool :=
  let st := s.strand k
  st.preempt && !st.suspended && st.splits.all (splitStops s) && !heldByEngine s k &&
  (List.range 12).all (fun f => st.flag f = parkedUses s k f) && st.delayed.isEmpty

/-- The free entries of a partition's context save pool, lowest first. -/
def freeEntries (x : Part) : List Nat := (List.range x.poolEntries).filter fun e => !x.poolUsed.any fun u => u.1 = e
def freeEntry (x : Part) : Option Nat := (freeEntries x).head?

/-- The strands that have been asked to stop and stand in their slots still. -/
def markedVictims (s : State) : List Nat := (s.strands.filter fun e => e.2.preempt && !e.2.isRoutine).map (·.1)

/-- Pool entries of a partition that no marked victim will take (R355). -/
def entriesLeft (s : State) (p : Nat) : Nat :=
  (freeEntries (s.part p)).length - ((markedVictims s).filter fun k => (s.strand k).part = p).length

/-- Saves a suspended strand into its partition's pool: it is off its slot, and no longer asked to stop. -/
def poolSave (k : Nat) : Eff := fun s =>
  let st := s.strand k
  let x := s.part st.part
  match freeEntry x with
  | none => []
  | some e =>
    let addr := x.poolBase + e * 0x106000
    let token := s.nextOp
    Eff.seq [fun _ => [.marks k true false], fun s => putWords addr (saveWords s k token), fun _ => [.part st.part { x with poolUsed := x.poolUsed ++ [(e, token)] }],
      moveOut k token addr (some e)] s

/-- Strands that are saved together: a co-resident launch's all in slots (R332). -/
def matesOf (s : State) (k : Nat) : List Nat :=
  match mapGet s.launches (s.strand k).launch with
  | some l => if l.coresident then (s.strands.filter fun e => e.2.launch = (s.strand k).launch && !e.2.isRoutine).map (·.1) else [k]
  | none => [k]

/-- A strand that has stopped may be saved: every mate of it in a slot has stopped, or has retired. -/
def saveReady (s : State) (k : Nat) : Bool :=
  (s.strand k).suspended && (s.strand k).preempt && (matesOf s k).all fun m => (s.strand m).suspended

/-- STRAND_SUSPEND: the strand stops; it is saved, a co-resident launch's strands once the last of them has stopped or retired. -/
def execStrandSuspend (k : Nat) (s : State) : Host.Outcome State Fault Refusal :=
  Eff.when "STRAND_SUSPEND" (fun s => (mapGet s.strands k).isSome && (suspendReady s k || saveReady s k))
    (fun s =>
      let wait := s.ops.filter fun o => o.owner = k && !o.parked && o.kind.withdrawn && (match o.kind with | .waita .. => false | _ => true)
      Eff.seq [fun s => if suspendReady s k then wait.map (fun o => Upd.opSet { o with parked := true }) ++ [.marks k true true, .latches k [] [] s.fresh, .fresh] else [],
        fun s => if saveReady s k then Eff.seq ((matesOf s k).map poolSave) s else []] s) s

/-- A strand may be chosen as a victim of a launch of priority p. -/
def victimOk (s : State) (l : Launch) (k : Nat) : Bool :=
  let st := s.strand k
  k < 4096 && st.prio < l.prio && l.mask.getLsbD st.core && st.handler.isNone && !st.suspended && !st.preempt && st.endCode.isNone &&
  !heldByEngine s k && 0 < entriesLeft s st.part &&
  !s.ops.any fun o => o.owner = k && (match o.kind with | .waita _ _ _ dl _ => dl ≠ 0 && s.now < dl | _ => false)

/-- Strands stopped together with one: a co-resident launch's all, where each may be chosen. -/
def victimGroup (s : State) (l : Launch) (k : Nat) : List Nat :=
  match mapGet s.launches (s.strand k).launch with
  | some m =>
    if m.coresident then
      let ks := (s.strands.filter fun e => e.2.launch = (s.strand k).launch && !e.2.isRoutine).map (·.1)
      if ks.all (victimOk s l) then ks else []
    else [k]
  | none => [k]

/-- Order of choice: lowest priority, then most recently placed, then highest core. -/
def victimBefore (a b : Strand) : Bool :=
  a.prio < b.prio || (a.prio = b.prio && (b.placedAt < a.placedAt || (a.placedAt = b.placedAt && b.core < a.core)))
def insertVictim (s : State) (k : Nat) : List Nat → List Nat
  | [] => [k]
  | x :: r => if victimBefore (s.strand k) (s.strand x) then k :: x :: r else x :: insertVictim s k r

/-- The chain's next strands find their places once these strands are gone. -/
def placeableWithout (s : State) (part chain : Nat) (ks : List Nat) : Bool :=
  (planOf (s.applyAll (ks.map Upd.strandDel)) part chain).isSome

/-- Victims in order, until the placement works. -/
def gather (s : State) (part chain : Nat) (l : Launch) : List Nat → List Nat → List Nat
  | [], _ => []
  | k :: r, acc =>
    let g := (victimGroup s l k).filter fun x => !acc.contains x
    let acc := acc ++ g
    if !g.isEmpty && placeableWithout s part chain acc then acc else gather s part chain l r acc

/-- Victims without which the placement works all the same are spared. -/
def spare (s : State) (part chain : Nat) : List Nat → List Nat → List Nat
  | [], acc => acc
  | k :: r, acc =>
    let less := acc.filter fun x => x ≠ k
    let alone := match mapGet s.launches (s.strand k).launch with | some m => !m.coresident | none => true
    if alone && placeableWithout s part chain less then spare s part chain r less else spare s part chain r acc

/-- Each partition's pool has an entry for each of its victims. -/
def poolsHold (s : State) (ks : List Nat) : Bool :=
  ks.all fun k =>
    let p := (s.strand k).part
    (ks.filter fun j => (s.strand j).part = p).length ≤ entriesLeft s p

/-- The victims a chain's waiting launch has yet to ask to stop: none where those asked already suffice. -/
def victims (s : State) (part chain : Nat) (l : Launch) : List Nat :=
  let marked := markedVictims s
  if placeableWithout s part chain marked then []
  else
    let order := ((s.strands.map (·.1)).filter (victimOk s l)).foldl (fun acc k => insertVictim s k acc) []
    let found := (gather s part chain l order marked).filter fun k => !marked.contains k
    let kept := (spare s part chain found (marked ++ found)).filter fun k => !marked.contains k
    if poolsHold s kept then kept else []

/-- Pre-emption threshold of a partition in core cycles: its field counts microseconds, 0 never. -/
def threshold (s : State) (part : Nat) : Nat := fieldOf (s.part part).sched 16 16 * 850

/-- PREEMPT_REQUEST: an attempt to place fails, and the launch waits from its first (R330); one that has waited past its threshold asks its victims to stop. -/
def execPreemptRequest (part chain : Nat) (s : State) : Host.Outcome State Fault Refusal :=
  Eff.when "PREEMPT_REQUEST" (fun s =>
      match toPlace s part chain with
      | some (_, l, _, _) =>
        (planOf s part chain).isNone &&
        (match l.failedAt with
         | some t => threshold s part ≠ 0 && t + threshold s part < s.now && !(victims s part chain l).isEmpty
         | none => true)
      | none => false)
    (fun s =>
      match toPlace s part chain with
      | some (id, l, _, _) =>
        (match l.failedAt with
         | some _ => (victims s part chain l).map fun k => .marks k (s.strand k).suspended true
         | none => [.launch id { l with failedAt := some s.now }])
      | none => []) s

/-! ## The deadlock watchdog (R338, R339) -/

/-- The cycles the watchdog waits. -/
def wdogLimit : Nat := 2 ^ 24

/-- A strand of the launch has issued. -/
def wdogIssue (k : Nat) : Eff := fun s =>
  match mapGet s.launches (s.strand k).launch with
  | some l => [.launch (s.strand k).launch { l with wdog := s.now }]
  | none => []

/-- The lowest-numbered strand of a launch. -/
def lowestStrand (s : State) (id : Nat) : Option (Nat × Strand) :=
  (s.strands.filter fun e => e.2.launch = id && !e.2.isRoutine).foldl
    (fun acc e => match acc with
      | some a => if e.2.number < a.2.number then some e else some a
      | none => some e) none

/-- Requests of an operation leave the queues of the swept regions. -/
def dropAdmitted (id : Nat) : Eff := fun s =>
  s.parts.filterMap fun p =>
    if p.2.regions.any fun r => r.2.queue.any fun a => a.op = id then
      some (.part p.1 { p.2 with regions := p.2.regions.map fun r => (r.1, { r.2 with queue := r.2.queue.filter fun a => a.op ≠ id }) })
    else none

/-- The split's wait is withdrawn: it stands at the waiting instruction again. Lanes of a memory operation that have performed stay with it. -/
def withdraw (k : Nat) (sp : Split) : Eff := fun s =>
  match sp.run with
  | .hold i =>
    match s.op? i with
    | some o =>
      let back : Upd := .split k { sp with ovl := o.ovl, pc := o.pc, clause := o.clause, run := .ready }
      (match o.kind with
       | .mem m => Eff.andThen (dropAdmitted i) (fun _ => [.opSet { o with parked := true, kind := .mem { m with reqs := m.reqs.filter (fun r => r.st = .done), fails := [], gate := false } }, back]) s
       | _ => [.opDel i, back])
    | none => []
  | _ => []

/-- The trap of the watchdog at a split: its word is executed again, for the lanes of a memory operation that have not performed (R339). -/
def wdogInfo (s : State) (sp : Split) : TrapInfo :=
  let i := { TrapInfo.plain cWatchdog with kind := 3 }
  match sp.run with
  | .hold n =>
    match s.op? n with
    | some o =>
      (match o.kind with
       | .mem m => { i with op := n, unfinished := lanesMask ((m.reqs.filter fun r => r.st ≠ .done).map (·.lane) ++ m.fails.map (·.lane)) }
       | _ => i)
    | none => i
  | _ => i

/-- WATCHDOG_FIRE: the lowest-numbered strand parks with cause 0x15 and pending kind 3 (R339). -/
def execWatchdogFire (id : Nat) (s : State) : Host.Outcome State Fault Refusal :=
  Eff.when "WATCHDOG_FIRE" (fun s => match mapGet s.launches id with
      | some l => wdogCounts s id l && l.wdog + wdogLimit ≤ s.now
      | none => false)
    (fun s =>
      match mapGet s.launches id, lowestStrand s id with
      | some l, some (k, st) =>
        match st.splits with
        | [] => []
        | sp :: _ =>
          Eff.seq [withdraw k sp,
            takeTrap k sp.num (wdogInfo s sp) [],
            fun _ => [.launch id { l with wdog := s.now }]] s
      | _, _ => []) s

end Sys2Proof.Machine
end

