-- ==== Sys2Proof/Machine/Tile.lean ====
section
/-! DEFINITION. Tile tasks: the scheduler, the engines, the unfolded A matrix, completion and lost records (R39, R259 to R265, R317, R392). -/

namespace Sys2Proof.Machine

/-! ## The record (Table 12-2) -/

def tkOp (r : List Word) : Nat := fieldOf (recWord r 0) 0 8
def tkSlot (r : List Word) : Nat := fieldOf (recWord r 0) 8 8
def tkM (r : List Word) : Nat := fieldOf (recWord r 0) 16 8 + 1
def tkN (r : List Word) : Nat := fieldOf (recWord r 0) 24 8 + 1
def tkK (r : List Word) : Nat := fieldOf (recWord r 0) 32 16 + 1
def tkOver (r : List Word) : Bool := fieldOf (recWord r 0) 48 1 = 1
def tkFmtA (r : List Word) : Nat := fieldOf (recWord r 0) 52 4
def tkFmtB (r : List Word) : Nat := fieldOf (recWord r 0) 56 4
def tkFmtOut (r : List Word) : Nat := fieldOf (recWord r 0) 60 4
def tkPitchA (r : List Word) : Nat := fieldOf (recWord r 2) 0 32
def tkPitchB (r : List Word) : Nat := fieldOf (recWord r 2) 32 32
def tkMulti (r : List Word) : Bool := tkOp r = 1 || tkOp r = 2

/-- An operand format. -/
def tkFmt (t : Nat) : Bool := t = 1 || t = 2 || t = 3 || t = 4
/-- An address names scratch; its bits [62:22] are then reserved. -/
def tkScratch (w : Word) : Bool := fieldOf w 63 1 = 1
def tkAddrOk (w : Word) : Bool := !tkScratch w || fieldOf w 22 41 = 0

/-- The record is refused when it is read (code 1): a reserved field or code, a size, a format, a bus bit with a scratch operand, of which an operation 0x02 has one (R265). -/
def tkRefused (r : List Word) : Bool :=
  let op := tkOp r
  let bus := fieldOf (recWord r 0) 49 2
  fieldOf (recWord r 0) 51 1 = 1 || op = 0 || 4 < op || 128 < tkM r || 128 < tkN r || (31 < tkSlot r && tkSlot r ≠ 255) ||
  fieldOf (recWord r 6) 24 40 ≠ 0 || !tkAddrOk (recWord r 1) || !tkAddrOk (recWord r 3) || !tkAddrOk (recWord r 4) ||
  (if tkMulti r then
     !tkFmt (tkFmtA r) || !tkFmt (tkFmtB r) || !(tkFmtOut r = 0 || tkFmtOut r = 1) ||
     (op = 1 && recWord r 4 ≠ 0) || (op = 2 && recWord r 1 ≠ 0) ||
     (bus ≠ 0 && (op = 2 || tkScratch (recWord r 1) || tkScratch (recWord r 3)))
   else
     !(tkFmtA r = 0 || tkFmt (tkFmtA r)) || !(tkFmtB r = 0 || tkFmt (tkFmtB r)) || recWord r 1 ≠ 0 || recWord r 3 ≠ 0 ||
     (if op = 3 then recWord r 4 ≠ 0 || !(tkFmtOut r = 0 || tkFmtOut r = 1) else !isFloat (tkFmtOut r)))

/-- Engine of a slot (R261). -/
def engineOf (slot : Nat) : Nat := slot / 4

/-- Whom a record's accesses are made for. -/
def TileLink.agent (l : TileLink) (cl : Nat) : Agent := { part := l.part, asid := l.asid, level := l.level, cluster := cl, die := dieOfCluster cl }

/-! ## Waits for pages and lost records (R263, R392) -/

/-- The record waits for no page request. -/
def TileLink.idle (l : TileLink) : Bool := l.tags.all fun t => t = refusedTag
def TileLink.wasRefused (l : TileLink) : Bool := l.tags.contains refusedTag
/-- The request for the write-back of w6 was refused, beside the one whose refusal gave code 2. -/
def TileLink.backRefused (l : TileLink) (code : Nat) : Bool := (if code = 2 then 1 else 0) < (l.tags.filter fun t => t = refusedTag).length

/-- Core of the appending strand, as its link keeps it. -/
def TileLink.core (l : TileLink) : Nat := l.owner % 2 ^ 20 / 16

/-- Posts the page request of a record, and what it then waits for. -/
def tilePage (l : TileLink) (n : PageNeed) (put : TileLink → Upd) : Eff := fun s =>
  let x := s.part l.part
  let rs := makeReqs x { asid := l.asid, core := l.core, slot := 0, code := 2, ident := launchIdent s l.launch, strand := none, dev := 0 } [n]
  addReqs l.part rs s ++ [put { l with tags := l.tags ++ rs.map (·.tag) }]

/-- Identity words of the appending strand in a trap-queue record. -/
def TileLink.ident (l : TileLink) (s : State) : Word :=
  BitVec.ofNat 64 (l.core % 256 + l.owner % 16 * 2 ^ 8 + l.level % 4 * 2 ^ 12 + launchIdent s l.launch % 2 ^ 32 * 2 ^ 32)

/-- A tile record is lost (0x1E), with the code of its failure. -/
def tileLost (l : TileLink) (code : Nat) : Eff := fun s =>
  postTrap l.part { w0 := BitVec.ofNat 64 (0x1E + code * 256), w1 := BitVec.ofNat 64 l.addr, w2 := 0, w3 := l.ident s,
                    w4 := BitVec.ofNat 64 l.number, strand := none } s

/-- Code of a failed access (Table 12-3). -/
def EFail.tileCode : EFail → Nat
  | .page _ => 2
  | .format => 4
  | .poison => 5
  | _ => 3

/-- The eight words of a record. -/
def tileRead (s : State) (cl : Nat) (l : TileLink) : Except EFail (List Word) :=
  if l.addr / 2 ^ 63 = 1 then
    if (scratchBadAt s cl (l.addr % 2 ^ 22) 64).isSome then .error .poison
    else .ok (s.homeWords (scratchPA cl (l.addr % 2 ^ 22)) 8)
  else
    match engineSpan s (l.agent cl) l.addr 0 64 with
    | .error f => .error f
    | .ok sp => .ok ((List.range 8).map fun i => BitVec.ofNat 64 (spanValue s (dieOfCluster cl) ((sp.drop (8 * i)).take 8)))

/-- w6 as the engine writes it back. -/
def tkDone (r : List Word) (slot code : Nat) : Word :=
  (recWord r 6 &&& ~~~0xFFFF00#64) ||| BitVec.ofNat 64 (slot % 256 * 2 ^ 16 + 2 ^ 15 + code % 128 * 2 ^ 8)

/-- Where w6 lies. -/
def tkDoneAt (s : State) (cl : Nat) (l : TileLink) : Except EFail (List (Tlb × Nat)) :=
  if l.addr / 2 ^ 63 = 1 then
    .ok ((List.range 8).map fun i =>
      ({ core := 256, part := 0, asid := 0, gen := 0, gen2 := 0, vpage := 0, gpage := 0, frame := 0, cls := 4, fmt := 0, geom := 0, key := 0, rights := 0 },
       scratchPA cl (l.addr % 2 ^ 22 + 48) + i))
  else engineSpan s (l.agent cl) (l.addr + 48) 1 8

/-- The choice a signal arrival is (kind 7). -/
def tileArrival (s : State) (l : TileLink) (tl : Nat) : Choice :=
  { kind := 7, obj := tl, val := (s.tl (tlKey l.launch tl)).count + 1, agent := l.core + l.owner % 16 * 256, strand := l.number }

/-- The record signals, and its arrival may be counted. -/
def tkSignal (r : List Word) : Option Nat := if fieldOf (recWord r 6) 7 1 = 1 then some (fieldOf (recWord r 6) 4 3) else none
def tkArrivalOk (s : State) (l : TileLink) (r : List Word) : Bool :=
  match tkSignal r with
  | none => true
  | some tl => choiceOk s l.launch (tileArrival s l tl)

/-- The end of a record: w6 as one store, after the task's own writes, then the arrival (R282); `since` is the state before those writes. -/
def tileEnd (cl : Nat) (l : TileLink) (r : List Word) (slot code : Nat) (since : State) (wb : Except EFail (List (Tlb × Nat))) : Eff :=
  Eff.seq [fun s => match wb with
      | .ok sp => Eff.andThen (engineStore (engineWriter (dieOfCluster cl) (joinDeps l.dep (writesSince since s))) 8 (sp.zip (bytesOf (tkDone r slot code).toNat 8)))
          (noteSpan sp) s
      | .error f => tileLost l f.tileCode s,
    fun s => match tkSignal r with
      | none => []
      | some tl => withChoice l.launch (tileArrival s l tl)
          (fun _ s => [.arrive (tlKey l.launch tl) (s.stillPending (joinDeps l.dep (writesSince since s)))]) s]

/-! ## Taking records from the chain (R261, R392) -/

/-- The memory a record lies in. -/
def tileSpan (s : State) (cl : Nat) (l : TileLink) : List (Tlb × Nat) :=
  if l.addr / 2 ^ 63 = 1 then []
  else
    match engineSpan s (l.agent cl) l.addr 0 64 with
    | .ok sp => sp
    | .error _ => []

/-- The head of the chain may be read. -/
def takeReady (s : State) (cl : Nat) : Bool :=
  let t := s.tile cl
  match t.chain with
  | [] => false
  | l :: _ => t.held.length < 16 && l.idle && depsVisible s l.dep [dieOfCluster cl] && spanStill s (tileSpan s cl l) &&
    (match tileRead s cl l with
     | .ok r => !tkRefused r || tkArrivalOk s l r
     | .error _ => true)

/-- TILE_RECORD_TAKE: the next record is held, or refused with code 1 and complete at once, or dropped, or waits for a page. -/
def execTileRecordTake (cl : Nat) (s : State) : Host.Outcome State Fault Refusal :=
  Eff.when "TILE_RECORD_TAKE" (fun s => takeReady s cl)
    (fun s =>
      let t := s.tile cl
      match t.chain with
      | [] => []
      | l :: rest =>
        let put : TileLink → Upd := fun l' => .tile cl { t with chain := l' :: rest }
        let drop : Eff := Eff.andThen (noteSpan (tileSpan s cl l)) fun s => [.tile cl { (s.tile cl) with chain := rest }]
        match tileRead s cl l with
        | .error (.page n) => if l.wasRefused then Eff.andThen drop (tileLost l 2) s else tilePage l n put s
        | .error f =>
          let kill := if l.addr / 2 ^ 63 = 1 then scratchBadAt s cl (l.addr % 2 ^ 22) 64 else none
          Eff.seq [drop, tileLost l f.tileCode, killBadScratch kill] s
        | .ok r =>
          if tkRefused r then
            match tkDoneAt s cl l with
            | .error (.page n) =>
              if l.wasRefused then Eff.andThen drop (tileEnd cl l r (tkSlot r) 1 s (.error (.page n))) s else tilePage l n put s
            | wb => Eff.andThen drop (tileEnd cl l r (tkSlot r) 1 s wb) s
          else
            Eff.andThen drop (fun _ => [.tile cl { t with chain := rest, held := t.held ++ [{ link := { l with tags := [] }, rec_ := r, slot := tkSlot r, engine := 0, held := false }] }]) s) s

/-! ## Issue (R261, R265, R317) -/

/-- The record's wait holds. -/
def tkReady (s : State) (t : TileTask) : Bool :=
  let w6 := recWord t.rec_ 6
  fieldOf w6 3 1 = 0 || (recWord t.rec_ 5).toNat ≤ (s.tl (tlKey t.link.launch (fieldOf w6 0 3))).count

/-- The writes the wait acquires. -/
def tkAcquired (s : State) (t : TileTask) : List Nat :=
  let w6 := recWord t.rec_ 6
  if fieldOf w6 3 1 = 0 then [] else (s.tl (tlKey t.link.launch (fieldOf w6 0 3))).depsTo (recWord t.rec_ 5).toNat

/-- The slot a held record would issue to on an engine; none where it may not issue there. -/
def issueSlot (x : TileSched) (index engine : Nat) : Option Nat :=
  match x.held[index]? with
  | none => none
  | some t =>
    let before := x.held.take index
    if engine < 8 && !x.running.any fun r => r.engine = engine then
      if tkSlot t.rec_ = 255 then
        if before.any fun b => tkSlot b.rec_ = 255 then none
        else
          ((List.range 4).map fun i => 4 * engine + i).find? fun n =>
            !x.held.any (fun h => tkSlot h.rec_ = n) && !x.running.any fun r => r.slot = n
      else if engineOf (tkSlot t.rec_) = engine && !before.any fun b => tkSlot b.rec_ ≠ 255 && engineOf (tkSlot b.rec_) = engine then
        some (tkSlot t.rec_)
      else none
    else none

/-- The choice an any-slot issue is (kind 9). -/
def slotChoice (l : TileLink) (slot : Nat) : Choice :=
  { kind := 9, obj := l.addr, val := slot, agent := engineOf slot, strand := l.number }

/-- The record may issue, or be held for its slot's owner. -/
def issueReady (s : State) (cl index engine : Nat) : Bool :=
  let x := s.tile cl
  match x.held[index]?, issueSlot x index engine with
  | some t, some slot =>
    tkReady s t && !t.held && !energySpent s 4 (dieOfCluster cl) &&
    (tkSlot t.rec_ ≠ 255 || choiceOk s t.link.launch (slotChoice t.link slot))
  | _, _ => false

/-- A record meets a slot of another owner: it is held, and a handler starts on the appending strand's core (R317). -/
def holdRecord (cl index : Nat) (t : TileTask) (slot : Nat) : Eff :=
  let l := t.link
  let frame0 : Word := BitVec.ofNat 64 cAccOwner
  Eff.seq [fun s => [.tile cl { (s.tile cl) with held := (s.tile cl).held.set index { t with held := true } }],
    firmwareSpill cl slot l.part,
    fun s => match startHandler s l.core l.part l.asid (l.owner % 2 ^ 20) true
        [(1, BitVec.ofNat 64 cAccOwner), (2, frame0), (3, BitVec.ofNat 64 slot), (4, BitVec.ofNat 64 l.addr)] with
      | some us => us
      | none => postTrap l.part { w0 := frame0, w1 := 0, w2 := BitVec.ofNat 64 slot, w3 := l.ident s, w4 := BitVec.ofNat 64 l.number, strand := none } s]

/-- TILE_TASK_ISSUE: the task acquires what its wait covers and claims its slot. -/
def execTileTaskIssue (cl index engine : Nat) (s : State) : Host.Outcome State Fault Refusal :=
  Eff.when "TILE_TASK_ISSUE" (fun s => issueReady s cl index engine)
    (fun s =>
      let x := s.tile cl
      match x.held[index]?, issueSlot x index engine with
      | some t, some slot =>
        let l := t.link
        let key := accKey cl slot
        if !slotOwned s key l.part l.launch then holdRecord cl index t slot s
        else
          let go : Eff := fun s =>
            let x := s.tile cl
            let l' := { l with dep := s.stillPending (joinDeps l.dep (tkAcquired s t)) }
            [claimSlot s key l.part l.launch,
             .tile cl { x with held := x.held.eraseIdx index,
                               running := x.running ++ [{ t with link := l', slot := slot, engine := engine }] }]
          if tkSlot t.rec_ = 255 then withChoice l.launch (slotChoice l slot) (fun _ => go) s else go s
      | _, _ => []) s

/-! ## Operands (R260, R264) -/

/-- The exact value of a raw element. -/
def elemVal (fmt raw : Nat) : FVal := if fmt = 4 then decodeTB8 raw else decodeF fmt raw

/-- n bytes of scratch as an operand. -/
def scratchElem (s : State) (cl off fmt : Nat) : Except EFail FVal :=
  let n := fmtBytes fmt
  if 2 ^ 22 < off + n then .error .perm
  else if (scratchBadAt s cl off n).isSome then .error .poison
  else .ok (elemVal fmt (scratchN s cl off n))

/-- Element (i, k) of an operand whose rows or columns lie `pitch` apart, each holding k contiguous. -/
def tileElem (s : State) (a : Agent) (base : Word) (fmt pitch i k : Nat) : Except EFail FVal :=
  let n := fmtBytes fmt
  if tkScratch base then scratchElem s a.cluster (base.toNat % 2 ^ 22 + i * pitch + k * n) fmt
  else
    match engineAddr s a base.toNat 0 with
    | .error f => .error f
    | .ok (t, _) =>
      if t.geom ≠ 0 then
        let e := base.toNat % 8192
        if fmt ≠ 4 || geomCodes t.geom ≤ e then .error .format
        else
          let p := scaledAddr (base.toNat - e) (e + i * pitch + k) t.geom
          match engineAddr s a p.1 0, engineAddr s a p.2 0 with
          | .ok c, .ok k =>
            if c.1.geom ≠ t.geom || k.1.geom ≠ t.geom then .error .format
            else .ok (scaledVal (spanValue s a.die [c]) (spanValue s a.die [k]))
          | .error f, _ => .error f
          | _, .error f => .error f
      else
        match engineSpan s a ((base.toNat + i * pitch + k * n) % 2 ^ 64) 0 n with
        | .error f => .error f
        | .ok sp => if sp.all fun p => p.1.geom = 0 && (p.1.fmt = 0 || p.1.fmt = fmt) then .ok (elemVal fmt (spanValue s a.die sp)) else .error .format

/-- Values in order until one fails. -/
def allElems {α : Type} (f : α → Except EFail FVal) : List α → Except EFail (List FVal)
  | [] => .ok []
  | a :: r =>
    match f a with
    | .error e => .error e
    | .ok v =>
      match allElems f r with
      | .error e => .error e
      | .ok l => .ok (v :: l)

/-- The unfolding descriptor (Table 12-4). -/
structure Unfold where
  off : Nat
  cn : Nat
  wa : Nat
  ha : Nat
  dx : Nat
  dy : Nat
  px : Nat
  py : Nat
  sx : Nat
  sy : Nat
  sk : Nat
  rk : Nat
  p0 : Nat

def Unfold.of (r : List Word) : Unfold where
  off := fieldOf (recWord r 0) 0 22
  cn := fieldOf (recWord r 1) 32 16
  wa := fieldOf (recWord r 1) 16 16
  ha := fieldOf (recWord r 1) 0 16
  dx := fieldOf (recWord r 2) 56 8
  dy := fieldOf (recWord r 2) 48 8
  px := fieldOf (recWord r 2) 40 8
  py := fieldOf (recWord r 2) 32 8
  sx := fieldOf (recWord r 2) 24 8
  sy := fieldOf (recWord r 2) 16 8
  sk := fieldOf (recWord r 2) 8 8
  rk := fieldOf (recWord r 2) 0 8
  p0 := fieldOf (recWord r 3) 0 32

/-- Output width or height: none below 1. -/
def unfoldOut (len pad dil ker stride : Nat) : Nat :=
  if len + 2 * pad < dil * (ker - 1) + 1 then 0 else (len + 2 * pad - dil * (ker - 1) - 1) / stride + 1
def Unfold.ow (u : Unfold) : Nat := unfoldOut u.wa u.px u.dx u.sk u.sx
def Unfold.oh (u : Unfold) : Nat := unfoldOut u.ha u.py u.dy u.rk u.sy

/-- The descriptor is refused (code 7). -/
def unfoldRefused (at_ : Word) (r : List Word) (k fmt : Nat) : Bool :=
  let u := Unfold.of r
  !tkScratch at_ || at_.toNat % 64 ≠ 0 || fieldOf (recWord r 0) 22 42 ≠ 0 || fieldOf (recWord r 1) 48 16 ≠ 0 || fieldOf (recWord r 3) 32 32 ≠ 0 ||
  [4, 5, 6, 7].any (fun i => recWord r i ≠ 0) || [u.cn, u.wa, u.ha, u.dx, u.dy, u.sx, u.sy, u.sk, u.rk].any (fun n => n = 0) ||
  u.ow = 0 || u.oh = 0 || u.rk * u.sk * u.cn < k || 2 ^ 22 < u.off + u.ha * u.wa * u.cn * fmtBytes fmt

/-- Element A(m, k) of the unfolded matrix. -/
def unfoldElem (s : State) (cl : Nat) (u : Unfold) (fmt m k : Nat) : Except EFail FVal :=
  let p := u.p0 + m
  let oy := p / u.ow
  let ox := p % u.ow
  let c := k % u.cn
  let t := k / u.cn
  let iy : Int := (oy * u.sy + t / u.sk * u.dy : Nat) - (u.py : Int)
  let ix : Int := (ox * u.sx + t % u.sk * u.dx : Nat) - (u.px : Int)
  if p < u.oh * u.ow && 0 ≤ iy && iy < (u.ha : Int) && 0 ≤ ix && ix < (u.wa : Int) then
    scratchElem s cl (u.off + ((iy.toNat * u.wa + ix.toNat) * u.cn + c) * fmtBytes fmt) fmt
  else .ok (.num false 0 0)

/-! ## Computing a task (R262) -/

/-- What a task comes to: a page to wait for; a code and no result; new slot elements; or bytes to store and where. -/
inductive TaskEnd where
  | wait (n : PageNeed)
  | fail (code : Nat)
  | slot (vals : List (Nat × Nat))
  | out (l : List ((Tlb × Nat) × Byte))

/-- Slot elements a task covers. -/
def tkElems (r : List Word) : List Nat := (List.range (tkM r)).flatMap fun m => (List.range (tkN r)).map fun n => m * 128 + n

/-- One dot product in ascending k, one rounding a step (R39). -/
def dotRow (acc : Nat) : List FVal → List FVal → Nat
  | a :: as, b :: bs => dotRow (fmaVal 1 0 a b (decodeF 1 acc)).1 as bs
  | _, _ => acc

/-- A failure as a task ends with it. -/
def TaskEnd.of (refusedReq : Bool) (f : EFail) : TaskEnd :=
  match f with
  | .page n => if refusedReq then .fail 2 else .wait n
  | f => .fail f.tileCode

/-- The descriptor's words of an operation 0x02. -/
def unfoldWords (s : State) (cl : Nat) (r : List Word) : List Word := s.homeWords (scratchPA cl ((recWord r 4).toNat % 2 ^ 22)) 8

/-- Operations 0x01 and 0x02. -/
def taskMma (s : State) (cl : Nat) (t : TileTask) : TaskEnd :=
  let r := t.rec_
  let a := t.link.agent cl
  let ref := t.link.wasRefused
  let u := unfoldWords s cl r
  let rows := List.range (tkM r)
  let cols := List.range (tkN r)
  let ks := List.range (tkK r)
  if tkOp r = 2 && (scratchBadAt s cl ((recWord r 4).toNat % 2 ^ 22) 64).isSome then .fail 5
  else if tkOp r = 2 && unfoldRefused (recWord r 4) u (tkK r) (tkFmtA r) then .fail 7
  else
    let av := allElems (fun p : Nat × Nat => if tkOp r = 2 then unfoldElem s cl (Unfold.of u) (tkFmtA r) p.1 p.2
        else tileElem s a (recWord r 1) (tkFmtA r) (tkPitchA r) p.1 p.2) (rows.flatMap fun m => ks.map fun k => (m, k))
    let bv := allElems (fun p : Nat × Nat => tileElem s a (recWord r 3) (tkFmtB r) (tkPitchB r) p.1 p.2) (cols.flatMap fun n => ks.map fun k => (n, k))
    match av, bv with
    | .error f, _ => .of ref f
    | _, .error f => .of ref f
    | .ok as, .ok bs =>
      if !tkOver r && accBadAt s cl t.slot (tkElems r) then .fail 6
      else
        .slot (rows.flatMap fun m => cols.map fun n =>
          (m * 128 + n, dotRow (if tkOver r then 0 else accBits s cl t.slot (m * 128 + n)) ((as.drop (m * tkK r)).take (tkK r)) ((bs.drop (n * tkK r)).take (tkK r))))

/-- Destination bytes of one output element. -/
def outElem (s : State) (cl : Nat) (t : TileTask) (m n : Nat) : Except EFail (List ((Tlb × Nat) × Byte)) :=
  let r := t.rec_
  let f := tkFmtOut r
  let w := fmtBytes f
  let v := (roundVal f 0 (decodeF 1 (accBits s cl t.slot (m * 128 + n)))).1
  let base := recWord r 4
  let off := m * tkPitchA r + n * w
  if tkScratch base then
    let o := base.toNat % 2 ^ 22 + off
    if 2 ^ 22 < o + w then .error .perm
    else .ok ((List.range w).map fun i =>
      (({ core := 256, part := 0, asid := 0, gen := 0, gen2 := 0, vpage := 0, gpage := 0, frame := 0, cls := 4, fmt := 0, geom := 0, key := 0, rights := 0 },
        scratchPA cl o + i), BitVec.ofNat 8 (v / 256 ^ i)))
  else
    match engineSpan s (t.link.agent cl) ((base.toNat + off) % 2 ^ 64) 1 w with
    | .error f => .error f
    | .ok sp => if sp.all fun p => p.1.geom = 0 && (p.1.fmt = 0 || p.1.fmt = f) then .ok (sp.zip (bytesOf v w)) else .error .format

/-- Destination bytes until an element fails. -/
def outAll (s : State) (cl : Nat) (t : TileTask) : List (Nat × Nat) → List ((Tlb × Nat) × Byte) × Option EFail
  | [] => ([], none)
  | p :: rest =>
    match outElem s cl t p.1 p.2 with
    | .error f => ([], some f)
    | .ok l =>
      let q := outAll s cl t rest
      (l ++ q.1, q.2)

/-- What the task comes to now, and the bytes an output task stores before it fails. -/
def taskRun (s : State) (cl : Nat) (t : TileTask) : TaskEnd × List ((Tlb × Nat) × Byte) :=
  let r := t.rec_
  if tkMulti r then (taskMma s cl t, [])
  else if tkOp r = 3 then (.slot ((tkElems r).map fun i => (i, 0)), [])
  else if accBadAt s cl t.slot (tkElems r) then (.fail 6, [])
  else
    let q := outAll s cl t ((List.range (tkM r)).flatMap fun m => (List.range (tkN r)).map fun n => (m, n))
    match q.2 with
    | none => (.out q.1, [])
    | some f => (.of t.link.wasRefused f, q.1)

/-- The scratch word an engine's read found uncorrectable. -/
def taskScratchBad (s : State) (cl : Nat) (t : TileTask) : Option Nat :=
  let r := t.rec_
  let span := fun (w : Word) (rows pitch fmt : Nat) =>
    if tkScratch w then scratchBadAt s cl (w.toNat % 2 ^ 22) ((rows - 1) * pitch + tkK r * fmtBytes fmt) else none
  if tkMulti r then
    ((if tkOp r = 1 then span (recWord r 1) (tkM r) (tkPitchA r) (tkFmtA r)
      else match scratchBadAt s cl ((recWord r 4).toNat % 2 ^ 22) 64 with
        | some w => some w
        | none => let u := Unfold.of (unfoldWords s cl r)
                  scratchBadAt s cl u.off (u.ha * u.wa * u.cn * fmtBytes (tkFmtA r))).or
      (span (recWord r 3) (tkN r) (tkPitchB r) (tkFmtB r)))
  else none

/-- A task's own effect; a failed one leaves its elements, or what it was storing, unspecified (R263). -/
def taskEffect (cl : Nat) (t : TileTask) (e : TaskEnd) (part : List ((Tlb × Nat) × Byte)) : Eff := fun s =>
  let is := tkElems t.rec_
  let w := engineWriter (dieOfCluster cl) t.link.dep
  match e with
  | .wait _ => []
  | .slot vals => vals.flatMap (fun v => accStore cl t.slot v.1 v.2) ++ accHeal s cl t.slot is
  | .out l => engineStore w 4 l s
  | .fail code =>
    if code = 7 then []
    else
      Eff.seq [engineStore w 4 (part.filter fun p => Config.earlyWrite s.fresh (p.1.2 / 4)),
        fun s => is.flatMap (fun i => accStore cl t.slot i (Config.freeLane s.fresh i).toNat) ++ accHeal s cl t.slot is ++ [.fresh]] s

/-- The memory of `rows` by `cols` elements of an operand or an output: of each element its first and last byte, or its code and its scale. -/
def matrixSpan (s : State) (a : Agent) (base : Word) (fmt pitch rows cols acc : Nat) : List (Tlb × Nat) :=
  if tkScratch base then []
  else
    match enginePage s a base.toNat acc with
    | .ok (t, _) =>
      (List.range rows).flatMap fun i => (List.range cols).flatMap fun k =>
        let e := base.toNat % 8192
        let p := scaledAddr (base.toNat - e) (e + i * pitch + k) t.geom
        let v := base.toNat + i * pitch + k * fmtBytes fmt
        (if t.geom = 0 then [v % 2 ^ 64, (v + (fmtBytes fmt - 1)) % 2 ^ 64] else [p.1, p.2]).filterMap fun va =>
          match enginePage s a va acc with
          | .ok q => some q
          | .error _ => none
    | .error _ => []

/-- The memory that a task reads or writes. -/
def TileTask.span (t : TileTask) (s : State) (cl : Nat) : List (Tlb × Nat) :=
  let r := t.rec_
  let a := t.link.agent cl
  if tkMulti r then
    (if tkOp r = 2 then [] else matrixSpan s a (recWord r 1) (tkFmtA r) (tkPitchA r) (tkM r) (tkK r) 0) ++
    matrixSpan s a (recWord r 3) (tkFmtB r) (tkPitchB r) (tkN r) (tkK r) 0
  else if tkOp r = 4 then matrixSpan s a (recWord r 4) (tkFmtOut r) (tkPitchA r) (tkM r) (tkN r) 1
  else []

/-- The swept rows that a task, and its record, lie in may be accessed now. -/
def TileTask.still (t : TileTask) (s : State) (cl : Nat) : Bool :=
  !(s.parts.any fun p => p.2.regions.any fun g => g.2.active) || spanStill s (tileSpan s cl t.link ++ t.span s cl)

/-- TILE_TASK_COMPLETE may happen: operands the task must see are visible, and swept rows stand still; its arrival's choice is not held. -/
def taskReady (s : State) (cl index : Nat) : Bool :=
  match (s.tile cl).running[index]? with
  | some t => t.link.idle && depsVisible s t.link.dep [dieOfCluster cl] && t.still s cl && tkArrivalOk s t.link t.rec_
  | none => false

/-- TILE_TASK_COMPLETE: the task ends, or waits in its engine for a page (R263). -/
def execTileTaskComplete (cl index : Nat) (s : State) : Host.Outcome State Fault Refusal :=
  Eff.when "TILE_TASK_COMPLETE" (fun s => taskReady s cl index)
    (fun s =>
      let x := s.tile cl
      match x.running[index]? with
      | none => []
      | some t =>
        let put : TileLink → Upd := fun l => .tile cl { x with running := x.running.set index { t with link := l } }
        let run := taskRun s cl t
        match run.1 with
        | .wait n => tilePage t.link n put s
        | e =>
          let code := match e with | .fail c => c | _ => 0
          match tkDoneAt s cl t.link with
          | .error (.page n) =>
            if t.link.backRefused code then fin cl index t e run.2 code (.error (.page n)) s else tilePage t.link n put s
          | wb => fin cl index t e run.2 code wb s) s
where
  fin (cl index : Nat) (t : TileTask) (e : TaskEnd) (part : List ((Tlb × Nat) × Byte)) (code : Nat)
      (wb : Except EFail (List (Tlb × Nat))) : Eff := fun s =>
    let kill := if code = 5 then taskScratchBad s cl t else none
    Eff.seq [taskEffect cl t e part, noteSpan (t.span s cl), tileEnd cl t.link t.rec_ t.slot code s wb,
      fun s => [.tile cl { (s.tile cl) with running := (s.tile cl).running.eraseIdx index }],
      killBadScratch kill] s

end Sys2Proof.Machine
end

