-- ==== Sys2Proof/Machine/Dispatch.lean ====
section
/-! DEFINITION. What each instruction and event does: one arm a constructor. -/

namespace Sys2Proof.Machine

/-- The meaning of an instruction or event in a state. -/
def exec (i : Instr) (s : State) : Host.Outcome State Fault Refusal :=
  match i with
  | .clauseIssue h => Sys2Proof.Machine.execClauseIssue h s
  | .nop c => Sys2Proof.Machine.execNop c s
  | .mov c ty d a => Sys2Proof.Machine.execMov c ty d a s
  | .movGetst c d => Sys2Proof.Machine.execMovGetst c d s
  | .movSetst c a => Sys2Proof.Machine.execMovSetst c a s
  | .movi c d imm => Sys2Proof.Machine.execMovi c d imm s
  | .movhi c d a imm => Sys2Proof.Machine.execMovhi c d a imm s
  | .add c ty d a b => Sys2Proof.Machine.execAdd c ty d a b s
  | .addi c d a imm => Sys2Proof.Machine.execAddi c d a imm s
  | .sub c ty d a b => Sys2Proof.Machine.execSub c ty d a b s
  | .mul c ty hi d a b => Sys2Proof.Machine.execMul c ty hi d a b s
  | .div c ty d a b => Sys2Proof.Machine.execDiv c ty d a b s
  | .rem c ty d a b => Sys2Proof.Machine.execRem c ty d a b s
  | .and c ty d a b => Sys2Proof.Machine.execAnd c ty d a b s
  | .or c ty d a b => Sys2Proof.Machine.execOr c ty d a b s
  | .xor c ty d a b => Sys2Proof.Machine.execXor c ty d a b s
  | .andi c d a imm => Sys2Proof.Machine.execAndi c d a imm s
  | .ori c d a imm => Sys2Proof.Machine.execOri c d a imm s
  | .xori c d a imm => Sys2Proof.Machine.execXori c d a imm s
  | .shl c ty d a b => Sys2Proof.Machine.execShl c ty d a b s
  | .shr c ty d a b => Sys2Proof.Machine.execShr c ty d a b s
  | .shli c d a n => Sys2Proof.Machine.execShli c d a n s
  | .shri c ar d a n => Sys2Proof.Machine.execShri c ar d a n s
  | .rot c ty right d a b => Sys2Proof.Machine.execRot c ty right d a b s
  | .clz c ty d a => Sys2Proof.Machine.execClz c ty d a s
  | .popc c ty d a => Sys2Proof.Machine.execPopc c ty d a s
  | .cmp c ty cond d a b => Sys2Proof.Machine.execCmp c ty cond d a b s
  | .sel c d a b t => Sys2Proof.Machine.execSel c d a b t s
  | .min c ty d a b => Sys2Proof.Machine.execMin c ty d a b s
  | .max c ty d a b => Sys2Proof.Machine.execMax c ty d a b s
  | .extr c ty d a pos lenM1 => Sys2Proof.Machine.execExtr c ty d a pos lenM1 s
  | .ins c d a pos lenM1 => Sys2Proof.Machine.execIns c d a pos lenM1 s
  | .lea c scale d seg b => Sys2Proof.Machine.execLea c scale d seg b s
  | .seglim c field d seg => Sys2Proof.Machine.execSeglim c field d seg s
  | .lparam c d off => Sys2Proof.Machine.execLparam c d off s
  | .getid c d which => Sys2Proof.Machine.execGetid c d which s
  | .clockCore c d => Sys2Proof.Machine.execClockCore c d s
  | .clockPkg c d => Sys2Proof.Machine.execClockPkg c d s
  | .wintr c seg => Sys2Proof.Machine.execWintr c seg s
  | .br c disp => Sys2Proof.Machine.execBr c disp s
  | .brc c cond a disp => Sys2Proof.Machine.execBrc c cond a disp s
  | .loop c a disp => Sys2Proof.Machine.execLoop c a disp s
  | .call c disp => Sys2Proof.Machine.execCall c disp s
  | .ret c a => Sys2Proof.Machine.execRet c a s
  | .callo c ovl entry => Sys2Proof.Machine.execCallo c ovl entry s
  | .split c ma mb t0 t1 t2 t3 => Sys2Proof.Machine.execSplit c ma mb t0 t1 t2 t3 s
  | .merge c => Sys2Proof.Machine.execMerge c s
  | .exit c => Sys2Proof.Machine.execExit c s
  | .yield c => Sys2Proof.Machine.execYield c s
  | .trap c code => Sys2Proof.Machine.execTrap c code s
  | .nmret c => Sys2Proof.Machine.execNmret c s
  | .ovld c d ovl => Sys2Proof.Machine.execOvld c d ovl s
  | .ovlInstall op => Sys2Proof.Machine.execOvlInstall op s
  | .ovlq c d ovl => Sys2Proof.Machine.execOvlq c d ovl s
  | .ovlpin c ovl => Sys2Proof.Machine.execOvlpin c ovl s
  | .ovlunpin c ovl => Sys2Proof.Machine.execOvlunpin c ovl s
  | .overlayMissLoad strand split => Sys2Proof.Machine.execOverlayMissLoad strand split s
  | .join c a => Sys2Proof.Machine.execJoin c a s
  | .leave c => Sys2Proof.Machine.execLeave c s
  | .gbar c => Sys2Proof.Machine.execGbar c s
  | .ginfo c d => Sys2Proof.Machine.execGinfo c d s
  | .spawn c d a b => Sys2Proof.Machine.execSpawn c d a b s
  | .msgsend c n d a b => Sys2Proof.Machine.execMsgsend c n d a b s
  | .spawnMergerClose cluster index => Sys2Proof.Machine.execSpawnMergerClose cluster index s
  | .fadd c x => Sys2Proof.Machine.execFadd c x s
  | .fsub c x => Sys2Proof.Machine.execFsub c x s
  | .fmul c x => Sys2Proof.Machine.execFmul c x s
  | .fma c x => Sys2Proof.Machine.execFma c x s
  | .fmin c x => Sys2Proof.Machine.execFmin c x s
  | .fmax c x => Sys2Proof.Machine.execFmax c x s
  | .fsgn c op x => Sys2Proof.Machine.execFsgn c op x s
  | .fcmp c cond ty part d a b => Sys2Proof.Machine.execFcmp c cond ty part d a b s
  | .fclass c x => Sys2Proof.Machine.execFclass c x s
  | .frcp c x => Sys2Proof.Machine.execFrcp c x s
  | .frsq c x => Sys2Proof.Machine.execFrsq c x s
  | .fsqrt c x => Sys2Proof.Machine.execFsqrt c x s
  | .fexp2 c x => Sys2Proof.Machine.execFexp2 c x s
  | .flog2 c x => Sys2Proof.Machine.execFlog2 c x s
  | .fcvt c part ts x => Sys2Proof.Machine.execFcvt c part ts x s
  | .frint c x => Sys2Proof.Machine.execFrint c x s
  | .iadd c x => Sys2Proof.Machine.execIadd c x s
  | .isub c x => Sys2Proof.Machine.execIsub c x s
  | .imul c hi x => Sys2Proof.Machine.execImul c hi x s
  | .imad c x => Sys2Proof.Machine.execImad c x s
  | .imin c x => Sys2Proof.Machine.execImin c x s
  | .imax c x => Sys2Proof.Machine.execImax c x s
  | .iand c x => Sys2Proof.Machine.execIand c x s
  | .ior c x => Sys2Proof.Machine.execIor c x s
  | .ixor c x => Sys2Proof.Machine.execIxor c x s
  | .ishl c x => Sys2Proof.Machine.execIshl c x s
  | .ishr c x => Sys2Proof.Machine.execIshr c x s
  | .icmp c cond ty part d a b => Sys2Proof.Machine.execIcmp c cond ty part d a b s
  | .ibits c clz x => Sys2Proof.Machine.execIbits c clz x s
  | .select c d a b m => Sys2Proof.Machine.execSelect c d a b m s
  | .move c x => Sys2Proof.Machine.execMove c x s
  | .fill c x => Sys2Proof.Machine.execFill c x s
  | .iaddi c d a imm => Sys2Proof.Machine.execIaddi c d a imm s
  | .fmuli c d a imm => Sys2Proof.Machine.execFmuli c d a imm s
  | .faddi c d a imm => Sys2Proof.Machine.execFaddi c d a imm s
  | .mand c d a b => Sys2Proof.Machine.execMand c d a b s
  | .mor c d a b => Sys2Proof.Machine.execMor c d a b s
  | .mxor c d a b => Sys2Proof.Machine.execMxor c d a b s
  | .mnot c d a => Sys2Proof.Machine.execMnot c d a s
  | .mfrom c d a => Sys2Proof.Machine.execMfrom c d a s
  | .mtov c ones d a => Sys2Proof.Machine.execMtov c ones d a s
  | .mred c op d a => Sys2Proof.Machine.execMred c op d a s
  | .mlead c d a => Sys2Proof.Machine.execMlead c d a s
  | .nbr c axis mode d a b dist => Sys2Proof.Machine.execNbr c axis mode d a b dist s
  | .laneidx c which d => Sys2Proof.Machine.execLaneidx c which d s
  | .shift c ty axis edge pd pa sc dist => Sys2Proof.Machine.execShift c ty axis edge pd pa sc dist s
  | .rotPlane c ty axis edge pd pa dist => Sys2Proof.Machine.execRotPlane c ty axis edge pd pa dist s
  | .spread c ty axis pd pa => Sys2Proof.Machine.execSpread c ty axis pd pa s
  | .fold c ty axis op rnd sat pd pa => Sys2Proof.Machine.execFold c ty axis op rnd sat pd pa s
  | .scan c ty axis op rnd sat pd pa => Sys2Proof.Machine.execScan c ty axis op rnd sat pd pa s
  | .refold c ty pd pa => Sys2Proof.Machine.execRefold c ty pd pa s
  | .transp c ty pd pa => Sys2Proof.Machine.execTransp c ty pd pa s
  | .planeComplete op => Sys2Proof.Machine.execPlaneComplete op s
  | .index c ty which pd sa => Sys2Proof.Machine.execIndex c ty which pd sa s
  | .pdset c pd sa => Sys2Proof.Machine.execPdset c pd sa s
  | .pdget c bound sd pa => Sys2Proof.Machine.execPdget c bound sd pa s
  | .winset c sa => Sys2Proof.Machine.execWinset c sa s
  | .quant c ty len pd pa pb sc => Sys2Proof.Machine.execQuant c ty len pd pa pb sc s
  | .accept c ty mode pd pa sb mc => Sys2Proof.Machine.execAccept c ty mode pd pa sb mc s
  | .bound c ty pd pa sb => Sys2Proof.Machine.execBound c ty pd pa sb s
  | .zskip c d a b => Sys2Proof.Machine.execZskip c d a b s
  | .ld c x => Sys2Proof.Machine.execLd c x s
  | .st c x => Sys2Proof.Machine.execSt c x s
  | .ldp c x => Sys2Proof.Machine.execLdp c x s
  | .stp c x => Sys2Proof.Machine.execStp c x s
  | .lds c x => Sys2Proof.Machine.execLds c x s
  | .sts c x => Sys2Proof.Machine.execSts c x s
  | .ldacq c scope x => Sys2Proof.Machine.execLdacq c scope x s
  | .strel c scope x => Sys2Proof.Machine.execStrel c scope x s
  | .qst c x => Sys2Proof.Machine.execQst c x s
  | .atom c x => Sys2Proof.Machine.execAtom c x s
  | .atoms c x => Sys2Proof.Machine.execAtoms c x s
  | .red c x => Sys2Proof.Machine.execRed c x s
  | .reds c x => Sys2Proof.Machine.execReds c x s
  | .homeAtomicPerform op lane => Sys2Proof.Machine.execHomeAtomicPerform op lane s
  | .matchAddr c x => Sys2Proof.Machine.execMatchAddr c x s
  | .ldx c x => Sys2Proof.Machine.execLdx c x s
  | .lapw c d seg x disp => Sys2Proof.Machine.execLapw c d seg x disp s
  | .fence c kind scope => Sys2Proof.Machine.execFence c kind scope s
  | .waita c four d seg x disp => Sys2Proof.Machine.execWaita c four d seg x disp s
  | .waitaTimeout op => Sys2Proof.Machine.execWaitaTimeout op s
  | .cpy c d a o tl => Sys2Proof.Machine.execCpy c d a o tl s
  | .copyComplete op => Sys2Proof.Machine.execCopyComplete op s
  | .pref c ty seg x disp => Sys2Proof.Machine.execPref c ty seg x disp s
  | .qpush c t d q x => Sys2Proof.Machine.execQpush c t d q x s
  | .qpop c t d q x => Sys2Proof.Machine.execQpop c t d q x s
  | .qstat c d q => Sys2Proof.Machine.execQstat c d q s
  | .tlwait c d tl => Sys2Proof.Machine.execTlwait c d tl s
  | .tlread c d tl => Sys2Proof.Machine.execTlread c d tl s
  | .tladv c d tl => Sys2Proof.Machine.execTladv c d tl s
  | .chadv c d x => Sys2Proof.Machine.execChadv c d x s
  | .memoryAccessComplete op => Sys2Proof.Machine.execMemoryAccessComplete op s
  | .visitorWriteApply die write => Sys2Proof.Machine.execVisitorWriteApply die write s
  | .sweptAdmission op lane => Sys2Proof.Machine.execSweptAdmission op lane s
  | .lapStart part region => Sys2Proof.Machine.execLapStart part region s
  | .tumblerRowService part region slice row => Sys2Proof.Machine.execTumblerRowService part region slice row s
  | .xbmv c arr pd pa o tl => Sys2Proof.Machine.execXbmv c arr pd pa o tl s
  | .xbmvComplete op => Sys2Proof.Machine.execXbmvComplete op s
  | .xbprog c arr d a tl => Sys2Proof.Machine.execXbprog c arr d a tl s
  | .xbcal c arr d tl => Sys2Proof.Machine.execXbcal c arr d tl s
  | .xbstat c arr field d tl => Sys2Proof.Machine.execXbstat c arr field d tl s
  | .xbbind c arr d tl => Sys2Proof.Machine.execXbbind c arr d tl s
  | .xbbindRel c arr d tl => Sys2Proof.Machine.execXbbindRel c arr d tl s
  | .crossbarDriftPending cluster arr => Sys2Proof.Machine.execCrossbarDriftPending cluster arr s
  | .backgroundCalibration cluster arr => Sys2Proof.Machine.execBackgroundCalibration cluster arr s
  | .accmov c slot pd o tl => Sys2Proof.Machine.execAccmov c slot pd o tl s
  | .accmovIn c slot pd o tl => Sys2Proof.Machine.execAccmovIn c slot pd o tl s
  | .acczero c slot tl => Sys2Proof.Machine.execAcczero c slot tl s
  | .nmcall c d a tl => Sys2Proof.Machine.execNmcall c d a tl s
  | .routineStart w => Sys2Proof.Machine.execRoutineStart w s
  | .routineEnd w => Sys2Proof.Machine.execRoutineEnd w s
  | .tileRecordTake cluster => Sys2Proof.Machine.execTileRecordTake cluster s
  | .tileTaskIssue cluster index engine => Sys2Proof.Machine.execTileTaskIssue cluster index engine s
  | .tileTaskComplete cluster index => Sys2Proof.Machine.execTileTaskComplete cluster index s
  | .sysrd c num d => Sys2Proof.Machine.execSysrd c num d s
  | .syswr c num a => Sys2Proof.Machine.execSyswr c num a s
  | .genup c a => Sys2Proof.Machine.execGenup c a s
  | .resume c => Sys2Proof.Machine.execResume c s
  | .resumeEnd c => Sys2Proof.Machine.execResumeEnd c s
  | .tret c => Sys2Proof.Machine.execTret c s
  | .ctxsave c st a => Sys2Proof.Machine.execCtxsave c st a s
  | .ctxload c st a => Sys2Proof.Machine.execCtxload c st a s
  | .accspill c st slot a => Sys2Proof.Machine.execAccspill c st slot a s
  | .accfill c st slot a => Sys2Proof.Machine.execAccfill c st slot a s
  | .trapQueuePost part => Sys2Proof.Machine.execTrapQueuePost part s
  | .drevarResume core slot => Sys2Proof.Machine.execDrevarResume core slot s
  | .drevarResumeEnd core slot => Sys2Proof.Machine.execDrevarResumeEnd core slot s
  | .pageRequestPost part => Sys2Proof.Machine.execPageRequestPost part s
  | .pageRequestReply part tag refuse => Sys2Proof.Machine.execPageRequestReply part tag refuse s
  | .launchAppendPort part chain addr => Sys2Proof.Machine.execLaunchAppendPort part chain addr s
  | .chainTimelineWrite part chain ct value => Sys2Proof.Machine.execChainTimelineWrite part chain ct value s
  | .launchDispatch part chain => Sys2Proof.Machine.execLaunchDispatch part chain s
  | .strandPlace part chain => Sys2Proof.Machine.execStrandPlace part chain s
  | .preemptRequest part chain => Sys2Proof.Machine.execPreemptRequest part chain s
  | .strandSuspend strand => Sys2Proof.Machine.execStrandSuspend strand s
  | .strandResume strand => Sys2Proof.Machine.execStrandResume strand s
  | .launchEndRequest launch => Sys2Proof.Machine.execLaunchEndRequest launch s
  | .watchdogFire launch => Sys2Proof.Machine.execWatchdogFire launch s
  | .scalarInstructionComplete op => Sys2Proof.Machine.execScalarInstructionComplete op s
  | .crossbarOperationComplete op => Sys2Proof.Machine.execCrossbarOperationComplete op s
  | .accumulatorMoveComplete op => Sys2Proof.Machine.execAccumulatorMoveComplete op s
  | .systemInstructionComplete op => Sys2Proof.Machine.execSystemInstructionComplete op s
  | .translationInvalidateComplete part => Sys2Proof.Machine.execTranslationInvalidateComplete part s
  | .partitionDisableComplete part => Sys2Proof.Machine.execPartitionDisableComplete part s
  | .sweptCreateComplete part region => Sys2Proof.Machine.execSweptCreateComplete part region s
  | .sweptDestroyComplete part region => Sys2Proof.Machine.execSweptDestroyComplete part region s
  | .entryOverlayLoaded strand => Sys2Proof.Machine.execEntryOverlayLoaded strand s
  | .partitionEnable part => Sys2Proof.Machine.execPartitionEnable part s
  | .partitionDisable part => Sys2Proof.Machine.execPartitionDisable part s
  | .stage2GenerationRaise part => Sys2Proof.Machine.execStage2GenerationRaise part s
  | .invalidatePort part whole asid => Sys2Proof.Machine.execInvalidatePort part whole asid s
  | .timelineFeed part value => Sys2Proof.Machine.execTimelineFeed part value s
  | .queueFeed part handle => Sys2Proof.Machine.execQueueFeed part handle s
  | .sweptCreate part region die base mask len => Sys2Proof.Machine.execSweptCreate part region die base mask len s
  | .sweptDestroy part region => Sys2Proof.Machine.execSweptDestroy part region s
  | .registerWrite addr value => Sys2Proof.Machine.execRegisterWrite addr value s
  | .patrolScrub t => Sys2Proof.Machine.execPatrolScrub t s
  | .budgetPeriodStart => Sys2Proof.Machine.execBudgetPeriodStart s
  | .fabricFrameReceive port ok => Sys2Proof.Machine.execFabricFrameReceive port ok s
  | .frameRetransmit port ok => Sys2Proof.Machine.execFrameRetransmit port ok s
  | .portDown port => Sys2Proof.Machine.execPortDown port s
  | .wavelengthPark port => Sys2Proof.Machine.execWavelengthPark port s
  | .wavelengthWake port => Sys2Proof.Machine.execWavelengthWake port s
  | .peerRead p => Sys2Proof.Machine.execPeerRead p s
  | .peerWrite p => Sys2Proof.Machine.execPeerWrite p s
  | .peerAtomic p => Sys2Proof.Machine.execPeerAtomic p s
  | .peerReduction p => Sys2Proof.Machine.execPeerReduction p s
  | .peerReply p => Sys2Proof.Machine.execPeerReply p s
  | .peerRefusal p => Sys2Proof.Machine.execPeerRefusal p s
  | .peerAcknowledgement p => Sys2Proof.Machine.execPeerAcknowledgement p s
  | .peerQueuePush p => Sys2Proof.Machine.execPeerQueuePush p s
  | .peerTimelineFeed p => Sys2Proof.Machine.execPeerTimelineFeed p s
  | .d2dFlitReplay link ok => Sys2Proof.Machine.execD2dFlitReplay link ok s
  | .packageFault => Sys2Proof.Machine.execPackageFault s
  | .meshCommand p => Sys2Proof.Machine.execMeshCommand p s
  | .meshCompletion p => Sys2Proof.Machine.execMeshCompletion p s
  | .meshOverlayRead p => Sys2Proof.Machine.execMeshOverlayRead p s
  | .meshOverlayData p => Sys2Proof.Machine.execMeshOverlayData p s
  | .meshMaintenance p => Sys2Proof.Machine.execMeshMaintenance p s
  | .meshEscape src dst seq => Sys2Proof.Machine.execMeshEscape src dst seq s
  | .meshResend src dst seq => Sys2Proof.Machine.execMeshResend src dst seq s
  | .feedLaunchRecords g => Sys2Proof.Machine.execFeedLaunchRecords g s
  | .feedDataWrite g => Sys2Proof.Machine.execFeedDataWrite g s
  | .feedTimelineAdvance g => Sys2Proof.Machine.execFeedTimelineAdvance g s
  | .powerOnReset f => Sys2Proof.Machine.execPowerOnReset f s
  | .antiRollbackRaise => Sys2Proof.Machine.execAntiRollbackRaise s
  | .keySlotLoad feed part slot wrapped => Sys2Proof.Machine.execKeySlotLoad feed part slot wrapped s
  | .spdmRequest index => Sys2Proof.Machine.execSpdmRequest index s
  | .thermalThrottle die temp => Sys2Proof.Machine.execThermalThrottle die temp s
  | .thermalRestore die temp => Sys2Proof.Machine.execThermalRestore die temp s
  | .thermalShutdown die temp => Sys2Proof.Machine.execThermalShutdown die temp s
  | .xbDriftInject cluster arr => Sys2Proof.Machine.execXbDriftInject cluster arr s
  | .nmInjectParity w ovl word => Sys2Proof.Machine.execNmInjectParity w ovl word s
  | .crossbarAllocation cluster arr part => Sys2Proof.Machine.execCrossbarAllocation cluster arr part s
  | .crossbarRetirement cluster arr => Sys2Proof.Machine.execCrossbarRetirement cluster arr s
  | .drevarMemoryWrite addr bytes => Sys2Proof.Machine.execDrevarMemoryWrite addr bytes s
  | .voltageDroopEvent core => Sys2Proof.Machine.execVoltageDroopEvent core s
  | .feedDatagramDiscard g => Sys2Proof.Machine.execFeedDatagramDiscard g s
  | .peerReservedPacket p => Sys2Proof.Machine.execPeerReservedPacket p s

end Sys2Proof.Machine
end

