-- ==== Sys2Proof/Machine/Issue.lean ====
section
/-! DEFINITION. The issue unit and the schedule: which split issues next, the checks of Table 8-11 on its word, what the device does by itself, and the turns that say otherwise (R84 to R89, R94, R100, R101, R137, R166, R336, R367). -/

namespace Sys2Proof.Machine

/-! ## What happens by itself -/

/-- An event's conditions hold. -/
def enabled (s : State) (i : Instr) : Bool :=
  match exec i s with
  | .next _ => true
  | _ => false

/-- A row that no word holds. -/
def Instr.isEvent (i : Instr) : Bool :=
  match i with
  | .clauseIssue _ => false
  | i => i.common?.isNone

/-- How an outstanding operation may go on. -/
def opTurns (o : Op) : List Turn :=
  match o.kind with
  | .mem m =>
    m.reqs.flatMap (fun r => [.event (.homeAtomicPerform o.id r.lane), .event (.sweptAdmission o.id r.lane), .perform o.id r.lane]) ++
    [.event (.memoryAccessComplete o.id)]
  | .copy _ => [.event (.copyComplete o.id)]
  | .xbmv .. => [.event (.xbmvComplete o.id)]
  | .xbprog .. => [.event (.crossbarOperationComplete o.id), .perform o.id 0]
  | .ovld .. => [.event (.ovlInstall o.id)]
  | .waita .. => [.event (.memoryAccessComplete o.id), .event (.waitaTimeout o.id)]
  | _ => [.event (.planeComplete o.id), .event (.scalarInstructionComplete o.id), .event (.memoryAccessComplete o.id),
          .event (.crossbarOperationComplete o.id), .event (.accumulatorMoveComplete o.id), .event (.systemInstructionComplete o.id)]

/-- What a strand's splits may wait for that the device brings about. -/
def strandTurns (k : Nat) (st : Strand) : List Turn :=
  .event (.entryOverlayLoaded k) :: st.splits.map (fun sp => .event (.overlayMissLoad k sp.num)) ++
  [.event (.strandSuspend k), .event (.strandResume k)]

/-- What a partition's device side does. -/
def partTurns (p : Nat) (x : Part) : List Turn :=
  [.event (.trapQueuePost p), .event (.pageRequestPost p), .event (.translationInvalidateComplete p), .event (.partitionDisableComplete p)] ++
  x.regions.flatMap fun r =>
    [.event (.sweptCreateComplete p r.1), .event (.sweptDestroyComplete p r.1)] ++
    (r.2.queue.map fun a => .event (.tumblerRowService p r.1 a.slice a.row)) ++ [.event (.lapStart p r.1)]

/-- What a chain's dispatcher does. -/
def chainTurns (key : Nat) : List Turn :=
  [.event (.launchDispatch (key / 16) (key % 16)), .event (.strandPlace (key / 16) (key % 16)), .event (.preemptRequest (key / 16) (key % 16))]

/-- What a cluster's merger and tile scheduler do. -/
def clusterTurns (s : State) : List Turn :=
  (s.mergers.flatMap fun e => (List.range e.2.length).map fun i => .event (.spawnMergerClose e.1 i)) ++
  s.tiles.flatMap fun e =>
    (List.range e.2.running.length).map (fun i => Turn.event (.tileTaskComplete e.1 i)) ++
    ((List.range e.2.held.length).flatMap fun i => (List.range 8).map fun n => Turn.event (.tileTaskIssue e.1 i n)) ++
    [.event (.tileRecordTake e.1)]

/-- What the device may do by itself, in the order the model tries it (log 7). -/
def autoTurns (s : State) : List Turn :=
  [.event .budgetPeriodStart] ++ s.ops.flatMap opTurns ++ (s.pend.map fun p => .event (.visitorWriteApply p.die p.id)) ++
  ((s.strands ++ s.ghosts).flatMap fun e => strandTurns e.1 e.2) ++
  (s.wilnum.flatMap fun e => [.event (.routineEnd e.1), .event (.routineStart e.1)]) ++ clusterTurns s ++
  (s.parts.flatMap fun e => partTurns e.1 e.2) ++ (s.chains.flatMap fun e => chainTurns e.1) ++
  s.launches.map fun e => .event (.watchdogFire e.1)

/-! ## Which split issues (R87, R94, R101, R336) -/

/-- A split may issue now: it is ready and not held back, its strand is neither suspended nor ended nor about to stop, and its header's waits hold. -/
def canIssue (s : State) (k : Nat) (st : Strand) (sp : Split) : Bool :=
  sp.run = .ready && sp.stall ≤ s.now && !st.suspended && st.endCode.isNone && !(sp.clause.isNone && suspendReady s k) &&
  (match headerAt s st sp with
   | some h => waitsHold st h s.now
   | none => true)

/-- The split is inside a clause of which an instruction has issued. -/
def Split.within (sp : Split) : Bool := 0 < sp.idx

/-- First cycle at which a strand's next word may issue: its DIST counts from the strand's last (R89), and every strand of the core keeps the core for its issue length. -/
def issueCycle (s : State) (st : Strand) (dist : Nat) : Nat :=
  (s.issuers st.core).foldl (fun a e => max a (e.2.lastEnd + 1)) (max s.now (st.lastEnd + max 1 dist))

/-- The distance of the word a split stands at; 1 for a header. -/
def splitDist (s : State) (st : Strand) (sp : Split) : Nat :=
  match sp.clause, s.codeWord st sp.ovl sp.pc with
  | some _, some w => (Common.ofWord w).dist.toNat
  | _, _ => 1

/-- A candidate for issue: strand, split and the cycle. -/
structure Cand where
  k : Nat
  st : Strand
  sp : Split
  cycle : Nat

/-- The candidates of a core. -/
def candidatesOn (s : State) (core : Nat) : List Cand :=
  (s.issuers core).flatMap fun e =>
    (e.2.splits.filter (canIssue s e.1 e.2)).map fun sp => { k := e.1, st := e.2, sp := sp, cycle := issueCycle s e.2 (splitDist s e.2 sp) }

/-- The strand asks that others of its core go first: the core's last issue, its own, ended a clause with the yield hint (R88, R192). -/
def asksToYield (s : State) (st : Strand) : Bool :=
  ((s.issuers st.core).all fun e => e.2.lastIssue ≤ st.lastIssue) && st.splits.any fun x => x.yielded && x.lastIssue = st.lastIssue

/-- The first candidate goes before the second: no switch within a clause, so of two inside clauses the one that issued last goes on; the earlier cycle; K handlers; priority; one that does not yield (notes/assumptions/103.md); longest since its last issue; lower slot; lower split. -/
def goesFirst (s : State) (a b : Cand) : Bool :=
  let key := fun (c : Cand) => [if c.sp.within then 0 else 1, if c.sp.within then s.now - c.sp.lastIssue else 0, c.cycle,
    if c.st.handler.isSome then 0 else 1, 3 - c.st.prio, if asksToYield s c.st then 1 else 0, c.sp.lastIssue, c.st.slot, c.sp.num]
  let x := key a
  let y := key b
  match (List.range x.length).find? fun i => x.getD i 0 ≠ y.getD i 0 with
  | some i => x.getD i 0 < y.getD i 0
  | none => true

/-- The first of a list of candidates. -/
def firstCand (s : State) : List Cand → Option Cand
  | [] => none
  | c :: r =>
    match firstCand s r with
    | none => some c
    | some d => if goesFirst s c d then some c else some d

/-- The split a core issues from next. -/
def pickOn (s : State) (core : Nat) : Option Cand := firstCand s (candidatesOn s core)

/-- The cores that hold a strand or routine. -/
def busyCores (s : State) : List Nat := (s.strands.map fun e => e.2.core).eraseDups

/-- The earliest issue of all cores. -/
def earliest : List Cand → Option Cand
  | [] => none
  | c :: r =>
    match earliest r with
    | none => some c
    | some d => if c.cycle ≤ d.cycle then some c else some d

def pickIssue (s : State) : Option Turn := (earliest ((busyCores s).filterMap (pickOn s))).map fun c => .issue c.k c.sp.num

/-! ## What a routine may execute (Table 6-1) -/

/-- A plane descriptor of a bounded type. -/
def boundedPlane (st : Strand) (p : BitVec 4) : Bool := isBounded (fieldOf (st.pdreg p.toNat) 32 4)
def boundedUn (st : Strand) : Un → Bool
  | .lane t _ _ _ _ => isBounded t.toNat
  | .plane t _ _ pd pa => isBounded t.toNat || boundedPlane st pd || boundedPlane st pa
def boundedBin (st : Strand) : Bin → Bool
  | .lane t _ _ _ _ _ => isBounded t.toNat
  | .plane t _ _ pd pa pb => isBounded t.toNat || boundedPlane st pd || boundedPlane st pa || boundedPlane st pb
  | .planeS t _ _ pd pa _ => isBounded t.toNat || boundedPlane st pd || boundedPlane st pa
/-- The same of an operation that reads no B. -/
def boundedFirst (st : Strand) : Bin → Bool
  | .lane t _ _ _ _ _ => isBounded t.toNat
  | .plane t _ _ pd pa _ | .planeS t _ _ pd pa _ => isBounded t.toNat || boundedPlane st pd || boundedPlane st pa
def boundedTern (st : Strand) : Tern → Bool
  | .lane t _ _ _ _ _ _ => isBounded t.toNat
  | .plane t _ _ pd pa pb pc => isBounded t.toNat || boundedPlane st pd || boundedPlane st pa || boundedPlane st pb || boundedPlane st pc

/-- An instruction uses ab32 or ab16. -/
def usesBounded (st : Strand) (i : Instr) : Bool :=
  match i with
  | .fadd _ x | .fsub _ x | .fmul _ x | .fmin _ x | .fmax _ x | .iadd _ x | .isub _ x | .imul _ _ x
  | .imin _ x | .imax _ x | .iand _ x | .ior _ x | .ixor _ x | .ishl _ x | .ishr _ x => boundedBin st x
  | .fsgn _ op x => if op = .copy then boundedBin st x else boundedFirst st x
  | .fma _ x | .imad _ x => boundedTern st x
  | .fclass _ x | .frcp _ x | .frsq _ x | .fsqrt _ x | .fexp2 _ x | .flog2 _ x | .frint _ x | .ibits _ _ x
  | .move _ x => boundedUn st x
  | .fill _ x =>
    (match x with
     | .lane t _ _ _ _ => isBounded t.toNat
     | .plane t _ _ pd _ => isBounded t.toNat || boundedPlane st pd)
  | .fcvt _ _ ts x => isBounded ts.toNat || boundedUn st x
  | .fcmp _ _ ty _ _ _ _ | .icmp _ _ ty _ _ _ _ => isBounded ty.toNat
  | .shift _ ty _ _ pd pa _ _ | .rotPlane _ ty _ _ pd pa _ | .spread _ ty _ pd pa | .fold _ ty _ _ _ _ pd pa
  | .scan _ ty _ _ _ _ pd pa | .refold _ ty pd pa | .transp _ ty pd pa =>
    isBounded ty.toNat || boundedPlane st pd || boundedPlane st pa
  | .index _ ty _ pd _ => isBounded ty.toNat || boundedPlane st pd
  | _ => false

/-- A routine may execute the instruction. -/
def routineAllowed (st : Strand) (op : Nat) (i : Instr) : Bool :=
  match opClass op with
  | 0 =>
    (match i with
     | .callo .. | .ovld .. | .ovlq .. | .ovlpin .. | .ovlunpin .. | .exit _ | .yield _ | .trap .. | .join .. | .leave _
     | .gbar _ | .ginfo .. | .spawn .. | .msgsend .. | .lparam .. | .wintr .. | .seglim .. => false
     | _ => true)
  | 1 =>
    (match i with
     | .quant .. | .accept .. | .bound .. => false
     | _ => !usesBounded st i)
  | 2 =>
    (match i with
     | .ld .. | .st .. | .ldp .. | .stp .. | .lds .. | .sts .. | .pref .. | .fence .. => true
     | _ => false)
  | _ => false

/-! ## Issue of one word -/

/-- A routine ends where it stands with a code (R137, R149). -/
def endRoutine (k code : Nat) : Eff := fun s =>
  [.endCode k (some code), .splits k ((s.strand k).splits.map fun x => { x with run := .parked })]

/-- A trap of the word or header a split stands at, with a cause alone. -/
def splitTrap (k n cause : Nat) : Eff := takeTrap k n (TrapInfo.plain cause) []

/-- What the issue unit makes of a word with an active lane: the first check of Table 8-11 that fails, orders 1 to 6, or the instruction. -/
def checkWord (st : Strand) (cl : Clause) (w : Word) : Except Nat Instr :=
  let op := (bitsAt w 56 8).toNat
  if !assignedOp op then .error cIllegalInstr
  else if opClass op ≠ cl.hdr.cls.toNat then .error cClauseClass
  else
    match parseWord w with
    | none => .error cIllegalInstr
    | some i =>
      if encode i ≠ w || !i.fieldsOk then .error cIllegalInstr
      else if opTransfer op && cl.idx ≠ cl.hdr.count.toNat then .error cIllegalInstr
      else if opClass op = 4 && st.level = 0 then .error cPrivilege
      else if !i.selsOk then .error cIllegalOperand
      else .ok i

/-- The code with which a routine's execution of a word ends it, if it does. -/
def endsWith (s : State) (k : Nat) (i : Instr) : Option Nat :=
  match exec i s with
  | .next t => (t.strand k).endCode
  | _ => none

/-- The lane-file keys of a Wilnum core's 8 × 8 lanes. -/
def wilnumKeys (core : Nat) : List Nat :=
  (List.range 64).flatMap fun n => (List.range 256).map fun w => laneKey core (32 * (n / 8) + n % 8) w

/-- The word passes its own checks and reads a lane-file word: were every word of the core's lane files uncorrectable, it would end its routine with code 1, or an LDP keeps a part of the words it fills (R204, R228, R319). -/
def readsLanes (s : State) (k : Nat) (st : Strand) (i : Instr) : Bool :=
  (endsWith s k i).isNone &&
  (endsWith { s with lanesBad := wilnumKeys st.core } k i = some 1 ||
   (match i with
    | .ldp _ x => (Geo.of st.window (st.pdreg x.pd.toNat)).b < 32
    | _ => false))

/-- A parity fault armed, before this routine started, at the word it executes (R299). -/
def parityHere (s : State) (k : Nat) (st : Strand) (sp : Split) (i : Instr) : Bool :=
  let w := s.wil (st.core - 256)
  st.isRoutine &&
  (match w.parity with
   | some (part, ovl, word, starts) => part = st.part && ovl = sp.ovl && word = sp.pc && starts < w.starts
   | none => false) &&
  readsLanes s k st i

/-- The issue unit holds a class-1 clause of a grid core while its die's energy is spent (R367). -/
def gridHeld (s : State) (st : Strand) (cl : Clause) : Bool :=
  cl.hdr.cls = 1#3 && st.core < 256 && energySpent s 5 (dieOf st.core)

/-- Time reaches the cycle a strand's word issues in. -/
def reach (k n cycle : Nat) : Eff := Eff.seq [advance cycle, fun _ => [.cur k n], wdogIssue k]

/-- Issue cycles of an inactive word that holds no instruction (R84): those of its form, where the opcode has one. FSGN of a code not listed counts as a sign operation of one source (notes/assumptions/83.md, DESIGN CHOICE). -/
def rejectedLen (x : Ctx) (w : Word) : Nat :=
  let pd := (bitsAt w 38 4).toNat
  let pa := (bitsAt w 34 4).toNat
  match (bitsAt w 56 8).toNat with
  | 0x46 => if bitsAt w 0 1 = 0#1 then laneLen 1 x else planeCycles x 1 [pd, pa]
  | 0x69 => laneLen 1 x
  | 0x6C => laneLen 1 x
  | 0x77 => planeCycles x 1 [pd]
  | 0x7B => planeCycles x 1 [pd, pa, (bitsAt w 30 4).toNat]
  | _ => 1

/-- A word with no active lane passes (R84). -/
def passWord (k n : Nat) (w : Word) (s : State) : State × Option Instr :=
  match (if assignedOp (bitsAt w 56 8).toNat then parseWord w else none) with
  | some i => (s, some i)
  | none =>
    let x := s.ctx (Common.ofWord w)
    (Eff.run (fun s => finish { x with k := k } s (rejectedLen x w) ((s.strand k).splitOf n).past) s, none)

/-- An instruction word issues. -/
def issueWord (k n : Nat) (st : Strand) (cl : Clause) (w : Word) (s : State) : State × Option Instr :=
  if gridHeld s st cl then ((stall { s.ctx (Common.ofWord w) with k := k, st := st, sp := st.splitOf n } s |> s.applyAll), none)
  else
    let t := (reach k n (issueCycle s st (Common.ofWord w).dist.toNat)).run s
    let st := t.strand k
    let sp := st.splitOf n
    if activeLanes st sp (Common.ofWord w) = 0 then passWord k n w t
    else
      match checkWord st cl w with
      | .error cause => ((splitTrap k n cause).run t, none)
      | .ok i =>
        if st.isRoutine && !routineAllowed st (bitsAt w 56 8).toNat i then ((endRoutine k 5).run t, none)
        else if parityHere t k st sp i then
          ((Eff.andThen (endRoutine k 1) fun s => [.wilnum (st.core - 256) { (s.wil (st.core - 256)) with parity := none }]).run t, none)
        else (t, some i)

/-- A split issues: the header it stands at, or its clause's next word (R85, R86, R156). -/
def issueSplit (k n : Nat) (s : State) : State × Option Instr :=
  let st := s.strand k
  let sp := st.splitOf n
  match s.codeWord st sp.ovl sp.pc with
  | none => ((splitTrap k n cOverlayEnd).run s, none)
  | some w =>
    match sp.clause with
    | some cl => issueWord k n st cl w s
    | none =>
      match decodeHeader w with
      | none => ((splitTrap k n cIllegalHeader).run s, none)
      | some h => ((Eff.run (fun _ => [.cur k n]) s), some (.clauseIssue h))

/-! ## Turns -/

/-- One lane of a memory operation performs, or leaves for its peer; one element of a copy is written; one row of an XBPROG is programmed. -/
def performTurn (op lane : Nat) : Eff := fun s =>
  if (remoteLane s op lane).isSome then sendLane op lane s
  else
    match s.op? op with
    | some o =>
      match o.kind with
      | .mem m =>
        (match m.kind with
         | .load | .ldx | .store =>
           if o.parked then []
           else
             (match m.reqs.find? fun r => r.lane = lane && laneReady s o m r with
              | some r => performLanes op [r] s
              | none => [])
         | _ => [])
      | .copy x => if copyRuns s o x then copyElem o x lane s else []
      | .xbprog arr d off run => progStep o arr d off run s
      | _ => []
    | none => []

/-- A memory word is struck: a line, a lane word, a scratch word, an accumulator element, an overlay in an instruction store (R362, R364). A strike on a Wilnum core ends its routine (R149). -/
def strikeTurn (kind addr : Nat) : Eff := fun s =>
  match kind with
  | 0 => poisonLine addr s
  | 1 =>
    if 256 ≤ addr / 262144 then killLane addr s
    else if s.lanesBad.contains addr then [] else [.bad (s.lanesBad ++ [addr]) s.scratchBad s.accBad]
  | 2 => if s.scratchBad.contains (addr / 8) then [] else [.bad s.lanesBad (s.scratchBad ++ [addr / 8]) s.accBad]
  | 3 => if s.accBad.contains (addr / 4 * 4) then [] else [.bad s.lanesBad s.scratchBad (s.accBad ++ [addr / 4 * 4])]
  | 4 => spoilCode (addr / 2 ^ 22) (addr / 2 ^ 16 % 64) (addr % 2 ^ 16) s
  | _ => []

/-- What a turn comes to: the state in which an instruction or event then acts, if one does. -/
def takeTurn (t : Turn) (s : State) : State × Option Instr :=
  match t with
  | .event i =>
    if Instr.isEvent i && (s.powered || (match i with | .powerOnReset _ => true | _ => false)) then (s, some i) else (s, none)
  | t =>
    if !s.powered then (s, none)
    else
      match t with
      | .issue k n =>
        (match pickOn s (s.strand k).core with
         | some c => if c.k = k && c.sp.num = n then issueSplit k n s else (s, none)
         | none => (s, none))
      | .tick n => ((advance (s.now + n)).run s, none)
      | .perform op lane => ((performTurn op lane).run s, none)
      | .evict n => (Eff.run (fun s => [.tlb (s.tlb.eraseIdx n)]) s, none)
      | .park level delay wake => ((setPark level delay wake).run s, none)
      | .report => (reportNow.run s, none)
      | .hop src dst seq => ((meshHop src dst seq).run s, none)
      | .maintain src dst => ((meshMaintain src dst).run s, none)
      | .charge index inst n => ((chargeBudget index inst n).run s, none)
      | .sensor core temp => (Eff.run (fun _ => [.temp core temp]) s, none)
      | .strike kind addr => ((strikeTurn kind addr).run s, none)
      | .event _ => (s, none)

/-- A turn the device may take by itself now. -/
def turnReady (s : State) (t : Turn) : Bool :=
  match t with
  | .event i => enabled s i
  | .perform op lane => !(performTurn op lane s).isEmpty
  | _ => false

/-- What happens where no turn says otherwise (log 7). -/
def defaultTurn (s : State) : Turn :=
  match (autoTurns s).find? (turnReady s) with
  | some t => t
  | none => (pickIssue s).getD (.tick 1)

/-- The next turn taken: the state an instruction or event acts in, and which. -/
def fetch (s : State) : State × Option Instr :=
  match s.turns with
  | t :: r => takeTurn t (Eff.run (fun _ => [.turns r]) s)
  | [] => takeTurn (defaultTurn s) s

end Sys2Proof.Machine
end

