-- ==== Sys2Proof/Machine/Step.lean ====
section
/-! DEFINITION. One step: the next turn is taken, and the instruction or event it comes to acts. Also the state in which the next step runs a given instruction. -/

namespace Sys2Proof.Machine

/-- One step: a next state, a fault or a refusal. A turn that comes to no instruction or event (time passing, a trap of the issue unit) is a step of its own. -/
def step (s : State) : Host.Outcome State Fault Refusal :=
  match fetch s with
  | (t, some i) => exec i t
  | (t, none) => .next t

/-- The strand that a loaded word is to run in: level K, a window of one lane, in core 0 slot 0, at word `pc` of overlay 0. -/
def fetchStrand (pc : Nat) (clause : Option Clause) : Strand :=
  { Strand.empty with
    level := 1, fpCount := 64, entryKey := some 0,
    splits := [{ Split.none_ with mask := 1, pc := pc, clause := clause }] }

/-- The overlay that holds a loaded word: the word alone where it is a header, else behind a header of its class. -/
def fetchCode (w : Word) : List Word :=
  let op := (bitsAt w 56 8).toNat
  if op = 0xFF then [w] else [Header.toWord (fetchHeader op), w]
where
  /-- Header of a clause of one word of an opcode's class, which waits for nothing. -/
  fetchHeader (op : Nat) : Header :=
    { cls := BitVec.ofNat 3 (opClass op), count := 0, wait := 0, any := 0, yield := 0, noPartner := 0 }

/-- The state in which the next step fetches and runs the word: a strand, its overlay, and the turn that issues from it. A program otherwise comes in through a launch (log 8). -/
def State.withFetchWord (s : State) (nbits w : Nat) : State :=
  let v : Word := BitVec.ofNat 64 (w % 2 ^ nbits)
  let op := (bitsAt v 56 8).toNat
  let st :=
    if op = 0xFF then fetchStrand 0 none
    else fetchStrand 1 (some { at_ := 0, hdr := fetchCode.fetchHeader op, idx := 0, yielded := false })
  { s with
    powered := true,
    turns := .issue 0 0 :: s.turns,
    strands := [(0, st)],
    overlays := [{ core := 0, part := 0, idx := 0, routine := false, granules := 1, hash := 0, kbit := true,
                   code := fetchCode v, slots := [0], lastCall := 0, stale := false }] }

end Sys2Proof.Machine
end

