-- ==== Sys2Proof/Safety.lean ====
section
/-! DEFINITION. What counts as a safe run, in the terms the claims use. -/

namespace Sys2Proof.Machine

/-- n steps from a state that neither fault nor are refused: the schedule asks for no event whose conditions do not hold. -/
def State.runsFor (s : State) : Nat → Prop
  | 0 => True
  | n + 1 => ∃ t, step s = .next t ∧ t.runsFor n

/-- What every step keeps: memory in its canonical form, the slots' keys in order. -/
structure State.Inv (s : State) : Prop where
  mem : Memory.wf s.mem = true
  slots : keysRise s.strands = true
  ghosts : keysRise s.ghosts = true
  launches : keysRise s.launches = true
  lanes : keysRise s.lanes = true

/-- A state the model can reach keeps `Inv`, and a run of it does not stop. -/
def State.safe (s : State) : Prop := s.Inv ∧ ∀ n, s.runsFor n

end Sys2Proof.Machine
end

