-- ==== Sys2Proof/Certificates/Slice0/Obligations.lean ====
section
/-! DEFINITION. The statements. First what they share: a word that acts, the strand after a result or an operation has been issued, and the values the tables give. -/

namespace Sys2Proof.Claims

open Sys2Proof.Machine

/-! ## A word that acts -/

/-- The strand whose word issues stands in a slot and no saved strand has its key, a lane of the word is active, and the flag it names has a use left (R83, R84, R92). -/
structure Acts (s : State) (c : Common) : Prop where
  slot : mapGet s.strands s.cur.1 = some (s.ctx c).st
  here : ∀ x ∈ s.saved, x.key ≠ s.cur.1
  act : (s.ctx c).act ≠ 0
  room : ∀ f, setfFlag c = some f → (s.ctx c).st.flag f < 8 ∨ (s.ctx c).sp.replay.isSome = true

/-- Results put into a strand's waiting list, in order. -/
def addDelayed (l : List (Nat × LUpd)) (t : Nat) (us : List LUpd) : List (Nat × LUpd) := us.foldl (fun a u => insertDelay a t u) l

/-- A flag's count one higher. -/
def flagUp (st : Strand) (f : Nat) : Map Nat := mapSet st.cf f (st.flag f + 1)

/-- The strand after a fixed-latency word: issue of `len` cycles from now, latency `lat`; latch parts arrive a cycle before the register where the latency allows (R89), the register's write unless NWB, the named flag counted and its fall with the register (R92, R93). All else of the strand stands. -/
def afterFixed (x : Ctx) (now len lat : Nat) (regs lats : List LUpd) (status : Status) : Strand :=
  let e := now + len - 1
  let d1 := addDelayed x.st.delayed (if 2 ≤ lat then e + lat - 1 else e + lat) lats
  let d2 := if x.c.nwb = 1#1 then d1 else addDelayed d1 (e + lat) regs
  let d3 := if status = 0 then d2 else insertDelay d2 (e + lat) (.status status)
  { x.st with
    delayed := (match setfFlag x.c with | none => d3 | some f => insertDelay d3 (e + lat) (.flagFall f (e + lat))),
    cf := (match setfFlag x.c with | none => x.st.cf | some f => flagUp x.st f),
    lastEnd := e, lastIssue := now, splits := putSplit x.st.splits { x.sp.past with lastIssue := now } }

/-- The state with one strand in place of the one of its key; everything else stands. -/
def withStrand (s : State) (k : Nat) (st : Strand) : State := { s with strands := mapSet s.strands k st }

/-- The operation a variable-latency word makes outstanding. -/
def newOp (x : Ctx) (s : State) (tl : TlArg) (kind : OpKind) : Op where
  id := s.nextOp
  owner := x.k
  split := x.sp.num
  ovl := x.sp.ovl
  pc := x.sp.pc
  clause := x.sp.clause
  flag := match setfFlag x.c with | none => 0 | some f => f + 1
  tl := tl.map (·.toNat)
  issued := s.now
  prior := x.sp.prior.filter fun i => s.ops.any fun p => p.id = i
  dep := s.stillPending x.sp.dep
  fences := x.sp.fences
  leader := x.leader
  parked := false
  tags := []
  killed := false
  kind := kind

/-- The split after it has issued an operation: what comes next is after that one, and after those before it that are still outstanding (R277). -/
def after (s : State) (sp : Split) : Split :=
  { sp with
    prior := s.nextOp :: sp.prior.filter fun i => s.ops.any fun p => p.id = i, dep := s.stillPending sp.dep,
    seen := sp.seen.filter fun r => !(s.stillPending r.deps).isEmpty, fences := sp.fences.map fun f => (f.1, s.stillPending f.2) }

/-- The strand after a variable-latency word: the named flag counts one (a replay's use is counted already), and with SETF = 0 its split holds until the operation completes (R91, R92). -/
def afterIssue (x : Ctx) (s : State) (len : Nat) : Strand :=
  { x.st with
    cf := (match setfFlag x.c with | none => x.st.cf | some f => if x.sp.replay.isSome then x.st.cf else flagUp x.st f),
    lastEnd := s.now + len - 1, lastIssue := s.now,
    splits := putSplit x.st.splits
      { after s (if x.c.setf = 0#4 then { x.sp.past with run := .hold s.nextOp } else x.sp.past) with lastIssue := s.now } }

/-- The state after a variable-latency word: its operation outstanding, its strand moved on; everything else stands. -/
def issued (x : Ctx) (s : State) (len : Nat) (tl : TlArg) (kind : OpKind) : State :=
  { s with
    strands := mapSet s.strands x.k (afterIssue x s len), ops := s.ops ++ [newOp x s tl kind], nextOp := s.nextOp + 1 }

/-- The strand after a word that only issues, for one cycle. -/
def afterWord (x : Ctx) (now : Nat) (sp : Split) : Strand :=
  { x.st with lastEnd := now, lastIssue := now, splits := putSplit x.st.splits { sp with lastIssue := now } }

/-! ## Values of the scalar operations (Tables 9-1 to 9-4) -/

/-- An exact integer as a w-bit type holds it: reduced modulo 2^w, read signed or unsigned (R28, R176). -/
def wrapInt (signed : Bool) (w : Nat) (v : Int) : Int := if signed then v.bmod (2 ^ w) else v % (2 ^ w : Nat)

/-- A typed scalar result: the exact value wrapped to the type and extended to 64 bits; none for a type that is no integer type (R176). -/
def typedValue (ty : BitVec 4) (v : Bool → Nat → Int) : Option Word :=
  if isInt ty.toNat then some (BitVec.ofInt 64 (wrapInt (isSigned ty.toNat) (fmtWidth ty.toNat) (v (isSigned ty.toNat) (fmtWidth ty.toNat)))) else none

/-- The common part, issue length, destination and value of a scalar word of class 0; none where a check of its description fails. -/
def scalarRule (i : Instr) (s : State) (st : Strand) : Option (Common × Nat × Sel × Word) :=
  let n := fun (x : Sel) => (st.scalar x).toNat
  let two := fun (c : Common) (len : Nat) (ty : BitVec 4) (d a b : Sel) (f : Bool → Nat → Int → Int → Int) =>
    (typedValue ty fun sg w => f sg w (intOf sg w (n a)) (intOf sg w (n b))).map fun v => (c, len, d, v)
  match i with
  | .mov c ty d a => (typedValue ty fun sg w => intOf sg w (n a)).map fun v => (c, 1, d, v)
  | .movGetst c d => some (c, 1, d, st.status.setWidth 64)
  | .movi c d imm => some (c, 1, d, BitVec.ofInt 64 imm.toInt)
  | .movhi c d a imm => some (c, 1, d, BitVec.ofNat 64 (imm.toNat * 2 ^ 36 + n a % 2 ^ 36))
  | .add c ty d a b => two c 1 ty d a b fun _ _ x y => x + y
  | .addi c d a imm => some (c, 1, d, st.scalar a + BitVec.ofInt 64 imm.toInt)
  | .sub c ty d a b => two c 1 ty d a b fun _ _ x y => x - y
  | .mul c ty hi d a b => two c 1 ty d a b fun _ w x y => if hi = 1#1 then x * y / (2 ^ w : Nat) else x * y
  | .div c ty d a b => two c 16 ty d a b fun _ _ x y => if y = 0 then -1 else x.tdiv y
  | .rem c ty d a b => two c 16 ty d a b fun _ _ x y => if y = 0 then x else x.tmod y
  | .and c ty d a b => (typedValue ty fun _ _ => ((st.scalar a &&& st.scalar b).toNat : Int)).map fun v => (c, 1, d, v)
  | .or c ty d a b => (typedValue ty fun _ _ => ((st.scalar a ||| st.scalar b).toNat : Int)).map fun v => (c, 1, d, v)
  | .xor c ty d a b => (typedValue ty fun _ _ => ((st.scalar a ^^^ st.scalar b).toNat : Int)).map fun v => (c, 1, d, v)
  | .andi c d a imm => some (c, 1, d, st.scalar a &&& BitVec.ofInt 64 imm.toInt)
  | .ori c d a imm => some (c, 1, d, st.scalar a ||| BitVec.ofInt 64 imm.toInt)
  | .xori c d a imm => some (c, 1, d, st.scalar a ^^^ BitVec.ofInt 64 imm.toInt)
  | .shl c ty d a b => two c 1 ty d a b fun _ w x _ => x * (2 ^ (n b % 2 ^ w % w) : Nat)
  | .shr c ty d a b => two c 1 ty d a b fun _ w x _ => x / (2 ^ (n b % 2 ^ w % w) : Nat)
  | .shli c d a k => some (c, 1, d, st.scalar a <<< k.toNat)
  | .shri c ar d a k => some (c, 1, d, if ar = 1#1 then (st.scalar a).sshiftRight k.toNat else st.scalar a >>> k.toNat)
  | .rot c ty right d a b =>
    (typedValue ty fun _ w => ((if right = 1#1 then (BitVec.ofNat w (n a)).rotateRight (n b % 2 ^ w) else (BitVec.ofNat w (n a)).rotateLeft (n b % 2 ^ w)).toNat : Int)).map
      fun v => (c, 1, d, v)
  | .clz c ty d a => (typedValue ty fun _ w => (leadZeros w (n a) : Int)).map fun v => (c, 1, d, v)
  | .popc c ty d a => (typedValue ty fun _ w => (popCount w (n a) : Int)).map fun v => (c, 1, d, v)
  | .cmp c ty cond d a b =>
    if isInt ty.toNat then
      some (c, 1, d, if iCond cond.toNat (intOf (isSigned ty.toNat) (fmtWidth ty.toNat) (n a)) (intOf (isSigned ty.toNat) (fmtWidth ty.toNat) (n b)) then 1 else 0)
    else none
  | .sel c d a b t => some (c, 1, d, if st.scalar t = 0 then st.scalar b else st.scalar a)
  | .min c ty d a b => two c 1 ty d a b fun _ _ x y => min x y
  | .max c ty d a b => two c 1 ty d a b fun _ _ x y => max x y
  | .extr c ty d a pos lenM1 =>
    if (ty.toNat = 11 ∨ ty.toNat = 12) ∧ pos.toNat + lenM1.toNat + 1 ≤ 64 then
      some (c, 1, d, BitVec.ofInt 64 (wrapInt (ty.toNat = 11) (lenM1.toNat + 1) (n a / 2 ^ pos.toNat : Nat)))
    else none
  | .ins c d a pos lenM1 =>
    if pos.toNat + lenM1.toNat + 1 ≤ 64 then
      let m : Word := BitVec.ofNat 64 (2 ^ (lenM1.toNat + 1) - 1) <<< pos.toNat
      some (c, 1, d, (st.scalar d &&& ~~~m) ||| ((st.scalar a <<< pos.toNat) &&& m))
    else none
  | .lea c scale d seg b => some (c, 1, d, (st.segreg seg.toNat).base + (st.scalar b <<< scale.toNat))
  | .seglim c field d seg =>
    let g := st.segreg seg.toNat
    match field with
    | .lim => some (c, 1, d, g.limit)
    | .base => some (c, 1, d, g.base)
    | .attr => some (c, 1, d, g.attr.setWidth 64)
    | .win => some (c, 1, d, if g.scratch || g.remote then 0 else BitVec.ofNat 64 (((s.windowOf st g).map (·.len)).getD 0))
  | .lparam c d off => if off.toNat % 8 = 0 ∧ off.toNat ≤ 504 then some (c, 1, d, st.params.getD (off.toNat / 8) 0) else none
  | .getid c d which => if which.toNat ≤ 7 then some (c, 1, d, getidValue s st which.toNat) else none
  | _ => none

/-! ## Control transfers -/

/-- A strand with changed registers, past a word that issues for one cycle; the split goes on as given. -/
def wordDone (now : Nat) (st : Strand) (sp : Split) : Strand :=
  { st with lastEnd := now, lastIssue := now, splits := putSplit st.splits { sp with lastIssue := now } }

/-- Table 8-7: the condition a branch tests, on the value of its scalar or on the lanes of its mask that are in the window and the split. -/
def condition (cond : Nat) (v : Word) (tested mask : Lanes) : Bool :=
  match cond with
  | 1 => v.toNat = 0
  | 2 => v.toNat ≠ 0
  | 3 => v.toInt < 0
  | 4 => 0 ≤ v.toInt
  | 5 => mask &&& tested ≠ 0
  | 6 => mask &&& tested = tested
  | 7 => mask &&& tested = 0
  | _ => false

/-- The split at word index own + displacement of its overlay; none outside the overlay. -/
def transferTo (s : State) (st : Strand) (sp : Split) (disp : Int) : Option Split :=
  let t := (sp.pc : Int) + disp
  if 0 ≤ t ∧ t < (s.codeLen st sp.ovl : Int) then some (sp.goto sp.ovl t.toNat) else none

/-- A link word: the cross-overlay mark, the overlay, the word (Table 9-6). -/
def link (cross : Bool) (ovl word : Nat) : Word :=
  BitVec.ofNat 64 ((if cross then 2 ^ 63 else 0) + ovl % 4096 * 2 ^ 32 + word % 32768)

/-- The residents once some keys have fallen: as many of a partition's overlays on a core that nothing holds have gone, the least recently called first, as its quota asks (R103, R318). -/
def quotaKept (s : State) (core part : Nat) : List Overlay := shrinkTo s core part (s.part part).quota s.overlays.length s.overlays

/-- What a control word leaves: its common part, the strand's registers, where the split goes on, the residents; none where a check fails. -/
def controlRule (i : Instr) (s : State) (st : Strand) (sp : Split) : Option (Common × Strand × Split × List Overlay) :=
  let stay := s.overlays
  let pin := fun (c : Common) (idx n : Nat) => some (c, { st with pins := mapSet st.pins idx n }, sp.past, stay)
  match i with
  | .nop c => some (c, st, sp.past, stay)
  | .yield c => some (c, st, Split.past { sp with clause := sp.clause.map fun k => { k with yielded := true } }, stay)
  | .br c disp => (transferTo s st sp disp.toInt).map fun q => (c, st, q, stay)
  | .brc c cond a disp =>
    if condition cond.toNat (st.scalar a) (winMask st.window &&& sp.mask) (st.mreg (selNum a)) then
      (transferTo s st sp disp.toInt).map fun q => (c, st, q, stay)
    else some (c, st, sp.past, stay)
  | .loop c a disp =>
    let v := st.scalar a - 1
    let st' := st.applyL (.s (selNum a) v)
    if v = 0 then some (c, st', sp.past, stay) else (transferTo s st sp disp.toInt).map fun q => (c, st', q, stay)
  | .call c disp =>
    (transferTo s st sp disp.toInt).map fun q => (c, { st with s := mapSet st.s 30 (link false sp.ovl (sp.pc + 1)) }, q, stay)
  | .ret c a =>
    let l := st.scalar a
    let ovl := l.toNat / 2 ^ 32 % 4096
    let word := l.toNat % 32768
    if l.toNat / 2 ^ 44 % 2 ^ 19 ≠ 0 ∨ l.toNat / 2 ^ 15 % 2 ^ 17 ≠ 0 then none
    else if l.msb then
      if 0 < countOf st.callKeys sp.ovl ∧ (s.codeOf st ovl).isSome ∧ (st.level = 0 ∨ (s.codeOf st ovl).all (·.kbit)) ∧ word < s.codeLen st ovl then
        let st' := { st with callKeys := mapSet st.callKeys sp.ovl (countOf st.callKeys sp.ovl - 1) }
        some (c, st', sp.goto ovl word, quotaKept (withStrand s s.cur.1 st') st.core st.part)
      else none
    else if ovl = sp.ovl % 4096 ∧ word < s.codeLen st sp.ovl then some (c, st, sp.goto sp.ovl word, stay)
    else none
  | .callo c ovl entry =>
    match s.resident st.core st.part ovl.toNat false with
    | none => none
    | some o =>
      if (st.level = 0 ∨ o.kbit) ∧ entry.toNat < o.words ∧ s.keyCount st.core st.part ovl.toNat < 65535 then
        some (c, { st with callKeys := mapSet st.callKeys ovl.toNat (countOf st.callKeys ovl.toNat + 1),
                           s := mapSet st.s 30 (link true sp.ovl (sp.pc + 1)) },
          sp.goto ovl.toNat entry.toNat, s.overlays.map fun y => if y = o then { y with lastCall := s.now } else y)
      else none
  | .ovlpin c ovl => if s.keyCount st.core st.part ovl.toNat < 65535 then pin c ovl.toNat (countOf st.pins ovl.toNat + 1) else none
  | .ovlunpin c ovl =>
    if 0 < countOf st.pins ovl.toNat then
      let st' := { st with pins := mapSet st.pins ovl.toNat (countOf st.pins ovl.toNat - 1) }
      some (c, st', sp.past, quotaKept (withStrand s s.cur.1 st') st.core st.part)
    else none
  | _ => none

/-! ## Strands that retire -/

/-- A strand gone from its slot, its keys fallen, counted in its launch, which has strands left (R191, R318). -/
def retired (s : State) (k : Nat) (st : Strand) (l : Launch) : State :=
  { s with
    strands := mapDel s.strands k, overlays := quotaKept { s with strands := mapDel s.strands k } st.core st.part,
    launches := mapSet s.launches st.launch { l with retired := l.retired + 1, dep := joinDeps l.dep st.dep } }

/-- Nothing of a strand is outstanding, it is in no gang, holds no array, leaves no operation behind and no target to post, and its launch has other strands. -/
structure Retires (s : State) (k : Nat) (st : Strand) (l : Launch) : Prop where
  slot : mapGet s.strands k = some st
  gang : st.gang = none
  ops : ∀ o ∈ s.ops, o.owner ≠ k
  arrays : ∀ e ∈ s.xbars, e.2.bound ≠ some k
  gone : State.remains { s with strands := mapDel s.strands k } st = none
  handler : ∀ h, st.handler = some h → h.tret = false
  launch : mapGet s.launches st.launch = some l
  more : l.retired + 1 < l.count

/-! ## Splits -/

/-- The group of a lane: 0 to 3 by its two mask bits where it is active, else 4 (R95). -/
def laneGroup (act ma mb : Lanes) (n : Nat) : Nat :=
  if act.getLsbD n then 2 * (if ma.getLsbD n then 1 else 0) + (if mb.getLsbD n then 1 else 0) else 4

/-- The groups with a lane of the split, in order. -/
def liveGroups (mask act ma mb : Lanes) : List Nat :=
  (List.range 5).filter fun g => (List.range 16384).any fun n => mask.getLsbD n && laneGroup act ma mb n = g

/-- The splits of a strand bear distinct numbers below 4. -/
def numbered (l : List Split) : Prop := (l.map (·.num)).Nodup ∧ ∀ sp ∈ l, sp.num < 4

/-! ## Operations that end -/

/-- The operation is outstanding, its strand stands in a slot, alone under its key, and is neither killed nor about to retire. -/
structure Outstanding (s : State) (o : Op) (st : Strand) : Prop where
  op : s.op? o.id = some o
  active : o.parked = false
  spared : o.killed = false
  slots : keysRise s.strands = true
  slot : mapGet s.strands o.owner = some st
  alone : mapGet s.ghosts o.owner = none
  here : ∀ x ∈ s.saved, x.key ≠ o.owner
  near : o.owner < 2 ^ 20
  live : ∃ sp ∈ st.splits, sp.run ≠ .exiting

/-- The strand as the end of an operation leaves it: the flag's count one lower from the next cycle on, the splits it held ready (R87, R91, R92); the operation's own writes are behind the split that waited, behind what a header wait on the flag observes, and behind the strand's end (R280, R287). -/
def opGone (s : State) (o : Op) (st : Strand) (deps : List Nat) : Strand :=
  let f := o.flag - 1
  { st with
    dep := (if deps = [] then st.dep else s.stillPending (joinDeps st.dep deps)),
    flagDeps := (if o.flag = 0 ∨ deps = [] then st.flagDeps else mapSet st.flagDeps f (joinDeps (s.stillPending ((mapGet st.flagDeps f).getD [])) deps)),
    cf := (if o.flag = 0 then st.cf else mapSet st.cf f (st.flag f - 1)),
    cfFall := (if o.flag = 0 then st.cfFall else mapSet st.cfFall f s.now),
    splits := st.splits.foldl (fun a sp => if sp.run = .hold o.id then putSplit a { sp with run := .ready, dep := joinDeps sp.dep deps } else a) st.splits }

/-- An arrival counted on the timeline an operation names, with the writes it releases: its own, and those that happen before the accesses of a copy or a routine (R21, R151, R257). -/
def arrived (s : State) (st : Strand) (o : Op) (deps : List Nat) : Map Timeline :=
  match o.tl with
  | none => s.tls
  | some t =>
    let k := tlKey st.launch t
    mapSet s.tls k { count := (s.tl k).count + 1, arr := (s.tl k).arr ++ [((s.tl k).count + 1, s.stillPending (joinDeps o.behind deps))] }

/-- The state after an operation has ended, its strand's registers as given; everything else stands. -/
def ended (s : State) (st : Strand) (o : Op) (deps : List Nat) : State :=
  { s with
    strands := mapSet s.strands o.owner (opGone s o st deps), tls := arrived s st o deps,
    ops := s.ops.filter fun p => p.id ≠ o.id }

/-- No launch of this identity is recorded or replayed. -/
def Unlogged (s : State) (launch : Nat) : Prop := ∀ l, mapGet s.launches launch = some l → l.record = false ∧ l.replay = false

/-- The key a line is kept under once it has been read under one, where nothing had been written or read there before (R354). -/
def keyNoted (s : State) (key pa : Nat) : Map Nat :=
  if onChip pa then s.lineKeys
  else match mapGet s.lineKeys (pa / 64) with
    | none => mapSet s.lineKeys (pa / 64) key
    | some k => if k = anyKey ∧ key ≠ anyKey then mapSet s.lineKeys (pa / 64) key else s.lineKeys

/-- Where a word issues, once its strand is of another gang at an instance, every split having arrived at those before it. -/
def inGang (x : Ctx) (g : Option Nat) (n : Nat) : Ctx :=
  let st := { x.st with gang := g, gangAt := n, splits := x.st.splits.map fun sp => { sp with gbars := n } }
  { x with st := st, sp := st.splitOf x.sp.num }

/-- The machine once an engine has read or written at physical addresses: its swept requests admitted, its lines kept under their keys (R125, R354). -/
def spanned (s : State) (l : List (Tlb × Nat)) : State := (noteSpan l).run s

/-- What a class 0 word of variable latency leaves: where it issues, with its strand's gang and arrivals as the word leaves them; the line keys noted; and the operation it makes outstanding. None where its description has a check that fails, where what it reads is still to be stored or acquired, and where its gang's barrier closes with it. -/
def issueRule0 (i : Instr) (s : State) (st : Strand) : Option (Common × Ctx × Map Nat × OpKind) :=
  let plain := fun (c : Common) (k : OpKind) => some (c, s.ctx c, s.lineKeys, k)
  let record := fun (c : Common) (a : Sel) (k : List Word → OpKind) =>
    if (st.scalar a).toNat % 64 ≠ 0 then none
    else match strandRecord s st (st.scalar a).toNat with
      | .ok (cls, key, pa) =>
        if recordBlocked s (s.ctx c) cls pa 64 || (badOnChip s pa 64 false).isSome then none
        else some (c, s.ctx c, keyNoted s key pa, k (s.strandWords st.die cls key pa 8))
      | .error _ => none
  let noBarrier := s.ops.all fun o => match o.kind with | .gbar .. => false | _ => true
  match i with
  | .clockCore c d => plain c (.clock (selNum d) (BitVec.ofNat 64 s.now + Config.clockOffset st.core))
  | .clockPkg c d => plain c (.clock (selNum d) (BitVec.ofNat 64 s.now))
  | .wintr c seg => plain c (.wintr seg.toNat)
  | .ovld c d ovl =>
    let e := ovlEntry s st.part st.asid false ovl.toNat
    let old := match e with
      | some e =>
        if priorDone s (s.ctx c).sp.prior then
          (match sourceWords s st.core st.part st.asid e.src (e.granules * 256) with | .ok l => l | .error _ => [])
        else []
      | none => []
    plain c (.ovld ovl.toNat (selNum d) ((e.map (·.src)).getD 0) old)
  | .ovlq c d ovl => plain c (.ovlq ovl.toNat (selNum d))
  | .ginfo c d =>
    plain c (.results false [.s (selNum d) (match st.gang with
      | some g => BitVec.ofNat 64 (gangSize s st.launch g + g % 2 ^ 32 * 2 ^ 32)
      | none => 0)] none)
  | .leave c =>
    if st.gang = none then plain c (.results false [] none)
    else if noBarrier then some (c, inGang (s.ctx c) none 0, s.lineKeys, .results false [] none) else none
  | .join c a =>
    let g := (st.scalar a).toNat
    if st.gang = some g ∧ g < 2 ^ 32 then plain c (.results false [] none)
    else if g < 2 ^ 32 ∧ (st.gang = none ∨ noBarrier) ∧ gangsAfter s st g ≤ 1024 then
      some (c, inGang (s.ctx c) (some g) (gangOpen s st.launch g), s.lineKeys, .results false [] none)
    else none
  | .gbar c =>
    match st.gang with
    | none => plain c (.gbar none 0 [] false)
    | some g =>
      let x := s.ctx c
      if ∃ k ∈ gangKeys s st.launch g, k ≠ s.cur.1 ∧ gangArrived s k g (gangOpen s st.launch g) = false then
        some (c, { x with sp := { x.sp with gbars := x.sp.gbars + 1 } }, s.lineKeys, .gbar (some g) x.sp.gbars [] false)
      else none
  | .spawn c d a b => record c a fun r => .spawn (selNum d) r (st.scalar a).toNat (st.scalar b).toNat none
  | .msgsend c n d a b =>
    record c a fun r => .spawn (selNum d) r (st.scalar a).toNat 0
      (some ((st.scalar b).toNat, (List.range n.toNat).map fun j => st.sreg (8 + j)))
  | _ => none

/-- The strand's registers after a class 0 operation's own result; none where it may not complete yet. -/
def resultRule0 (s : State) (o : Op) (st : Strand) : Option Strand :=
  match o.kind with
  | .clock d v => some (st.applyL (.s d v))
  | .wintr seg =>
    let g := st.segreg seg
    some (if g.scratch || g.remote then st else { st with g := mapSet st.g seg { g with win := buildWindow s st g } })
  | .ovlq idx d => some (st.applyL (.s d (ovlqWord s st idx)))
  | .results false [.s d v] none => some (st.applyL (.s d v))
  | .results false [] none => some st
  | .gbar none _ [] false => if releaseReady s o 0 then some st else none
  | .spawn d r _ _ msg =>
    if releaseReady s o 4 ∧ spawnStatus s st r msg ≠ 0 then some (st.applyL (.s d (BitVec.ofNat 64 (spawnStatus s st r msg)))) else none
  | _ => none

/-! ## Class 1: operations on elements -/

/-- A w-bit pattern of an exact integer: clamped to the type where it saturates, else reduced modulo 2^w (R28, R29). -/
def intPattern (signed sat : Bool) (w : Nat) (v : Int) : Nat :=
  let lo : Int := if signed then -(2 ^ (w - 1) : Nat) else 0
  let hi : Int := if signed then (2 ^ (w - 1) : Nat) - 1 else (2 ^ w : Nat) - 1
  ((if sat then max lo (min hi v) else v) % (2 ^ w : Nat)).toNat

/-- An operation on elements in its lane or plane form: destination and sources of either form, issue cycles a pass, latency, whether the plane form completes later, the types, the rule for bounded planes, and the value of an element of a type from those of its sources. -/
structure ElemOp where
  c : Common
  plane : Bool
  ty : BitVec 4
  d : Sel
  srcs : List Sel
  pd : Nat
  psrcs : List PSrc
  issue : Nat
  lat : Nat
  later : Bool
  accepts : Nat → Bool
  rule : BoundRule
  f : Nat → List Nat → Res

/-- One source, then two, then three: type, rounding mode, saturation, source values. -/
def ofUn (c : Common) (u : Un) (issue lat : Nat) (later : Bool) (accepts : Nat → Bool) (rule : BoundRule)
    (f : Nat → Nat → Bool → Nat → Res) : ElemOp :=
  match u with
  | .lane ty r sat d a =>
    { c := c, plane := false, ty := ty, d := d, srcs := [a], pd := 0, psrcs := [], issue := issue, lat := lat, later := later,
      accepts := accepts, rule := rule, f := fun t v => f t r.toNat (sat = 1#1) (v.getD 0 0) }
  | .plane ty r sat pd pa =>
    { c := c, plane := true, ty := ty, d := .reg 0, srcs := [], pd := pd.toNat, psrcs := [.plane pa.toNat], issue := issue, lat := lat,
      later := later, accepts := accepts, rule := rule, f := fun t v => f t r.toNat (sat = 1#1) (v.getD 0 0) }
def ofBin (c : Common) (u : Bin) (one : Bool) (lat : Nat) (accepts : Nat → Bool) (rule : BoundRule)
    (f : Nat → Nat → Bool → Nat → Nat → Res) : ElemOp :=
  let g := fun (r : BitVec 2) (sat : BitVec 1) (t : Nat) (v : List Nat) => f t r.toNat (sat = 1#1) (v.getD 0 0) (v.getD 1 0)
  match u with
  | .lane ty r sat d a b =>
    { c := c, plane := false, ty := ty, d := d, srcs := if one then [a] else [a, b], pd := 0, psrcs := [], issue := 1, lat := lat,
      later := false, accepts := accepts, rule := rule, f := g r sat }
  | .plane ty r sat pd pa pb =>
    { c := c, plane := true, ty := ty, d := .reg 0, srcs := [], pd := pd.toNat,
      psrcs := if one then [.plane pa.toNat] else [.plane pa.toNat, .plane pb.toNat], issue := 1, lat := lat, later := false,
      accepts := accepts, rule := rule, f := g r sat }
  | .planeS ty r sat pd pa sb =>
    { c := c, plane := true, ty := ty, d := .reg 0, srcs := [], pd := pd.toNat, psrcs := [.plane pa.toNat, .scalar sb.toNat],
      issue := 1, lat := lat, later := false, accepts := accepts, rule := rule, f := g r sat }
def ofTern (c : Common) (u : Tern) (lat : Nat) (accepts : Nat → Bool) (f : Nat → Nat → Bool → Nat → Nat → Nat → Res) : ElemOp :=
  let g := fun (r : BitVec 2) (sat : BitVec 1) (t : Nat) (v : List Nat) => f t r.toNat (sat = 1#1) (v.getD 0 0) (v.getD 1 0) (v.getD 2 0)
  match u with
  | .lane ty r sat d a b m =>
    { c := c, plane := false, ty := ty, d := d, srcs := [a, b, m], pd := 0, psrcs := [], issue := 1, lat := lat, later := false,
      accepts := accepts, rule := .none, f := g r sat }
  | .plane ty r sat pd pa pb pc =>
    { c := c, plane := true, ty := ty, d := .reg 0, srcs := [], pd := pd.toNat,
      psrcs := [.plane pa.toNat, .plane pb.toNat, .plane pc.toNat], issue := 1, lat := lat, later := false, accepts := accepts,
      rule := .none, f := g r sat }

/-- An integer operation of Table 10-5: its exact value from the sources' integers. -/
def ofInt (c : Common) (u : Bin) (f : Bool → Nat → Int → Int → Int) : ElemOp :=
  ofBin c u false 2 intTypes .none fun t _ sat a b =>
    let sg := isSigned t
    let w := fmtWidth t
    (intPattern sg sat w (f sg w (intOf sg w a) (intOf sg w b)), 0)
/-- One on the patterns themselves, which never saturates. -/
def ofBits (c : Common) (u : Bin) (f : Nat → Nat → Nat → Nat) : ElemOp :=
  ofBin c u false 2 intTypes .none fun t _ _ a b => (f (fmtWidth t) a b % 2 ^ fmtWidth t, 0)

/-- The operations of Tables 10-3 and 10-5 with both forms. -/
def elemOp (i : Instr) : Option ElemOp :=
  let unit := fun (c : Common) (u : Un) (f : FUnit) => ofUn c u 4 8 true isFloat .none fun t r _ a => funit f t r a
  match i with
  | .fadd c x => some (ofBin c x false 4 isFloat .add fun t r _ a b => fAdd t r a b)
  | .fsub c x => some (ofBin c x false 4 isFloat .add fun t r _ a b => fSub t r a b)
  | .fmul c x => some (ofBin c x false 4 isFloat .mulScalar fun t r _ a b => fMul t r a b)
  | .fma c x => some (ofTern c x 4 isFloat fun t r _ a b m => fFma t r a b m)
  | .fmin c x => some (ofBin c x false 4 isFloat .none fun t _ _ a b => fMinMax false t a b)
  | .fmax c x => some (ofBin c x false 4 isFloat .none fun t _ _ a b => fMinMax true t a b)
  | .fsgn c op x => some (ofBin c x (op ≠ .copy) 4 isFloat .none fun t _ _ a b =>
      let sign := match op with
        | .abs => 0
        | .neg => 1 - a / 2 ^ (fmtWidth t - 1)
        | .copy => b / 2 ^ (fmtWidth t - 1)
      (sign * 2 ^ (fmtWidth t - 1) + (if (decodeF t a).isNaN then fpNaN t else a % 2 ^ (fmtWidth t - 1)), 0))
  | .frint c x => some (ofUn c x 1 4 false isFloat .none fun t r _ a => fRint t r a)
  | .frcp c x => some (unit c x .rcp)
  | .frsq c x => some (unit c x .rsq)
  | .fexp2 c x => some (unit c x .exp2)
  | .flog2 c x => some (unit c x .log2)
  | .fsqrt c x => some (ofUn c x 4 16 false isFloat .none fun t r _ a => funit .sqrt t r a)
  | .iadd c x => some (ofInt c x fun _ _ a b => a + b)
  | .isub c x => some (ofInt c x fun _ _ a b => a - b)
  | .imul c hi x => some (ofInt c x fun _ w a b => if hi = 1#1 then a * b / (2 ^ w : Nat) else a * b)
  | .imad c x => some (ofTern c x 2 intTypes fun t _ sat a b m =>
      let v := intOf (isSigned t) (fmtWidth t)
      (intPattern (isSigned t) sat (fmtWidth t) (v a * v b + v m), 0))
  | .imin c x => some (ofBin c x false 2 intTypes .none fun t _ _ a b =>
      (if intOf (isSigned t) (fmtWidth t) a ≤ intOf (isSigned t) (fmtWidth t) b then a else b, 0))
  | .imax c x => some (ofBin c x false 2 intTypes .none fun t _ _ a b =>
      (if intOf (isSigned t) (fmtWidth t) a ≤ intOf (isSigned t) (fmtWidth t) b then b else a, 0))
  | .iand c x => some (ofBits c x fun _ a b => a &&& b)
  | .ior c x => some (ofBits c x fun _ a b => a ||| b)
  | .ixor c x => some (ofBits c x fun _ a b => a ^^^ b)
  | .ishl c x => some (ofBits c x fun w a b => a * 2 ^ (b % w))
  | .ishr c x => some (ofBin c x false 2 intTypes .none fun t _ _ a b =>
      (intPattern (isSigned t) false (fmtWidth t) (intOf (isSigned t) (fmtWidth t) a / (2 ^ (b % fmtWidth t) : Nat)), 0))
  | .ibits c clz x => some (ofUn c x 1 2 false intTypes .none fun t _ _ a =>
      (if clz = 1#1 then leadZeros (fmtWidth t) a else popCount (fmtWidth t) a, 0))
  | .iaddi c d a imm =>
    some { c := c, plane := false, ty := 7, d := d, srcs := [a], pd := 0, psrcs := [], issue := 1, lat := 2, later := false, accepts := intTypes,
           rule := .none, f := fun _ v => (intPattern true false 32 (intOf true 32 (v.getD 0 0) + imm.toInt), 0) }
  | .fmuli c d a imm =>
    some { c := c, plane := false, ty := 1, d := d, srcs := [a], pd := 0, psrcs := [], issue := 1, lat := 4, later := false, accepts := isFloat,
           rule := .none, f := fun _ v => fMul 1 0 (v.getD 0 0) (imm.toNat * 16) }
  | .faddi c d a imm =>
    some { c := c, plane := false, ty := 1, d := d, srcs := [a], pd := 0, psrcs := [], issue := 1, lat := 4, later := false, accepts := isFloat,
           rule := .none, f := fun _ v => fAdd 1 0 (v.getD 0 0) (imm.toNat * 16) }
  | .move c (.plane ty r sat pd pa) => some (ofUn c (.plane ty r sat pd pa) 1 2 false exactTypes .copy fun _ _ _ a => (a, 0))
  | .fill c (.plane ty _ _ pd sa) =>
    some { c := c, plane := true, ty := ty, d := .reg 0, srcs := [], pd := pd.toNat, psrcs := [.scalar sa.toNat], issue := 1, lat := 2,
           later := false, accepts := exactTypes, rule := .none, f := fun _ v => (v.getD 0 0, 0) }
  | _ => none

/-! ## Lane forms -/

/-- A lane form's result: issue cycles a pass, latency, destination, lane sources, whether it reads them in every window lane, active or not, and the word and status of a lane. -/
structure LaneForm where
  c : Common
  n : Nat
  lat : Nat
  d : Sel
  srcs : List Sel
  every : Bool
  val : Nat → LWord × Status

/-- The window lane at distance `dist` before lane n along an axis, as the mode has it at the edge; none where it fills (R216). -/
def neighbour (win : Word) (axis : BitVec 1) (mode : NbrMode) (dist : Int) (n : Nat) : Option Nat :=
  let row : Int := n / winW win
  let col : Int := n % winW win
  let len : Int := if axis = 1#1 then winH win else winW win
  let v := (if axis = 1#1 then row else col) - dist
  let u : Option Int :=
    if 0 ≤ v ∧ v < len then some v
    else match mode with
      | .wrap => some (v % len)
      | .clamp => some (max 0 (min (len - 1) v))
      | _ => none
  u.map fun u => (if axis = 1#1 then u * winW win + col else row * winW win + u).toNat

/-- The result of a lane form, where its checks hold. -/
def laneRule (i : Instr) (s : State) (st : Strand) : Option LaneForm :=
  let whole := fun (c : Common) (d : Sel) (srcs : List Sel) (val : Nat → LWord) =>
    if st.laneOk d ∧ srcs.all st.laneOk then some { c := c, n := 1, lat := 2, d := d, srcs := srcs, every := false, val := fun n => (val n, 0) : LaneForm } else none
  let mask := fun (m : Sel) (n : Nat) => (st.mreg (selNum m)).getLsbD n
  match i with
  | .select c d a b m => whole c d [a, b] fun n => if mask m n then s.laneSrc st a n else s.laneSrc st b n
  | .move c (.lane _ _ _ d a) => whole c d [a] (s.laneSrc st a)
  | .fill c (.lane ty _ _ d a) =>
    if laneType ty.toNat then whole c d [] fun _ => (packFields (fmtWidth ty.toNat) fun _ => ((st.scalar a).toNat, 0)).1 else none
  | .mtov c ones d a => whole c d [] fun n => if mask a n then (if ones = 1#1 then 0xFFFFFFFF#32 else 1) else 0
  | .laneidx c which d =>
    whole c d [] fun n => BitVec.ofNat 32 (match which with
      | .whole => n
      | .row => n / winW st.window
      | .col => n % winW st.window)
  | .nbr c axis mode d a b dist =>
    (whole c d [a] fun n => match neighbour st.window axis mode dist.toInt n with
      | some m => s.laneSrc st a m
      | none => if mode = .const then (st.scalar b).setWidth 32 else 0).map fun r => { r with every := true }
  | .fclass c (.lane ty _ _ d a) =>
    if st.laneOk d ∧ st.laneOk a ∧ isFloat ty.toNat then
      some { c := c, n := 1, lat := 4, d := d, srcs := [a], every := false,
             val := fun n => packFields (fmtWidth ty.toNat) fun j => (fClass ty.toNat (laneField (fmtWidth ty.toNat) (s.laneSrc st a n) j), 0) }
    else none
  | .fcvt c part ts (.lane ty r sat d a) =>
    if st.laneOk d ∧ st.laneOk a ∧ laneType ty.toNat ∧ laneType ts.toNat ∧ partOk ty.toNat ts.toNat part.toNat then
      some { c := c, n := 1, lat := 4, d := d, srcs := if fmtWidth ty.toNat < fmtWidth ts.toNat then [a, d] else [a], every := false,
             val := fun n => fcvtWord ty.toNat ts.toNat r.toNat (sat = 1#1) part.toNat (s.laneSrc st a n) (s.laneSrc st d n) }
    else none
  | i =>
    match elemOp i with
    | none => none
    | some o =>
      let w := fmtWidth o.ty.toNat
      if !o.plane && st.laneOk o.d && o.srcs.all st.laneOk && laneType o.ty.toNat && o.accepts o.ty.toNat then
        some { c := o.c, n := o.issue, lat := o.lat, d := o.d, srcs := o.srcs, every := false,
               val := fun n => packFields w fun j => o.f o.ty.toNat (o.srcs.map fun a => laneField w (s.laneSrc st a n) j) }
      else none

/-! ## Masks -/

/-- A mask's result: latency, destination, lane sources, and the bit and status of a lane (R213, R215). -/
structure MaskOut where
  c : Common
  lat : Nat
  d : Sel
  srcs : List Sel
  bit : Nat → Bool × Status

def maskRule (i : Instr) (s : State) (x : Ctx) : Option MaskOut :=
  let st := x.st
  let b := fun (m : Sel) (n : Nat) => (st.mreg (selNum m)).getLsbD n
  let masks := fun (c : Common) (d : Sel) (f : Nat → Bool) => some { c := c, lat := 2, d := d, srcs := [], bit := fun n => (f n, 0) : MaskOut }
  let compare := fun (c : Common) (lat : Nat) (ty : BitVec 4) (part : BitVec 2) (accepts : Nat → Bool) (d u v : Sel) (f : Nat → Nat → Bool × Status) =>
    let w := fmtWidth ty.toNat
    if st.laneOk u ∧ st.laneOk v ∧ laneType ty.toNat ∧ accepts ty.toNat ∧ part.toNat * w < 32 then
      some { c := c, lat := lat, d := d, srcs := [u, v],
             bit := fun n => f (laneField w (s.laneSrc st u n) part.toNat) (laneField w (s.laneSrc st v n) part.toNat) : MaskOut }
    else none
  match i with
  | .mand c d u v => masks c d fun n => b u n && b v n
  | .mor c d u v => masks c d fun n => b u n || b v n
  | .mxor c d u v => masks c d fun n => xor (b u n) (b v n)
  | .mnot c d u => masks c d fun n => !b u n
  | .mlead c d u => masks c d fun n => b u n && (List.range n).all fun m => !(x.act.getLsbD m && b u m)
  | .mfrom c d a => if st.laneOk a then some { c := c, lat := 2, d := d, srcs := [a], bit := fun n => (s.laneSrc st a n ≠ 0, 0) } else none
  | .fcmp c cond ty part d u v => compare c 4 ty part isFloat d u v fun p q => fCond cond.toNat ty.toNat p q
  | .icmp c cond ty part d u v => compare c 2 ty part intTypes d u v fun p q =>
      (iCond cond.toNat (intOf (isSigned ty.toNat) (fmtWidth ty.toNat) p) (intOf (isSigned ty.toNat) (fmtWidth ty.toNat) q), 0)
  | _ => none

/-- What MRED, PDSET, PDGET and WINSET write, with issue cycles, latency and latch part; none where a check fails (R215, R221, R222). -/
def registerRule (i : Instr) (x : Ctx) : Option (Common × Nat × Nat × LUpd × List LUpd) :=
  match i with
  | .mred c op d a =>
    let on := x.act &&& x.st.mreg (selNum a)
    let v : Word := match op with
      | .any => if on = 0 then 0 else 1
      | .all => if on = x.act then 1 else 0
      | .count => BitVec.ofNat 64 ((List.range 16384).filter fun n => on.getLsbD n).length
      | .first => match (List.range 16384).find? fun n => on.getLsbD n with
        | some n => BitVec.ofNat 64 n
        | none => BitVec.allOnes 64
    some (c, winM x.st.window, 2, .s (selNum d) v, [.latS c.lat.toNat v])
  | .pdset c pd sa => some (c, 1, 1, .pd pd.toNat (x.st.sreg sa.toNat), [])
  | .pdget c bound sd pa =>
    some (c, 1, 1, .s sd.toNat (if bound = 1#1 then (x.st.pbreg pa.toNat).setWidth 64 else x.st.pdreg pa.toNat), [])
  | .winset c sa => if windowOk x.st.launchWin (x.st.sreg sa.toNat) then some (c, 1, 1, .window (x.st.sreg sa.toNat), []) else none
  | _ => none

/-! ## Plane forms -/

/-- A plane instruction's result: issue cycles, a fixed latency or none, whether it takes the movement network, destination and source descriptors, the value and status of an element, and the other registers it writes. -/
structure PlaneOut where
  c : Common
  len : Nat
  lat : Option Nat
  net : Bool
  pd : Nat
  srcs : List Nat
  val : Nat → Nat → Nat → Res
  more : List LUpd
  extra : Status

/-- The plane a descriptor register lays out. -/
def planeOf (st : Strand) (n : Nat) : Geo := Geo.of st.window (st.pdreg n)

/-- The bound of a bounded destination with elements `rs`: the new bound, +∞ beside one that is no finite number, where every lane that holds an element is active, else no less than the old (R46, R226). -/
def newBound (x : Ctx) (pd : Nat) (rs : List Nat) (β : LWord) : List LUpd :=
  let g := planeOf x.st pd
  let β := boundOver (exactOf g.ty) rs β
  if isBounded g.ty then [.pb pd (if g.full x.act then β else boundMax β (x.st.pbreg pd))] else []

/-- Two planes agree: folding where it matters, shape, depth (R60). -/
def agree (a g : Geo) : Bool := sameFold a g && sameShape a g && sameDepth a g

/-- A movement's checks and delivery: fixed where both planes have one slot and depth 1 (R71, R75). -/
def moveRule (x : Ctx) (c : Common) (ty : BitVec 4) (pd pa : BitVec 4) (accepts : Nat → Bool) (bounded : Bool) (shapes : Geo → Geo → Bool)
    (cost : Geo → Geo → Nat) (val : Geo → Geo → Nat → Nat → Nat → Res) (β : Geo → Geo → LWord) : Option PlaneOut :=
  let g := planeOf x.st pd.toNat
  let a := planeOf x.st pa.toNat
  let some_ := isBounded a.ty || isBounded g.ty
  if planeOk x.st (x.st.pdreg pd.toNat) && planeOk x.st (x.st.pdreg pa.toNat) && (isBounded g.ty || accepts g.ty) && (!some_ || (bounded && !x.st.isRoutine)) &&
      tyField ty g && g.ty = a.ty && sameDepth g a && shapes g a then
    some { c := c, len := 1, lat := if g.S = 1 && g.D = 1 && a.S = 1 && a.D = 1 then some (cost g a * winM x.st.window + 2) else none,
           net := true, pd := pd.toNat, srcs := [pa.toNat], val := val g a, more := newBound x pd.toNat (g.elems.map fun e => (val g a e.1 e.2.1 e.2.2).1) (β g a), extra := 0 }
  else none

/-- The result of a plane form, where the checks of R204 and of its description hold; QUANT apart. -/
def planeRule (i : Instr) (s : State) (x : Ctx) : Option PlaneOut :=
  let st := x.st
  let ok := fun (n : BitVec 4) => planeOk st (st.pdreg n.toNat)
  let geo := fun (n : BitVec 4) => planeOf st n.toNat
  let at_ := fun (n : BitVec 4) (d y z : Nat) => s.elem st st.window (planeOf st n.toNat) d y z
  let along := fun (axis : BitVec 1) (y z : Nat) => if axis = 1#1 then y else z
  let move := fun (axis : BitVec 1) (y z v : Nat) => if axis = 1#1 then (v, z) else (y, v)
  let len := fun (axis : BitVec 1) (a : Geo) => if axis = 1#1 then a.H else a.W
  let kept := fun (pa : BitVec 4) (_ _ : Geo) => st.pbreg pa.toNat
  let line := fun (axis : BitVec 1) (pa : BitVec 4) (a : Geo) (d y z : Nat) =>
    (List.range (len axis a)).map fun v => let p := move axis y z v; at_ pa d p.1 p.2
  let folds := fun (op : FoldOp) (t : Nat) => if op = .and || op = .or then intTypes t else isFloat t || intTypes t
  let addOnly := fun (op : FoldOp) (r : BitVec 2) (sat : BitVec 1) (t : Nat) => (r = 0#2 || (op = .add && isFloat t)) && (sat = 0#1 || (op = .add && isInt t))
  match i with
  | .shift c ty axis edge pd pa sc dist =>
    moveRule x c ty pd pa exactTypes true (fun g a => sameFold g a && sameShape g a)
      (fun _ a => shiftCost a (a.along axis) dist.toInt.natAbs)
      (fun _ a d y z =>
        let n : Int := len axis a
        let v := (along axis y z : Int) - dist.toInt
        let u := fun (v : Int) => let p := move axis y z v.toNat; at_ pa d p.1 p.2
        (if 0 ≤ v ∧ v < n then u v else match edge with
          | .zero => 0
          | .clamp => u (max 0 (min (n - 1) v))
          | .const => (st.sreg sc.toNat).toNat % 2 ^ a.b, 0))
      (kept pa)
  | .rotPlane c ty axis _ pd pa dist =>
    moveRule x c ty pd pa exactTypes true (fun g a => sameFold g a && sameShape g a)
      (fun _ a => shiftCost a (a.along axis) (dist.toInt % (len axis a : Int)).toNat +
        (if len axis a < (a.along axis).sw * (a.along axis).w then a.wd else 0))
      (fun _ a d y z => let p := move axis y z (((along axis y z : Int) - dist.toInt) % (len axis a : Int)).toNat; (at_ pa d p.1 p.2, 0))
      (kept pa)
  | .spread c ty axis pd pa =>
    moveRule x c ty pd pa exactTypes true
      (fun g a => sameFold g a && len axis a = 1 && (if axis = 1#1 then g.W = a.W else g.H = a.H))
      (fun g a => a.wd * ceilLog2 (a.along axis).w + g.wd)
      (fun _ _ d y z => let p := move axis y z 0; (at_ pa d p.1 p.2, 0)) (kept pa)
  | .refold c ty pd pa =>
    moveRule x c ty pd pa exactTypes true sameShape
      (fun g a => if g.fold = a.fold || a.S = 1 then a.wd else a.wd * (a.h + a.w + 1))
      (fun _ _ d y z => (at_ pa d y z, 0)) (kept pa)
  | .transp c ty pd pa =>
    moveRule x c ty pd pa exactTypes false (fun g a => sameFold g a && sameShape g a && a.H = a.W)
      (fun _ a => a.wd * (2 * (max a.h a.w - 1) + 1)) (fun _ _ d y z => (at_ pa d z y, 0)) (kept pa)
  | .fold c ty axis op r sat pd pa =>
    let run := fun (a : Geo) (d y z : Nat) => foldAll op.code.toNat (exactOf a.ty) r.toNat (sat = 1#1) (len axis a) (line axis pa a d y z) 0 []
    if !addOnly op r sat (exactOf (geo pd).ty) then none
    else
      moveRule x c ty pd pa (folds op) (op ≠ .and && op ≠ .or)
        (fun g a => sameFold g a && len axis g = 1 && (if axis = 1#1 then g.W = a.W else g.H = a.H))
        (fun g a => foldCost a (a.along axis) (len axis a) (len axis a) + g.wd)
        (fun _ a d y z => ((run a d y z).1, (run a d y z).2.1))
        (fun g a =>
          if op = .add then
            let sums := g.elems.flatMap fun e => (run a e.1 e.2.1 e.2.2).1 :: (run a e.1 e.2.1 e.2.2).2.2
            boundBits (boundSum [scaleBound (.num false (len axis a) 0) (boundVal (st.pbreg pa.toNat)),
              scaleBound (.num false (len axis a - 1) 0) (rhoOf (exactOf a.ty) sums)])
          else st.pbreg pa.toNat)
  | .scan c ty axis op r sat pd pa =>
    if !addOnly op r sat (exactOf (geo pd).ty) then none
    else
      moveRule x c ty pd pa (folds op) false (fun g a => sameFold g a && sameShape g a)
        (fun _ a => a.wd + (if isFloat a.ty then 4 else 2) * (len axis a - 1))
        (fun _ a d y z => (scanAll op.code.toNat a.ty r.toNat (sat = 1#1) (line axis pa a d y z) none).getD (along axis y z) (0, 0)) (kept pa)
  | .index c ty which pd sa =>
    let g := geo pd
    if ok pd && intTypes g.ty && tyField ty g then
      some { c := c, len := planeCycles x 1 [pd.toNat], lat := none, net := false, pd := pd.toNat, srcs := [],
             val := fun _ y z => ((match which with | .whole => y * g.W + z | .row => y | .col => z) + (st.sreg sa.toNat).toNat, 0),
             more := [], extra := 0 }
    else none
  | .accept c ty mode pd pa sb mc =>
    let g := geo pd
    let a := geo pa
    let θ := boundVal ((st.sreg sb.toNat).setWidth 32)
    let above := θ.isNaN || θ.lt (boundVal (st.pbreg pa.toNat))
    if ok pd && ok pa && isBounded a.ty && tyField ty g && g.ty = exactOf a.ty && agree a g && !(mode = .trap && above) then
      some { c := c, len := planeCycles x 1 [pd.toNat, pa.toNat], lat := none, net := false, pd := pd.toNat, srcs := [pa.toNat],
             val := fun d y z => (at_ pa d y z, 0),
             more := if mode = .mask then [.m mc.toNat x.act (if above then BitVec.allOnes 16384 else 0)] else [],
             extra := if mode = .flag && above then stBound else 0 }
    else none
  | .bound c ty pd pa sb =>
    let g := geo pd
    let a := geo pa
    let θ := boundVal ((st.sreg sb.toNat).setWidth 32)
    if !θ.isNaN && (!θ.neg || θ.isZero) && ok pd && ok pa && (a.ty = 1 || a.ty = 2 || isBounded a.ty) && tyField ty g && isBounded g.ty &&
        exactOf g.ty = exactOf a.ty && agree a g then
      some { c := c, len := planeCycles x 1 [pd.toNat, pa.toNat], lat := none, net := false, pd := pd.toNat, srcs := [pa.toNat],
             val := fun d y z => (at_ pa d y z, 0),
             more := newBound x pd.toNat (g.elems.map fun e => at_ pa e.1 e.2.1 e.2.2) (boundMax (if isBounded a.ty then st.pbreg pa.toNat else 0) (boundBits θ.absV)), extra := 0 }
    else none
  | .fclass c (.plane ty _ _ pd pa) =>
    let g := geo pd
    let a := geo pa
    if ok pd && ok pa && isFloat a.ty && tyField ty g && g.ty = (if a.ty = 1 then 10 else 9) && agree a g then
      some { c := c, len := planeCycles x 1 [pd.toNat, pa.toNat], lat := some 4, net := false, pd := pd.toNat, srcs := [pa.toNat],
             val := fun d y z => (fClass a.ty (at_ pa d y z), 0), more := [], extra := 0 }
    else none
  | .fcvt c _ _ (.plane ty r sat pd pa) =>
    let g := geo pd
    let a := geo pa
    if ok pd && ok pa && (sat = 0#1 || (isInt g.ty && isInt a.ty)) && !isBounded a.ty && !isBounded g.ty && tyField ty g && agree a g then
      some { c := c, len := planeCycles x 1 [pd.toNat, pa.toNat], lat := some 4, net := false, pd := pd.toNat, srcs := [pa.toNat],
             val := fun d y z => convertElem a.ty g.ty r.toNat (sat = 1#1) (at_ pa d y z), more := [], extra := 0 }
    else none
  | i =>
    match elemOp i with
    | none => none
    | some o =>
      let g := planeOf st o.pd
      let ps := PSrc.planes o.psrcs
      let gs := ps.map (planeOf st)
      let val := fun (d y z : Nat) => o.f (exactOf g.ty) (o.psrcs.map fun a => match a with
        | .plane n => s.elem st st.window (planeOf st n) d y z
        | .scalar n => (st.sreg n).toNat % 2 ^ g.b)
      if o.plane && planeOk st (st.pdreg o.pd) && ps.all (fun n => planeOk st (st.pdreg n)) &&
          (g :: gs).all (fun a => isBounded a.ty || o.accepts a.ty) && o.rule.ok (ps.length < o.psrcs.length) g gs &&
          !(st.isRoutine && (g :: gs).any fun a => isBounded a.ty) && tyField o.ty g && o.rule.types g gs && gs.all (fun a => agree a g) then
        some { c := o.c, len := planeCycles x o.issue (o.pd :: ps), lat := if o.later then none else some o.lat, net := false, pd := o.pd, srcs := ps,
               val := val,
               more := newBound x o.pd [] (o.rule.bound (exactOf g.ty) (ps.map fun n => if isBounded (planeOf st n).ty then boundVal (st.pbreg n) else .num false 0 0)
                 (match o.psrcs with | [_, .scalar n] => (st.sreg n).toNat % 2 ^ g.b | _ => 0)
                 (g.elems.map fun e => (val e.1 e.2.1 e.2.2).1)),
               extra := 0 }
      else none

/-- The list of lane-file writes is that of a plane's new elements: each element of an active lane at the word and field its placement gives it, each padding slot some value, and no bit but theirs (R56 to R59, R62). -/
def WritesPlane (st : Strand) (g : Geo) (act : Lanes) (val : Nat → Nat → Nat → Nat) (ws : List LUpd) : Prop :=
  let e := 32 / g.b
  let key := fun (n d k : Nat) => laneAtIn st.core st.window n (g.base + d * g.stride + k)
  (∀ d y z, d < g.D → y < g.H → z < g.W →
    let n := (g.place y z).1
    let p := (g.place y z).2
    act.getLsbD n = true →
      ∃ on v, LUpd.lane (key n d (p / e)) on v ∈ ws ∧
        ∀ j < g.b, on.getLsbD (g.b * (p % e) + j) = true ∧ v.getLsbD (g.b * (p % e) + j) = (val d y z).testBit j) ∧
  ∀ u ∈ ws, ∃ n d k on v, u = LUpd.lane (key n d k) on v ∧ n < winLanes st.window ∧ d < g.D ∧ k < g.wd ∧
    ∀ j < 32, on.getLsbD j = true →
      let p := k * e + j / g.b
      p < g.S ∧
      ((∃ y z, y < g.H ∧ z < g.W ∧ g.place y z = (n, p) ∧ act.getLsbD n = true ∧ v.getLsbD j = (val d y z).testBit (j % g.b)) ∨
       ∀ y z, y < g.H → z < g.W → g.place y z ≠ (n, p))

/-- The lane-file words a plane form reads: those of its sources that hold an element, and those of its destination that it writes in part; none of them is uncorrectable (R59, R228, R319). -/
def ReadsClean (s : State) (st : Strand) (act : Lanes) (srcs dsts : List Geo) : Prop :=
  ∀ k ∈ srcs.flatMap (Geo.reads st.core st.window) ++ dsts.flatMap (fun g => g.kept st.core st.window act), k ∉ s.lanesBad

/-- No movement of variable latency is outstanding on a core (R75). -/
def NetFree (s : State) (core : Nat) : Prop := s.netUntil core ≤ s.now + 2 ∧ ∀ o ∈ s.ops, (s.strand o.owner).core = core → ∀ ups g, o.kind ≠ .results true ups g

/-- What an operation keeps of its sources: the instruction, its strand, the seed of its free choices, and each source word as read at issue and as the early results left it (R207). -/
def held (i : Instr) (x : Ctx) (s t : State) (src : List Nat) : Again where
  i := i
  st := x.st
  seed := s.fresh
  src := src.map fun k => (k, s.laneWord x.st k, t.laneWord x.st k)

/-- Results written at once: lane words by the machine, the rest in the strand's own record. -/
def delivered (s : State) (k : Nat) (ups : List LUpd) : State := ups.foldl (fun t u => t.applyL k u) s

end Sys2Proof.Claims

open Sys2Proof Sys2Proof.Machine Sys2Proof.Claims

/-- R179, Tables 9-1 to 9-4: a scalar word, DIV and REM among them, delivers its value to its register one cycle after its issue, and to the scalar part of its latch; nothing else of the machine changes. -/
def Obligations.ScalarResult : Prop :=
  ∀ (i : Instr) (c : Common) (s : State) (len : Nat) (d : Sel) (v : Word),
    scalarRule i s (s.strand s.cur.1) = some (c, len, d, v) → Acts s c →
    exec i s = .next (withStrand s (s.ctx c).k
      (afterFixed (s.ctx c) s.now len 1 [.s (selNum d) v] [.latS c.lat.toNat v] 0))

/-- R86, R185 to R188, R192, R195: what NOP, YIELD, the branches, LOOP, CALL, RET, CALLO and the pins leave: the registers they write, where the split goes on, the residents once keys have fallen, and nothing else. Rests on choices of the model: logs 91, 98, 103, 107. -/
def Obligations.ControlTransfers : Prop :=
  ∀ (i : Instr) (c : Common) (s : State) (st' : Strand) (q : Split) (ov : List Overlay),
    controlRule i s (s.strand s.cur.1) ((s.strand s.cur.1).splitOf s.cur.2) = some (c, st', q, ov) → Acts s c →
    exec i s = .next { s with strands := mapSet s.strands s.cur.1 (wordDone s.now st' q), overlays := ov }

/-- R95, R189: SPLIT with at most four splits after it. Every lane of the split is in exactly one of the new ones, the one of its group, which stands at its group's target with the SPLIT's address added to the origin; the other splits and all else stand. Rests on choices of the model: logs 19, 76. -/
def Obligations.SplitDivides : Prop :=
  ∀ (c : Common) (ma mb : BitVec 3) (t0 t1 t2 t3 : BitVec 9) (s : State),
    Acts s c →
    let x := s.ctx c
    let groups := liveGroups x.sp.mask x.act (x.st.mreg ma.toNat) (x.st.mreg mb.toNat)
    numbered x.st.splits → x.sp ∈ x.st.splits → x.st.splits.length - 1 + groups.length ≤ 4 →
    (∀ y ∈ x.st.splits, y.num ≠ x.sp.num → y.origin = x.sp.origin → ∀ o w, y.run ≠ .merge o w) →
    ∃ l : List Split,
      exec (.split c ma mb t0 t1 t2 t3) s =
        .next (withStrand s s.cur.1 { x.st with splits := l, lastEnd := s.now, lastIssue := s.now }) ∧
      numbered l ∧ l.length = x.st.splits.length - 1 + groups.length ∧
      (∀ y ∈ x.st.splits, y.num ≠ x.sp.num → y ∈ l) ∧
      ∀ n < 16384, x.sp.mask.getLsbD n = true →
        ∃ q ∈ l, q.mask.getLsbD n = true ∧ (∀ y ∈ x.st.splits, y.num ≠ x.sp.num → y ≠ q) ∧
          (∀ m < 16384, q.mask.getLsbD m = true ↔ x.sp.mask.getLsbD m = true ∧
            laneGroup x.act (x.st.mreg ma.toNat) (x.st.mreg mb.toNat) m = laneGroup x.act (x.st.mreg ma.toNat) (x.st.mreg mb.toNat) n) ∧
          q.pc = [splitTarget x.sp.pc t0, splitTarget x.sp.pc t1, splitTarget x.sp.pc t2, splitTarget x.sp.pc t3, x.sp.pc + 1].getD
            (laneGroup x.act (x.st.mreg ma.toNat) (x.st.mreg mb.toNat) n) 0 ∧
          q.ovl = x.sp.ovl ∧ q.clause = none ∧ q.run = x.sp.run ∧ q.origin = x.sp.origin ++ [x.sp.ovl * 32768 + x.sp.pc] ∧
          q.prior = x.sp.prior ∧ q.dep = x.sp.dep

/-- R97, R190: MERGE of a split with a sibling that does not wait at its address waits there; with an empty origin it does nothing. The last of two siblings to reach a MERGE unites them: one split of the lower number with the lanes of both, at the instruction after the MERGE, after all that came before either; two that wait at one MERGE unite as soon as their last other sibling ends. Nothing else changes. Rests on choices of the model: logs 76, 86. -/
def Obligations.Merges : Prop :=
  (∀ (c : Common) (s : State), Acts s c →
    let x := s.ctx c
    (x.sp.origin = [] → exec (.merge c) s = .next (withStrand s s.cur.1 (wordDone s.now x.st x.sp.past))) ∧
    (x.sp.origin ≠ [] →
      (∃ y ∈ x.st.splits, y.num ≠ x.sp.num ∧ y.origin = x.sp.origin ∧ y.run ≠ .merge x.sp.ovl x.sp.pc) →
      exec (.merge c) s = .next (withStrand s s.cur.1 (wordDone s.now x.st { x.sp with run := .merge x.sp.ovl x.sp.pc, replay := none })))) ∧
  (∀ (c : Common) (s : State) (y : Split), Acts s c →
    let x := s.ctx c
    x.st.splits = (if y.num < x.sp.num then [y, x.sp] else [x.sp, y]) → y.num ≠ x.sp.num →
    x.sp.origin ≠ [] → y.origin = x.sp.origin → y.run = .merge x.sp.ovl x.sp.pc →
    ∃ one : Split,
      exec (.merge c) s = .next (withStrand s s.cur.1 { x.st with splits := [one], lastEnd := s.now, lastIssue := s.now }) ∧
      one.num = min y.num x.sp.num ∧ one.mask = y.mask ||| x.sp.mask ∧ one.origin = x.sp.origin.dropLast ∧ one.run = .ready ∧
      one.clause = none ∧ one.lastIssue = max y.lastIssue s.now ∧ one.pc = x.sp.pc + 1 ∧ one.ovl = (if y.num < x.sp.num then y else x.sp).ovl ∧
      (∀ i, i ∈ one.prior ↔ i ∈ y.prior ∨ i ∈ x.sp.prior) ∧ (∀ w, w ∈ one.dep ↔ w ∈ y.dep ∨ w ∈ x.sp.dep)) ∧
  ∀ (c : Common) (s : State) (a b : Split) (o w : Nat), Acts s c →
    let x := s.ctx c
    x.st.gang = none → x.st.splits.length = 3 → x.st.splits.filter (fun y => y.num ≠ x.sp.num) = [a, b] → a.num < b.num →
    a.origin = x.sp.origin → b.origin = x.sp.origin → a.run = .merge o w → b.run = .merge o w →
    ∃ one : Split,
      exec (.exit c) s = .next (withStrand s s.cur.1 { x.st with splits := [one], lastEnd := s.now, lastIssue := s.now }) ∧
      one.num = a.num ∧ one.mask = a.mask ||| b.mask ∧ one.origin = x.sp.origin.dropLast ∧ one.run = .ready ∧ one.clause = none ∧
      one.ovl = a.ovl ∧ one.pc = w + 1

/-- R191: EXIT of one of several splits ends that split alone; EXIT of the last, with every flag zero and nothing outstanding, retires the strand and counts it in its launch. Rests on choices of the model: log 76. -/
def Obligations.ExitEnds : Prop :=
  ∀ (c : Common) (s : State), Acts s c →
    let x := s.ctx c
    x.st.gang = none →
    (1 < x.st.splits.length → (∀ y ∈ x.st.splits, y.num ≠ x.sp.num → y.origin = x.sp.origin → ∀ o w, y.run ≠ .merge o w) →
      exec (.exit c) s = .next (withStrand s s.cur.1
        { x.st with lastEnd := s.now, lastIssue := s.now, splits := x.st.splits.filter fun y => y.num ≠ x.sp.num })) ∧
    (∀ l : Launch, x.st.splits = [x.sp] → (∀ f < 12, x.st.flag f = 0) → Retires s s.cur.1 x.st l →
      exec (.exit c) s = .next (retired s s.cur.1 x.st l))

/-- R183, R184, R193 to R200: a class 0 word of variable latency makes its operation outstanding, with what it has read, and does nothing else. Rests on choices of the model: log 6. -/
def Obligations.ScalarIssues : Prop :=
  ∀ (i : Instr) (c : Common) (s : State) (x : Ctx) (noted : Map Nat) (kind : OpKind),
    issueRule0 i s (s.strand s.cur.1) = some (c, x, noted, kind) → Acts s c →
    exec i s = .next { issued x s 1 none kind with lineKeys := noted }

/-- R75, R91, R183, R184, R194, R196 to R200, R207: SCALAR_INSTRUCTION_COMPLETE writes an operation's result and ends it; PLANE_COMPLETE writes what its operation holds and ends it, computed anew where a source word has been written since issue. Nothing else changes. Rests on choices of the model: logs 14, 63. -/
def Obligations.HeldResultsWritten : Prop :=
  (∀ (s : State) (o : Op) (st st' : Strand),
    Outstanding s o st → o.tl = none → Unlogged s st.launch → resultRule0 s o st = some st' →
    exec (.scalarInstructionComplete o.id) s = .next (ended s st' o [])) ∧
  ∀ (s : State) (o : Op) (st : Strand) (net : Bool) (ups : List LUpd) (again : Option Again),
    Outstanding s o st → o.tl = none → o.kind = .results net ups again → (net = true → networkBusy s o = false) →
    let t := match again with
      | none => delivered s o.owner ups
      | some g => delivered { s with fresh := s.fresh + 1 } o.owner (if g.src.all fun e => s.laneWord g.st e.1 = e.2.2 then ups else resultsOf s o ups g)
    exec (.planeComplete o.id) s = .next (ended t (t.strand o.owner) o [])

/-- R201, R203, R208 to R217: a lane form gives each active lane's register word, and its latch part, the value its table states, after its latency, where no word that the form reads is uncorrectable: NBR reads those of every window lane (R216), the others those of active lanes; the other lanes, registers, memory and all else stand. Rests on choices of the model: logs 6, 63, 65, 79, 80. -/
def Obligations.LaneResult : Prop :=
  ∀ (i : Instr) (s : State) (r : LaneForm),
    laneRule i s (s.strand s.cur.1) = some r → Acts s r.c →
    let x := s.ctx r.c
    let all := List.range (winLanes x.st.window)
    let ns := all.filter fun n => x.act.getLsbD n
    (∀ k ∈ laneKeys x.st (if r.every then all else ns) r.srcs, k ∉ s.lanesBad) →
    exec i s = .next (withStrand s s.cur.1
      (afterFixed x s.now (r.n * winM x.st.window) r.lat
        (ns.map fun n => .lane (x.st.laneAt n (selNum r.d)) 0xFFFFFFFF#32 (r.val n).1)
        (ns.map fun n => .latL r.c.lat.toNat n (r.val n).1)
        (ns.foldl (fun a n => a ||| (r.val n).2) 0)))

/-- R162, R213, R215: a comparison, of any condition code and type, or a mask instruction writes the bits of the active lanes of its mask register, after its latency; nothing else. -/
def Obligations.MaskResult : Prop :=
  ∀ (i : Instr) (c : Common) (s : State) (r : MaskOut),
    i.common? = some c → maskRule i s (s.ctx c) = some r → Acts s c →
    let x := s.ctx c
    let ns := (List.range (winLanes x.st.window)).filter fun n => x.act.getLsbD n
    (∀ k ∈ laneKeys x.st ns r.srcs, k ∉ s.lanesBad) →
    ∃ v : Lanes,
      exec i s = .next (withStrand s s.cur.1
        (afterFixed x s.now (winM x.st.window) r.lat [.m (selNum r.d) x.act v] []
          (ns.foldl (fun a n => a ||| (r.bit n).2) 0))) ∧
      ∀ n < winLanes x.st.window, x.act.getLsbD n = true → v.getLsbD n = (r.bit n).1

/-- R30, R215, R221, R222: MRED, PDSET, PDGET and WINSET write one register after their latency; MOV.setst writes the status register at once, its flag falling a cycle later; nothing else. Rests on choices of the model: log 81. -/
def Obligations.RegisterResult : Prop :=
  (∀ (c : Common) (a : Sel) (s : State), Acts s c →
    exec (.movSetst c a) s = .next (withStrand s s.cur.1
      { afterFixed (s.ctx c) s.now 1 1 [] [] 0 with status := ((s.ctx c).st.scalar a).setWidth 7 })) ∧
  ∀ (i : Instr) (c : Common) (s : State) (len lat : Nat) (u : LUpd) (lats : List LUpd),
    registerRule i (s.ctx c) = some (c, len, lat, u, lats) → Acts s c →
    exec i s = .next (withStrand s s.cur.1 (afterFixed (s.ctx c) s.now len lat [u] lats 0))

/-- R61 to R71, R75, R204 to R214, R218, R219: a plane form of fixed latency gives every element of an active lane the value its table states, at the place its descriptor gives the element; padding is unspecified, and nothing else changes. Rests on choices of the model: logs 6, 27, 63, 65, 79, 84, 85. -/
def Obligations.PlaneResult : Prop :=
  ∀ (i : Instr) (c : Common) (s : State) (r : PlaneOut) (lat : Nat),
    i.common? = some c → planeRule i s (s.ctx c) = some r → r.lat = some lat → Acts s c →
    let x := s.ctx c
    let g := planeOf x.st r.pd
    ReadsClean s x.st x.act (r.srcs.map (planeOf x.st)) [g] → (r.net = true → NetFree s x.st.core) →
    ∃ ws : List LUpd,
      exec i s = .next { withStrand s s.cur.1
        { afterFixed x s.now r.len lat (ws ++ r.more) [] ((planeStatus g x.act fun d y z => (r.val d y z).2) ||| r.extra) with
          moves := if r.net then s.now + lat else x.st.moves } with fresh := s.fresh + 1 } ∧
      WritesPlane x.st g x.act (fun d y z => (r.val d y z).1) ws

/-- R75, R76, R205, R218 to R220, R224, R225: a plane form that completes later is outstanding with the elements, registers and status it will write; some of those elements stand in their words before that, and nothing else changes. It keeps what its sources read at issue, for those that others write in the meantime (R207). Rests on choices of the model: logs 6, 14, 27, 65, 82, 84, 85. -/
def Obligations.PlaneIssues : Prop :=
  ∀ (i : Instr) (c : Common) (s : State) (r : PlaneOut),
    i.common? = some c → planeRule i s (s.ctx c) = some r → r.lat = none → Acts s c →
    let x := s.ctx c
    let g := planeOf x.st r.pd
    let status := (planeStatus g x.act fun d y z => (r.val d y z).2) ||| r.extra
    let src := (r.srcs.map (planeOf x.st)).flatMap (Geo.reads x.st.core x.st.window)
    ReadsClean s x.st x.act (r.srcs.map (planeOf x.st)) [g] →
    ∃ early late : List LUpd,
      let t := delivered s s.cur.1 early
      exec i s = .next { issued x s r.len none (.results r.net (late ++ r.more ++ (if status = 0 then [] else [.status status])) (some (held i x s t src))) with
        lanes := t.lanes, lanesBad := t.lanesBad, fresh := s.fresh + 1 } ∧
      WritesPlane x.st g x.act (fun d y z => (r.val d y z).1) (early ++ late)

/-- R38, R223: QUANT is outstanding with the codes of its elements, the scales of its blocks, the count of elements clipped from infinities, and the status bits; some of its results stand in their words before it completes. Rests on choices of the model: logs 6, 14, 26, 84, 108. -/
def Obligations.QuantIssues : Prop :=
  ∀ (c : Common) (ty : BitVec 4) (bl : BlockLen) (pd pa pb sc : BitVec 4) (s : State),
    Acts s c →
    let x := s.ctx c
    let g := planeOf x.st pd.toNat
    let a := planeOf x.st pa.toNat
    let b := planeOf x.st pb.toNat
    let n := match bl with | .l16 => 16 | .l32 => 32 | .l64 => 64
    let block := fun (d y q : Nat) => (List.range n).map fun j => decodeF a.ty (s.elem x.st x.st.window a d y (q * n + j))
    let elem := fun (d y z : Nat) => quantElem (block d y (z / n)) (z % n)
    planeOk x.st (x.st.pdreg pd.toNat) = true → planeOk x.st (x.st.pdreg pa.toNat) = true → planeOk x.st (x.st.pdreg pb.toNat) = true →
    isFloat a.ty = true → g.ty = 4 → b.ty = 8 → tyField ty g = true → a.W % n = 0 → b.W * n = a.W → b.H = a.H → sameShape g a = true →
    sameFold a g = true → sameFold b a = true → sameDepth g a = true → sameDepth b a = true →
    ReadsClean s x.st x.act [a] [g, b] →
    ∃ early late early' late' : List LUpd,
      let t := delivered s s.cur.1 (early ++ early')
      let status := planeStatus g x.act fun d y z => (elem d y z).2.2
      exec (.quant c ty bl pd pa pb sc) s = .next { issued x s (planeCycles x 1 [pd.toNat, pa.toNat, pb.toNat]) none
          (.results false (late ++ late' ++ [.s sc.toNat (BitVec.ofNat 64
            (g.elems.filter fun e => x.act.getLsbD (g.place e.2.1 e.2.2).1 && (elem e.1 e.2.1 e.2.2).2.1).length)] ++
            (if status = 0 then [] else [.status status])) (some (held (.quant c ty bl pd pa pb sc) x s t (a.reads x.st.core x.st.window)))) with
        lanes := t.lanes, lanesBad := t.lanesBad, fresh := s.fresh + 2 } ∧
      WritesPlane x.st g x.act (fun d y z => (elem d y z).1) (early ++ late) ∧
      WritesPlane x.st b x.act (fun d y q => (quantBlock (block d y q)).1) (early' ++ late')

namespace Sys2Proof.Claims

/-! ## Class 2: words that reach memory -/

/-- No FENCE before the split's word in program order is outstanding, so a memory or engine word issues (R245, R277). -/
def Unfenced (s : State) (sp : Split) : Prop := ∀ o ∈ s.ops, o.id ∈ sp.prior → ∀ kind scope, o.kind ≠ .fence kind scope

/-- What an access-forming word asks for: issue cycles, segment, element size and type, the access kind, its element accesses, the lane-file words it reads, a check on the requests formed, and the operation made of them. -/
structure AccessOut where
  c : Common
  len : Nat
  seg : Nat
  size : Nat
  ty : Nat
  kind : AccKind
  accs : List Acc
  reads : List Nat
  ok : List LaneReq → Bool
  op : List LaneReq → OpKind

/-- The lanes of the window that are active. -/
def activeOf (x : Ctx) : List Nat := (List.range (winLanes x.st.window)).filter fun n => x.act.getLsbD n

/-- A memory operation before any lane has performed. -/
def memoryOp (kind : MemKind) (ty : Nat) (scalar plane acq rel : Bool) (scope : Nat) (rs : List LaneReq) : OpKind :=
  .mem { kind := kind, ty := ty, scalar := scalar, plane := plane, status := 0, pinned := rs.any (fun r => r.remote.isSome),
         gate := rs.any (fun r => r.cls = 1), fails := [], acq := acq, rel := rel, scope := scope, reqs := rs }

/-- A register numbered at most n. -/
def regUpTo (x : Sel) (n : Nat) : Bool := match x with | .reg r => r.toNat ≤ n | _ => false

/-- The accesses of a class 2 word that forms addresses; none where a check of its description fails. -/
def accessRule (i : Instr) (s : State) (x : Ctx) : Option AccessOut :=
  let st := x.st
  let lanes := activeOf x
  let laneForm := fun (c : Common) (a : MemArgs) (kind : AccKind) (data data2 : Nat → Word) (srcs : List Sel) (op : List LaneReq → OpKind) =>
    if 1 ≤ a.ty.toNat ∧ a.ty.toNat ≤ 10 ∧ st.laneOk a.d ∧ st.laneOk a.x then
      some { c := c, len := 1, seg := a.seg.toNat, size := fmtBytes a.ty.toNat, ty := a.ty.toNat, kind := kind,
             accs := lanes.map fun n =>
               { lane := n, off := (s.laneSrc st a.x n).toInt + a.disp.toInt * fmtBytes a.ty.toNat,
                 dst := st.laneAt n (selNum a.d), sh := 0, data := data n, data2 := data2 n },
             reads := laneKeys st lanes (a.x :: srcs), ok := fun _ => true, op := op : AccessOut }
    else none
  let scalarForm := fun (c : Common) (a : MemArgs) (plain : Bool) (acc : Nat) (data data2 : Word) (op : List LaneReq → OpKind) =>
    if 1 ≤ a.ty.toNat ∧ a.ty.toNat ≤ 12 then
      some { c := c, len := 1, seg := a.seg.toNat, size := fmtBytes a.ty.toNat, ty := a.ty.toNat,
             kind := { acc := acc, scalar := true, ldx := false, qst := false, plain := plain },
             accs := [{ lane := lowestLane x.act, off := (st.scalar a.x).toInt + a.disp.toInt * fmtBytes a.ty.toNat, dst := selNum a.d, sh := 0,
                        data := data, data2 := data2 }],
             reads := [], ok := fun _ => true, op := op : AccessOut }
    else none
  let lane := fun (a : Nat) => ({ acc := a, scalar := false, ldx := false, qst := false } : AccKind)
  let value := fun (r : Sel) (n : Nat) => (s.laneSrc st r n).setWidth 64
  let next := fun (r : Sel) => match r with | .reg n => Sel.reg (n + 1) | r => r
  let plane := fun (c : Common) (a : PlaneMemArgs) (store : Bool) =>
    let g := planeOf st a.pd.toNat
    let pitch := st.scalar (next a.x)
    let slots := lanes.flatMap fun n => (List.range g.D).flatMap fun d => (List.range g.S).map fun p => (n, d, p)
    if regUpTo a.x 30 ∧ planeOk st (st.pdreg a.pd.toNat) ∧
        isBounded g.ty = false ∧ a.ty.toNat = g.ty then
      some { c := c, len := planeCycles x 1 [a.pd.toNat], seg := a.seg.toNat, size := g.b / 8, ty := a.ty.toNat, kind := { lane (if store then 1 else 0) with plane := true },
             accs := (slots.filter fun e => (g.elemAt e.1 e.2.2).1 < g.H && (g.elemAt e.1 e.2.2).2 < g.W).map fun e =>
               let key := laneAtIn st.core st.window e.1 (g.base + e.2.1 * g.stride + e.2.2 / (32 / g.b))
               let yz := g.elemAt e.1 e.2.2
               { lane := e.1,
                 off := (st.scalar a.x).toInt + a.disp.toInt * (g.b / 8 : Nat) +
                   ((e.2.1 * (pitch.toNat / 2 ^ 32) + yz.1 * (pitch.toNat % 2 ^ 32) + yz.2 * (g.b / 8) : Nat) : Int),
                 dst := key, sh := e.2.2 % (32 / g.b),
                 data := if store then BitVec.ofNat 64 (laneField g.b (s.laneWord st key) (e.2.2 % (32 / g.b))) else 0, data2 := 0 },
             reads := if store then g.readsIn st.core st.window x.act else [], ok := fun _ => true,
             op := memoryOp (if store then .store else .load) a.ty.toNat false true false false 0 : AccessOut }
    else none
  let args := fun (a : AtomArgs) => ({ ty := a.ty, d := a.d, seg := a.seg, x := a.x, disp := a.disp.signExtend 16 } : MemArgs)
  let pair := fun (a : AtomArgs) (limit : Nat) => a.op ≠ .cas ∨ regUpTo a.d limit
  let allowed := fun (a : AtomArgs) (red : Bool) =>
    (a.ty.toNat ≠ 2 ∧ a.ty.toNat ≠ 3 ∧ a.ty.toNat ≠ 4) ∧ ((a.op = .and ∨ a.op = .or ∨ a.op = .xor) → isInt a.ty.toNat) ∧
      (red = true → a.op ≠ .exch ∧ a.op ≠ .cas)
  let atomOp := fun (a : AtomArgs) (red scalar : Bool) =>
    memoryOp (if red then .red a.op.code.toNat else .atom a.op.code.toNat) a.ty.toNat scalar false (a.ord = 1#1 && !red) (a.ord = 1#1) a.scope.code.toNat
  let atomLane := fun (c : Common) (a : AtomArgs) (red : Bool) =>
    if allowed a red ∧ pair a 62 ∧ lanesOverlap s x (args a) = false ∧ (a.op = .cas → st.laneOk (next a.d)) then
      laneForm c (args a) (lane 2) (value a.d) (fun n => if a.op = .cas then value (next a.d) n else 0)
        (if a.op = .cas then [a.d, next a.d] else [a.d]) (atomOp a red false)
    else none
  let atomScalar := fun (c : Common) (a : AtomArgs) (red : Bool) =>
    if allowed a red ∧ pair a 30 then
      scalarForm c (args a) false 2 (st.scalar a.d) (if a.op = .cas then st.scalar (next a.d) else 0) (atomOp a red true)
    else none
  let word := fun (off : Int) => ({ lane := lowestLane x.act, off := off, dst := 0, sh := 0, data := 0, data2 := 0 } : Acc)
  let watch := fun (c : Common) (seg : BitVec 4) (offs : List Int) (ok : List LaneReq → Bool) (op : List LaneReq → OpKind) =>
    some { c := c, len := 1, seg := seg.toNat, size := 4, ty := 10, kind := { acc := 0, scalar := true, ldx := false, qst := false },
           accs := offs.map word, reads := [], ok := ok, op := op : AccessOut }
  match i with
  | .ld c a => laneForm c a (lane 0) (fun _ => 0) (fun _ => 0) [] (memoryOp .load a.ty.toNat false false false false 0)
  | .st c a => laneForm c a (lane 1) (value a.d) (fun _ => 0) [a.d] (memoryOp .store a.ty.toNat false false false false 0)
  | .lds c a => scalarForm c a true 0 0 0 (memoryOp .load a.ty.toNat true false false false 0)
  | .sts c a => scalarForm c a true 1 (st.scalar a.d) 0 (memoryOp .store a.ty.toNat true false false false 0)
  | .ldacq c sc a => scalarForm c a false 0 0 0 (memoryOp .load a.ty.toNat true false true false sc.code.toNat)
  | .strel c sc a => scalarForm c a false 1 (st.scalar a.d) 0 (memoryOp .store a.ty.toNat true false false true sc.code.toNat)
  | .ldx c a =>
    if regUpTo a.d 62 ∧ st.laneOk (next a.d) then
      laneForm c a { acc := 0, scalar := false, ldx := true, qst := false } (fun _ => 0)
        (fun n => BitVec.ofNat 64 (st.laneAt n (selNum a.d + 1))) [] (memoryOp .ldx a.ty.toNat false false false false 0)
    else none
  | .ldp c a => plane c a false
  | .stp c a => plane c a true
  | .atom c a => atomLane c a false
  | .red c a => atomLane c a true
  | .atoms c a => atomScalar c a false
  | .reds c a => atomScalar c a true
  | .lapw c d seg a disp =>
    watch c seg [(st.scalar a).toInt + disp.toInt * 4] (fun rs => rs.all fun r => r.cls = 1 && r.remote.isNone) fun rs =>
      let at_ := (s.sweptAt ((rs.headD LaneReq.blank).pa)).getD (0, 0)
      .lapw at_.1 at_.2 ((st.scalar d).toNat % 2 ^ 32)
  | .waita c four d seg a disp =>
    let n := if four = 1#1 then 4 else 1
    let nth := fun (k : Nat) => match a with | .reg r => Sel.reg (r + BitVec.ofNat 6 k) | r => r
    if four = 1#1 → regUpTo a 28 then
      watch c seg ((List.range n).map fun k => (st.scalar (nth k)).toInt + disp.toInt * 4) (fun rs => rs.all fun r => r.remote.isNone) fun rs =>
        .waita (selNum d) (rs.map fun r => (r.pa, r.cls ≠ 0)) none (if st.scalar d = 0 then 0 else s.now + (st.scalar d).toNat) (rs.any fun r => r.cls = 3)
    else none
  | .qst c a =>
    let g := planeOf st a.pd.toNat
    let sc := planeOf st (a.pd.toNat + 1)
    let l := g.W / sc.W
    let geom := if l = 16 then 1 else if l = 32 then 2 else if l = 64 then 3 else 0
    let pitch := st.scalar (next a.x)
    let base := (st.segreg a.seg.toNat).base.toNat
    let off := (st.scalar a.x).toInt + a.disp.toInt
    let va := (base + off.toNat) % 2 ^ 64
    let bytes := qstBytes x s g sc (va / 8192 * 8192) (va % 8192) (pitch.toNat % 2 ^ 32) (pitch.toNat / 2 ^ 32) geom
    if a.ty = 4 ∧ regUpTo a.x 30 ∧ a.pd.toNat < 15 ∧ planeOk st (st.pdreg a.pd.toNat) ∧ planeOk st (st.pdreg (a.pd.toNat + 1)) ∧
        g.ty = 4 ∧ sc.ty = 8 ∧ geom ≠ 0 ∧ g.W = l * sc.W ∧ g.H = sc.H ∧ sameFold g sc ∧ sameDepth g sc ∧
        pitch.toNat % 2 ^ 32 % l = 0 ∧ pitch.toNat / 2 ^ 32 % l = 0 ∧ 0 ≤ off ∧ va % 8192 < geomCodes geom ∧ va % 8192 % l = 0 ∧ (bytes.map (·.va)).Nodup then
      some { c := c, len := 1, seg := a.seg.toNat, size := 1, ty := 4, kind := { acc := 1, scalar := false, ldx := false, qst := true },
             accs := bytes.map fun b => { lane := b.lanes.headD 0, off := (b.va : Int) - (base : Int), dst := b.va, sh := 0,
                                          data := BitVec.ofNat 64 b.val, data2 := 0 },
             reads := qstKeys x g sc l (qstBlocks x g sc l),
             ok := fun rs => rs.all fun r => r.remote.isSome || (r.fmt = 4 && r.geom = geom),
             op := fun rs => memoryOp .store 4 false false false false 0 (rs.map fun r => { r with geom := 0 }) }
    else none
  | _ => none

/-- The strand with its segment's translation window built, where it had none that is current (R109). -/
def opened (s : State) (st : Strand) (seg : Nat) : Strand :=
  let g := st.segreg seg
  if g.scratch || g.remote || g.win.any (fun w => w.gen = (s.part st.part).gen st.asid && w.gen2 = (s.part st.part).gen2) then st
  else { st with g := mapSet st.g seg { g with win := buildWindow s st g } }

/-- The state after a word whose accesses have all passed: its operation outstanding, its window and its translations held; everything else stands. A load, store, atomic or reduction with an access at a peer stays at its address until the peer has answered, and one with an access to a swept region until that is admitted (R110, R125). -/
def accessed (x : Ctx) (s : State) (r : AccessOut) (rs : List (LaneReq × Option Tlb)) : State :=
  let stays := match r.op (rs.map (·.1)) with
    | .mem m => m.pinned || m.gate
    | _ => false
  let sp := after s (if stays then { x.sp with run := .hold s.nextOp } else if r.c.setf = 0#4 then { x.sp.past with run := .hold s.nextOp } else x.sp.past)
  let st := opened s x.st r.seg
  { s with
    strands := mapSet s.strands x.k
      { st with cf := (afterIssue x s r.len).cf, lastEnd := s.now + r.len - 1, lastIssue := s.now,
                splits := putSplit x.st.splits { sp with lastIssue := s.now } },
    ops := s.ops ++ [newOp x s none (r.op (rs.map (·.1)))], nextOp := s.nextOp + 1,
    tlb := s.tlb ++ ((rs.filterMap (·.2)).filter fun t => (s.tlbHit t.core t.part t.asid t.vpage).isNone).eraseDups }

/-- What the other class 2 words make outstanding, with the lane-file words they read and the line keys noted; none where a check of their description fails, or what they read is still to be stored or acquired. -/
def issueRule2 (i : Instr) (s : State) (x : Ctx) : Option (Common × TlArg × List Nat × Map Nat × OpKind) :=
  let plain := fun (c : Common) (k : OpKind) => some (c, (none : TlArg), ([] : List Nat), s.lineKeys, k)
  let st := x.st
  let queue := fun (q : BitVec 4) => 16 * (st.core / 4) + q.toNat
  let try_ := fun (t : BitVec 1) (r : Sel) => if t = 1#1 then some (selNum r) else none
  match i with
  | .fence c kind scope => plain c (.fence kind scope.code.toNat)
  | .qpush c t d q r => if (s.queue (queue q)).usable then plain c (.qpush (queue q) (st.scalar d) (try_ t r)) else none
  | .qpop c t d q r => if (s.queue (queue q)).usable then plain c (.qpop (queue q) (selNum d) (try_ t r)) else none
  | .qstat c d q => plain c (.qstat (queue q) (selNum d))
  | .tlwait c d tl => plain c (.tlwait tl.toNat (st.scalar d).toNat)
  | .tlread c d tl => plain c (.tlread tl.toNat (selNum d))
  | .tladv c d tl => plain c (.tladv tl.toNat (selNum d))
  | .chadv c d a =>
    let h := (st.scalar d).toNat
    let addr := (st.scalar a).toNat
    if (h = 0 ∨ (16 ≤ h ∧ h < 32 ∧ (s.chain (chainKey st.part (h - 16))).grant)) ∧ addr % 64 = 0 then
      match chadvNext s st addr with
      | .ok (cls, key, pa) =>
        if recordBlocked s x cls pa 8 = false ∧ (badOnChip s pa 8 false).isNone ∧ (s.strandWords st.die cls key pa 1).getD 0 0 = 0 then
          some (c, none, [], keyNoted s key pa, .chadv h addr)
        else none
      | .error _ => none
    else none
  | .matchAddr c a =>
    let lanes := activeOf x
    let addr := fun n => (st.segreg a.seg.toNat).base + BitVec.ofInt 64 ((s.laneSrc st a.x n).toInt + a.disp.toInt * fmtBytes a.ty.toNat)
    if 1 ≤ a.ty.toNat ∧ a.ty.toNat ≤ 10 ∧ st.laneOk a.d ∧ st.laneOk a.x then
      some (c, none, laneKeys st lanes [a.x], s.lineKeys,
        .results false (lanes.map fun n =>
          let l := (lanes.find? fun m => addr m = addr n).getD n
          .lane (st.laneAt n (selNum a.d)) 0xFFFFFFFF#32 (BitVec.ofNat 32 ((if l = n then 2 ^ 31 else 0) + l))) none)
    else none
  | .cpy c d a o tl =>
    let l := lowestLane x.act
    let nth : Nat → Sel := fun k => match o with | .reg r => Sel.reg (r + BitVec.ofNat 6 k) | r => r
    let off : Nat := (s.laneSrc st a l).toNat
    let pa := scratchPA (st.core / 4) off
    let r := s.homeWords pa 16
    let checks := fieldOf (recWord r 0) 13 1 = 1
    let crc : Sel := match d with | .reg r => Sel.reg (r + 1) | r => r
    if regUpTo o 60 ∧ regUpTo d 62 ∧ ([a, d] ++ (List.range 4).map nth).all st.laneOk = true ∧ (checks → st.laneOk crc = true) ∧ off % 128 = 0 ∧ off + 128 ≤ 2 ^ 22 then
      if recordBlocked s x 4 pa 128 || (badOnChip s pa 128 false).isSome || (dirPlane (fieldOf (recWord r 0) 0 4) && isBounded (fieldOf (st.pdreg (copyPlane r)) 32 4)) then none
      else some (c, tl, laneKeys st [l] ((if checks then [a, crc] else [a]) ++ (List.range 4).map nth), s.lineKeys,
        .copy { rec_ := r, origin := (List.range 4).map fun k => (s.laneSrc st (nth k) l).toInt, crc := if checks then s.laneSrc st crc l else 0,
                pd := st.pdreg (copyPlane r), window := st.window, leader := l, dKey := st.laneAt l (selNum d), crcKey := st.laneAt l (selNum d + 1),
                vals := [], words := [], wrote := [] })
    else none
  | _ => none

/-! ## Bytes stored -/

/-- Bytes put into memory from an address on. -/
def putBytes (m : List Host.Cell) (a : Nat) (bs : List Byte) : List Host.Cell :=
  (List.range bs.length).foldl (fun m i => Memory.write m (a + i) (bs.getD i 0)) m

/-- Routines that run note what they and other agents have left in the words they both write (R152). -/
def routineNotes (s : State) (w : Writer) (pa n : Nat) : Map Wilnum :=
  let put := fun (m : Map LWord) => (wordsOf pa n).foldl (fun m a => mapSet m a (BitVec.ofNat 32 (Memory.readN s.mem a 4))) m
  (s.wilnum.filter fun e => e.2.running.isSome).foldl (fun m e =>
    mapSet m e.1 (if w.wil = some e.1 then { e.2 with own := put e.2.own } else { e.2 with others := put e.2.others })) s.wilnum

/-- The state after n bytes are stored at a physical address: the bytes at their home, the copies of the dies that have not applied the write, the waits it fires and its place after the releases that stand there (R120, R135, R281, R284). The writer's own die shows it at once, but for a write that happens before it and is not applied there; a routine's write no die's copies (R147). Lane files, strand state and queue control are written through their windows. -/
def storedAt (s : State) (w : Writer) (pa : Nat) (bs : List Byte) : State :=
  let n := bs.length
  if onChip pa then
    let t := match ocType pa with
      | 0 => s.applyAll (onChipWrite pa bs)
      | 2 => s.applyAll (controlWrite s pa bs)
      | 6 => s.applyAll (controlWrite s pa bs)
      | _ => { s with mem := putBytes s.mem pa bs }
    (t.fire true [] pa n).overwrite 0 w.atomic pa n
  else
    let shown := if w.wil.isSome then [] else
      [0, 1, 2, 3].filter fun d => d = homeDie pa || (d = w.die && s.pend.all fun p => !(p.die = d && w.deps.contains p.id))
    let late := [0, 1, 2, 3].filter fun d => !shown.contains d
    let old := (List.range n).map fun i => (pa + i, Memory.read s.mem (pa + i))
    let line := (List.range 64).map fun i => Config.freeByte (2 ^ 32 + w.key) (pa / 64 * 64 + i)
    let t := { s with
      mem := putBytes (if s.otherKey w.key pa then putBytes s.mem (pa / 64 * 64) line else s.mem) pa bs,
      pend := (s.cover shown pa n).pend ++ late.map fun d => ({ die := d, id := s.nextWrite, old := old, deps := s.stillPending w.deps } : Pend),
      nextWrite := s.nextWrite + 1,
      lineKeys := (if mapGet s.lineKeys (pa / 64) = some w.key then s.lineKeys else mapSet s.lineKeys (pa / 64) w.key) }
    { (t.fire w.wil.isNone shown pa n).overwrite s.nextWrite w.atomic pa n with wilnum := routineNotes t w pa n }

/-- A strand's record changed. -/
def onStrand (s : State) (k : Nat) (f : Strand → Strand) : State := { s with strands := mapSet s.strands k (f (s.strand k)) }

/-- What follows an operation in program order has these writes behind it, and may acquire these releases (R280, R282). -/
def following (s : State) (k id : Nat) (d : List Nat) (seen : List Release) : State :=
  { onStrand s k fun st => { st with
      dep := s.stillPending (joinDeps st.dep d),
      splits := st.splits.map fun sp => if sp.prior.contains id then { sp with dep := joinDeps sp.dep d, seen := sp.seen ++ seen } else sp } with
    ops := s.ops.map fun o => if o.prior.contains id then { o with dep := joinDeps o.dep d } else o }

/-- The writer of a strand's operation. -/
def writerOf (st : Strand) (o : Op) (key : Nat) (atomic : Bool) : Writer :=
  { die := st.die, deps := o.dep, key := key, atomic := atomic, wil := if st.isRoutine then some (st.core - 256) else none }

/-- The releases an operation's write carries at the bytes it wrote: those of the releasing FENCEs before it, and its own (R236, R280). -/
def releasesOf (s : State) (o : Op) (m : MemOp) (id pa n : Nat) : List Release :=
  let st := s.strand o.owner
  (o.fences ++ (if m.rel then [(m.scope, o.dep)] else [])).flatMap fun f => (List.range n).map fun i =>
    { addr := pa + i, id := id, deps := s.stillPending (joinDeps f.2 [id]), core := st.core, die := s.ordDie st, scope := f.1, later := [] }

/-- What an operation's read of bytes brings to what follows it: the writes acquired, or the releases a later FENCE may acquire (R280, R281). -/
def readBehind (s : State) (o : Op) (m : MemOp) (die : Option Nat) (pa n : Nat) : State :=
  if m.acq then following s o.owner o.id (s.stillPending (acquiredDeps s (s.strand o.owner) die m.scope pa n)) []
  else
    let new := (s.releasesAt die pa n).filter fun r => s.stillPending r.deps ≠ []
    if new = [] then s else following s o.owner o.id [] new

/-- The value of one lane's load, with its status. -/
def loadedValue (s : State) (o : Op) (m : MemOp) (r : LaneReq) : Res :=
  let st := s.strand o.owner
  loadValue m.ty r (readFor s st r r.pa r.bytes) (readFor s st r (scalePA r.geom r.pa) 1)

/-- After one lane's load: its register word, the line's key noted, and what the read brings. -/
def loadedLane (o : Op) (m : MemOp) (s : State) (r : LaneReq) : State :=
  readBehind { s.applyL o.owner (resultUpd m r (loadedValue s o m r).1) with lineKeys := keyNoted s r.key r.pa } o m ((s.strand o.owner).view r.cls) r.pa r.bytes

/-- After one lane's bytes are stored: the write is before what follows the operation. -/
def writtenLane (o : Op) (atomic : Bool) (s : State) (r : LaneReq) (v : Nat) : State :=
  let t := storedAt s (writerOf (s.strand o.owner) o r.key atomic) r.pa (bytesOf v r.bytes)
  if onChip r.pa then t else following t o.owner o.id [s.nextWrite] []

/-- Words written whole are encoded afresh, lines written whole poisoned no more (R319, R364). -/
def healed (s : State) (pa n : Nat) : State :=
  { s with
    scratchBad := s.scratchBad.filter fun w => !(pa ≤ w * 8 && w * 8 + 8 ≤ pa + n),
    lanesBad := (if onChip pa ∧ ocType pa = 0 then
        s.lanesBad.filter fun k => !((wordsOf pa n).any fun a => pa ≤ a && a + 4 ≤ pa + n && k = ocPkgCore a * 262144 + ocOff a / 4)
      else s.lanesBad),
    poison := s.poison.filter fun l => !(pa ≤ l * 64 && l * 64 + 64 ≤ pa + n) }

/-- After one lane's store, with the releases it carries. -/
def storedLane (o : Op) (m : MemOp) (s : State) (r : LaneReq) : State :=
  let t := healed (writtenLane o false s r (storeValue m.ty r).1) r.pa r.bytes
  { t with rels := t.rels ++ releasesOf t o m (if onChip r.pa then 0 else s.nextWrite) r.pa r.bytes }

/-- A memory operation every lane of which may perform, in lane order: order, releases and copies allow it, no word it meets is uncorrectable, and none is of its own strand's image. -/
structure Performs (s : State) (o : Op) (st : Strand) (m : MemOp) : Prop where
  out : Outstanding s o st
  kind : o.kind = .mem m
  tl : o.tl = none
  log : Unlogged s st.launch
  here : m.pinned = false
  passed : m.fails = []
  some : m.reqs ≠ []
  ready : ∀ r ∈ m.reqs, laneFree s o m r = true
  good : ∀ r ∈ m.reqs, badOnChip s r.pa r.bytes (m.kind = .store) = none ∧ badResult s o m r = none
  clean : m.kind = .load → ∀ r ∈ m.reqs, r.poisoned s = false
  image : m.kind = .store → ∀ r ∈ m.reqs, onChip r.pa = true → ocType r.pa = 2 → slotKey (ocPkgCore r.pa) (ocOff r.pa / 65536) ≠ o.owner

/-- The state with one request of an operation in another state, and status bits added. -/
def marked (s : State) (o : Op) (m : MemOp) (r : LaneReq) (f : LaneReq → LaneReq) (st : Status) : State :=
  { s with ops := s.ops.map fun p => if p.id = o.id then { o with kind := .mem { m with status := m.status ||| st, reqs := updReq m.reqs r f } } else p }
def performed (s : State) (o : Op) (m : MemOp) (r : LaneReq) (v : Nat) (st : Status) : State :=
  marked s o m r (fun q => { q with st := .done, val := BitVec.ofNat 64 v }) st

/-- One lane of an atomic or reduction performed: the bytes become the operation's result, an ATOM's register the value found; of a poisoned line nothing is read and the lane has failed. What it acquires happens before its own write. -/
def atomicLane (s : State) (o : Op) (m : MemOp) (r : LaneReq) (op : Nat) : State :=
  if r.poisoned s then marked s o m r (fun q => { q with st := .refused 0x0F }) 0
  else
    let old := s.homeKN r.key r.pa r.bytes
    let noted := { s with lineKeys := keyNoted s r.key r.pa }
    let t := if m.kind = .atom op then (readBehind noted o m none r.pa r.bytes).applyL o.owner (resultUpd m r old) else noted
    let own := { o with dep := joinDeps o.dep (if m.acq then acquiredDeps s (s.strand o.owner) none m.scope r.pa r.bytes else []) }
    let u := writtenLane own true t r (atomResult op m.ty old r.data.toNat r.data2.toNat)
    performed { u with rels := u.rels ++ releasesOf u own m (if onChip r.pa then 0 else s.nextWrite) r.pa r.bytes } o m r old 0

/-- The status bits of an operation, set in its strand as it ends. -/
def withStatus (s : State) (k : Nat) (st : Status) : State := onStrand s k fun q => { q with status := q.status ||| st }

/-! ## The end of the other class 2 operations -/

/-- The state a class 2 operation's own effect leaves, before the operation ends; none where it may not complete yet. -/
def resultRule2 (s : State) (o : Op) (st : Strand) : Option State :=
  let k := o.owner
  let reg := fun (d : Nat) (v : Word) => onStrand s k fun q => q.applyL (.s d v)
  let status := fun (t : Option Nat) (v : Word) (q : Strand) => match t with | some r => q.applyL (.s r v) | none => q
  match o.kind with
  | .results false ups _ => some (delivered s k ups)
  | .fence kind scope =>
    if (kind = .rel ∨ loadsDone s o) ∧ (kind = .acq ∨ releaseReady s o scope) then
      let seen := (st.splits.filter fun sp => sp.prior.contains o.id).flatMap (·.seen)
      let acq := if kind = .rel then [] else (seen.filter fun r => synchronises r st.core (s.ordDie st) scope).flatMap (·.deps)
      let t := following s k o.id (s.stillPending acq) []
      some (if kind = .acq ∨ scope = 0 then t
        else
          let carried := fun (sp : Split) =>
            if sp.prior.contains o.id then { sp with fences := (scope, s.stillPending (joinDeps o.dep acq)) :: sp.fences.filter fun f => f.1 ≠ scope } else sp
          onStrand t k fun q => { q with splits := q.splits.map carried })
    else none
  | .lapw p r v => if (((s.part p).region r).lap + 2 ^ 32 - v % 2 ^ 32) % 2 ^ 32 < 2 ^ 31 then some s else none
  | .waita d _ (some i) _ _ => if st.suspended then none else some (reg d (BitVec.ofNat 64 i))
  | .qpush q v t =>
    let x := s.queue q
    let pa := scratchPA (q / 16) (x.ring + 8 * (x.tail % x.depth))
    if releaseReady s o 2 = false then none
    else if x.allowance = 0 then t.map fun _ => onStrand s k (status t 1)
    else if pushAhead s o q then none
    else
      let u := healed (storedAt s { die := dieOfCluster (q / 16), deps := [], key := 0, atomic := false, wil := none } pa (bytesOf v.toNat 8)) pa 8
      some (onStrand { u with queues := mapSet u.queues q { x with tail := (x.tail + 1) % x.modulus, deps := x.deps ++ [(x.tail, s.stillPending o.dep)] } } k (status t 0))
  | .qpop q d t =>
    let x := s.queue q
    let pa := scratchPA (q / 16) (x.ring + 8 * (x.head % x.depth))
    if x.used = 0 then t.map fun _ => onStrand s k (status t 1)
    else if popAhead s o q ∨ (badOnChip s pa 8 false).isSome then none
    else
      let deps := (x.deps.filter fun e => e.1 = x.head).flatMap (·.2)
      let u := { reg d (BitVec.ofNat 64 (s.homeN pa 8)) with queues := mapSet s.queues q { x with head := (x.head + 1) % x.modulus, deps := x.deps.filter fun e => e.1 ≠ x.head } }
      some (onStrand (following u k o.id (s.stillPending deps) []) k (status t 0))
  | .qstat q d =>
    let x := s.queue q
    some (reg d (BitVec.ofNat 64 ((x.tail + 2 ^ 32 - x.head) % 2 ^ 32 + x.depth * 2 ^ 32 + (if x.enabled then 2 ^ 63 else 0))))
  | .tlwait tl v =>
    let t := s.tl (tlKey st.launch tl)
    if v ≤ t.count then
      some (following s k o.id (s.stillPending ((t.arr.filter fun a => a.1 ≤ v).flatMap (·.2))) [])
    else none
  | .tlread tl d => some (reg d (BitVec.ofNat 64 (s.tl (tlKey st.launch tl)).count))
  | .tladv tl d =>
    let t := s.tl (tlKey st.launch tl)
    if releaseReady s o 4 then
      let u := reg d (BitVec.ofNat 64 (t.count + 1))
      some { u with tls := mapSet u.tls (tlKey st.launch tl) { count := t.count + 1, arr := t.arr ++ [(t.count + 1, s.stillPending o.dep)] } }
    else none
  | .chadv h addr =>
    if h = 0 then (if releaseReady s o 2 then some ((appendTile o addr).run s) else none)
    else if releaseReady s o 4 ∧ linkOk s st.part (h - 16) then
      some ((appendRecord st.part (h - 16) addr (st.core / 4) (s.stillPending o.dep)).run s)
    else none
  | _ => none

end Sys2Proof.Claims

/-- R84, R109, R252, R347: a word with no active lane only issues; PREF issues, its segment's window built and its translations held. Nothing else of the machine changes. Rests on choices of the model: log 83. -/
def Obligations.WordPasses : Prop :=
  (∀ (i : Instr) (c : Common) (s : State),
    i.common? = some c → mapGet s.strands s.cur.1 = some (s.ctx c).st → (s.ctx c).act = 0 →
    ∃ len, 1 ≤ len ∧ exec i s = .next (withStrand s s.cur.1
      { (s.ctx c).st with lastEnd := s.now + len - 1, lastIssue := s.now,
                          splits := putSplit (s.ctx c).st.splits { (s.ctx c).sp.past with lastIssue := s.now } })) ∧
  ∀ (c : Common) (ty seg : BitVec 4) (a : Sel) (disp : BitVec 16) (s : State),
    Acts s c → Unfenced s (s.ctx c).sp → 1 ≤ ty.toNat → ty.toNat ≤ 10 → (s.ctx c).st.laneOk a = true →
    (∀ k ∈ laneKeys (s.ctx c).st (activeOf (s.ctx c)) [a], k ∉ s.lanesBad) →
    let st := (s.ctx c).st
    let held := (activeOf (s.ctx c)).filterMap fun n =>
      match access s st seg.toNat ty.toNat (fmtBytes ty.toNat) { acc := 0, scalar := false, ldx := false, qst := false }
          { lane := n, off := (s.laneSrc st a n).toInt + disp.toInt * fmtBytes ty.toNat, dst := 0, sh := 0, data := 0, data2 := 0 } with
      | .ok (_, t) => t
      | .error _ => none
    exec (.pref c ty seg a disp) s = .next { withStrand s s.cur.1 (wordDone s.now (opened s st seg.toNat) (s.ctx c).sp.past) with
      tlb := s.tlb ++ (held.filter fun t => (s.tlbHit t.core t.part t.asid t.vpage).isNone).eraseDups }

/-- R108 to R114, R229 to R244, R246: a word of class 2 whose accesses all pass their checks is outstanding with them, its segment's window built; nothing else changes. Rests on choices of the model: logs 11, 13, 21, 22, 29, 78, 109. -/
def Obligations.AccessIssues : Prop :=
  ∀ (i : Instr) (c : Common) (s : State) (r : AccessOut) (rs : List (LaneReq × Option Tlb)),
    i.common? = some c → accessRule i s (s.ctx c) = some r → Acts s c → Unfenced s (s.ctx c).sp → (s.ctx c).sp.replay = none →
    (∀ k ∈ r.reads, k ∉ s.lanesBad) →
    r.accs.map (access s (s.ctx c).st r.seg r.ty r.size r.kind) = rs.map .ok → r.ok (rs.map (·.1)) = true →
    exec i s = .next (accessed (s.ctx c) s r rs)

/-- R242, R245, R247, R253 to R255: the other words of class 2 are outstanding with what they have read; nothing else changes. Rests on choices of the model: logs 13, 23, 110, 111. -/
def Obligations.SyncIssues : Prop :=
  ∀ (i : Instr) (c : Common) (s : State) (tl : TlArg) (reads : List Nat) (noted : Map Nat) (kind : OpKind),
    issueRule2 i s (s.ctx c) = some (c, tl, reads, noted, kind) → Acts s c → Unfenced s (s.ctx c).sp → (∀ k ∈ reads, k ∉ s.lanesBad) →
    exec i s = .next { issued (s.ctx c) s 1 tl kind with lineKeys := noted }

/-- R112, R113, R231, R235, R283: MEMORY_ACCESS_COMPLETE of a load gives each of its register words, in lane order, the value its bytes hold, and ends it; memory is unchanged. Rests on choices of the model: logs 13, 71, 75, 80. -/
def Obligations.LoadCompletes : Prop :=
  ∀ (s : State) (o : Op) (st : Strand) (m : MemOp),
    Performs s o st m → m.kind = .load →
    let done := m.reqs.foldl (fun (a : State × Status) r => (loadedLane o m a.1 r, a.2 ||| (loadedValue a.1 o m r).2)) (s, m.status)
    let t := withStatus done.1 o.owner done.2
    exec (.memoryAccessComplete o.id) s = .next (ended t (t.strand o.owner) o [])

/-- R112, R120, R231, R236, R284: MEMORY_ACCESS_COMPLETE of a store writes the bytes of each of its lanes, in lane order, at the address each has, and ends it; nothing else changes. Rests on choices of the model: logs 13, 71, 80. -/
def Obligations.StoreCompletes : Prop :=
  ∀ (s : State) (o : Op) (st : Strand) (m : MemOp),
    Performs s o st m → m.kind = .store →
    let status := m.reqs.foldl (fun a r => a ||| (storeValue m.ty r).2) m.status
    let t := withStatus (m.reqs.foldl (storedLane o m) s) o.owner status
    let u := { t with poison := if m.plane then t.poison.filter fun l => !((List.range 64).all fun i =>
      m.reqs.any fun r => r.remote.isNone && r.pa ≤ 64 * l + i && 64 * l + i < r.pa + r.bytes) else t.poison }
    exec (.memoryAccessComplete o.id) s = .next (ended u (u.strand o.owner) o [])

/-- R129 to R131, R240, R241: HOME_ATOMIC_PERFORM makes one step of a lane's operation at its home: the bytes become the operation's result, an ATOM's register the value found; nothing else changes. Rests on choices of the model: log 13. -/
def Obligations.AtomicPerforms : Prop :=
  ∀ (s : State) (o : Op) (st : Strand) (m : MemOp) (r : LaneReq) (op : Nat),
    Outstanding s o st → o.kind = .mem m → Unlogged s st.launch → m.kind = .atom op ∨ m.kind = .red op →
    m.reqs.find? (fun q => q.lane = r.lane && laneReady s o m q) = some r → badOnChip s r.pa r.bytes false = none →
    exec (.homeAtomicPerform o.id r.lane) s = .next (atomicLane s o m r op)

/-- R133 to R135, R242, R244 to R246, R253 to R255: MEMORY_ACCESS_COMPLETE of the other class 2 operations has its effect and ends it; when a WAITA's time is over and no armed word has fired, its register receives 4 and it ends. Nothing else changes. Rests on choices of the model: logs 13, 23, 114. -/
def Obligations.SyncCompletes : Prop :=
  (∀ (s t : State) (o : Op) (st : Strand),
    Outstanding s o st → o.tl = none → Unlogged s st.launch → resultRule2 s o st = some t →
    exec (.memoryAccessComplete o.id) s = .next (ended t (t.strand o.owner) o [])) ∧
  ∀ (s : State) (o : Op) (st : Strand) (d : Nat) (armed : List (Nat × Bool)) (deadline : Nat) (ext : Bool),
    Outstanding s o st → o.tl = none → Unlogged s st.launch → o.kind = .waita d armed none deadline ext → deadline ≠ 0 → deadline ≤ s.now →
    st.suspended = false →
    let t := onStrand s o.owner fun q => q.applyL (.s d 4)
    exec (.waitaTimeout o.id) s = .next (ended t (t.strand o.owner) o [])

namespace Sys2Proof.Claims

/-! ## Swept regions -/

/-- A partition's region changed. -/
def onRegion (s : State) (part n : Nat) (f : Region → Region) : State :=
  let x := s.part part
  { s with parts := mapSet s.parts part { x with regions := mapSet x.regions n (f (x.region n)) } }

/-- One admitted request served by its tumbler. -/
def servedReq (base : Region) (s : State) (a : Admit) : State :=
  match admitReq s base a with
  | none => s
  | some (o, m, r) =>
    match m.kind with
    | .atom op => atomicLane s o m r op
    | .red op => atomicLane s o m r op
    | .store => performed (storedLane o m s r) o m r (storeValue m.ty r).1 (storeValue m.ty r).2
    | k =>
      if r.poisoned s then marked s o m r (fun q => { q with st := .refused 0x0F }) 0
      else
        let v := loadedValue s o m r
        let u := performed (loadedLane o m s r) o m r v.1 v.2
        if k = .ldx then u.applyL o.owner (.lane r.data2.toNat 0xFFFFFFFF#32 (BitVec.ofNat 32 base.lap)) else u

/-- The request changes its row: it is served before the reads (R127). -/
def updatesRow (s : State) (a : Admit) : Bool :=
  match s.op? a.op with
  | some o => (match o.kind with
    | .mem m => m.kind ≠ .load && m.kind ≠ .ldx
    | _ => false)
  | none => false

/-- What an event of the memory system leaves; none where it does not happen. -/
def memoryEvent (i : Instr) (s : State) : Option State :=
  match i with
  | .visitorWriteApply die write =>
    match s.pend.find? fun p => p.die = die && p.id = write with
    | some p =>
      if s.pend.any fun q => q.die = die && p.deps.contains q.id && q.id ≠ write then none
      else
        let earlier := s.pend.takeWhile fun q => !(q.die = die && q.id = write)
        let covered := fun (q : Pend) => if q.die = die then { q with old := q.old.filter fun c => !(p.old.any fun b => b.1 = c.1) } else q
        let t := { s with pend := ((earlier.map covered).filter fun q => q.old ≠ []) ++ s.pend.drop (earlier.length + 1) }
        some (p.old.foldl (fun t c => t.fire false [die] c.1 1) t)
    | none => none
  | .sweptAdmission id lane =>
    match sweptReq s id lane with
    | some (o, m, r) =>
      if o.parked then none
      else match s.sweptAt r.pa with
        | none => some ((openGate id).run (marked s o m r (fun q => { q with st := .refused 0x09 }) 0))
        | some pr =>
          let g := (s.part pr.1).region pr.2
          let sl := g.slot r.pa
          if g.busy || s.now < g.lapStart || g.lapStart + g.period ≤ s.now || 512 ≤ sliceLoad s g.die sl.1 false || 512 ≤ sliceLoad s g.die sl.1 true ||
            sweptAhead s o pr || sweptReadAhead s o m r g.lap || m.lowerWaits r || (m.rel && !releaseReady s o m.scope) ||
            ((mapGet s.launches (s.strand o.owner).launch).map (·.record)).getD false then none
          else
            let t := onRegion s pr.1 pr.2 fun x => { x with queue := x.queue ++ [{ op := id, lane := lane, slice := sl.1, row := sl.2, lap := g.lap }] }
            some ((openGate id).run (marked t o m r (fun q => { q with st := .admitted g.lap }) 0))
    | none => none
  | .lapStart part region =>
    let g := (s.part part).region region
    let slices := ((List.range 16).filter fun n => g.mask.getLsbD n).length
    let period := (g.len / 512 + slices - 1) / slices + 16
    if g.active ≠ g.busy ∧ g.lapStart + period ≤ s.now ∧ ∀ a ∈ g.queue, a.lap = g.lap then
      some (onRegion s part region fun x => { x with lap := (x.lap + 1) % 2 ^ 32, lapStart := x.lapStart + period, served := [], others := [] })
    else none
  | .tumblerRowService part region slice row =>
    let g := (s.part part).region region
    let due := fun (a : Admit) => a.slice = slice && a.row = row && (a.lap + 1) % 2 ^ 32 = g.lap
    let l := g.queue.filter due
    let plain := s.ops.all fun o => match o.kind with
      | .mem m => m.reqs.all fun r => match r.st with
        | .admitted _ => !onChip r.pa && (badResult s o m r).isNone
        | _ => true
      | _ => true
    if g.active ≠ g.busy ∧ g.lapStart + row ≤ s.now ∧ (slice, row) ∉ g.served ∧ l ≠ [] ∧ l.any (scaleWaits s g) = false ∧ plain then
      let t := (l.filter (updatesRow s) ++ l.filter fun a => !updatesRow s a).foldl (servedReq g) s
      some (onRegion t part region fun x => { x with queue := x.queue.filter fun a => !due a, served := (slice, row) :: x.served })
    else none
  | _ => none

/-! ## Class 3 -/

/-- A crossbar word may act on an array: the die's energy for the period is not spent (R367); level U holds the binding, above it the partition the allocation (R269). -/
def arrayFree (s : State) (x : Ctx) : Prop := energySpent s 6 x.st.die = false
def arrayHeld (s : State) (x : Ctx) (key : Nat) : Bool :=
  if x.st.level = 0 then (s.xbar key).bound = some x.k else (s.xbar key).allocated && (s.xbar key).part = x.st.part

/-- What a class 3 word makes outstanding, with the lane-file words it reads, the array and the accumulator slot it marks; none where a check of its description fails. -/
structure EngineOut where
  c : Common
  tl : TlArg
  reads : List Nat
  kind : OpKind
  arr : Option (Nat × Xbar)
  slot : Option Nat
  crossbar : Bool

def engineRule (i : Instr) (s : State) (x : Ctx) : Option EngineOut :=
  let st := x.st
  let cl := st.core / 4
  let key := fun (arr : BitVec 2) => 4 * cl + arr.toNat
  let array := fun (c : Common) (tl : TlArg) (arr : BitVec 2) (reads : List Nat) (kind : OpKind) (mark : Xbar → Xbar) =>
    if arrayHeld s x (key arr) then
      some { c := c, tl := tl, reads := reads, kind := kind, arr := some (key arr, mark (s.xbar (key arr))), slot := none, crossbar := true : EngineOut }
    else none
  let bind := fun (c : Common) (tl : TlArg) (kind : OpKind) =>
    some { c := c, tl := tl, reads := [], kind := kind, arr := none, slot := none, crossbar := true : EngineOut }
  let acc := fun (c : Common) (tl : TlArg) (slot : BitVec 5) (reads : List Nat) (kind : OpKind) =>
    let tag := s.accTag (32 * cl + slot.toNat)
    if tag.getLsbD 38 = false ∨ tag = ownerTag st.part (launchIdent s st.launch) then
      some { c := c, tl := tl, reads := reads, kind := kind, arr := none, slot := some slot.toNat, crossbar := false : EngineOut }
    else none
  let window := fun (pd : BitVec 4) (o : Sel) =>
    let g := planeOf st pd.toNat
    let y0 := (st.scalar o).toNat % 2 ^ 7
    let x0 := (st.scalar o).toNat / 2 ^ 8 % 2 ^ 7
    (g, y0, x0, planeOk st (st.pdreg pd.toNat) && y0 + g.H ≤ 128 && x0 + g.W ≤ 128 && (g.ty = 1 || g.ty = 2 || g.ty = 3) && g.D = 1)
  match i with
  | .xbmv c arr pd pa o tl =>
    let g := planeOf st pd.toNat
    let a := planeOf st pa.toNat
    let v := (st.scalar o).toNat
    if planeOk st (st.pdreg pd.toNat) ∧ planeOk st (st.pdreg pa.toNat) ∧ v % 2 ^ 10 + a.H * a.W ≤ 1024 ∧ v / 2 ^ 16 % 2 ^ 10 + g.H * g.W ≤ 1024 ∧ a.D ≤ 16 ∧
        isFloat a.ty ∧ isBounded g.ty ∧ g.D = a.D then
      array c tl arr (a.reads st.core st.window)
        (.xbmv (key arr) pd.toNat (st.pdreg pd.toNat) st.window x.act (st.scalar o)
          ((List.range a.D).map fun d => (List.range a.H).flatMap fun y => (List.range a.W).map fun z => s.elem st st.window a d y z) a.ty (lowestLane x.act)) id
    else none
  | .xbprog c arr d a tl =>
    let off := (st.scalar a).toNat
    if off % 64 = 0 ∧ off + 64 ≤ 2 ^ 22 then
      array c tl arr [] (.xbprog (key arr) (selNum d) off none) fun y => { y with programming := true }
    else none
  | .xbcal c arr d tl => array c tl arr [] (.xbcal (key arr) (selNum d)) fun y => { y with calibrating := true }
  | .xbstat c arr f d tl => array c tl arr [] (.xbstat (key arr) (selNum d) f) id
  | .xbbind c arr d tl => bind c tl (.xbbind (key arr) (selNum d) false)
  | .xbbindRel c arr d tl => bind c tl (.xbbind (key arr) (selNum d) true)
  | .accmov c slot pd o tl =>
    let w := window pd o
    if w.2.2.2 ∧ accBadAt s cl slot.toNat (accWindow w.1 w.2.1 w.2.2.1) = false then
      acc c tl slot [] (.accOut slot.toNat pd.toNat (st.pdreg pd.toNat) st.window x.act w.2.1 w.2.2.1)
    else none
  | .accmovIn c slot pd o tl =>
    let w := window pd o
    let g := w.1
    if w.2.2.2 then
      acc c tl slot (g.readsIn st.core st.window x.act)
        (.accIn slot.toNat (((((List.range g.H).flatMap fun y => (List.range g.W).map fun z => (y, z))).filter fun e => x.act.getLsbD (g.place e.1 e.2).1).map fun e =>
          ((w.2.1 + e.1) * 128 + (w.2.2.1 + e.2), BitVec.ofNat 32 (toF32 g.ty (s.elem st st.window g 0 e.1 e.2)))))
    else none
  | .acczero c slot tl => acc c tl slot [] (.accZero slot.toNat)
  | _ => none

/-- A packet of a type has entered the mesh at its source with the next sequence number of its pair and an address or command tag; none is needed within a router (R380, R381). -/
def meshSent (s : State) (src dst kind : Nat) (tag : Word) : State :=
  if src = dst then s
  else
    let n := (mapGet s.meshNext (8 * src + dst)).getD 0
    { s with mesh := s.mesh ++ [{ src := src, dst := dst, seq := n, kind := kind, tag := tag, escape := false, at_ := some src, via := src, since := s.now,
                                  sentAt := s.now, resends := 0 }],
             meshNext := mapSet s.meshNext (8 * src + dst) ((n + 1) % 2 ^ 20) }

/-- The command an NMCALL captures: packet, the arguments s4 to s7, the slice's words, the target's physical address (R141); none where a check of R140 or R142 fails. -/
def commandOf (s : State) (x : Ctx) (d a : Sel) : Option (List Nat × Cmd) :=
  let st := x.st
  let off := (st.scalar a).toNat
  let at_ := scratchPA (st.core / 4) off
  let r := s.homeWords at_ 8
  if st.laneOk d ∧ off % 64 = 0 ∧ off + 64 ≤ 2 ^ 22 ∧ (scratchBadAt s (st.core / 4) off 64).isNone ∧ recordBlocked s x 4 at_ 64 = false ∧ pktOk st r then
    match translate s st.core st.part st.asid st.level (pktTarget r) 0 with
    | .ok (t, pa) =>
      if t.cls ≠ 2 ∧ t.cls ≠ 4 ∧ pa < 2 ^ 39 then
        some (sliceKeys st r,
          { op := s.nextOp, packet := r, a4 := [st.sreg 4, st.sreg 5, st.sreg 6, st.sreg 7], slice := (sliceKeys st r).map fun k => (k, s.laneWord st k), pa := pa })
      else none
    | .error _ => none
  else none

/-! ## Engine operations that end -/

/-- Status codes of XBBIND and XBBIND.rel (R269). -/
def bindCode (s : State) (k arr : Nat) (release : Bool) : Nat :=
  let x := s.xbar arr
  if x.allocated = false ∨ x.part ≠ (s.strand k).part then 2
  else if x.bound = some k then (if release = false ∧ x.retired then 3 else 0)
  else if x.retired then 3
  else if release ∨ x.bound ≠ none then 1
  else 0

/-- An array as a calibration leaves it, and whether it succeeded (R272): the constants measured, G anew. -/
def calibrated (x : Xbar) (seed : Nat) : Xbar × Bool :=
  let α := Config.measuredAlpha seed &&& 0x7FFFFFFF#32
  let γ := Config.measuredGamma seed &&& 0x7FFFFFFF#32
  let le := fun (a b : FVal) => !a.isNaN && !FVal.lt b a
  let ok := le (boundVal α) (.num false 1 (-7)) && le (boundVal γ) (.num false 1 (-9))
  let q := x.codes.foldl (fun a e => max a e.2.toInt.natAbs) 0
  ({ x with g := boundBits (mulVal (.num false q 0) (boundVal x.sigma)).1, alpha := α, gamma := γ, calibrated := ok,
            drift := (if ok then false else x.drift), cals := (x.cals + 1) % 2 ^ 64 }, ok)

/-- What a crossbar operation other than XBMV leaves before it ends: the machine, its status register and value; none where it may not complete yet. -/
def arrayResult (s : State) (o : Op) (st : Strand) : Option (State × Nat × Nat) :=
  match o.kind with
  | .xbprog arr d off run =>
    let cl := st.core / 4
    let r := s.homeWords (scratchPA cl off) 8
    let part := st.part
    let b := s.budget 3 part
    let rest := match run with
      | some q => some q
      | none => progRun r fun i j => BitVec.ofNat 8 (scratchN s cl (progOff r + i * progCols r + j) 1)
    let p := xbProgram (s.xbar arr) rest s.fresh
    if arrayAhead s o arr = false ∧ (b.counter < b.limit ∨ ∃ q, run = some q ∧ q.rows = []) ∧ b.counter + p.2.1 ≤ max b.counter b.limit ∧ startReady s o st.die ∧
        (run = none → (scratchBadAt s cl off 64).isNone ∧ (progRefused r = false → (scratchBadAt s cl (progOff r) (progRows r * progCols r)).isNone)) then
      some ({ s with xbars := mapSet s.xbars arr { p.1 with programming := stillBusy s o arr true, freeAt := s.now },
                     budgets := mapSet s.budgets (256 * 3 + part) { b with counter := b.counter + p.2.1 }, fresh := s.fresh + 1 }, d, p.2.2)
    else none
  | .xbcal arr d =>
    let p := calibrated (s.xbar arr) s.fresh
    if arrayAhead s o arr then none
    else some ({ s with xbars := mapSet s.xbars arr { p.1 with calibrating := stillBusy s o arr false, freeAt := s.now }, fresh := s.fresh + 1 }, d, if p.2 then 0 else 1)
  | .xbstat arr d f =>
    let x := s.xbar arr
    some (s, d, match f with
      | .alpha => x.alpha.toNat | .gamma => x.gamma.toNat | .g => x.g.toNat | .sigma => x.sigma.toNat | .cals => x.cals
      | .state => x.stateWord)
  | .xbbind arr d release =>
    let n := bindCode s o.owner arr release
    some (if n = 0 then { s with xbars := mapSet s.xbars arr { (s.xbar arr) with bound := if release then none else some o.owner } } else s, d, n)
  | _ => none

/-- What an event of the crossbar arrays leaves. -/
def arrayEvent (i : Instr) (s : State) : Option State :=
  let put := fun (cl arr : Nat) (f : Xbar → Xbar) =>
    if cl < 64 ∧ arr < 4 then some { s with xbars := mapSet s.xbars (4 * cl + arr) (f (s.xbar (4 * cl + arr))) } else none
  let drifts := fun (x : Xbar) => if x.drift then x else { x with drift := true, driftAt := s.now }
  match i with
  | .crossbarDriftPending cl arr => put cl arr drifts
  | .xbDriftInject cl arr => if (s.xbar (4 * cl + arr)).allocated ∧ (s.part (s.xbar (4 * cl + arr)).part).enabled then put cl arr drifts else none
  | .crossbarRetirement cl arr => put cl arr fun x => { x with retired := true }
  | .crossbarAllocation cl arr part =>
    if part < 64 then put cl arr fun x =>
      { x with allocated := true, part := part, bound := none, codes := [], sigma := 0x3F800000#32, g := 0, alpha := 0, gamma := 0,
               calibrated := false, drift := false, driftAt := 0, cals := 0, rowsProg := 0 }
    else none
  | .backgroundCalibration cl arr =>
    let k := 4 * cl + arr
    let b := s.budget 2 k
    if (s.xbar k).allocated ∧ b.counter < b.limit ∧ (∀ o ∈ s.ops, o.parked = false → o.kind.inArray ≠ some k) then
      (put cl arr fun x => { (calibrated x s.fresh).1 with freeAt := s.now }).map fun t =>
        { t with budgets := mapSet s.budgets (256 * 2 + k) { b with counter := b.counter + 1 }, fresh := s.fresh + 1 }
    else none
  | .nmInjectParity w ovl word =>
    if w < 128 ∧ (s.part (ovl / 65536)).enabled then
      some { s with wilnum := mapSet s.wilnum w { (s.wil w) with parity := some (ovl / 65536, ovl % 65536, word, (s.wil w).starts) } }
    else none
  | _ => none

end Sys2Proof.Claims

/-- R124 to R128, R284, R357: what the application of a write on a die, the admission of a request to a swept region, the start of a lap and the service of a row leave; nothing else changes. Rests on choices of the model: logs 13, 29, 50, 94. -/
def Obligations.MemoryEvents : Prop := ∀ (i : Instr) (s t : State), memoryEvent i s = some t → exec i s = .next t

/-- R123, R247 to R250: COPY_COMPLETE writes the elements of the copy, then its signal, its status word and its CRC, and ends it; nothing else changes. Rests on choices of the model: logs 12, 30, 32, 77, 80, 94, 111. -/
def Obligations.CopyCompletes : Prop :=
  (∀ (s : State) (o : Op) (st : Strand) (x : CopyOp), Outstanding s o st → o.kind = .copy x → Unlogged s st.launch → o.idle = true → startReady s o st.die = true → x.still s st = true →
    x.badLane s st = none → s.scratchBad = [] → x.dir = 4 ∨ x.dir = 5 → x.refused st = false → x.signal = false →
    (∀ e ∈ boxElems x.box, x.scratchOff (x.dir = 4) + (boxIndex x.box e + 1) * fmtBytes x.geo.ty ≤ 2 ^ 22) →
    ∃ t, exec (.copyComplete o.id) s = .next t ∧ t.op? o.id = none) ∧
  ∀ (s : State) (o : Op) (st : Strand) (x : CopyOp) (code : Nat) (r : CopyRun) (sig : List (Tlb × Nat)),
    Outstanding s o st → o.kind = .copy x → Unlogged s st.launch → o.idle = true → startReady s o st.die = true → x.still s st = true →
    x.badLane s st = none → x.badScratch s st r = none → x.outcome s st o.dataRefused o.signalRefused = .done code r sig →
    let s1 := (x.writes st o r fun w => !x.words.contains w).run (spanned s (x.touched s st))
    let own := joinDeps (joinDeps o.dep x.wrote) (writesSince s s1)
    let s2 := (engineStore { die := st.die, deps := s1.stillPending own, key := 0, atomic := false, wil := none } 8
      (sig.zip (bytesOf (recWord x.rec_ 11).toNat 8))).run s1
    let carried := fun (pa : Nat) => (List.range 8).map fun i =>
      let id := if onChip pa then 0 else s1.nextWrite
      ({ addr := pa + i, id := id, deps := s2.stillPending (joinDeps own [id]), core := st.core, die := s2.ordDie (s2.strand o.owner), scope := 4, later := [] } : Release)
    let s3 := { s2 with rels := s2.rels ++ (sig.take 1).flatMap fun p => carried p.2 }
    let crc := x.crcOf s st s.fresh r
    let t := delivered s3 o.owner (LUpd.lane x.dKey 0xFFFFFFFF#32 (BitVec.ofNat 32 (x.status s.fresh code crc r)) ::
      (if x.crcOn then [.lane x.crcKey 0xFFFFFFFF#32 crc] else []))
    exec (.copyComplete o.id) s = .next (ended t (t.strand o.owner) o (s3.stillPending (x.wrote ++ writesSince s s3)))

/-- R256, R257, R266, R269 to R274: a crossbar or accumulator word is outstanding with what it has read, its array marked busy or its slot claimed; nothing else changes. Rests on choices of the model: log 44. -/
def Obligations.EngineIssues : Prop :=
  ∀ (i : Instr) (c : Common) (s : State) (r : EngineOut),
    i.common? = some c → engineRule i s (s.ctx c) = some r → Acts s c → Unfenced s (s.ctx c).sp → (∀ k ∈ r.reads, k ∉ s.lanesBad) →
    (r.crossbar = true → arrayFree s (s.ctx c)) →
    let st := (s.ctx c).st
    exec i s = .next { issued (s.ctx c) s 1 r.tl r.kind with
      xbars := (match r.arr with
        | some (k, x) => if x = s.xbar k then s.xbars else mapSet s.xbars k x
        | none => s.xbars),
      accTags := (match r.slot with
        | some n => mapSet s.accTags (32 * (st.core / 4) + n) (ownerTag st.part (launchIdent s st.launch))
        | none => s.accTags) }

/-- R140 to R142, R276, R381: NMCALL's command enters the core's FIFO where it has a place and no other waits for one, and a packet its mesh; with no place the split holds until it has one. Rests on choices of the model: logs 31, 40, 61. -/
def Obligations.NmcallIssues : Prop :=
  ∀ (c : Common) (d a : Sel) (tl : TlArg) (s : State) (reads : List Nat) (cmd : Cmd),
    let x := s.ctx c
    let w := cmd.pa / 2 ^ 32 % 128
    let st := issued x s 1 tl (.nmcall (x.st.laneAt (lowestLane x.act) (selNum d)) cmd)
    let held := fun (run : Run) =>
      withStrand st x.k { afterIssue x s 1 with splits := putSplit x.st.splits { after s x.sp.past with run := run, lastIssue := s.now } }
    Acts s c → Unfenced s (s.ctx c).sp → commandOf s x d a = some (reads, cmd) → (∀ k ∈ reads, k ∉ s.lanesBad) → Unlogged s x.st.launch →
    (∀ sp ∈ x.st.splits, sp.run ≠ .hold s.nextOp) → waitingCmds s w = [] → (∀ o ∈ s.ops, o.id < s.nextOp) →
    (∀ q ∈ (s.wil w).fifo, q.op ≠ s.nextOp) → (∀ q, (s.wil w).running = some q → q.op ≠ s.nextOp) →
    ((s.wil w).fifo.length < 32 →
      exec (.nmcall c d a tl) s = .next (meshSent
        { held (if c.setf = 0#4 then .hold s.nextOp else .ready) with
          wilnum := mapSet s.wilnum w { (s.wil w) with fifo := (s.wil w).fifo ++ [cmd], seq := (s.wil w).seq + 1 } } (2 * x.st.die) (w / 16) 0 (BitVec.ofNat 64 s.nextOp))) ∧
    (32 ≤ (s.wil w).fifo.length → exec (.nmcall c d a tl) s = .next (held (.hold s.nextOp)))

/-- R46, R49, R62, R226, R274: XBMV_COMPLETE writes each output its exact sum with an analogue error, the result bound and the status, and ends the operation; nothing else changes. Rests on choices of the model: logs 24, 41, 43. -/
def Obligations.XbmvCompletes : Prop :=
  ∀ (s : State) (o : Op) (st : Strand) (arr pd : Nat) (dsc window : Word) (act : Lanes) (origin : Word) (src : List (List Nat)) (ty leader : Nat),
    Outstanding s o st → Unlogged s st.launch → o.kind = .xbmv arr pd dsc window act origin src ty leader →
    let x := s.xbar arr
    let g := Geo.of window dsc
    arrayAhead s o arr = false → max o.issued x.freeAt + 55 * g.D ≤ s.now → x.calibrated = true → (x.drift = true → s.now < x.driftAt + 55) →
    (∀ k ∈ g.kept st.core window act, k ∉ s.lanesBad) →
    let out := fun (d : Nat) => xbPlane x s.fresh d (origin.toNat % 2 ^ 10) (origin.toNat / 2 ^ 16 % 2 ^ 10) (g.H * g.W) (exactOf g.ty) ((src.getD d []).map (decodeF ty))
    let bound := (List.range g.D).foldl (fun b d => boundMax b (out d).bound) 0#32
    let status := (List.range g.D).foldl (fun b d => b ||| (out d).st) 0
    ∃ ws : List LUpd,
      (let t := delivered { s with fresh := s.fresh + 1, xbars := mapSet s.xbars arr { x with freeAt := s.now } } o.owner (ws ++ [boundWrite st pd (g.full act) bound] ++ (if status = 0 then [] else [.status status]))
       exec (.xbmvComplete o.id) s = .next (ended t (t.strand o.owner) o [])) ∧
      WritesPlane { st with window := window } g act (fun d y z => (out d).vals.getD (y * g.W + z) 0) ws

/-- R269, R271 to R273: CROSSBAR_OPERATION_COMPLETE of XBPROG, XBCAL, XBSTAT, XBBIND and XBBIND.rel changes the array as its table says, writes the status register and ends the operation; nothing else changes. Rests on choices of the model: logs 41, 42, 43. -/
def Obligations.CrossbarCompletes : Prop :=
  ∀ (s t : State) (o : Op) (st : Strand) (d n : Nat),
    Outstanding s o st → Unlogged s st.launch → arrayResult s o st = some (t, d, n) →
    let u := onStrand t o.owner fun q => q.applyL (.s d (BitVec.ofNat 64 n))
    exec (.crossbarOperationComplete o.id) s = .next (ended u (u.strand o.owner) o [])

/-- R266, R267, R308: ACCUMULATOR_MOVE_COMPLETE: ACCMOV rounds the slot's elements to the plane's type, ACCMOV.in stores the active elements as binary32, ACCZERO clears the slot; a task of the slot is waited for; nothing else changes. Rests on choices of the model: logs 44, 100, 104. -/
def Obligations.AccumulatorCompletes : Prop :=
  ∀ (s : State) (o : Op) (st : Strand), Outstanding s o st → Unlogged s st.launch →
    let cl := st.core / 4
    let free := fun (slot : Nat) => ∀ t ∈ (s.tile cl).running, t.slot ≠ slot
    let done := fun (t : State) => exec (.accumulatorMoveComplete o.id) s = .next (ended t (t.strand o.owner) o [])
    (∀ slot pd dsc window act y0 x0, o.kind = .accOut slot pd dsc window act y0 x0 →
      let g := Geo.of window dsc
      let r := fun (y z : Nat) => roundVal g.ty 0 (decodeF 1 (Memory.readN s.mem (accPA cl slot 0 0 + 4 * ((y0 + y) * 128 + (x0 + z))) 4))
      let status := planeStatus g act fun _ y z => (r y z).2
      let split := (st.splitOf (trapSplit st o)).run
      accBadAt s cl slot (accWindow g y0 x0) = false → split ≠ .parked → (∀ n, split ≠ .overlay n) → (∀ k ∈ g.kept st.core window act, k ∉ s.lanesBad) →
      ∃ ws, WritesPlane { st with window := window } g act (fun _ y z => (r y z).1) ws ∧
        done { delivered s o.owner (ws ++ if status = 0 then [] else [.status status]) with fresh := s.fresh + 1 }) ∧
    (∀ slot vals, o.kind = .accIn slot vals → free slot →
      done { s with
        mem := vals.foldl (fun m v => putBytes m (accPA cl slot 0 0 + 4 * v.1) (bytesOf v.2.toNat 4)) s.mem,
        accBad := s.accBad.filter fun a => !(vals.any fun v => accPA cl slot 0 0 + 4 * v.1 = a) }) ∧
    (∀ slot, o.kind = .accZero slot → free slot →
      done { s with
        mem := s.mem.filter fun e => !(accPA cl slot 0 0 ≤ e.1 && e.1 < accPA cl slot 0 0 + 65536),
        accBad := s.accBad.filter fun a => !(accPA cl slot 0 0 ≤ a && a < accPA cl slot 0 0 + 65536) })

/-- R268, R270, R275, R296, R299, R367: what drift, its injection, background calibration, allocation, retirement and an armed parity fault change; nothing else changes. Rests on choices of the model: logs 43, 60, 97. -/
def Obligations.ArrayEvents : Prop := ∀ (i : Instr) (s t : State), arrayEvent i s = some t → exec i s = .next t

namespace Sys2Proof.Claims

/-! ## Chains -/

/-- The little-endian bytes of a word. -/
def wordBytes (w : Word) : List Byte := (List.range 8).map fun i => w.extractLsb' (8 * i) 8

/-- The state after the device's own write of bytes: every die reads them at once, and the waits there fire (R135). -/
def deviceWrote (s : State) (pa : Nat) (bs : List Byte) : State :=
  let n := bs.length
  ((({ s with mem := putBytes s.mem pa bs } : State).cover [0, 1, 2, 3] pa n).fire true [0, 1, 2, 3] pa n).overwrite 0 false pa n

/-- The state after the record at an address is linked at a chain's tail (R255, R320); none where w7 of the tail cannot be written. -/
def linked (s : State) (part chain addr cluster : Nat) (deps : List Nat) : Option State :=
  let key := 16 * part + chain
  let x := s.chain key
  let put := fun (y : Chain) => mapSet s.chains key { y with tail := addr, deps := x.deps ++ [(addr + 2 ^ 64 * cluster, deps)] }
  if x.head = 0 then some { s with chains := put { x with head := addr } }
  else match mapGet x.made x.tail with
    | some l => some { s with chains := put { x with made := mapSet x.made x.tail { l with rec_ := l.rec_.take 7 ++ [BitVec.ofNat 64 addr] } } }
    | none => match tailLink s part chain with
      | .ok pa => some { deviceWrote s pa (wordBytes (BitVec.ofNat 64 addr)) with chains := put x }
      | .error _ => none

/-- The state after a launch the device made itself is linked at its chain's tail (R334, R335). -/
def madeLinked (s : State) (l : Launch) : Option State :=
  let key := 16 * l.part + l.chain
  let addr := madeBase + s.nextLaunch
  let x := s.chain key
  linked { s with chains := mapSet s.chains key { x with made := mapSet x.made addr l }, nextLaunch := s.nextLaunch + 1 } l.part l.chain addr 0 []

/-- The words a device-made record has of its template (R198): no wait, no signal, no successor. -/
def launchWords (r : List Word) (count : Nat) (params : Word) : List Word :=
  [r.getD 0 0, (r.getD 1 0 &&& ~~~0xFFFFFFFF#64) ||| BitVec.ofNat 64 (count % 2 ^ 32), params, r.getD 3 0, 0, 0, r.getD 6 0, 0]

/-- The chain of a strand's launch. -/
def chainNumber (s : State) (st : Strand) : Nat := ((mapGet s.launches st.launch).map (·.chain)).getD 0

/-! ## Traps -/

/-- The trap-queue record of a trapped strand (R313). -/
def queued (s : State) (st : Strand) (k : Nat) (t : Trap) : TrapRec where
  w0 := t.word 0
  w1 := t.word 1
  w2 := t.word 3
  w3 := BitVec.ofNat 64 (st.core % 256 + st.slot % 16 * 2 ^ 8 + st.level % 4 * 2 ^ 12 + launchIdent s st.launch % 2 ^ 32 * 2 ^ 32)
  w4 := BitVec.ofNat 64 st.number
  strand := some k

/-- A partition with one record more to post. -/
def withTrap (s : State) (part : Nat) (r : TrapRec) : State :=
  let x := s.part part
  { s with parts := mapSet s.parts part { x with traps := x.traps ++ [r] } }

/-- A strand parked with a frame, its split parked. -/
def parkedStrand (st : Strand) (sp : Split) (t : Trap) : Strand :=
  { st with frame := some t, splits := putSplit st.splits { sp with run := .parked } }

/-- The frame words of a trap of a split's own word with a cause alone (Table 18-5). -/
def FrameOf (st : Strand) (sp : Split) (cause : Nat) (detail : Word) (t : Trap) : Prop :=
  let at_ := match sp.clause with
    | some c => (c.at_, c.idx, 2 ^ 46)
    | none => (sp.pc, 0, 0)
  t.split = sp.num ∧ t.cause = cause ∧ t.idx = at_.2.1 ∧ t.op = 0 ∧ t.flag = 0 ∧ t.was = sp.run ∧ t.latS = st.latS ∧ t.latL = st.latL ∧ t.latSeed = st.latSeed ∧
  t.latOn = st.delayed.filter (fun d => isLatch d.2) ∧
  t.word 0 = BitVec.ofNat 64 (at_.2.2 + at_.2.1 % 16 * 2 ^ 42 + sp.num % 4 * 2 ^ 40 + cause) ∧
  t.word 1 = BitVec.ofNat 64 (sp.ovl % 4096 * 2 ^ 32 + at_.1 % 32768) ∧ t.word 2 = 0 ∧ t.word 3 = detail ∧
  ∀ n, 4 ≤ n → n < 64 → t.word n = 0

/-- A cause, with its detail, that a word of class 0 or 4 raises before any effect. -/
def trapRule (i : Instr) (s : State) (x : Ctx) : Option (Common × Nat × Word) :=
  let st := x.st
  let typed := fun (c : Common) (ty : BitVec 4) => if isInt ty.toNat then none else some (c, 0x02, (0 : Word))
  let target := fun (c : Common) (disp : Int) => if (transferTo s st x.sp disp).isNone then some (c, 0x06, (0 : Word)) else none
  let privileged := fun (c : Common) => if st.level = 0 then some (c, 0x18, (0 : Word)) else none
  match i with
  | .mov c ty _ _ => typed c ty
  | .add c ty _ _ _ => typed c ty
  | .sub c ty _ _ _ => typed c ty
  | .mul c ty _ _ _ _ => typed c ty
  | .div c ty _ _ _ => typed c ty
  | .rem c ty _ _ _ => typed c ty
  | .and c ty _ _ _ => typed c ty
  | .or c ty _ _ _ => typed c ty
  | .xor c ty _ _ _ => typed c ty
  | .shl c ty _ _ _ => typed c ty
  | .shr c ty _ _ _ => typed c ty
  | .rot c ty _ _ _ _ => typed c ty
  | .clz c ty _ _ => typed c ty
  | .popc c ty _ _ => typed c ty
  | .cmp c ty _ _ _ _ => typed c ty
  | .min c ty _ _ _ => typed c ty
  | .max c ty _ _ _ => typed c ty
  | .br c disp => target c disp.toInt
  | .brc c cond a disp => if condition cond.toNat (st.scalar a) (winMask st.window &&& x.sp.mask) (st.mreg (selNum a)) then target c disp.toInt else none
  | .loop c a disp => if st.scalar a - 1 = 0 then none else target c disp.toInt
  | .ret c a =>
    let l := st.scalar a
    let ovl := l.toNat / 2 ^ 32 % 4096
    if l.toNat / 2 ^ 44 % 2 ^ 19 ≠ 0 ∨ l.toNat / 2 ^ 15 % 2 ^ 17 ≠ 0 then some (c, 0x02, 0)
    else if (if l.msb then countOf st.callKeys x.sp.ovl = 0 ∨ (s.codeOf st ovl).isNone else ovl ≠ x.sp.ovl % 4096) then some (c, 0x02, 0)
    else if l.msb ∧ 0 < st.level ∧ (s.codeOf st ovl).any (fun o => !o.kbit) then some (c, 0x18, 0)
    else if s.codeLen st (if l.msb then ovl else x.sp.ovl) ≤ l.toNat % 32768 then some (c, 0x06, 0)
    else none
  | .callo c ovl entry =>
    match s.resident st.core st.part ovl.toNat false with
    | none => none
    | some o =>
      if 0 < st.level ∧ o.kbit = false then some (c, 0x18, 0)
      else if o.words ≤ entry.toNat then some (c, 0x06, 0)
      else if 65535 ≤ s.keyCount st.core st.part ovl.toNat then some (c, 0x02, 0) else none
  | .ovlpin c ovl => if 65535 ≤ s.keyCount st.core st.part ovl.toNat then some (c, 0x02, 0) else none
  | .extr c ty _ _ pos lenM1 => if (ty.toNat = 11 ∨ ty.toNat = 12) ∧ pos.toNat + lenM1.toNat + 1 ≤ 64 then none else some (c, 0x02, 0)
  | .ins c _ _ pos lenM1 => if pos.toNat + lenM1.toNat + 1 ≤ 64 then none else some (c, 0x02, 0)
  | .lparam c _ off => if off.toNat % 8 = 0 ∧ off.toNat ≤ 504 then none else some (c, 0x02, 0)
  | .getid c _ which => if which.toNat ≤ 7 then none else some (c, 0x02, 0)
  | .call c disp => target c disp.toInt
  | .split c ma mb _ _ _ _ =>
    if 4 < (x.st.splits.filter fun y => y.num ≠ x.sp.num).length + (liveGroups x.sp.mask x.act (st.mreg ma.toNat) (st.mreg mb.toNat)).length then some (c, 0x16, 0) else none
  | .trap c code => if st.level = 0 then none else some (c, 0x13, code.setWidth 64)
  | .nmret c => some (c, 0x01, 0)
  | .zskip c _ _ _ => some (c, 0x01, 0)
  | .ovlunpin c ovl => if countOf st.pins ovl.toNat = 0 then some (c, 0x02, 0) else none
  | .join c a => if 2 ^ 32 ≤ (st.scalar a).toNat then some (c, 0x02, 0) else none
  | .spawn c _ a _ => if (st.scalar a).toNat % 64 ≠ 0 then some (c, 0x14, 0) else none
  | .msgsend c _ _ a _ => if (st.scalar a).toNat % 64 ≠ 0 then some (c, 0x14, 0) else none
  | .sysrd c _ _ => privileged c
  | .syswr c _ _ => privileged c
  | .genup c _ => privileged c
  | .resume c => privileged c
  | .resumeEnd c => privileged c
  | .tret c => privileged c
  | .ctxsave c _ _ => privileged c
  | .ctxload c _ _ => privileged c
  | .accspill c _ _ _ => privileged c
  | .accfill c _ _ _ => privileged c
  | _ => none

/-- The operation a resumption makes outstanding again: one whose lanes failed as their accesses were made, with pending kind 1, or an abandoned one, with kind 2 (R315). -/
def outAgain (s : State) (t : Trap) : Option Op :=
  match t.word 2 >>> 60 with
  | 1 => (s.op? t.op).bind fun o => o.kind.retried.map fun k => { o with parked := false, kind := k }
  | 2 => (s.op? t.op).map fun o => { o with parked := false, issued := s.now }
  | _ => none

/-- A trapped strand as its resumption leaves it (R315): from the clause its frame names; past the word with pending kind 0, at it again with kinds 1 and 3, past it with its operation outstanding again with kind 2; where lanes of an operation access again, the split stands where it has gone on to. The latches come back, with the results still on their way to them, but at the first word of a clause; siblings that now all wait at one MERGE unite (R97). -/
def resumedStrand (s : State) (st : Strand) (t : Trap) : Strand :=
  let sp := reframe s st (st.splitOf t.split) t
  let again := fun (r : Option (Lanes × Nat)) => match sp.clause with
    | some c => if c.idx = 0 then { sp with pc := c.at_, clause := none, run := .ready, replay := r } else { sp with run := .ready, replay := r }
    | none => { sp with run := .ready, replay := none }
  let run := match t.was with
    | .hold i => if (s.op? i).isSome then Run.hold i else .ready
    | r => r
  let sp' := match t.word 2 >>> 60 with
    | 1 => if (outAgain s t).isSome then { sp with run := run } else again (some (t.unfinished, t.op))
    | 2 => { again none with run := run }
    | 3 =>
      (match t.was with
      | .merge .. => { sp with run := t.was }
      | .overlay _ => { sp with run := t.was }
      | _ => again (some (if t.op = 0 then (BitVec.allOnes 16384, 0) else (t.unfinished, t.op))))
    | _ => { sp.past with run := .ready }
  let rest := st.delayed.filter fun d => !isLatch d.2
  { st with
    frame := none, splits := mergeSplits (st.splitOf t.split).origin (putSplit st.splits sp'),
    latS := (if sp.idx = 0 then st.latS else t.latS), latL := (if sp.idx = 0 then st.latL else t.latL), latSeed := (if sp.idx = 0 then st.latSeed else t.latSeed),
    delayed := if sp.idx = 0 then st.delayed else t.latOn.foldl (fun l d => insertDelay l d.1 d.2) rest }

/-- The state after a resumption: the strand, and the operation that is outstanding again. -/
def resumed (s : State) (k : Nat) (st : Strand) (t : Trap) : State :=
  { s with
    strands := mapSet s.strands k (resumedStrand s st t),
    ops := match outAgain s t with
      | some o => s.ops.map fun p => if p.id = o.id then o else p
      | none => s.ops }

/-- A trapped strand whose resumption changes nothing else: it has no trap pending, and a split of it is not at its EXIT. -/
structure Parked (s : State) (k : Nat) (st : Strand) (t : Trap) : Prop where
  slot : mapGet s.strands k = some st
  frame : st.frame = some t
  one : st.pending = []
  live : ∃ sp ∈ (resumedStrand s st t).splits, sp.run ≠ .exiting

/-! ## Gangs -/

/-- A GBAR is of a strand that has left its gang since. -/
def hasLeft (o : Op) : Bool := match o.kind with | .gbar _ _ _ left => left | _ => false

/-! ## Near-memory routines -/

/-- The lane files of a core cleared, a command's slice in place (R141, R144). -/
def sliceLanes (s : State) (w : Nat) (cmd : Cmd) (slice : Bool) : Map LWord :=
  let n := cmd.packet.getD 0 0 >>> 36 &&& 0xF
  let base := s.lanes.filter fun e => e.1 / 262144 ≠ 256 + w
  if slice then
    (List.range cmd.slice.length).foldl (fun m i => mapSet m (laneAtIn (256 + w) (winOf 8 8) (i / n.toNat) (i % n.toNat)) (cmd.slice.getD i (0, 0)).2) base
  else base

end Sys2Proof.Claims

/-- R21, R198 to R200, R334, R335: SCALAR_INSTRUCTION_COMPLETE of a SPAWN puts it into its cluster's merger, of a MSGSEND links a launch of one strand at its chain; the status is 0 and the operation ends. A merged launch closes with its 64th spawn, or 1700 cycles after it was opened, and is linked at its chain's tail with one strand for each spawn. Nothing else changes. Rests on choices of the model: logs 20, 28. -/
def Obligations.SpawnsMerge : Prop :=
  (∀ (s t : State) (o : Op) (st : Strand) (d template params : Nat) (r : List Word) (msg : Option (Nat × List Word)),
    Outstanding s o st → o.tl = none → Unlogged s st.launch → o.kind = .spawn d r template params msg → releaseReady s o 4 = true →
    spawnStatus s st r msg = 0 →
    let cl := st.core / 4
    let deps := s.stillPending o.dep
    let fits := fun (m : OpenLaunch) => m.template = template && m.part = st.part && m.spawns.length < 64 && s.now < m.opened + 1700
    (match msg with
      | none =>
        if mergerTakes s cl template st.part then
          some { s with mergers := mapSet s.mergers cl (if (s.merger cl).any fits then
              (s.merger cl).map fun m => if fits m then { m with spawns := m.spawns ++ [(params, st.asid, deps)] } else m
            else s.merger cl ++ [{ template := template, part := st.part, asid := st.asid, chain := chainNumber s st, level := recLevel s st.part st.asid r,
                                   rec_ := r, opened := s.now, spawns := [(params, st.asid, deps)] }]) }
        else none
      | some (c, payload) =>
        let u := { s with msgs := mapSet s.msgs c ((mapGet s.msgs c).getD 0 + 1) }
        if linkOk s st.part (chainNumber s st) then
          madeLinked u { launchOf st.part (chainNumber s st) st.asid 0 (recLevel s st.part st.asid r) 0 (launchWords r 1 (r.getD 2 0)) (0xF#256 <<< (4 * c)) [] s.now with
            payload := payload, message := true, spawnDeps := [deps] }
        else none) = some t →
    let u := onStrand t o.owner fun q => q.applyL (.s d 0)
    exec (.scalarInstructionComplete o.id) s = .next (ended u (u.strand o.owner) o [])) ∧
  ∀ (cl index : Nat) (s t : State) (m : OpenLaunch),
    (s.merger cl)[index]? = some m → (64 ≤ m.spawns.length ∨ m.opened + 1700 ≤ s.now) → linkOk s m.part m.chain = true →
    madeLinked { s with mergers := mapSet s.mergers cl ((s.merger cl).eraseIdx index) }
      { launchOf m.part m.chain m.asid 0 m.level 0 (launchWords m.rec_ m.spawns.length 0) (BitVec.allOnes 256) [] s.now with
        params := m.spawns.map (·.1), asids := m.spawns.map (·.2.1), spawnDeps := m.spawns.map (·.2.2) } = some t →
    exec (.spawnMergerClose cl index) s = .next t

/-- R99, R196: the GBAR with which every live split of every member has arrived closes the gang's instance; one completion then ends every GBAR of it, each strand having acquired what every member released. Rests on choices of the model: logs 13, 34. -/
def Obligations.GangBarrier : Prop :=
  (∀ (c : Common) (s : State) (g : Nat), Acts s c →
    let x := s.ctx c
    let n := x.sp.gbars
    let ks := gangKeys s x.st.launch g
    let t := issued { x with sp := { x.sp with gbars := n + 1 } } s 1 none (.gbar (some g) n [] false)
    let l := gangOps t x.st.launch g n
    x.st.gang = some g → gangSaved s x.st.launch g = [] → gangOpen s x.st.launch g = n → (∀ k ∈ ks, gangArrived t k g n = true) →
    (t.ops.map (·.id)).Nodup →
    exec (.gbar c) s = .next (ks.foldl (fun u k => onStrand u k fun q => { q with gangAt := n + 1 })
      { t with ops := t.ops.map fun o => if o ∈ l then { o with kind := .gbar (some g) n (l.map (·.id)) (hasLeft o) } else o })) ∧
  ∀ (s : State) (o : Op) (st : Strand) (g n : Nat) (inst : List Nat) (left : Bool) (l : List (Op × Strand)),
    s.op? o.id = some o → o.parked = false → o.kind = .gbar (some g) n inst left → inst ≠ [] → l.map (fun p => p.1.id) = inst → inst.Nodup → keysRise s.strands = true →
    mapGet s.strands o.owner = some st →
    (∀ p ∈ l, Outstanding s p.1 p.2 ∧ p.1.tl = none ∧ releaseReady s p.1 (gangScope s st.launch g (inst.filterMap fun i => (s.op? i).map fun p => (s.strand p.owner).core)) = true) →
    let deps := l.foldl (fun a p => joinDeps a p.1.dep) []
    exec (.scalarInstructionComplete o.id) s = .next (l.foldl (fun t p =>
      let u := following t p.1.owner p.1.id (t.stillPending deps) []
      ended u (u.strand p.1.owner) p.1 []) s)

/-- R103, R155, R176, R181, R182, R185, R187, R188, R189, R192, R195, R227, R301, R303, R310, R311, R313: a check that fails in a word of class 0 or 4 parks its split before any effect, fills the frame and queues its record, nothing else changed; RET where every check of R188 holds releases its call key, its core's residents then as the quota asks, and goes on at its link word. That RET and CALLO of a level-K strand raise privilege for an overlay without the K bit is the model's reading (log 91): R301 names no cause there. Rests on choices of the model: logs 91, 98. -/
def Obligations.WordTraps : Prop :=
  (∀ (i : Instr) (c : Common) (s : State) (cause : Nat) (detail : Word),
    let x := s.ctx c
    trapRule i s x = some (c, cause, detail) → Acts s c → x.st.isRoutine = false → x.st.frame = none →
    ∃ t : Trap,
      exec i s = .next (withTrap (withStrand s s.cur.1 (parkedStrand x.st x.sp t)) x.st.part (queued s x.st s.cur.1 t)) ∧
      FrameOf x.st x.sp cause detail t ∧ t.tags = [] ∧ t.refused = [] ∧ t.posted = false ∧ t.needs = []) ∧
  ∀ (c : Common) (s : State) (a : Sel),
    let x := s.ctx c
    let l := x.st.scalar a
    let keys := if l.msb then mapSet x.st.callKeys x.sp.ovl (countOf x.st.callKeys x.sp.ovl - 1) else x.st.callKeys
    let ovl := if l.msb then l.toNat / 2 ^ 32 % 4096 else x.sp.ovl
    Acts s c → trapRule (.ret c a) s x = none →
    exec (.ret c a) s = .next { withStrand s s.cur.1 (wordDone s.now { x.st with callKeys := keys } (x.sp.goto ovl (l.toNat % 32768))) with
      overlays := if l.msb then quotaKept (withStrand s s.cur.1 { x.st with callKeys := keys }) x.st.core x.st.part else s.overlays }

namespace Sys2Proof.Claims

/-! ## Handlers -/

/-- The handler strand of R312: one strand at level K in the lowest free slot of the core, its registers zero but s1 to s4 as given, TGT naming its target, waiting for its entry overlay where that is not resident. -/
def handlerStrand (s : State) (core slot part asid target : Nat) (tile : Bool) (regs : List (Nat × Word)) (r : List Word) (segs : Map Seg) (params : List Word) : Strand :=
  let w := winOf (recH r) (recW r)
  { Strand.empty with
    core := core, slot := slot, s := regs, g := segs, params := params, window := w, launchWin := w, launch := s.nextLaunch, part := part, asid := asid, level := 1,
    prio := recPrio r, fpBase := recFpBase r, fpCount := recFpCount r, latSeed := s.fresh, placedAt := s.now, lastEnd := s.now, entryKey := some (recOverlay r), tgt := target,
    handler := some { target := target, resumed := false, tile := tile, tret := false },
    splits := [{ Split.none_ with mask := winMask w, ovl := recOverlay r, pc := recEntry r, lastIssue := s.now,
                                  run := if (s.resident core part (recOverlay r) false).isSome then .ready else .overlay (recOverlay r) }] }

/-- The state after a handler has started; none where no slot is free, the template's footprint conflicts (R312), or its overlay is none for level K (R301). -/
def withHandler (s : State) (core part asid target : Nat) (tile : Bool) (regs : List (Nat × Word)) : Option State :=
  match handlerTemplate s part asid, s.freeSlot core with
  | some (r, segs, ps), some slot =>
    let x := s.part part
    if s.footFree core (winOf (recH r) (recW r)) (recFpBase r) (recFpCount r) ∧ kernelOverlay s core part asid (recOverlay r) then
      some { s with
        launches := mapSet s.launches s.nextLaunch (handlerLaunch s part asid r), nextLaunch := s.nextLaunch + 1, fresh := s.fresh + 1,
        parts := mapSet s.parts part { x with nextIdent := x.nextIdent + 1 },
        strands := mapSet s.strands (16 * core + slot) (handlerStrand s core slot part asid target tile regs r segs ps) }
    else none
  | _, _ => none

/-- The handler a K strand runs as has issued a RESUME for its target. -/
def handlerMarked (st : Strand) : Option Handler :=
  st.handler.map fun h => if h.target = st.tgt then { h with resumed := true } else h

/-! ## Class 4 -/

/-- A system register that a K strand may write, and one that M firmware alone may (Table 18-2). -/
def kernelReg (n : Nat) : Bool := n = 0x010 || n = 0x011 || n = 0x020 || n = 0x102 || n = 0x103
def firmwareReg (n : Nat) : Bool := (1 ≤ n && n ≤ 4) || n = 0x012 || n = 0x013
def frameReg (n : Nat) : Bool := 0x100 ≤ n && n < 0x140
def listedReg (n : Nat) : Bool := kernelReg n || firmwareReg n || n = 0 || n = 0x021 || frameReg n || (0x200 ≤ n && n < 0x220)

/-- The pages of an area, where each can be reached (R307, R308). -/
def areaOf (s : State) (st : Strand) (va n acc : Nat) : Option (List (Tlb × Nat)) :=
  match areaFrames s (agentOf st) va acc (areaPages va n) with
  | .ok l => some l
  | .error _ => none

/-- The pages of an operation's area stand, or its access fails for another reason than a page, and its swept rows may be accessed (R125, R307). -/
def areaStands (s : State) (st : Strand) (va n acc : Nat) : Prop :=
  areaStill s (agentOf st) va acc n = true ∧ ∀ p, areaFrames s (agentOf st) va acc (areaPages va n) ≠ .error (.page p)

/-- What reaches a saved strand's registers from an operation that outlives its suspension (R258): scalar registers, status bits and flags. -/
def lateKind : LUpd → Bool
  | .s .. | .status _ | .flagFall .. => true
  | _ => false

/-- The last value that reached a saved strand's register. -/
def lateReg (l : List LUpd) (n : Nat) : Option Word :=
  l.reverse.findSome? fun u => match u with | .s m v => if m = n then some v else none | _ => none

/-- What a class 4 word makes outstanding; none where a check of its description fails or its area's pages cannot be reached. -/
def systemRule (i : Instr) (s : State) (x : Ctx) : Option (Common × OpKind) :=
  let st := x.st
  let target := mapGet s.strands st.tgt
  let parked := (target.bind (·.frame)).isSome
  let area := fun (c : Common) (a : Sel) (n acc : Nat) (k : OpKind) =>
    if (st.scalar a).toNat % 64 = 0 ∧ (areaOf s st (st.scalar a).toNat n acc).isSome then some (c, k) else none
  if st.level = 0 then none
  else match i with
  | .sysrd c n d =>
    if listedReg n.toNat ∧ (frameReg n.toNat → target.isSome ∧ ((st.handler.map (·.tile)).getD false = true → parked = true)) then some (c, .sysrd n.toNat (selNum d)) else none
  | .syswr c n a =>
    let v := st.scalar a
    let named := v.toNat % 2 ^ 12
    if (kernelReg n.toNat ∨ firmwareReg n.toNat ∧ 2 ≤ st.level) ∧ (frameReg n.toNat → parked) ∧
        (n.toNat = 0x020 → named / 16 = st.core ∧ ∃ q, mapGet s.strands named = some q ∧ q.part = st.part) then
      some (c, .syswr n.toNat v)
    else none
  | .genup c a =>
    let asid := (st.scalar a).toNat % 2 ^ 16
    let p := s.part st.part
    if p.asidFirst ≤ asid ∧ asid < p.asidFirst + p.asidCount then some (c, .genup asid (selNum a)) else none
  | .ctxsave c d a =>
    (target.bind fun q => area c a (saveBytes q) 1 (.ctxsave (selNum d) (st.scalar a).toNat))
  | .ctxload c d a =>
    if (areaOf s st (st.scalar a).toNat (loadSize s st (st.scalar a).toNat) 0).isSome then area c a imageBytes 0 (.ctxload (selNum d) (st.scalar a).toNat) else none
  | .accspill c d slot a => area c a 65536 1 (.accspill slot.toNat (selNum d) (st.scalar a).toNat)
  | .accfill c d slot a => if target.isSome then area c a 65536 0 (.accfill slot.toNat (selNum d) (st.scalar a).toNat) else none
  | _ => none

/-- The value of a system register (Table 18-2). -/
def sysRead (s : State) (st : Strand) (n : Nat) : Word :=
  let p := s.part st.part
  let target := mapGet s.strands st.tgt
  if n = 0x000 then BitVec.ofNat 64 (st.part % 2 ^ 6)
  else if n = 0x001 then BitVec.ofNat 64 (st.asid % 2 ^ 16 + 2 ^ 16 * (p.gen st.asid % 2 ^ 16))
  else if n = 0x002 then p.ktempl
  else if n = 0x003 then p.trapq
  else if n = 0x004 then p.pageq
  else if n = 0x010 then p.ovltab
  else if n = 0x011 then p.rtntab
  else if n = 0x012 then BitVec.ofNat 64 p.quota
  else if n = 0x013 then p.accarea
  else if n = 0x020 then BitVec.ofNat 64 (st.tgt % 2 ^ 12)
  else if n = 0x021 then
    match target with
    | none => 0
    | some q => if q.suspended then 4 else if q.frame.isSome then 3 else if ∃ sp ∈ q.splits, sp.run = .ready ∧ sp.atWait s q = false then 1 else 2
  else if n < 0x140 then match target.bind (·.frame) with | some t => t.word (n - 0x100) | none => 0
  else (s.accTag (32 * (st.core / 4) + (n - 0x200))).setWidth 64

/-- The state after a system register is written, but for FRAME2 and FRAME3 of a target no longer parked (R304). -/
def sysWritten (s : State) (k : Nat) (st : Strand) (n : Nat) (v : Word) : State :=
  let p := s.part st.part
  let put := fun (q : Part) => { s with parts := mapSet s.parts st.part q }
  let low := v.toNat % 2 ^ 16
  if n = 0x001 then
    { put { p with gens := mapSet p.gens low (v.toNat / 2 ^ 16 % 2 ^ 16) } with strands := mapSet s.strands k { st with asid := low } }
  else if n = 0x002 then put { p with ktempl := v }
  else if n = 0x003 then put { p with trapq := v }
  else if n = 0x004 then put { p with pageq := v }
  else if n = 0x010 then put { p with ovltab := v }
  else if n = 0x011 then put { p with rtntab := v }
  else if n = 0x012 then
    let q := v.toNat % 2 ^ 8
    { put { p with quota := q } with overlays := ((s.overlays.map (·.core)).eraseDups).foldl (fun l core => shrinkTo s core st.part q l.length l) s.overlays }
  else if n = 0x013 then put { p with accarea := v }
  else if n = 0x020 then { s with strands := mapSet s.strands k { st with tgt := v.toNat % 2 ^ 12 } }
  else match mapGet s.strands st.tgt with
    | some q => match q.frame with
      | some t => { s with strands := mapSet s.strands st.tgt { q with frame := some (if n = 0x102 then { t with w2 := v &&& 0xF0000FFF00007FFF#64 } else { t with detail := v }) } }
      | none => s
    | none => s

/-- The words stored over an area, eight bytes at a time. -/
def areaStored (s : State) (die : Nat) (deps : List Nat) (frames : List (Tlb × Nat)) (va : Nat) (ws : List Word) : State :=
  (List.range ws.length).foldl (fun t i =>
    storedAt t { die := die, deps := deps, key := areaKey frames va (8 * i), atomic := false, wil := none } (areaAt frames va (8 * i)) (wordBytes (ws.getD i 0))) s

/-- A strand moved from its slot to a save area: what names it names it by its new key (R307). -/
def movedOut (s : State) (k token addr : Nat) : State :=
  let key := 2 ^ 20 * (1 + s.nextOp) + k
  let moved := fun (q : Option Nat) => if q = some k then some key else q
  { s with
    ghosts := mapSet s.ghosts key (s.strand k), strands := mapDel s.strands k, nextOp := s.nextOp + 1,
    saved := s.saved ++ [{ token := token, addr := addr, key := key, pool := none, late := [] }],
    ops := s.ops.map fun o => if o.owner = k then { o with owner := key } else o,
    xbars := s.xbars.map fun e => (e.1, { e.2 with bound := moved e.2.bound }),
    parts := s.parts.map fun e => (e.1, { e.2 with
      reqs := e.2.reqs.map fun r => { r with strand := moved r.strand },
      traps := e.2.traps.map fun r => { r with strand := moved r.strand } }) }

/-- The bytes of an accumulator slot as a spill writes them, an element with a parity error as 0x7FC0_0000 (R308). -/
def slotWords (s : State) (cluster slot : Nat) : List Word :=
  (List.range 8192).map fun n => BitVec.ofNat 64 ((List.range 2).foldl (fun a j =>
    let pa := accPA cluster slot 0 (2 * n + j)
    a + (if s.accBad.contains pa then 0x7FC00000 else Memory.readN s.mem pa 4) * 2 ^ (32 * j)) 0)

/-- No tile record is held in a cluster and no strand is parked for an accumulator slot. -/
def NoneHeld (s : State) (cluster : Nat) : Prop :=
  (s.tile cluster).held = [] ∧ ∀ e ∈ s.strands, ∀ t, e.2.frame = some t → t.cause ≠ 0x11

/-- An accumulator slot freed or filled: its tag, and its parity errors gone. -/
def slotTagged (s : State) (cluster slot : Nat) (tag : BitVec 39) : State :=
  { s with
    accTags := mapSet s.accTags (32 * cluster + slot) tag,
    accBad := s.accBad.filter fun a => !(accPA cluster slot 0 0 ≤ a && a < accPA cluster slot 0 0 + 65536) }

end Sys2Proof.Claims

/-- R185, R310 to R313: TRAP at level U parks its split with cause 0x13 and the code in FRAME3, and starts a K handler on its core with TGT naming it, s1 the cause and s2 FRAME0; where none can start, the frame goes to the trap queue. Nothing else changes. Rests on choices of the model: logs 18, 91. -/
def Obligations.TrapStartsHandler : Prop :=
  ∀ (c : Common) (code : BitVec 16) (s : State), Acts s c →
    let x := s.ctx c
    let k := s.cur.1
    x.st.level = 0 → x.st.isRoutine = false → x.st.frame = none → x.st.core * 16 + x.st.slot = k →
    ∃ t : Trap, FrameOf x.st x.sp 0x13 (code.setWidth 64) t ∧
      let u := withStrand s k (parkedStrand x.st x.sp t)
      exec (.trap c code) s = .next ((withHandler u x.st.core x.st.part x.st.asid k false [(1, 0x13), (2, t.word 0)]).getD (withTrap u x.st.part (queued s x.st k t)))

/-- R306, R315: RESUME returns its target from its trap, RESUME.end retires it, TRET retires the handler and posts the frame of a target still parked that it has not resumed. Nothing else changes. Rests on choices of the model: logs 46, 76, 92. -/
def Obligations.TrapReturns : Prop :=
  ∀ (c : Common) (s : State), Acts s c →
    let x := s.ctx c
    let k := s.cur.1
    let after := fun (kind : OpKind) => { issued x s 1 none kind with strands := mapSet s.strands k { afterIssue x s 1 with handler := handlerMarked x.st } }
    x.st.level ≠ 0 →
    (∀ q t, x.st.tgt ≠ k → Parked (after .resume) x.st.tgt q t → exec (.resume c) s = .next (resumed (after .resume) x.st.tgt q t)) ∧
    (∀ q t l, x.st.tgt ≠ k → q.frame = some t → q.splits ≠ [] → Retires (after (.resumeEnd x.st.tgt)) x.st.tgt q l →
      exec (.resumeEnd c) s = .next (retired (after (.resumeEnd x.st.tgt)) x.st.tgt q l)) ∧
    (∀ l, x.st.splits = [x.sp] → (∀ f < 12, x.st.flag f = 0) → Retires s k x.st l →
      exec (.tret c) s = .next (
        let posts := fun (h : Handler) (q : Strand) (t : Trap) => retired (withTrap s q.part (queued s q h.target t)) k x.st l
        match x.st.handler with
        | none => retired s k x.st l
        | some h => if h.tile || h.resumed then retired s k x.st l
          else match mapGet s.strands h.target with
            | none => retired s k x.st l
            | some q => match q.frame with
              | none => retired s k x.st l
              | some t => posts h q t))

/-- R302 to R308: a class 4 word other than RESUME and TRET makes its operation outstanding with what it has read and does nothing else. -/
def Obligations.SystemIssues : Prop :=
  ∀ (i : Instr) (c : Common) (s : State) (kind : OpKind),
    systemRule i s (s.ctx c) = some (c, kind) → Acts s c → exec i s = .next (issued (s.ctx c) s 1 none kind)

/-- R302 to R308: SYSTEM_INSTRUCTION_COMPLETE gives each class 4 operation its result and ends it; nothing else changes. Rests on choices of the model: logs 15, 47. -/
def Obligations.SystemCompletes : Prop :=
  ∀ (s : State) (o : Op) (st : Strand), Outstanding s o st → o.tl = none → (s.ops.map (·.id)).Nodup → keysRise s.xbars = true → keysRise s.parts = true →
    let done := fun (t : State) => exec (.systemInstructionComplete o.id) s = .next (ended t (t.strand o.owner) o [])
    let wrote := fun (a t : State) => exec (.systemInstructionComplete o.id) s = .next (ended t (t.strand o.owner) o (a.stillPending (writesSince s a)))
    let status := fun (t : State) (d n : Nat) => onStrand t o.owner fun q => q.applyL (.s d (BitVec.ofNat 64 n))
    let p := s.part st.part
    let cl := st.core / 4
    (∀ n d, o.kind = .sysrd n d → listedReg n = true → done (onStrand s o.owner fun q => q.applyL (.s d (sysRead s st n)))) ∧
    (∀ n v, o.kind = .syswr n v → kernelReg n ∨ firmwareReg n → st.tgt ≠ o.owner → done (sysWritten s o.owner st n v)) ∧
    (∀ asid r, o.kind = .genup asid r →
      if p.gen asid = 0xFFFF then done (onStrand s o.owner fun q => q.applyL (.s r (BitVec.allOnes 64)))
      else done (onStrand { s with parts := mapSet s.parts st.part { p with gens := mapSet p.gens asid (p.gen asid + 1) } } o.owner fun q =>
        q.applyL (.s r (BitVec.ofNat 64 (p.gen asid + 1))))) ∧
    (o.kind = .resume → done s) ∧
    (∀ k, o.kind = .resumeEnd k → (∀ q, mapGet s.strands k = some q → q.endCode ≠ some 0) → done s) ∧
    (∀ d addr, o.kind = .ctxsave d addr → startReady s o st.die = true → areaStands s st addr (saveBytes (s.strand st.tgt)) 1 → (∀ p ∈ s.ops, p.owner ≠ st.tgt ∨ p.kind.writesLanes = false) → st.tgt ≠ o.owner →
      match mapGet s.strands st.tgt with
      | none => done (status s d 1)
      | some q =>
        if q.suspended = false ∧ q.frame = none then done (status s d 1)
        else match areaOf s st addr (saveBytes q) 1 with
          | none => done (status s d 2)
          | some frames =>
            let t := areaStored (spanned s (areaSpan frames addr (saveBytes q))) st.die o.dep frames addr (saveWords s st.tgt s.nextOp)
            wrote t (status (movedOut t st.tgt s.nextOp addr) d 0)) ∧
    (∀ slot d addr, o.kind = .accspill slot d addr → startReady s o st.die = true → areaStands s st addr 65536 1 → (∀ t ∈ (s.tile cl).running, t.slot ≠ slot) → NoneHeld s cl →
      match areaOf s st addr 65536 1 with
      | none => done (status s d 2)
      | some frames =>
        let t := areaStored (spanned s (areaSpan frames addr 65536)) st.die o.dep frames addr (slotWords s cl slot)
        wrote t (status (slotTagged t cl slot 0) d (if (List.range 16384).any fun n => s.accBad.contains (accPA cl slot 0 n) then 1 else 0))) ∧
    (∀ slot d addr frames, o.kind = .accfill slot d addr → startReady s o st.die = true → areaStands s st addr 65536 0 → (∀ t ∈ (s.tile cl).running, t.slot ≠ slot) → NoneHeld s cl →
      areaOf s st addr 65536 0 = some frames → s.poison = [] →
      let owner := s.strand st.tgt
      let u := spanned s (areaSpan frames addr 65536)
      done (status (slotTagged { u with
        mem := (List.range 16384).foldl (fun m n => putBytes m (accPA cl slot 0 n) (bytesOf (u.viewKN st.die (areaKey frames addr (4 * n)) (areaAt frames addr (4 * n)) 4) 4)) s.mem }
          cl slot (ownerTag owner.part (launchIdent s owner.launch))) d 0))

/-- R307: CTXLOAD reports 3 where the image is of no saved strand or of another core or partition, 1 where no slot is free, 2 where its footprint conflicts; else the strand stands in the lowest free slot again with the image's registers, TGT names it and the status is 0. Rests on choices of the model: logs 15, 46, 90. -/
def Obligations.ContextLoads : Prop :=
  ∀ (s : State) (o : Op) (st : Strand) (d addr : Nat) (frames all : List (Tlb × Nat)) (x : Saved),
    Outstanding s o st → o.tl = none → o.kind = .ctxload d addr → areaOf s st addr imageBytes 0 = some frames → s.poison = [] →
    startReady s o st.die = true → areaStands s st addr (loadSize s st addr) 0 →
    let u := (noteLines ((areaSpan frames addr imageBytes).map fun p => (p.1.key, p.2))).run s
    let done := fun (n : Nat) => exec (.systemInstructionComplete o.id) s = .next (
      let t := onStrand u o.owner fun q => q.applyL (.s d (BitVec.ofNat 64 n))
      ended t (t.strand o.owner) o [])
    let w := areaWord u st.die frames addr
    let q := s.strand x.key
    ((∀ y ∈ s.saved, y.pool = none → BitVec.ofNat 64 y.token ≠ w 0x1C0) → done 3) ∧
    (s.saved = [x] → x.pool = none → BitVec.ofNat 64 x.token = w 0x1C0 →
      if fieldOf (w 0xEC) 24 8 ≠ st.core ∨ fieldOf (w 0xEC) 32 6 ≠ st.part ∨ q.core ≠ st.core ∨ q.part ≠ st.part then done 3
      else match s.freeSlot st.core with
        | none => done 1
        | some slot =>
          if s.footFree st.core q.launchWin q.fpBase q.fpCount = false then done 2
          else areaOf u st addr (saveBytes q) 0 = some all → x.late.all lateKind = true → o.owner < 4096 → x.key ∉ s.strands.map (·.1) → 2 ^ 20 ≤ x.key →
            ∃ t r, exec (.systemInstructionComplete o.id) s = .next t ∧ t.saved = [] ∧
              mapGet t.strands (16 * st.core + slot) = some r ∧ r.core = st.core ∧ r.slot = slot ∧ r.frame.isSome = q.frame.isSome ∧ r.suspended = q.suspended ∧
              (∀ n, 1 ≤ n → n < 32 → r.sreg n = (lateReg x.late n).getD (areaWord u st.die all addr n)) ∧
              r.window = areaWord u st.die all addr 0xE9 &&& 0xFFFFFF#64 ∧ r.number = fieldOf (areaWord u st.die all addr 0xEB) 32 32 ∧
              r.level = fieldOf (areaWord u st.die all addr 0xEA) 36 2 ∧
              (t.strand o.owner).tgt = 16 * st.core + slot ∧ (d ≠ 0 → (t.strand o.owner).sreg d = 0))

namespace Sys2Proof.Claims

/-! ## The start and the end of a routine -/

/-- The first load of a K overlay extends its partition's measurement (R390). -/
def overlayMeasured (s : State) (o : Overlay) : State :=
  let x := s.part o.part
  if o.kbit ∧ o.hash ∉ x.kLoads then
    { s with
      parts := mapSet s.parts o.part { x with kLoads := x.kLoads ++ [o.hash] },
      measured := mapSet s.measured (16 + o.part) (Config.sha384 (hashWords 384 ((mapGet s.measured (16 + o.part)).getD 0) ++ hashWords 128 o.hash)) }
  else s

/-- The pages of a command's range, from its first (R143). -/
def rangeVAs (cmd : Cmd) : List Nat :=
  let target := (cmd.packet.getD 1 0).toNat
  let len := (cmd.packet.getD 2 0).toNat
  if len = 0 then [] else (List.range ((target + len - 1) / 8192 - target / 8192 + 1)).map fun i => (target / 8192 + i) * 8192 % 2 ^ 64

/-- The code a page refuses the command with (R143); none where it does not. -/
def pageCode (s : State) (part asid stack va : Nat) : Option Nat :=
  match walkPage s 256 part asid va 0 with
  | .error _ => some 3
  | .ok t =>
    if !(pteBit t.rights 0 && pteBit t.rights 4) || t.cls ≠ 0 || t.frame * 8192 / 2 ^ 36 ≠ stack then some 3
    else if t.key ≠ 0 then some 2
    else none

/-- The routine as it starts, or as it stands ended where its command is refused, with the writes that happen before it (R143, R144, R151). -/
def routineStrand (s : State) (w : Nat) (cmd : Cmd) (caller : Strand) (dep : List Nat) (code : Option Nat) : Strand :=
  let r := fun (n : Nat) => cmd.packet.getD n 0
  let count := (r 0).toNat / 2 ^ 32 % 16
  { Strand.empty with
    core := 256 + w, window := winOf 8 8, launchWin := winOf 8 8, fpCount := 256,
    s := (2, r 2) :: (List.range 8).map fun i => (8 + i, if i < count then (if i < 4 then r (3 + i) else cmd.a4.getD (i - 4) 0) else 0),
    g := [(0, { base := r 1, limit := r 2, attr := 0x1800, win := none })],
    launch := caller.launch, number := caller.number, part := caller.part, asid := caller.asid, latSeed := s.fresh, lastEnd := s.now, placedAt := s.now,
    routine := some ((r 1).toNat, (r 2).toNat, true), endCode := code, dep := dep,
    splits := [{ Split.none_ with mask := winMask (winOf 8 8), ovl := (r 0).toNat % 2 ^ 16, pc := (r 0).toNat / 2 ^ 16 % 2 ^ 16, lastIssue := s.now, dep := dep }] }

/-- The state after a core has taken its next command (R143, R144): the routine runs, or stands ended with the code that refuses it. -/
def routineStarted (s : State) (w : Nat) (cmd : Cmd) (rest : List Cmd) (o : Op) : State :=
  let caller := s.strand o.owner
  let x := s.wil w
  let idx := (cmd.packet.getD 0 0).toNat % 2 ^ 16
  let refused := (rangeVAs cmd).findSome? (pageCode s caller.part caller.asid (w / 16))
  let load := if refused.isNone then loadRoutine s w caller.part caller.asid idx else none
  let code := if refused.isSome then refused else if load.isNone then some 7 else none
  let keys := (List.range cmd.slice.length).map fun i =>
    laneAtIn (256 + w) (winOf 8 8) (i / ((cmd.packet.getD 0 0).toNat / 2 ^ 36 % 16)) (i % ((cmd.packet.getD 0 0).toNat / 2 ^ 36 % 16))
  let t := { s with
    wilnum := mapSet s.wilnum w { x with fifo := rest, running := some cmd, starts := x.starts + 1, own := [], others := [] }, fresh := s.fresh + 1, overlays := load.getD s.overlays,
    strands := mapSet s.strands (4096 + w) (routineStrand s w cmd caller (s.stillPending o.behind) code),
    lanes := sliceLanes s w cmd (code = none), lanesBad := if code = none then s.lanesBad.filter fun k => !keys.contains k else s.lanesBad }
  let die := caller.die
  if load.isSome ∧ s.resident (256 + w) caller.part idx true = none then
    let src := ((ovlEntry s caller.part caller.asid true idx).map fun e => BitVec.ofNat 64 e.src).getD 0
    let u := (noteSource caller.part caller.asid true idx).run t
    let u := match u.resident (256 + w) caller.part idx true with
      | some o => overlayMeasured u o
      | none => u
    meshSent (meshSent u (w / 16) (2 * die) 2 src) (2 * die) (w / 16) 3 src
  else t

/-- The lane-file words, status word and status bits a routine's end gives its caller (R147, R148). -/
def routineResults (s : State) (w : Nat) (cmd : Cmd) (st : Strand) (code dKey : Nat) : List LUpd :=
  let n := (cmd.packet.getD 0 0).toNat / 2 ^ 36 % 16
  (if (cmd.packet.getD 0 0).getLsbD 60 ∧ code = 0 then
    (List.range cmd.slice.length).map fun i =>
      .lane (cmd.slice.getD i (0, 0)).1 0xFFFFFFFF#32 (s.laneWord st (laneAtIn (256 + w) (winOf 8 8) (i / n) (i % n)))
  else []) ++
  [.lane dKey 0xFFFFFFFF#32 (BitVec.ofNat 32 ((st.sreg 1).toNat % 2 ^ 24 * 2 ^ 8 + code * 2 ^ 4 + (if code = 0 then 0 else 2) + 1)),
   .status (st.delayed.foldl (fun a d => match d.2 with | .status v => a ||| v | _ => a) st.status)]

/-- A physical address lies in a line of the command's range (R147). -/
def inRange (s : State) (cmd : Cmd) (part asid pa : Nat) : Bool :=
  let target := (cmd.packet.getD 1 0).toNat
  let len := (cmd.packet.getD 2 0).toNat
  len ≠ 0 && (List.range ((target + len - 1) / 8192 - target / 8192 + 1)).any fun i =>
    match walkPage s 256 part asid ((target / 8192 + i) * 8192 % 2 ^ 64) 0 with
    | .ok t =>
      let va := (target / 8192 + i) * 8192 + pa % 8192
      pa / 8192 = t.frame && target / 64 ≤ va / 64 && va / 64 ≤ (target + len - 1) / 64
    | .error _ => false

/-- The state without the copies of a range's lines: every die reads what stands at home, and the waits there fire (R135, R147). -/
def rangeDropped (s : State) (cmd : Cmd) (part asid : Nat) : State :=
  let hit := fun (c : Host.Cell) => inRange s cmd part asid c.1
  let t := { s with pend := (s.pend.map fun p => { p with old := p.old.filter fun c => !hit c }).filter fun p => p.old ≠ [] }
  (s.pend.flatMap fun p => (p.old.filter hit).map fun c => (p.die, c.1)).foldl (fun t e => t.fire false [e.1] e.2 1) t

/-- The state in which each word that the routine and another agent have both stored to holds the value of either, the waits there fired (R135, R152). -/
def rangeMixed (s : State) (w : Nat) : State :=
  (s.wil w).own.foldl (fun t e =>
    match mapGet (s.wil w).others e.1 with
    | some v =>
      let want := if Config.earlyWrite s.fresh e.1 then e.2 else v
      if BitVec.ofNat 32 (Memory.readN s.mem e.1 4) = want then t
      else (State.cover { t with mem := putBytes t.mem e.1 (bytesOf want.toNat 4) } [0, 1, 2, 3] e.1 4).fire true [0, 1, 2, 3] e.1 4
    | none => t) { s with fresh := s.fresh + 1 }

/-! ## Tile tasks -/

/-- A cluster's tile side changed. -/
def onTile (s : State) (cl : Nat) (f : TileSched → TileSched) : State := { s with tiles := mapSet s.tiles cl (f (s.tile cl)) }

/-- w6 of a record as the engine writes it back (R263). -/
def doneWord (r : List Word) (slot code : Nat) : Word :=
  let v := (r.getD 6 0).toNat
  BitVec.ofNat 64 (v / 2 ^ 24 * 2 ^ 24 + slot % 256 * 2 ^ 16 + 2 ^ 15 + code % 128 * 2 ^ 8 + v % 256)

/-- The state after a record has ended: w6 written as one store, after the task's own, and the signal's arrival counted, which releases every write since a state (R263, R282). -/
def recordEnded (s since : State) (cl : Nat) (l : TileLink) (r : List Word) (slot code : Nat) (at_ : List (Tlb × Nat)) : State :=
  let own := joinDeps l.dep (writesSince since s)
  let t := spanned ((engineStore { die := cl / 16, deps := own, key := 0, atomic := false, wil := none } 8 (at_.zip (wordBytes (doneWord r slot code)))).run s) at_
  let v := (r.getD 6 0).toNat
  if v / 2 ^ 7 % 2 = 1 then
    let k := 8 * l.launch + v / 2 ^ 4 % 8
    let n := (t.tl k).count + 1
    { t with tls := mapSet t.tls k { count := n, arr := (t.tl k).arr ++ [(n, t.stillPending (joinDeps l.dep (writesSince since t)))] } }
  else t

/-- The slot a held record issues to on an engine (R261); none where it may not issue there. -/
def slotFor (x : TileSched) (index engine : Nat) (t : TileTask) : Option Nat :=
  let named := fun (t : TileTask) => (t.rec_.getD 0 0).toNat / 2 ^ 8 % 256
  let before := x.held.take index
  if 8 ≤ engine ∨ ∃ q ∈ x.running, q.engine = engine then none
  else if named t = 255 then
    if ∃ b ∈ before, named b = 255 then none
    else [4 * engine, 4 * engine + 1, 4 * engine + 2, 4 * engine + 3].find? fun n => (x.held.all fun h => named h ≠ n) && x.running.all fun q => q.slot ≠ n
  else if named t / 4 = engine ∧ ∀ b ∈ before, named b ≠ 255 → named b / 4 ≠ engine then some (named t)
  else none

/-- The wait of a record holds, and what it acquires (R261, R286). -/
def recordWait (s : State) (t : TileTask) : Option (List Nat) :=
  let v := (t.rec_.getD 6 0).toNat
  let tl := s.tl (8 * t.link.launch + v % 8)
  if v / 2 ^ 3 % 2 = 0 then some []
  else if (t.rec_.getD 5 0).toNat ≤ tl.count then some ((tl.arr.filter fun e => e.1 ≤ (t.rec_.getD 5 0).toNat).flatMap (·.2)) else none

/-- The identity words of a record's appending strand (R313, R392). -/
def recordIdent (s : State) (l : TileLink) : Word :=
  BitVec.ofNat 64 (l.owner % 2 ^ 20 / 16 % 256 + l.owner % 16 * 2 ^ 8 + l.level % 4 * 2 ^ 12 + launchIdent s l.launch % 2 ^ 32 * 2 ^ 32)

/-- Slot elements with new bits, their parity errors gone. -/
def withElems (s : State) (cl slot : Nat) (vals : List (Nat × Nat)) : State :=
  { s with
    mem := vals.foldl (fun m v => putBytes m (accPA cl slot 0 v.1) (bytesOf v.2 4)) s.mem,
    accBad := s.accBad.filter fun a => !(vals.any fun v => accPA cl slot 0 v.1 = a) }

/-- The dot product of R262, k ascending, one rounding to f32 a step (R39). -/
def dotProduct (K : Nat) (a b : Nat → FVal) (c : Nat) : Nat :=
  (List.range K).foldl (fun acc k => (fmaVal 1 0 (a k) (b k) (decodeF 1 acc)).1) c

/-! ## Overlays -/

/-- A load of an overlay on a core: its status (Table 9-8), the residents after it, and the writes it acquires. Each word of the source is one it held between the issue of the OVLD and now (R104, R193, R288, R318). -/
def overlayLoad (s : State) (core part asid idx : Nat) : Nat × List Overlay × List Nat :=
  match ovlEntry s part asid false idx with
  | none => (5, s.overlays, [])
  | some e =>
    match s.resident core part idx false with
    | some o =>
      if o.hash = e.hash then (1, s.overlays, [])
      else if s.keyCount core part idx ≠ 0 then (3, s.overlays, [])
      else fresh e
    | none => fresh e
where
  fresh (e : OvlEntry) : Nat × List Overlay × List Nat :=
    if e.kbit ∧ Config.overlaySignatureVerifies part e.hash = false then (2, s.overlays, [])
    else match sourceWords s core part asid e.src (e.granules * 256) with
    | .error n => (n, s.overlays, [])
    | .ok words =>
      let found := oldWords (joinedLoads s core part idx) e.src
      let ws := (List.range words.length).map fun i => if i < found.length ∧ Config.earlyWrite s.fresh i then found.getD i (0, []) else words.getD i (0, [])
      let o : Overlay := { core := core, part := part, idx := idx, routine := false, granules := e.granules, hash := e.hash, kbit := e.kbit, code := ws.map (·.1),
                           slots := [], lastCall := s.now, stale := false }
      let rest := s.overlays.filter fun p => !(p.core = core && p.part = part && p.idx = idx && !p.routine)
      match makeRoom s o (s.part part).quota (rest.length + 1) rest with
      | some l => (0, placeOverlay l o, ws.foldl (fun a w => joinDeps a w.2) [])
      | none => (4, s.overlays, [])

/-- The state with a load's residents, the lines read of the source kept under their keys, a K overlay measured. -/
def overlayLoaded (s : State) (core part asid idx : Nat) (r : Nat × List Overlay × List Nat) : State :=
  let s := (noteLoad part asid idx r).run s
  let t := { s with overlays := r.2.1, fresh := s.fresh + 1 }
  match r.2.1.find? fun o => o.core = core && o.part = part && o.idx = idx && !o.routine with
  | some o => if r.1 = 0 then overlayMeasured t o else t
  | none => t

/-- A load of an overlay on a core ends for one strand alone: the OVLDs that joined it are these, whose stores and acquires before them are done, and no split but one, if any, waits for it. -/
def LoadsFor (s : State) (core part idx : Nat) (l : List Op) (but : Option (Nat × Nat)) : Prop :=
  joinedLoads s core part idx = l ∧ loadReady s core part idx = true ∧ ∀ e ∈ s.strands, e.2.core = core → e.2.part = part → ∀ sp ∈ e.2.splits, sp.run = .overlay idx → but = some (e.1, sp.num)

/-- A handler, where the strand is at level U and one can start; else the frame to the trap queue (R311 to R314). -/
def handled (s : State) (k : Nat) (st : Strand) (t : Trap) : State :=
  let q := withTrap s st.part (queued s st k t)
  if st.level ≠ 0 then q
  else (withHandler s st.core st.part st.asid k false [(1, BitVec.ofNat 64 t.cause), (2, t.word 0)]).getD q

end Sys2Proof.Claims

/-- R146 to R148, R227: in a routine NMRET ends it with code 0, and ZSKIP is outstanding with the index at sA of g0 and the next offset, or with all ones where the stream is exhausted; PLANE_COMPLETE writes both. Nothing else changes. Rests on choices of the model: logs 14, 96. -/
def Obligations.RoutineWords : Prop :=
  (∀ (c : Common) (s : State), Acts s c →
    let x := s.ctx c
    x.st.isRoutine = true →
    exec (.nmret c) s = .next (withStrand s s.cur.1 { x.st with
      lastEnd := s.now, lastIssue := s.now, endCode := some 0, splits := x.st.splits.map fun y => { y with run := .parked } }) ∧
    ∀ d a b : Sel,
      let off := (x.st.scalar a).toNat
      let out := fun (t : State) (v next : Word) => exec (.zskip c d a b) s = .next (issued x t 1 none (.zskip (selNum d) (selNum a) v next))
      let addr := ((x.st.segreg 0).base.toNat + off) % 2 ^ 64
      if (x.st.scalar b).toNat ≤ off then out s (BitVec.allOnes 64) (x.st.scalar a)
      else off % 4 = 0 → addr % 4 = 0 → off + 4 ≤ (x.st.segreg 0).limit.toNat → ∀ l,
        engineSpan s { part := x.st.part, asid := x.st.asid, level := 0, cluster := 0, die := x.st.die } addr 0 4 = .ok l →
        (∀ p ∈ l, recordBlocked s x p.1.cls p.2 1 = false) →
        out (spanned s l) (BitVec.ofNat 64 (l.foldr (fun p v => s.homeKN p.1.key p.2 1 + 256 * v) 0)) (x.st.scalar a + 4)) ∧
  ∀ (s : State) (o : Op) (st : Strand) (d a : Nat) (v next : Word),
    Outstanding s o st → o.tl = none → o.kind = .zskip d a v next →
    let t := onStrand s o.owner fun q => (if v = BitVec.allOnes 64 then q else q.applyL (.s a next)).applyL (.s d v)
    exec (.planeComplete o.id) s = .next (ended t (t.strand o.owner) o [])

/-- R138, R143, R144, R147, R148: ROUTINE_START takes the next command and starts its routine, or leaves it ended with the code that refuses it; ROUTINE_END drops the range's visitor copies, gives the caller its words, status word and status bits, ends the call and frees the core. Nothing else changes. Rests on choices of the model: logs 6, 38, 39, 88, 89, 96. -/
def Obligations.RoutinesRun : Prop :=
  (∀ (s : State) (w : Nat) (cmd : Cmd) (rest : List Cmd) (o : Op),
    w < 128 → (s.wil w).running = none → (s.wil w).fifo = cmd :: rest → s.op? cmd.op = some o → waitingCmds s w = [] →
    exec (.routineStart w) s = .next (routineStarted s w cmd rest o)) ∧
  ∀ (s : State) (w : Nat) (cmd : Cmd) (st : Strand) (code : Nat) (o : Op) (caller : Strand) (dKey : Nat) (c : Cmd),
    (s.wil w).running = some cmd → mapGet s.strands (4096 + w) = some st → st.endCode = some code → (∀ p ∈ s.ops, p.owner ≠ 4096 + w) →
    waitingCmds s w = [] → o.id = cmd.op → Outstanding s o caller → o.owner ≠ 4096 + w → o.kind = .nmcall dKey c → Unlogged s caller.launch →
    let a := rangeDropped (rangeMixed s w) cmd st.part st.asid
    let b := delivered a o.owner (routineResults s w cmd st code dKey)
    let t := meshSent (ended b (b.strand o.owner) o (a.stillPending st.dep)) (w / 16) (2 * caller.die) 1 (BitVec.ofNat 64 o.id)
    let u := { t with
      strands := mapDel t.strands (4096 + w), wilnum := mapSet t.wilnum w { (t.wil w) with running := none, last := some ((routineStatus st code).setWidth 32) } }
    exec (.routineEnd w) s = .next { u with overlays := quotaKept u (256 + w) st.part }

/-- R261, R263, R317, R392: the head record of a tile chain is held, or refused with code 1, or lost with a trap-queue record; a held record issues to its engine and claims its slot, or is held for its slot's owner, for which a handler starts. Nothing else changes. Rests on choices of the model: logs 18, 48. -/
def Obligations.TileRecords : Prop :=
  (∀ (s : State) (cl : Nat) (l : TileLink) (rest : List TileLink),
    (s.tile cl).chain = l :: rest → (s.tile cl).held.length < 16 → l.idle = true → spanStill s (tileSpan s cl l) = true → depsVisible s l.dep [cl / 16] = true → Unlogged s l.launch →
    let take := fun (t : State) => exec (.tileRecordTake cl) s = .next t
    let u := spanned s (tileSpan s cl l)
    let taken := onTile u cl fun x => { x with chain := rest }
    (∀ r, tileRead s cl l = .ok r →
      (tkRefused r = false → take (onTile u cl fun x =>
        { x with chain := rest, held := x.held ++ [{ link := { l with tags := [] }, rec_ := r, slot := (r.getD 0 0).toNat / 2 ^ 8 % 256, engine := 0, held := false }] })) ∧
      (∀ at_, tkRefused r = true → tkDoneAt s cl l = .ok at_ → take (recordEnded taken s cl l r ((r.getD 0 0).toNat / 2 ^ 8 % 256) 1 at_))) ∧
    (tileRead s cl l = .error .perm → take (withTrap taken l.part
      { w0 := 0x31E, w1 := BitVec.ofNat 64 l.addr, w2 := 0, w3 := recordIdent s l, w4 := BitVec.ofNat 64 l.number, strand := none }))) ∧
  ∀ (s : State) (cl index engine slot : Nat) (t : TileTask) (acquired : List Nat),
    let x := s.tile cl
    let l := t.link
    let key := 32 * cl + slot
    let tag := ownerTag l.part (launchIdent s l.launch)
    x.held[index]? = some t → slotFor x index engine t = some slot → recordWait s t = some acquired → t.held = false → energySpent s 4 (cl / 16) = false →
    Unlogged s l.launch →
    ((s.accTag key).getLsbD 38 = false ∨ s.accTag key = tag →
      exec (.tileTaskIssue cl index engine) s = .next { (onTile s cl fun x => { x with
        held := x.held.eraseIdx index,
        running := x.running ++ [{ t with link := { l with dep := s.stillPending (joinDeps l.dep acquired) }, slot := slot, engine := engine }] }) with
        accTags := mapSet s.accTags key tag }) ∧
    ((s.accTag key).getLsbD 38 = true → s.accTag key ≠ tag → (s.accTag key).toNat / 2 ^ 32 % 64 = l.part →
      let u := onTile s cl fun x => { x with held := x.held.set index { t with held := true } }
      exec (.tileTaskIssue cl index engine) s = .next (
        (withHandler u (l.owner % 2 ^ 20 / 16) l.part l.asid (l.owner % 2 ^ 20) true [(1, 0x11), (2, 0x11), (3, BitVec.ofNat 64 slot), (4, BitVec.ofNat 64 l.addr)]).getD
          (withTrap u l.part { w0 := 0x11, w1 := 0, w2 := BitVec.ofNat 64 slot, w3 := recordIdent s l, w4 := BitVec.ofNat 64 l.number, strand := none })))

/-- R39, R262, R263: TILE_TASK_COMPLETE of a multiplication gives each of its M × N elements its dot product, of a zero task +0, and of an output task stores the rounded elements; w6 is written with code 0, the signal counted, the engine free. Nothing else changes. Rests on choices of the model: logs 30, 94. -/
def Obligations.TileTasks : Prop :=
  ∀ (s : State) (cl index : Nat) (t : TileTask) (at_ : List (Tlb × Nat)),
    let r := t.rec_
    let l := t.link
    (s.tile cl).running[index]? = some t → l.idle = true → t.still s cl = true → depsVisible s l.dep [cl / 16] = true → Unlogged s l.launch → tkDoneAt s cl l = .ok at_ →
    let done := fun (u : State) =>
      exec (.tileTaskComplete cl index) s = .next (onTile (recordEnded (spanned u (t.span s cl)) s cl l r t.slot 0 at_) cl fun x => { x with running := x.running.eraseIdx index })
    let elems := (List.range (tkM r)).flatMap fun m => (List.range (tkN r)).map fun n => (m, n)
    let old := fun (m n : Nat) => if tkOver r then 0 else Memory.readN s.mem (accPA cl t.slot 0 (m * 128 + n)) 4
    (∀ as bs : Nat → Nat → FVal, tkOp r = 1 →
      (∀ m < tkM r, ∀ k < tkK r, tileElem s (l.agent cl) (recWord r 1) (tkFmtA r) (tkPitchA r) m k = .ok (as m k)) →
      (∀ n < tkN r, ∀ k < tkK r, tileElem s (l.agent cl) (recWord r 3) (tkFmtB r) (tkPitchB r) n k = .ok (bs n k)) → s.accBad = [] →
      done (withElems s cl t.slot (elems.map fun e => (e.1 * 128 + e.2, dotProduct (tkK r) (as e.1) (bs e.2) (old e.1 e.2))))) ∧
    (tkOp r = 3 → done (withElems s cl t.slot (elems.map fun e => (e.1 * 128 + e.2, 0)))) ∧
    (∀ bytes : Nat → Nat → List ((Tlb × Nat) × Byte), tkOp r = 4 → s.accBad = [] →
      (∀ m < tkM r, ∀ n < tkN r, outElem s cl t m n = .ok (bytes m n)) →
      done ((engineStore { die := cl / 16, deps := l.dep, key := 0, atomic := false, wil := none } 4 (elems.flatMap fun e => bytes e.1 e.2)).run s))

/-- R102 to R105, R187, R193, R318, R327, R390: a load ends with its status and residents; a CALLO's strand goes on to execute it again, a placed strand begins, and a load that fails sends its strand's miss, with the status as detail, to a handler. Nothing else changes. Rests on choices of the model: logs 18, 87, 88, 115. -/
def Obligations.OverlayLoads : Prop :=
  (∀ (s : State) (o : Op) (st : Strand) (idx d : Nat), Outstanding s o st → o.tl = none → ∀ src old, o.kind = .ovld idx d src old →
    LoadsFor s st.core st.part idx [o] none →
    let r := overlayLoad s st.core st.part st.asid idx
    let t := onStrand (following (overlayLoaded s st.core st.part st.asid idx r) o.owner o.id (s.stillPending r.2.2) []) o.owner fun q => q.applyL (.s d (BitVec.ofNat 64 r.1))
    exec (.ovlInstall o.id) s = .next (ended t (t.strand o.owner) o r.2.2)) ∧
  (∀ (s : State) (k n idx : Nat) (st : Strand) (t : Trap), mapGet s.strands k = some st → (st.splitOf n).run = .overlay idx → (st.splitOf n).num = n →
    st.frame = some t → t.split = n → t.cause = 0x05 → LoadsFor s st.core st.part idx [] (some (k, n)) → Parked s k st t → (∀ i, t.was ≠ .overlay i) → (∀ o w, t.was ≠ .merge o w) →
    let r := overlayLoad s st.core st.part st.asid idx
    (r.1 ≤ 1 → (overlayLoaded s st.core st.part st.asid idx r).resident st.core st.part idx false ≠ none →
      exec (.overlayMissLoad k n) s = .next (resumed (overlayLoaded s st.core st.part st.asid idx r) k st t)) ∧
    (1 < r.1 → s.resident st.core st.part idx false = none → let u := { t with detail := BitVec.ofNat 64 r.1 }
      exec (.overlayMissLoad k n) s = .next (handled (withStrand { s with fresh := s.fresh + 1 } k { st with frame := some u, splits := putSplit st.splits { (st.splitOf n) with run := .parked } }) k st u))) ∧
  ∀ (s : State) (k idx : Nat) (st : Strand) (sp : Split), mapGet s.strands k = some st → st.frame = none → st.splits = [sp] → sp.run = .overlay idx → sp.clause = none →
    LoadsFor s st.core st.part idx [] (some (k, sp.num)) →
    let r := overlayLoad s st.core st.part st.asid idx
    (r.1 ≤ 1 → (overlayLoaded s st.core st.part st.asid idx r).resident st.core st.part idx false ≠ none →
      exec (.entryOverlayLoaded k) s = .next (withStrand (overlayLoaded s st.core st.part st.asid idx r) k { st with splits := [{ sp with run := .ready, replay := none }] })) ∧
    (1 < r.1 → s.resident st.core st.part idx false = none → ∃ t : Trap, t.cause = 0x05 ∧ t.split = sp.num ∧ t.word 3 = BitVec.ofNat 64 r.1 ∧ t.word 1 = BitVec.ofNat 64 (sp.ovl % 4096 * 2 ^ 32 + sp.pc % 32768) ∧
      exec (.entryOverlayLoaded k) s = .next (handled (withStrand { s with fresh := s.fresh + 1 } k { st with frame := some t, splits := [{ sp with run := .parked }] }) k st t))

namespace Sys2Proof.Claims

/-! ## Chains and launches -/

/-- A chain timeline raised to a value by the Drevar side, each arrival a release of what it has written; a lower or equal value changes nothing (R286, R321). -/
def raised (s : State) (part chain ct value : Nat) : State :=
  let k := 8 * (16 * part + chain) + ct
  let t := s.ct k
  if t.count < value then { s with cts := mapSet s.cts k { count := value, arr := t.arr ++ [(t.count + 1, outsideDeps s drevarDev)] } } else s

/-- The chain's dispatcher may act (R323). -/
def dispatches (s : State) (part chain : Nat) : Prop :=
  (s.part part).enabled = true ∧ (s.part part).busy = false ∧ (s.chain (16 * part + chain)).enabled = true ∧ (s.chain (16 * part + chain)).halted = false

/-- The launch a chain's head record becomes (Table 8-15, R318, R323, R326, R331). -/
def launchTaken (s : State) (part chain : Nat) (r : List Word) : Launch :=
  let x := s.chain (16 * part + chain)
  let made := mapGet x.made x.head
  let asid := match made with | some l => l.asid | none => (mapGet (s.part part).chainAsid chain).getD 0
  let only := match made with | some l => l.mask | none => BitVec.allOnes 256
  let mask := (effectiveMask s part chain asid r only).getD 0
  let wait := (r.getD 5 0).toNat
  let acquired := if wait / 2 ^ 3 % 2 = 1 then
      ((s.ct (8 * (16 * part + chain) + wait % 8)).arr.filter fun e => e.1 ≤ (r.getD 4 0).toNat).flatMap (·.2)
    else []
  let carried := match x.deps.find? fun e => e.1 % 2 ^ 64 = x.head with | some e => e.2 | none => []
  let l := match made with
    | some l => { l with mask := mask }
    | none => launchOf part chain asid x.head (recLevel s part asid r) 0 r mask [] s.now
  { l with
    ident := (s.part part).nextIdent, prio := min ((r.getD 0 0).toNat / 2 ^ 32 % 4) x.ceiling,
    segs := (match spanWords s part asid 1 (r.getD 3 0).toNat 48 with | .ok ws => segsOf ws | .error _ => []),
    replay := l.record && (s.part part).replayMode, wdog := s.now, waitSince := some s.now, failedAt := none,
    start := s.stillPending (joinDeps acquired carried), dep := [] }

/-- What an event of the dispatchers leaves; none where it does not happen. -/
def scheduleEvent (i : Instr) (s : State) : Option State :=
  match i with
  | .launchAppendPort part chain addr => if chain < 16 ∧ linkOk s part chain then linked s part chain (addr % 2 ^ 64) 0 (outsideDeps s drevarDev) else none
  | .chainTimelineWrite part chain ct value => if chain < 16 ∧ ct < 8 then some (raised s part chain ct (value % 2 ^ 64)) else none
  | .launchDispatch part chain =>
    let key := 16 * part + chain
    let x := s.chain key
    let p := s.part part
    let put := fun (y : Chain) => { s with chains := mapSet s.chains key y }
    let refused := fun (code : Nat) => some (withTrap (put { x with halted := true, refusal := code, refused := x.head }) part
      { w0 := BitVec.ofNat 64 (0x1A + code * 256), w1 := BitVec.ofNat 64 x.head, w2 := 0, w3 := BitVec.ofNat 64 (chain * 256), w4 := 0, strand := none })
    if !p.enabled || p.busy || !x.enabled || x.halted || x.head = 0 then none
    else match x.current with
      | some id =>
        if ((mapGet s.launches id).map fun l => decide (l.placed < l.count)).getD false then none
        else (nextHead s part chain).map fun next =>
          put { x with
            head := next, current := none, tags := [], made := mapDel x.made x.head,
            deps := x.deps.eraseIdx (x.deps.findIdx fun e => e.1 % 2 ^ 64 = x.head) }
      | none =>
        if p.invBusy || p.genBusy || !spanStill s (headSpan s part chain) then none else
        match headCode s part chain, headRecord s part chain with
        | 0, .ok r =>
          if waitHolds s part chain r then
            let u := spanned s (headSpan s part chain)
            let l := launchTaken u part chain r
            some { u with
              chains := mapSet u.chains key { x with current := some s.nextLaunch, tags := [] },
              launches := mapSet u.launches s.nextLaunch l, nextLaunch := s.nextLaunch + 1,
              parts := mapSet u.parts part { u.part part with nextIdent := (p.nextIdent + 1) % 2 ^ 32, replayMode := p.replayMode && !l.replay } }
          else none
        | 0, .error _ => none
        | code, _ => refused code
  | .preemptRequest part chain =>
    match toPlace s part chain with
    | some (id, l, _, _) =>
      let limit := (s.part part).sched.toNat / 2 ^ 16 % 2 ^ 16 * 850
      let vs := victims s part chain l
      if (planOf s part chain).isSome then none
      else match l.failedAt with
        | none => some { s with launches := mapSet s.launches id { l with failedAt := some s.now } }
        | some t => if limit ≠ 0 ∧ t + limit < s.now ∧ vs ≠ [] then some (vs.foldl (fun t k => onStrand t k fun st => { st with preempt := true }) s) else none
    | none => none
  | .launchEndRequest id =>
    match mapGet s.launches id with
    | some l =>
      if l.ended ∨ (∃ e ∈ s.strands, e.2.launch = id ∧ e.2.isRoutine = false) ∨ s.saved ≠ [] then none
      else some { s with launches := mapSet s.launches id { l with
        withhold := true, count := l.placed, again := [], retired := l.retired + l.again.length, ended := decide (l.placed ≤ l.retired + l.again.length) } }
    | none => none
  | _ => none

/-! ## Placement -/

/-- A core can take a strand of a launch, where no strand is suspended there (R81, R327). -/
def takesStrand (s : State) (l : Launch) (core : Nat) : Bool :=
  l.mask.getLsbD core && (s.freeSlot core).isSome && s.footFree core (winOf (recH l.rec_) (recW l.rec_)) (recFpBase l.rec_) (recFpCount l.rec_)

/-- The score of a core (R328): degrees above 60, and four for each droop of the last period. -/
def score (s : State) (core : Nat) : Nat := (mapGet s.temps core).getD 0 - 60 + 4 * (mapGet s.droopsPrev core).getD 0

/-- The core the next strand of a launch is placed on (R328): of the first D + 1 that can take it from the pointer on, the earliest of the lowest score. -/
def chosenCore (s : State) (l : Launch) (pointer : Nat) : Option Nat :=
  let cores := (((List.range 256).map fun i => (pointer + i) % 256).filter (takesStrand s l)).take ((s.part l.part).sched.toNat % 8 + 1)
  cores.find? fun c => cores.all fun d => score s c ≤ score s d

/-- A strand as placement leaves it (Table 4-1, R81, R95, R107, R181, R199, R327). -/
def strandPlaced (s : State) (id : Nat) (l : Launch) (number core slot : Nat) (params : List Word) : Strand :=
  let w := winOf (recH l.rec_) (recW l.rec_)
  let behind := joinDeps l.start (l.spawnDeps.getD number [])
  let ovl := recOverlay l.rec_
  { Strand.empty with
    core := core, slot := slot, s := (List.range l.payload.length).map fun i => (8 + i, l.payload.getD i 0), g := l.segs, window := w, launchWin := w,
    launch := id, number := number, part := l.part, asid := l.asids.getD number l.asid, level := l.level, prio := l.prio, fpBase := recFpBase l.rec_, fpCount := recFpCount l.rec_,
    params := params, latSeed := s.fresh, dep := behind, placedAt := s.now, lastEnd := s.now, entryKey := some ovl,
    splits := [{ Split.none_ with mask := winMask w, ovl := ovl, pc := recEntry l.rec_, lastIssue := s.now, dep := behind,
                                  run := if (s.resident core l.part ovl false).isSome then .ready else .overlay ovl }] }

/-! ## Suspension -/

/-- A wait from which a suspension withdraws its strand, to be issued again (R316). -/
def withdrawn (o : Op) : Bool :=
  match o.kind with
  | .qpush .. | .qpop .. | .tlwait .. | .lapw .. | .gbar _ _ [] _ => true
  | _ => false

/-- An operation that does not delay suspension (R258). -/
def delaysNothing (o : Op) : Bool :=
  match o.kind with
  | .xbprog .. | .xbcal .. | .xbstat .. | .xbbind .. | .accZero _ => true
  | _ => false

/-- A split stands between clauses, or waits where a pre-emption may stop it (R258, R316). -/
def Stops (s : State) (sp : Split) : Prop :=
  (sp.run = .ready ∧ sp.clause = none) ∨ sp.run = .parked ∨ (∃ o w, sp.run = .merge o w) ∨ (∃ i, sp.run = .overlay i) ∨
  ∃ i o, sp.run = .hold i ∧ s.op? i = some o ∧ (withdrawn o = true ∨ (∃ d a f l e, o.kind = .waita d a f l e) ∨ (delaysNothing o = true ∧ sp.clause = none))

/-- An operation keeps its strand in its slot: a command, a crossbar or accumulator operation over its lanes, or a copy of a plane (R150, R251, R258). -/
def engineHolds (o : Op) : Bool :=
  match o.kind with
  | .nmcall .. | .xbmv .. | .accOut .. | .accIn .. => true
  | .copy x => [0, 3, 4, 5].contains ((x.rec_.getD 0 0).toNat % 16)
  | _ => false

/-- The uses of a flag that a parked replay holds: its parked operations, and the words its frames execute again (R92, R316). -/
def replayUses (s : State) (k f : Nat) : Nat :=
  let st := s.strand k
  (s.ops.filter fun o => o.owner = k && o.parked && o.flag = f + 1).length + ((st.frame.toList ++ st.pending).filter fun t => t.flag = f + 1).length

/-- The strand's launch is not co-resident: it stops and goes on alone. -/
def Alone (s : State) (st : Strand) : Prop := ∀ l, mapGet s.launches st.launch = some l → l.coresident = false

/-- The state after a strand has stopped in its slot (R316). -/
def stopped (s : State) (k : Nat) (st : Strand) : State :=
  { s with
    strands := mapSet s.strands k { st with suspended := true, latS := [], latL := [], latSeed := s.fresh }, fresh := s.fresh + 1,
    ops := s.ops.map fun o => if o.owner = k ∧ withdrawn o then { o with parked := true } else o }

/-- A strand that stopped saved into an entry of its partition's pool, no longer asked to stop (R355). -/
def pooledIn (s : State) (k entry : Nat) : State :=
  let s := onStrand s k fun q => { q with preempt := false }
  let st := s.strand k
  let p := s.part st.part
  let addr := p.poolBase + entry * 0x106000
  let ws := saveWords s k s.nextOp
  let t := { deviceWrote s addr (ws.flatMap wordBytes) with
    parts := mapSet s.parts st.part { p with poolUsed := p.poolUsed ++ [(entry, s.nextOp)] } }
  let u := movedOut t k s.nextOp addr
  { u with saved := s.saved ++ [{ token := s.nextOp, addr := addr, key := 2 ^ 20 * (1 + s.nextOp) + k, pool := some entry, late := [] }] }

end Sys2Proof.Claims

/-- R320, R321, R323 to R326, R332, R337: what an append at the port, a chain timeline's write, the dispatcher's steps (the head record refused, taken, or passed), a pre-emption request and the end of a launch without strands leave; nothing else changes. Rests on choices of the model: logs 20, 52, 53, 54, 99, 101. -/
def Obligations.ScheduleEvents : Prop := ∀ (i : Instr) (s t : State), scheduleEvent i s = some t → exec i s = .next t

/-- R181, R326 to R331: STRAND_PLACE puts the next strand of the only chain with a launch into the lowest free slot of the chosen core, with its parameter snapshot, and moves the pointer past that core; nothing else changes. Rests on choices of the model: logs 6, 18, 90. -/
def Obligations.StrandPlaces : Prop :=
  ∀ (s : State) (part chain id core slot : Nat) (l : Launch) (ps : List Word),
    let key := 16 * part + chain
    let x := s.chain key
    dispatches s part chain → chain < 16 → x.tags = [] → x.current = some id → mapGet s.launches id = some l → l.part = part → l.placed < l.count → l.coresident = false →
    (∀ e ∈ s.launches, e.2.record = false ∧ e.2.replay = false ∧ e.2.again = []) → (∀ e ∈ s.chains, e.1 ≠ key → e.2.current = none) →
    (∀ e ∈ s.strands, e.2.suspended = false) → s.saved = [] →
    chosenCore s l x.pointer = some core → s.freeSlot core = some slot →
    snapWords s { part := part, asid := l.asids.getD l.placed l.asid, level := l.level, cluster := 0, die := 0 } (l.params.getD l.placed (recWord l.rec_ 2).toNat) 64 = .ok ps →
    spanStill s (snapSpan s l l.placed) = true →
    exec (.strandPlace part chain) s = .next { spanned s (snapSpan s l l.placed) with
      strands := mapSet s.strands (16 * core + slot) (strandPlaced s id l l.placed core slot ps), fresh := s.fresh + 1,
      launches := mapSet s.launches id { l with placed := l.placed + 1, failedAt := none },
      chains := mapSet s.chains key { x with pointer := (core + 1) % 256, tags := [] } }

/-- R316, R333, R355: STRAND_SUSPEND stops a strand that a pre-emption asks for, its latches lost, its queue, timeline, lap and barrier waits withdrawn, and saves it where its partition's pool has an entry; STRAND_RESUME lets it go on, in its slot with the withdrawn wait issued again, or out of the pool. Rests on choices of the model: logs 54, 55. -/
def Obligations.SuspendResume : Prop :=
  (∀ (s : State) (k : Nat) (st : Strand), mapGet s.strands k = some st → st.preempt = true → st.suspended = false → (∀ sp ∈ st.splits, Stops s sp) → (∀ o ∈ s.ops, o.owner = k → engineHolds o = false) →
    (∀ f < 12, st.flag f = replayUses s k f) → st.delayed = [] → Alone s st → (s.ops.map (·.id)).Nodup →
    keysRise s.xbars = true → keysRise s.parts = true →
    exec (.strandSuspend k) s = .next (
      match (List.range (s.part st.part).poolEntries).find? fun e => (s.part st.part).poolUsed.all fun u => u.1 ≠ e with
      | none => stopped s k st
      | some e => pooledIn (stopped s k st) k e)) ∧
  (∀ (s : State) (k : Nat) (st : Strand), mapGet s.strands k = some st → st.suspended = true → Alone s st → s.saved = [] → (∀ e ∈ s.chains, e.2.current = none) → st.gang = none →
    let on := { st with suspended := false, preempt := false }
    ((∀ o ∈ s.ops, o.owner = k → o.parked = false ∨ withdrawn o = false) → exec (.strandResume k) s = .next (withStrand s k on)) ∧
    (∀ o, (s.ops.filter fun p => p.owner = k && p.parked && withdrawn p) = [o] →
      exec (.strandResume k) s = .next { s with
        strands := mapSet s.strands k { on with
          splits := st.splits.map fun sp =>
            { sp with run := if sp.run = .hold o.id then .hold s.nextOp else sp.run, prior := sp.prior.map fun i => if i = o.id then s.nextOp else i } },
        ops := (s.ops.filter fun p => p.id ≠ o.id) ++ [{ o with id := s.nextOp, parked := false, issued := s.now }], nextOp := s.nextOp + 1 })) ∧
  ∀ (s : State) (x : Saved) (st : Strand) (entry slot : Nat), s.saved = [x] → x.pool = some entry → 2 ^ 20 ≤ x.key → mapGet s.strands x.key = none → mapGet s.ghosts x.key = some st →
    st.suspended = true → Alone s st → (∀ e ∈ s.chains, e.2.current = none) → st.gang = none → (∀ o ∈ s.ops, o.owner ≠ x.key) → s.freeSlot st.core = some slot → st.core < 256 →
    s.footFree st.core st.launchWin st.fpBase st.fpCount = true → x.late.all lateKind = true →
    ∃ t q, exec (.strandResume x.key) s = .next t ∧ mapGet t.strands (16 * st.core + slot) = some q ∧ q.suspended = false ∧ q.preempt = false ∧ q.core = st.core ∧ q.slot = slot ∧
      t.saved = [] ∧ mapGet t.ghosts x.key = none ∧ (∀ n, 1 ≤ n → n < 32 → q.sreg n = (lateReg x.late n).getD (BitVec.ofNat 64 (s.homeN (x.addr + 8 * n) 8))) ∧
      ∀ u ∈ (t.part st.part).poolUsed, u.2 ≠ x.token

/-- R338, R339: a launch all of whose strands have waited inside the device for 2^24 cycles withdraws the wait of its lowest-numbered strand and parks it at the waiting instruction with cause 0x15 and pending kind 3, starts a handler for it where one can start, and posts its frame. Rests on choices of the model: logs 18, 55, 93. -/
def Obligations.WatchdogFires : Prop :=
  ∀ (s : State) (id k : Nat) (l : Launch) (st : Strand) (sp : Split) (rest : List Split),
    mapGet s.launches id = some l → wdogCounts s id l = true → l.wdog + 2 ^ 24 ≤ s.now → lowestStrand s id = some (k, st) → st.splits = sp :: rest → mapGet s.strands k = some st →
    (∀ y ∈ rest, y.num ≠ sp.num) → st.isRoutine = false → st.frame = none → id ≠ s.nextLaunch →
    let waits := match sp.run with | .hold i => s.op? i | _ => none
    (∀ o, waits = some o → ∀ p ∈ s.parts, ∀ r ∈ p.2.regions, ∀ a ∈ r.2.queue, a.op ≠ o.id) →
    let back := match waits with | some o => { sp with ovl := o.ovl, pc := o.pc, clause := o.clause, run := .ready } | none => sp
    let ops := match waits with
      | none => s.ops
      | some o => match o.kind with
        | .mem m => s.ops.map fun p => if p.id = o.id then { o with parked := true, kind := .mem { m with reqs := m.reqs.filter (fun r => r.st = .done), fails := [], gate := false } } else p
        | _ => s.ops.filter fun p => p.id ≠ o.id
    ∃ t : Trap, t.cause = 0x15 ∧ t.split = sp.num ∧ t.word 2 = BitVec.ofNat 64 (3 * 2 ^ 60 + back.ovl % 4096 * 2 ^ 32 + back.pc % 32768) ∧ t.word 3 = 0 ∧ t.was = back.run ∧ t.flag = 0 ∧
      (∀ o m, waits = some o → o.kind = .mem m → t.op = o.id ∧ t.unfinished = lanesMask ((m.reqs.filter fun r => r.st ≠ .done).map (·.lane) ++ m.fails.map (·.lane))) ∧
      let u := withStrand { s with ops := ops } k (parkedStrand st back t)
      let v := if st.level = 0 then (withHandler u st.core st.part st.asid (16 * st.core + st.slot) false [(1, 0x15), (2, t.word 0)]).getD u else u
      exec (.watchdogFire id) s = .next (
        let w := withTrap v st.part (queued s st k t)
        { w with launches := mapSet w.launches id { l with wdog := s.now } })

namespace Sys2Proof.Claims

/-! ## The Drevar side -/

/-- A ring in host-physical memory: base and depth in records (Table 18-2, R349), and whether it has room. -/
def ringAt (v : Word) : Nat := v.toNat / 2 ^ 6 * 2 ^ 6
def ringSize (v : Word) : Nat := 2 ^ min 16 (v.toNat % 2 ^ 6)
def ringFree (v : Word) (head tail : Nat) : Prop := (tail + 2 ^ 32 - head % 2 ^ 32) % 2 ^ 32 < ringSize v

/-- Bytes at an address, as the parts that lie in its aligned 8-byte words. -/
def inWords (a : Nat) (bs : List Byte) : List (Nat × List Byte) :=
  (List.range ((a + bs.length + 7) / 8 - a / 8)).map fun i =>
    let lo := max a (8 * (a / 8 + i))
    (lo, (bs.drop (lo - a)).take (min (a + bs.length) (8 * (a / 8 + i + 1)) - lo))

/-- An agent outside has these writes behind it. -/
def behindOutside (s : State) (dev : Nat) (ids : List Nat) : State :=
  { s with outDeps := mapSet s.outDeps dev (joinDeps (outsideDeps s dev) (s.stillPending ids)) }

/-- A push into the queue from outside, with what the agent has written (R134, R358). -/
def fedIn (s : State) (key : Nat) (bs : List Byte) (dev : Nat) : State :=
  let q := s.queue key
  let pa := scratchPA (key / 16) (q.ring + 8 * (q.tail % q.depth))
  let t := healed (storedAt s { die := dieOfCluster (key / 16), deps := [], key := 0, atomic := false, wil := none } pa bs) pa 8
  { t with queues := mapSet t.queues key { q with tail := (q.tail + 1) % q.modulus, deps := q.deps ++ [(q.tail, outsideDeps s dev)] } }

/-- A strand's push came before and is still to be made (R134). -/
def pushedFirst (s : State) (key : Nat) : Bool := s.ops.any fun p => !p.parked && (match p.kind with | .qpush k _ _ => k = key | _ => false)

/-- The arrivals of an external feed on a timeline (R358). -/
def arrivals (s : State) (k : Nat) (deps : List Nat) : Nat → State
  | 0 => s
  | n + 1 =>
    let t := arrivals s k deps n
    { t with tls := mapSet t.tls k { count := (t.tl k).count + 1, arr := (t.tl k).arr ++ [((t.tl k).count + 1, deps)] } }

/-- Two ranges share a number. -/
def share (a n b m : Nat) : Bool := 0 < n && 0 < m && a < b + m && b < a + n

/-- The checks of creating a swept region (R357). -/
def regionLegal (s : State) (part n die base mask len : Nat) : Bool :=
  let others := s.parts.flatMap fun p => (p.2.regions.filter fun r => (r.2.active || r.2.busy) && !(p.1 = part && r.1 = n)).map (·.2)
  let slices := (List.range 16).filter fun k => (BitVec.ofNat 16 mask).getLsbD k
  let rows := (len / 512 + slices.length - 1) / slices.length
  len ≠ 0 && len % 8192 = 0 && base % 8192 = 0 && die < 4 && BitVec.ofNat 16 mask ≠ 0 && die * 2 ^ 37 ≤ base && base + len ≤ (die + 1) * 2 ^ 37 &&
  !(base < s.regs.drevarLimit && s.regs.drevarBase < base + len) && (others.all fun q => !(base < q.base + q.len && q.base < base + len)) &&
  slices.all fun k => (others.filter fun q => q.die = die && q.mask.getLsbD k).foldl (fun a q => a + q.perSlice) rows ≤ 4096

/-- No strand of a partition, of one ASID or of all, holds a translation window. -/
def NoWindows (s : State) (part : Nat) (whole : Bool) (asid : Nat) : Prop :=
  ∀ e ∈ s.strands ++ s.ghosts, e.2.part = part → (whole = true ∨ e.2.asid = asid) → ∀ g ∈ e.2.g, g.2.win = none

/-- The state without what is bound to a partition: crossbar bindings, accumulator tags, cached translations (R341). -/
def unbound (s : State) (part : Nat) : State :=
  { s with
    xbars := s.xbars.map fun e => (e.1, if e.2.part = part then { e.2 with bound := none } else e.2),
    accTags := s.accTags.map fun e => (e.1, if e.2.getLsbD 38 && e.2.toNat / 2 ^ 32 % 64 = part then 0 else e.2),
    tlb := s.tlb.filter fun t => t.part ≠ part }

/-- What an event of the Drevar side leaves; none where it does not happen. -/
def drevarEvent (i : Instr) (s : State) : Option State :=
  let put := fun (part : Nat) (f : Part → Part) => { s with parts := mapSet s.parts part (f (s.part part)) }
  match i with
  | .partitionEnable part =>
    let p := s.part part
    if 64 ≤ part ∨ p.busy then none
    else if p.enabled then some s
    else
      let ok := p.asidFirst + p.asidCount ≤ 65536 && p.keyFirst + p.keyCount ≤ 1024 &&
        s.parts.all fun e => e.1 = part || !e.2.enabled ||
          !(share p.asidFirst p.asidCount e.2.asidFirst e.2.asidCount || share p.keyFirst p.keyCount e.2.keyFirst e.2.keyCount)
      some { put part fun x => { x with enabled := ok, kLoads := [] } with
        measured := mapSet s.measured (16 + part) (Config.sha384 [BitVec.ofNat 64 p.s2root, BitVec.ofNat 64 p.keyFirst, BitVec.ofNat 64 p.keyCount]) }
  | .stage2GenerationRaise part =>
    some (if (s.part part).gen2 = 0xFFFF then s else put part fun x => { x with gen2 := x.gen2 + 1, genBusy := true })
  | .translationInvalidateComplete part =>
    if (s.part part).invBusy ∨ (s.part part).genBusy then some (put part fun x => { x with invBusy := false, genBusy := false }) else none
  | .sweptCreate part n die base mask len =>
    let g := (s.part part).region n
    if 4 ≤ n ∨ g.active ∨ g.busy then none
    else
      let ok := regionLegal s part n die base mask len
      some (onRegion s part n fun _ => { Region.blank with die := die, base := base, len := len, mask := BitVec.ofNat 16 mask, active := ok, busy := ok, failed := !ok })
  | .sweptCreateComplete part n =>
    let g := (s.part part).region n
    let slices := ((List.range 16).filter fun k => g.mask.getLsbD k).length
    let p := (g.len / 512 + slices - 1) / slices + 16
    if g.active ∧ g.busy then some (onRegion s part n fun x => { noteLeaves s part x with busy := false, lap := 0, lapStart := (s.now + p - 1) / p * p }) else none
  | .sweptDestroy part n =>
    let g := (s.part part).region n
    if g.active ∧ g.busy = false then some (onRegion s part n fun x => { noteLeaves s part x with active := false, busy := true }) else none
  | .sweptDestroyComplete part n =>
    let g := (s.part part).region n
    if g.active = false ∧ g.busy ∧ g.queue = [] then
      let t := if 1 < (regionKeys s part g).length then
          { ({ s with mem := putBytes s.mem g.base ((List.range g.len).map fun i => Config.freeByte s.fresh (g.base + i)) } : State).cover [0, 1, 2, 3] g.base g.len with
            fresh := s.fresh + 1 }
        else s
      some (onRegion t part n fun x => { x with busy := false })
    else none
  | .timelineFeed part value =>
    let v := value.toNat
    if ∃ e ∈ s.launches, e.2.record then none
    else match s.launches.find? fun e => e.2.part = part && e.2.ident % 2 ^ 32 = v % 2 ^ 32 && !e.2.ended with
      | some (id, l) =>
        if l.replay then none
        else if l.ext.getLsbD (v / 2 ^ 32 % 8) ∧ v / 2 ^ 48 ≠ 0 ∧ v / 2 ^ 35 % 2 ^ 13 = 0 then some (arrivals s (8 * id + v / 2 ^ 32 % 8) (outsideDeps s drevarDev) (v / 2 ^ 48))
        else some (put part fun x => { x with feedIgnored := (x.feedIgnored + 1) % 2 ^ 32 })
      | none => some (put part fun x => { x with feedIgnored := (x.feedIgnored + 1) % 2 ^ 32 })
  | .queueFeed part handle =>
    let key := 16 * ((s.part part).feedTarget % 64) + (s.part part).feedTarget / 64 % 16
    let q := s.queue key
    if ∃ e ∈ s.launches, e.2.record then none
    else if !q.usable || !q.hostFed then some (put part fun x => { x with feedResult := 2 })
    else if q.allowance = 0 then some (put part fun x => { x with feedResult := 1 })
    else if pushedFirst s key then none
    else some { fedIn s key (wordBytes handle) drevarDev with parts := mapSet s.parts part { (s.part part) with feedResult := 0 } }
  | .trapQueuePost part =>
    let p := s.part part
    match p.traps with
    | r :: rest =>
      if (p.trapTail + 2 ^ 32 - p.trapHead % 2 ^ 32) % 2 ^ 32 < ringSize p.trapq then
        let t := { deviceWrote s (ringAt p.trapq + p.trapTail % ringSize p.trapq * 64) ([r.w0, r.w1, r.w2, r.w3, r.w4, 0, 0, 0].flatMap wordBytes) with
          parts := mapSet s.parts part { p with traps := rest, trapTail := (p.trapTail + 1) % 2 ^ 32 } }
        some (match r.strand with
          | some k => t.onStrand k fun st => { st with frame := st.frame.map fun f => { f with posted := true } }
          | none => t)
      else none
    | [] => none
  | .pageRequestPost part =>
    let p := s.part part
    match p.reqs.find? fun r => !r.posted with
    | some r =>
      if (p.pageTail + 2 ^ 32 - p.pageHead % 2 ^ 32) % 2 ^ 32 < ringSize p.pageq then
        some { deviceWrote s (ringAt p.pageq + p.pageTail % ringSize p.pageq * 32) ([r.w0, r.w1, r.w2, r.w3].flatMap wordBytes) with
          parts := mapSet s.parts part { p with
            reqs := p.reqs.map fun q => if q.tag = r.tag then { q with posted := true } else q, pageTail := (p.pageTail + 1) % 2 ^ 32 } }
      else none
    | none => none
  | .drevarMemoryWrite addr bytes =>
    let memory := s.inMain addr ∧ s.inMain (addr + bytes.length - 1) ∧ ¬ (addr < s.regs.logLimit ∧ s.regs.logBase < addr + bytes.length)
    let scratch := onChip addr ∧ ocDie addr < 4 ∧ ocCluster addr < 16 ∧ ocCore addr = 0 ∧ ocType addr = 3 ∧ ocOff addr + bytes.length ≤ 2 ^ 22
    if bytes ≠ [] ∧ (memory ∨ scratch) then
      let t := (inWords addr bytes).foldl (fun t p =>
        storedAt t { engineWriter 4 (outsideDeps s drevarDev) with key := (mapGet t.lineKeys (p.1 / 64)).getD anyKey } p.1 p.2) s
      let u := healed t addr bytes.length
      some (behindOutside u drevarDev (writesSince s u))
    else none
  | _ => none

/-- The bits of a partition's control window that a write by the Drevar side stores (Table 20-1). -/
def storedBits (off : Nat) : Option Word :=
  if off = 0x0008 ∨ off = 0x0080 then some 0x7FFFFFFFFE000
  else if off = 0x0010 ∨ off = 0x0068 ∨ off = 0x0078 then some 0xFFFFFFFF
  else if off = 0x0018 then some 0x7FFFFFFFFFFC0
  else if off = 0x0020 then some 0x801FFFFF
  else if off = 0x0040 ∨ off = 0x0048 ∨ off = 0x0050 ∨ off = 0x0058 then some 0xFFFFFFFFFFFFFFFF
  else if off = 0x0088 then some 0xFFFF
  else if off = 0x00A0 then some 0x3FF
  else if 0x0100 ≤ off ∧ off < 0x0180 then some 0xFFFF
  else if 0x0200 ≤ off ∧ off < 0x0400 then some 0xFFFFFFFF07FF
  else if 0x0400 ≤ off ∧ off < 0x0480 ∧ off % 32 = 0 then some 0x30
  else if 0x0400 ≤ off ∧ off < 0x0480 ∧ off % 32 = 8 then some 0x7FFFFFFFFE000
  else if 0x0400 ≤ off ∧ off < 0x0480 ∧ off % 32 = 16 then some 0xFFFFFFFFFFFF
  else if off = 0x3F00 then some 0xFFFF0007
  else none

/-- A word of the descriptor of a swept region in use, which keeps what it holds (R357). -/
def regionHeld (s : State) (part off : Nat) : Bool :=
  let g := (s.part part).region ((off - 0x400) / 32)
  decide (0x0400 ≤ off) && decide (off < 0x0480) && (g.active || g.busy)

/-- Region registers with one word written (Table 20-6). -/
def regionRegWrite (r : RegionRegs) (n : Nat) (v : Word) : RegionRegs :=
  let a := v.toNat / 2 ^ 13 % 2 ^ 38 * 2 ^ 13
  match n with
  | 0 => { r with drevarBase := a }
  | 1 => { r with drevarLimit := a }
  | 2 => { r with logBase := a }
  | 3 => { r with logLimit := a }
  | _ => { r with lock := v.getLsbD 0 }

/-- A trapped split whose last page request is answered: its replay, and the operation it replays, come after what the Drevar side has written (R280, R351). -/
def repliedStrand (s : State) (st : Strand) (t : Trap) : Strand :=
  let sp := st.splitOf t.split
  { st with frame := some t, splits := putSplit st.splits { sp with dep := joinDeps sp.dep (outsideDeps s drevarDev) } }
def repliedOps (s : State) (t : Trap) : List Op :=
  match s.op? t.op with
  | some o => s.ops.map fun p => if p.id = o.id then { o with dep := joinDeps o.dep (outsideDeps s drevarDev) } else p
  | none => s.ops

end Sys2Proof.Claims

/-- R313, R321, R341, R347, R349, R357, R358, R364: what enabling a partition, its generations and invalidations, creating and destroying a swept region, the feeds, a posted trap-queue or page-request record and a write of memory by the Drevar side leave; nothing else changes. Rests on choices of the model: logs 21, 49, 50, 51, 101. -/
def Obligations.DrevarEvents : Prop := ∀ (i : Instr) (s t : State), drevarEvent i s = some t → exec i s = .next t

/-- R341, R347: disabling a partition without a live launch, its completion, and the invalidate port take away its bindings, tags and cached translations; after them no window of a strand named is left. Rests on choices of the model: log 21. -/
def Obligations.TranslationsRemoved : Prop :=
  ∀ (s : State) (part asid : Nat) (whole : Bool), keysRise s.xbars = true → keysRise s.accTags = true →
    let live := ∃ e ∈ s.launches, e.2.part = part ∧ e.2.ended = false
    let put := fun (t : State) (f : Part → Part) => { t with parts := mapSet s.parts part (f (s.part part)) }
    (NoWindows s part true 0 → ¬ live →
      ((s.part part).enabled = true → exec (.partitionDisable part) s = .next (put (unbound s part) fun x => { x with enabled := false, busy := true })) ∧
      ((s.part part).busy = true → exec (.partitionDisableComplete part) s = .next (put (unbound s part) fun x => { x with busy := false }))) ∧
    (NoWindows s part whole asid → exec (.invalidatePort part whole asid) s = .next
      (put { s with tlb := s.tlb.filter fun t => !(t.part = part && (whole || t.asid = asid)) } fun x =>
        if whole then { x with gen2 := 0, gens := [], invBusy := true } else { x with gens := mapSet x.gens asid 0, invBusy := true })) ∧
    (keysRise s.strands = true → (∀ e ∈ s.strands, keysRise e.2.g = true) →
      ∃ t, exec (.invalidatePort part whole asid) s = .next t ∧
        ∀ k st, mapGet t.strands k = some st → st.part = part → (whole = true ∨ st.asid = asid) → ∀ n, (st.segreg n).win = none)

/-- R302, R320, R340, R352, R356, R366: a word the Drevar side writes into a partition's control window reads back with the bits its register stores and no other word of the window changes; a region register changes only unlocked and only to legal ranges. That a REGISTER_WRITE at a word whose write the table makes a step of its own (the enable word, the generation, invalidate, reply and feed ports, a region's create bit, the append port, the chain timelines: R320, R321, R341, R347, R350, R357, R358) changes nothing is the model's choice (log 116): the effect is that step's. Rests on choices of the model: logs 102, 116. -/
def Obligations.RegistersWritten : Prop :=
  (∀ (s : State) (part off : Nat) (v bits : Word), part < 64 → off % 8 = 0 → off < 0x10000 → storedBits off = some bits → regionHeld s part off = false →
    ∃ p : Part, exec (.registerWrite (0x7F80000000000 + 65536 * part + off) v) s = .next { s with parts := mapSet s.parts part p } ∧
      (let t := { s with parts := mapSet s.parts part p }
       let device := if 0x0400 ≤ off ∧ off < 0x0480 ∧ off % 32 = 0 then controlWord s part off &&& 0x80 else 0
       controlWord t part off = (v &&& bits) ||| device ∧ ∀ q, q % 8 = 0 → q ≠ off → controlWord t part q = controlWord s part q)) ∧
  (∀ (s : State) (part off : Nat) (v : Word), part < 64 → off % 8 = 0 → off < 0x4000 ∨ 0x5000 ≤ off → off < 0x10000 → (storedBits off = none ∨ regionHeld s part off = true) →
    ∃ p : Part, exec (.registerWrite (0x7F80000000000 + 65536 * part + off) v) s = .next { s with parts := mapSet s.parts part p } ∧
      ∀ q, q % 8 = 0 → controlWord { s with parts := mapSet s.parts part p } part q = controlWord s part q) ∧
  (∀ (s : State) (part chain n : Nat) (v : Word), part < 64 → chain < 16 → n < 32 →
    let key := 16 * part + chain
    let x := s.chain key
    exec (.registerWrite (0x7F80000000000 + 65536 * part + 0x4000 + 256 * chain + 8 * n) v) s = .next { s with chains := mapSet s.chains key (
      if n = 0 then { x with
        enabled := v.getLsbD 0, halted := x.halted && v.getLsbD 1, grant := v.getLsbD 2, ceiling := v.toNat / 2 ^ 4 % 2 ^ 2,
        refusal := if v.toNat / 2 ^ 8 % 2 ^ 8 = 0 then 0 else x.refusal }
      else if 8 ≤ n ∧ n < 12 then { x with
        mask := BitVec.ofNat 256 ((List.range 4).foldl (fun a i => a + (if i = n - 8 then v.toNat else x.mask.toNat / 2 ^ (64 * i) % 2 ^ 64) * 2 ^ (64 * i)) 0) }
      else x) }) ∧
  (∀ (s : State) (n : Nat) (v : Word), n < 7 * 256 →
    let b := s.budget (n / 256) (n % 256)
    exec (.registerWrite (0x7F80010000000 + 16 * n) v) s = .next (
      if v.toNat % 2 ^ 32 ≤ b.cap then { s with budgets := mapSet s.budgets n { b with limit := v.toNat % 2 ^ 32 } } else s)) ∧
  (∀ (s : State) (off : Nat) (v : Word), off < 2 ^ 40 → off % 8 = 0 → ∃ t, exec (.registerWrite (0x7F80000000000 + off) v) s = .next t ∧ t.mem = s.mem ∧ t.strands = s.strands) ∧
  ∀ (s : State) (n : Nat) (v : Word), n < 5 →
    let r := regionRegWrite s.regs n v
    let populated := fun (a : Nat) => a = 0 ∨ (2 ^ 40 ≤ a ∧ a ≤ 2 ^ 40 + s.lpddr)
    let legal := populated r.drevarBase ∧ populated r.drevarLimit ∧ populated r.logBase ∧ populated r.logLimit ∧ ¬ (r.drevarBase < r.logLimit ∧ r.logBase < r.drevarLimit)
    (s.regs.lock = false → legal → exec (.registerWrite (0x7F80040000000 + 8 * n) v) s = .next { s with regs := r }) ∧
    (s.regs.lock = true ∨ ¬ legal → exec (.registerWrite (0x7F80040000000 + 8 * n) v) s = .next s)

/-- R306, R313, R315, R350, R351: the Drevar side's answer to a posted frame returns its strand or retires it; its reply to a strand's page request is noted in the frame, the last retry replays the unfinished lanes, and a refusal sends the frame to the trap queue with the tag posted first; a reply that matches nothing is ignored. Rests on choices of the model: logs 51, 92, 101. -/
def Obligations.DrevarAnswers : Prop :=
  (∀ (s : State) (core slot : Nat) (st : Strand) (t : Trap), slot < 16 → t.posted = true →
    let k := 16 * core + slot
    (Parked s k st t → exec (.drevarResume core slot) s = .next (resumed s k st t)) ∧
    (∀ l, st.frame = some t → st.splits ≠ [] → Retires s k st l → exec (.drevarResumeEnd core slot) s = .next (retired s k st l))) ∧
  ∀ (s : State) (part tag : Nat) (refuse : Bool),
    let p := s.part part
    let rest := { s with parts := mapSet s.parts part { p with reqs := p.reqs.filter fun q => q.tag ≠ tag } }
    s.peerWaits = [] →
    ((∀ r ∈ p.reqs, r.tag ≠ tag) → exec (.pageRequestReply part tag refuse) s = .next s) ∧
    ∀ (r : PageReq), (p.reqs.find? fun q => q.tag = tag) = some r →
      (r.strand = none →
        let deps := outsideDeps s drevarDev
        let answer := fun (l : List Nat) => if refuse then l.map fun t => if t = tag then refusedTag else t else l.filter fun t => t ≠ tag
        let link := fun (l : TileLink) => if l.part = part ∧ tag ∈ l.tags then { l with tags := answer l.tags, dep := joinDeps l.dep deps } else l
        let task := fun (t : TileTask) => { t with link := link t.link }
        keysRise s.tiles = true → keysRise s.chains = true → (s.ops.map (·.id)).Nodup →
        exec (.pageRequestReply part tag refuse) s = .next { rest with
          ops := s.ops.map fun o => if tag ∈ o.tags ∧ (s.strand o.owner).part = part then { o with tags := answer o.tags, dep := joinDeps o.dep deps } else o,
          tiles := s.tiles.map fun e => (e.1, { chain := e.2.chain.map link, held := e.2.held.map task, running := e.2.running.map task }),
          chains := s.chains.map fun e => (e.1, if e.1 / 16 = part then { e.2 with tags := answer e.2.tags } else e.2) }) ∧
      ∀ (k : Nat) (st : Strand) (t : Trap), r.strand = some k → mapGet s.strands k = some st → st.frame = some t → tag ∈ t.tags →
        let t1 := { t with tags := t.tags.filter fun x => x ≠ tag, refused := if refuse then t.refused ++ [tag] else t.refused }
        let paging := t.cause = 0x07 ∨ t.cause = 0x08
        (t1.tags ≠ [] ∨ ¬ paging → exec (.pageRequestReply part tag refuse) s = .next (withStrand rest k { st with frame := some t1 })) ∧
        (let st1 := repliedStrand s st t1
         let u := { withStrand rest k st1 with ops := repliedOps s t1 }
         paging → t1.tags = [] → t1.refused = [] → Parked u k st1 t1 → exec (.pageRequestReply part tag refuse) s = .next (resumed u k st1 t1)) ∧
        (paging → t1.tags = [] → ∀ first ∈ t1.refused, (∀ x ∈ t1.refused, (first + 2 ^ 32 - t.detail.toNat) % 2 ^ 32 ≤ (x + 2 ^ 32 - t.detail.toNat) % 2 ^ 32) →
          t1.refused.Nodup → (∀ x ∈ t1.refused, x < 2 ^ 32) → t.detail.toNat < 2 ^ 32 →
          let t2 := { t1 with detail := BitVec.ofNat 64 first }
          exec (.pageRequestReply part tag refuse) s = .next (withTrap (withStrand rest k { st with frame := some t2 }) st.part (queued s st k t2)))

namespace Sys2Proof.Claims

/-! ## Links -/

/-- A packet sent by a port: its flits queue there (R374, R375). -/
def packetSent (s : State) (p : Packet) : State :=
  let x := s.port p.port
  { s with
    out := s.out ++ [p],
    ports := mapSet s.ports p.port { x with emptyAt := max s.now x.emptyAt + (1 + (p.payload.length + 63) / 64) * (4 / x.width + 1) } }

/-- Each launch of a list ended in turn as the Drevar side ends one (R337). -/
def endedEach : List Nat → State → Option State
  | [], s => some s
  | id :: r, s =>
    match exec (.launchEndRequest id) s with
    | .next t => endedEach r t
    | _ => none

/-- After a package fault (R379): every launch ended, a record of cause 0x1D for every enabled partition, and the fault told to the management controller. -/
def packageFaulted (s : State) : Option State :=
  (endedEach ((s.launches.filter fun e => !e.2.ended).map (·.1)) s).map fun t =>
    let u := (s.parts.filter fun e => e.2.enabled).foldl (fun u e => withTrap u e.1 { w0 := 0x1D, w1 := 0, w2 := 0, w3 := 0, w4 := 0, strand := none }) t
    { u with faults := u.faults ++ [(0x1D, u.now)] }

/-- A mesh packet of a type received at its destination: dropped unread where its CRC fails, until it is resent; else the next of its pair and no longer in flight (R380, R381); none where it cannot arrive now. -/
def meshArrived (s : State) (p : MeshPacket) (kind : Nat) : Option State :=
  let here := fun (f : MeshFlight) => f.src = p.src && f.dst = p.dst && f.seq = p.seq
  let sent := match s.mesh.find? here with
    | some f => f.at_ = some p.dst && f.kind = kind && f.tag = p.tag && f.escape = p.escape
    | none => false
  if 8 ≤ p.src ∨ 8 ≤ p.dst ∨ 64 < p.payload.length ∨ p.kind ≠ kind ∨ sent = false then none
  else if p.crcOk = false then some { s with mesh := s.mesh.map fun f => if here f then { f with at_ := none } else f }
  else if (mapGet s.meshSeen (8 * p.src + p.dst)).getD 0 ≠ p.seq then none
  else some { s with mesh := s.mesh.filter fun f => !here f, meshSeen := mapSet s.meshSeen (8 * p.src + p.dst) ((p.seq + 1) % 2 ^ 20) }

/-- What an event of the ports, the die-to-die links and the mesh leaves; none where it does not happen. -/
def linkEvent (i : Instr) (s : State) : Option State :=
  let put := fun (n : Nat) (x : Port) => { s with ports := mapSet s.ports n x }
  let flights := fun (src dst seq : Nat) (g : MeshFlight → MeshFlight) =>
    { s with mesh := s.mesh.map fun f => if f.src = src && f.dst = dst && f.seq = seq then g f else f }
  match i with
  | .fabricFrameReceive n ok =>
    let x := s.port n
    if 64 ≤ n ∨ x.down = true ∨ x.bad = true then none else some (if ok then s else put n { x with bad := true, fails := 0 })
  | .frameRetransmit n ok =>
    let x := s.port n
    if 64 ≤ n ∨ x.bad = false ∨ x.down = true ∨ 16 ≤ x.fails then none
    else some (put n (if ok then { x with bad := false, fails := 0 } else { x with fails := x.fails + 1 }))
  | .portDown n =>
    let x := s.port n
    let t := put n { x with down := true }
    let other := fun (y : Sent) => (Config.routes y.dev).find? fun p => p < 64 && !(t.port p).down
    if 64 ≤ n ∨ x.bad = false ∨ x.down = true ∨ x.fails < 16 ∨ s.sent.any (fun y => y.port = n && (other y).isNone) then none
    else
      let names := fun (p : Part) => p.imports.any fun e => e.2.getLsbD 0 && (Config.routes (e.2.toNat / 2 % 1024)).contains n
      some ((s.parts.filter fun e => names e.2).foldl
        (fun u e => withTrap u e.1 { w0 := 0x1C, w1 := BitVec.ofNat 64 n, w2 := 0, w3 := 0, w4 := 0, strand := none })
        ((s.sent.filter fun y => y.port = n).foldl (fun u y =>
          let p := (other y).getD 0
          let q := { y.packet with port := p }
          packetSent { u with sent := u.sent.map fun z => if z = y then { z with port := p, packet := q } else z } q) t))
  | .wavelengthPark n =>
    let x := s.port n
    if 64 ≤ n ∨ x.down = true ∨ x.width ≤ s.parkLevel ∨ s.now < x.emptyAt + s.parkDelay then none else some (put n { x with width := s.parkLevel })
  | .wavelengthWake n =>
    let x := s.port n
    let flits := (x.emptyAt - s.now) / (4 / x.width + 1)
    if 64 ≤ n ∨ x.down = true ∨ 8 ≤ x.width ∨ flits ≤ s.wakeFlits then none else some (put n { x with width := 8, emptyAt := s.now + flits })
  | .d2dFlitReplay link ok =>
    let n := (mapGet s.d2dFails link).getD 0
    if 64 ≤ n then none else some { s with d2dFails := mapSet s.d2dFails link (if ok then 0 else n + 1) }
  | .packageFault =>
    let lost := fun (f : MeshFlight) => 16 ≤ f.resends && f.sentAt + 3400 ≤ s.now
    if s.d2dFails.all (fun e => e.2 < 64) && s.mesh.all (fun f => !lost f) then none
    else (packageFaulted s).map fun t =>
      { t with
        d2dFails := t.d2dFails.foldl (fun m e => if 64 ≤ e.2 then mapSet m e.1 0 else m) t.d2dFails,
        mesh := t.mesh.filter fun f => !(16 ≤ f.resends && f.sentAt + 3400 ≤ t.now) }
  | .meshCommand p =>
    if (List.range 16).all fun w => (waitingCmds s (16 * p.dst + w)).isEmpty || 32 ≤ (s.wil (16 * p.dst + w)).fifo.length then meshArrived s p 0 else none
  | .meshCompletion p => meshArrived s p 1
  | .meshOverlayRead p => meshArrived s p 2
  | .meshOverlayData p => meshArrived s p 3
  | .meshMaintenance p => meshArrived s p 4
  | .meshEscape src dst seq =>
    match s.mesh.find? fun f => f.src = src && f.dst = dst && f.seq = seq with
    | some f =>
      if f.escape = false ∧ f.at_ ≠ none ∧ f.at_ ≠ some f.dst ∧ f.since + 32 ≤ s.now ∧ hopOf s f = none then some (flights src dst seq fun g => { g with escape := true }) else none
    | none => none
  | .meshResend src dst seq =>
    match s.mesh.find? fun f => f.src = src && f.dst = dst && f.seq = seq with
    | some f =>
      if f.resends < 16 ∧ f.sentAt + 3400 ≤ s.now then
        some (flights src dst seq fun g => { g with resends := g.resends + 1, sentAt := s.now, escape := false, at_ := some src, via := src, since := s.now })
      else none
    | none => none
  | _ => none

/-! ## Integrity, budgets, temperature, boot and keys -/

/-- The first of the two copies that verifies and is not older than the anti-rollback counter (R387). -/
def goodCopy (rollback : Nat) (l : List (List Word × List Word)) : Option (List Word) :=
  ((l.take 2).find? fun c => Config.signatureVerifies c.1 c.2 && decide (rollback ≤ (c.1.getD 0 0).toNat)).map (·.1)

/-- A strand of the cluster whose scratch segments cover a scratch word (R319). -/
def coversWord (pa : Nat) (st : Strand) : Bool :=
  st.core / 4 = ocPkgCluster pa && st.g.any fun g =>
    g.2.attr.getLsbD 13 && decide (g.2.base.toNat ≤ ocOff pa + 7) && decide (ocOff pa < g.2.base.toNat + g.2.limit.toNat)

/-- The package after power-on: without power where no firmware image or no record is good; else measured by them, its identity derived; then configured by the record, or, where M firmware does not accept it, at a package fault (R386 to R390). -/
def poweredOn (s : State) (f : Flash) : State :=
  let t := { State.reset with flash := f, antiRollback := s.antiRollback, turns := s.turns }
  match goodCopy s.antiRollback f.images, goodCopy s.antiRollback f.records with
  | some image, some r =>
    let u := { t with
      measured := [(1, Config.sha384 Config.bootRom), (2, Config.sha384 image), (3, Config.sha384 r)], identity := some (Config.identityKey f.helper) }
    if cfgOk r = false then { u with faults := t.faults ++ [(0x1D, t.now)], powered := false }
    else { u with
      measured := u.measured ++ [(4, Config.sha384 Config.uefiImage)],
      bootedVersion := some (r.getD 0 0).toNat, lpddr := (r.getD 1 0).toNat * 2 ^ 30,
      mappedOut := (List.range 4).flatMap fun d => ((List.range 68).filter fun c => ((r.getD (3 + 2 * d) 0).toNat + (r.getD (4 + 2 * d) 0).toNat * 2 ^ 64) / 2 ^ c % 2 = 1).map fun c => 65536 + 68 * d + c,
      budgets := (List.range 7).flatMap fun i =>
        let limit := (r.getD (11 + i) 0).toNat % 2 ^ 32
        (List.range (budgetInstances i)).map fun n => (256 * i + n, { cap := limit, limit := limit, counter := 0, prev := 0 }) }
  | _, _ => { t with powered := false }

/-! ## Peers -/

/-- The tag of a partition's next page request: the first from its counter on that no outstanding request has (R349). -/
def freshTag (x : Part) : Nat :=
  let n := x.reqs.length
  (x.nextTag + ((List.range (n + 1)).find? fun i => x.reqs.all fun r => r.tag ≠ (x.nextTag + i) % 2 ^ 32).getD n) % 2 ^ 32

/-- A request's answer of a kind: to its source, with its ASID, tag and address (Table 23-1). -/
def peerAnswer (p : Packet) (kind : Nat) (data : List Byte) : Packet where
  port := p.port
  w0 := BitVec.ofNat 64 (p.w0.toNat / 2 ^ 44 % 2 ^ 10 * 2 ^ 54 + p.w0.toNat / 2 ^ 54 * 2 ^ 44 + kind * 2 ^ 40 + (((data.length + 3) / 4 - 1) % 64) * 2 ^ 32 + p.w0.toNat % 2 ^ 32)
  w1 := p.w1
  w2 := 0
  rest := []
  payload := data

/-- A packet arrives whole, of a kind and with its reserved fields zero (R374, R377). -/
def peerArrives (s : State) (p : Packet) (kind : Nat) : Prop :=
  p.port < 64 ∧ (s.port p.port).down = false ∧ (s.port p.port).bad = false ∧ pkReserved p = false ∧ p.w0.toNat / 2 ^ 40 % 16 = kind

/-- Bytes a peer stores, one write for each aligned 8-byte word, each a release at fabric scope of what its device has written (R279, R378). -/
def peerStored (s : State) (dev : Nat) (atomic : Bool) (l : List ((Tlb × Nat) × Byte)) : State :=
  let deps := outsideDeps s dev
  match l with
  | [] => s
  | q :: _ =>
    let words := (l.map fun p => p.1.2 / 8).eraseDups
    let t := (engineStore { engineWriter (homeDie q.1.2) deps with atomic := atomic } 8 l).run s
    let u := (runsOf (l.map fun p => (p.1.2, p.2))).foldl (fun u r => healed u r.1 r.2.length) t
    let v := behindOutside u dev (writesSince s t)
    { v with rels := v.rels ++ l.map fun p =>
        let id := s.nextWrite + words.idxOf (p.1.2 / 8)
        ({ addr := p.1.2, id := id, deps := v.stillPending (joinDeps deps [id]), core := 2 ^ 20 + dev, die := 0, scope := 5, later := [] } : Release) }

/-- What a peer's read acquires of the releases at fabric scope that stand at its bytes. -/
def peerAcquired (s : State) (dev : Nat) (l : List (Tlb × Nat)) : State :=
  let rs := s.rels.filter fun r => (l.map (·.2)).contains r.addr && s.shows none r && synchronises r (2 ^ 20 + dev) 0 5
  if rs = [] then s else behindOutside s dev (rs.flatMap (·.deps))

/-- A peer's request served at its home: performed and answered, refused, or waiting for the Drevar side (R110, R352, R378). -/
def peerServed (s : State) (p : Packet) (kind : Nat) : State :=
  let refused := packetSent s (peerAnswer p 5 [])
  match importFor s p with
  | none => refused
  | some (part, asid) =>
    if peerFormOk p = false then refused
    else
      let n := if kind = 0 then 4 * (p.w0.toNat / 2 ^ 32 % 64 + 1) else if kind = 1 then p.payload.length else fmtBytes (p.w2.toNat % 16)
      let va := if kind = 0 then p.w1.toNat / 4 * 4 else p.w1.toNat
      match peerSpan s part asid va (min kind 2) n with
      | .error (.page need) =>
        let x := s.part part
        let tag := freshTag x
        { s with
          parts := mapSet s.parts part { x with
            nextTag := (tag + 1) % 2 ^ 32,
            reqs := x.reqs ++ [{
              tag := tag, posted := false, strand := none,
              w0 := BitVec.ofNat 64 (tag * 2 ^ 32 + asid % 2 ^ 16 * 2 ^ 16 + need.stage * 8 + need.access),
              w1 := BitVec.ofNat 64 (need.page * 8192), w2 := BitVec.ofNat 64 need.va,
              w3 := BitVec.ofNat 64 (p.w0.toNat / 2 ^ 44 % 2 ^ 10 * 2 ^ 38 + 4 * 2 ^ 32) }] },
          peerWaits := s.peerWaits ++ [{ tag := tag, part := part, packet := p }] }
      | .error _ => refused
      | .ok l =>
        let old := l.map fun q => BitVec.ofNat 8 (s.homeKN q.1.key q.2 1)
        let dev := p.w0.toNat / 2 ^ 44 % 2 ^ 10
        let u := spanned s l
        if kind = 0 then packetSent (peerAcquired u dev l) (peerAnswer p 4 old)
        else if kind = 1 then packetSent (peerStored u dev false (l.zip p.payload)) (peerAnswer p 6 [])
        else
          let ty := p.w2.toNat % 16
          if l.any fun q => q.1.fmt ≠ 0 && q.1.fmt ≠ ty then refused
          else
            let new := atomResult (p.w2.toNat / 16 % 16) ty (payloadN old 0 n) (payloadN p.payload 0 n) (payloadN p.payload n n)
            packetSent (peerStored (if kind = 2 then peerAcquired u dev l else u) dev true (l.zip (bytesOf new n))) (if kind = 2 then peerAnswer p 4 old else peerAnswer p 6 [])

/-- No launch of a partition still running is recorded. -/
def unrecorded (s : State) (part : Nat) : Bool := s.launches.all fun e => e.2.part ≠ part || !e.2.record || e.2.ended

/-- What a peer's request or feed leaves; none where it does not arrive, or its effect is logged (R370). -/
def peerEvent (i : Instr) (s : State) : Option State :=
  let refused := fun (p : Packet) => some (packetSent s (peerAnswer p 5 []))
  let served := fun (p : Packet) (kind : Nat) =>
    if p.port < 64 ∧ p.w0.toNat / 2 ^ 40 % 16 = kind ∧ (s.port p.port).down = false ∧ (s.port p.port).bad = false ∧ pkReserved p = false ∧ peerStill s p = true then some (peerServed s p kind) else none
  match i with
  | .peerRead p => served p 0
  | .peerWrite p => served p 1
  | .peerAtomic p => served p 2
  | .peerReduction p => served p 3
  | .peerReservedPacket p => if p.port < 64 ∧ (s.port p.port).down = false ∧ (s.port p.port).bad = false ∧ pkReserved p = true then refused p else none
  | .peerQueuePush p =>
    let key := 16 * (p.w1.toNat % 64) + p.w1.toNat / 64 % 16
    let q := s.queue key
    if ¬ (p.port < 64 ∧ p.w0.toNat / 2 ^ 40 % 16 = 7 ∧ (s.port p.port).down = false ∧ (s.port p.port).bad = false ∧ pkReserved p = false) then none
    else match importFor s p with
      | none => refused p
      | some (part, _) =>
        if q.usable && q.peerFed && decide (q.allowance ≠ 0) && decide (p.payload.length = 8) && decide (p.w0.toNat / 2 ^ 32 % 64 = 1) then
          if unrecorded s part = false ∨ pushedFirst s key = true then none
          else some (packetSent (fedIn s key p.payload (p.w0.toNat / 2 ^ 44 % 2 ^ 10)) (peerAnswer p 6 []))
        else refused p
  | .peerTimelineFeed p =>
    if ¬ (p.port < 64 ∧ p.w0.toNat / 2 ^ 40 % 16 = 8 ∧ (s.port p.port).down = false ∧ (s.port p.port).bad = false ∧ pkReserved p = false) then none
    else match importFor s p with
      | none => refused p
      | some (part, _) =>
        let v := p.w1.toNat
        match s.launches.find? fun e => e.2.part = part && e.2.ident % 2 ^ 32 = v % 2 ^ 32 && !e.2.ended with
        | some (id, l) =>
          if p.payload ≠ [] ∨ p.w0.toNat / 2 ^ 32 % 64 ≠ 0 ∨ l.ext.getLsbD (v / 2 ^ 32 % 8) = false ∨ v / 2 ^ 48 = 0 then refused p
          else if l.record = true ∨ l.replay = true then none
          else some (packetSent (arrivals s (8 * id + v / 2 ^ 32 % 8) (outsideDeps s (p.w0.toNat / 2 ^ 44 % 2 ^ 10)) (v / 2 ^ 48)) (peerAnswer p 6 []))
        | none => refused p
  | _ => none

/-- The lane a peer's answer is for: the packet in flight to that device under that tag, of a kind it answers, and the operation's lane that waits for it. -/
structure Awaited (s : State) (p : Packet) (kinds : List Nat) (x : Sent) (o : Op) (m : MemOp) (r : LaneReq) : Prop where
  sent : s.sent.find? (fun y => y.dev = p.w0.toNat / 2 ^ 44 % 2 ^ 10 && y.tag = p.w0.toNat % 2 ^ 16) = some x
  kind : x.packet.w0.toNat / 2 ^ 40 % 16 ∈ kinds
  op : s.op? x.op = some o
  mem : o.kind = .mem m
  lane : m.reqs.find? (fun q => q.lane = x.lane && q.st = .sent x.tag && q.remote.map (· / 65536) = some x.dev) = some r

/-- The state with an answered packet no longer in flight and its lane settled. -/
def laneSettled (s : State) (x : Sent) (o : Op) (m : MemOp) (r : LaneReq) (f : LaneReq → LaneReq) : State :=
  { s with
    sent := s.sent.filter fun y => !(y.dev = x.dev && y.tag = x.tag),
    ops := s.ops.map fun p => if p.id = o.id then { o with kind := .mem { m with reqs := updReq m.reqs r f } } else p }

/-- Some other lane of the operation is still unsettled. -/
def OthersOpen (m : MemOp) (r : LaneReq) : Prop := ∃ q ∈ m.reqs, q ≠ r ∧ q.st ≠ .done ∧ q.refusedCause = none

/-! ## The queue feed -/

/-- Pieces of 64 bytes stored at their pages, word by word, each byte a release at package scope (R279, R384). -/
def piecesStored (s : State) (l : List ((Tlb × Nat) × List Word)) : State :=
  let deps := outsideDeps s drevarDev
  let w := fun (q : (Tlb × Nat) × List Word) => { engineWriter 4 deps with key := q.1.1.key }
  let t := l.foldl (fun t q => healed ((inWords q.1.2 (q.2.flatMap wordBytes)).foldl (fun u p => storedAt u (w q) p.1 p.2) t) q.1.2 64) s
  let v := behindOutside t drevarDev (writesSince s t)
  spanned { v with rels := v.rels ++ (List.range l.length).flatMap fun i => (List.range 64).flatMap fun b =>
    let id := s.nextWrite + 8 * i + b / 8
    (l[i]?).toList.map fun q => { addr := q.1.2 + b, id := id, deps := v.stillPending (joinDeps deps [id]), core := drevarCore, die := 0, scope := 4, later := [] } }
    (l.map (·.1))

/-- The datagram's sequence is the last accepted one, and its answer, of kind 0x80 without a body, is returned (R384). -/
def feedAnswered (s : State) (g : Datagram) : State :=
  let part := g.w0.toNat / 2 ^ 42 % 64
  let x := s.part part
  { s with
    parts := mapSet s.parts part { x with feedSeq := mapSet x.feedSeq (g.w0.toNat / 2 ^ 32 % 64) g.w1.toNat },
    answers := s.answers ++ [[BitVec.ofNat 64 (2 ^ 56 + 0x80 * 2 ^ 48 + g.w0.toNat / 2 ^ 32 % 2 ^ 16 * 2 ^ 32), g.w1, 0, 0]] }

/-- What a datagram of the queue feed leaves (R384); none where its effect is not of its event. -/
def feedEvent (i : Instr) (s : State) : Option State :=
  let part := fun (g : Datagram) => g.w0.toNat / 2 ^ 42 % 64
  let chain := fun (g : Datagram) => g.w0.toNat / 2 ^ 38 % 16
  let good := fun (g : Datagram) (kind : Nat) => gramOk s g && decide (g.w0.toNat / 2 ^ 48 % 2 ^ 8 = kind)
  let pieces := fun (g : Datagram) (l : List (Tlb × Nat)) => (List.range l.length).filterMap fun i =>
    (l[i]?).map fun p => (p, ((gramBody s g).drop (8 * i)).take 8)
  match i with
  | .feedLaunchRecords g =>
    let e := feedEntry s g
    let first := (mapGet (s.part (part g)).feedSlot (chain g)).getD 0
    let n := g.w0.toNat / 2 ^ 16 % 2 ^ 16
    let slots := (List.range n).map fun i => e.2.1 + 64 * ((first + i) % e.2.2)
    let free := slots.all fun a => !(s.chain (16 * part g + chain g)).deps.any fun d => d.1 % 2 ^ 64 = a
    if good g 1 && decide (n ≤ e.2.2) && free && linkOk s (part g) (chain g) then
      match feedPages s (part g) (chain g) slots with
      | some l =>
        if spanStill s l = false then none else
        let t := piecesStored s (pieces g l)
        let x := t.part (part g)
        let u := { t with parts := mapSet t.parts (part g) { x with feedSlot := mapSet x.feedSlot (chain g) ((first + n) % e.2.2) } }
        (slots.foldl (fun (a : Option State) (addr : Nat) => a.bind fun v => linked v (part g) (chain g) addr 0 (outsideDeps v drevarDev)) (some u)).map fun v => feedAnswered v g
      | none => none
    else none
  | .feedDataWrite g =>
    if good g 2 then
      ((feedPages s (part g) (chain g) ((List.range (g.w0.toNat / 2 ^ 16 % 2 ^ 16)).map fun i => g.w2.toNat + 64 * i)).filter fun l => spanStill s l).map fun l =>
        feedAnswered (piecesStored s (pieces g l)) g
    else none
  | .feedTimelineAdvance g => if good g 3 then some (feedAnswered (raised s (part g) (chain g) (g.w0.toNat % 8) g.w2.toNat) g) else none
  | .feedDatagramDiscard g =>
    if gramOk s g = false then some { s with discards := s.discards + 1 }
    else if g.w0.toNat / 2 ^ 48 % 2 ^ 8 = 2 then
      match feedPages s (part g) (chain g) ((List.range (g.w0.toNat / 2 ^ 16 % 2 ^ 16)).map fun i => g.w2.toNat + 64 * i) with
      | none => some { s with discards := s.discards + 1 }
      | some _ => none
    else none
  | _ => none

/-! ## The issue unit -/

/-- A split that the core's rules let issue next, where the schedule asks for it (R85 to R89, R94, R336). -/
structure Issues (s : State) (k n : Nat) (r : List Turn) (w : Word) : Prop where
  power : s.powered = true
  turn : s.turns = .issue k n :: r
  next : (pickOn { s with turns := r } (s.strand k).core).map (fun c => (c.k, c.sp.num)) = some (k, n)
  word : s.codeWord (s.strand k) ((s.strand k).splitOf n).ovl ((s.strand k).splitOf n).pc = some w

/-- The state in which a word acts: time has reached the cycle its distance gives, its strand and split are the current ones (R89). -/
def atIssue (s : State) (k n : Nat) (r : List Turn) (w : Word) : State :=
  let u := { s with turns := r }
  (reach k n (issueCycle u (s.strand k) (Common.ofWord w).dist.toNat)).run u

/-- The checks of a word that stands in a clause, in the order of Table 8-11: opcode assigned; class of the clause; fields; transfers last; privilege; selectors. The cause of the first that fails. -/
def wordCause (st : Strand) (cl : Clause) (w : Word) : Option Nat :=
  let op := w.toNat / 2 ^ 56
  if assignedOp op = false then some 0x01
  else if opClass op ≠ cl.hdr.cls.toNat then some 0x03
  else match parseWord w with
    | none => some 0x01
    | some i =>
      if encode i ≠ w ∨ i.fieldsOk = false then some 0x01
      else if opTransfer op = true ∧ cl.idx ≠ cl.hdr.count.toNat then some 0x01
      else if opClass op = 4 ∧ st.level = 0 then some 0x18
      else if i.selsOk = false then some 0x02
      else none

end Sys2Proof.Claims

/-- R374 to R376, R379 to R381: what a frame received or retransmitted, a port that goes down with every packet it carried moved, parking and waking of wavelengths, a replayed flit, a package fault and the packets of the mesh leave; nothing else changes. Rests on choices of the model: logs 36, 37, 61, 67, 117, 119. -/
def Obligations.LinkEvents : Prop := ∀ (i : Instr) (s t : State), linkEvent i s = some t → exec i s = .next t

/-- R328, R365, R366, R386 to R391: what the patrol scrub, the start of a budget period, a droop, a temperature, power-on, the anti-rollback counter, a key's load and an attestation request leave; nothing else changes. The layout of the configuration record is the model's (log 33). Rests on choices of the model: logs 33, 58, 59, 66, 107, 119. -/
def Obligations.UpkeepEvents : Prop :=
  (∀ (s : State) (pa die slice : Nat) (bad : Bool),
    let stack := s.budget 1 (pa / 2 ^ 36)
    let tumbler := s.budget 0 (16 * die + slice)
    let t := if bad && !s.poison.contains (pa / 64) then { s with poison := s.poison ++ [pa / 64] } else s
    (pa < 2 ^ 39 → stack.counter < stack.limit →
      exec (.patrolScrub (.line pa bad)) s = .next { t with budgets := mapSet s.budgets (256 + pa / 2 ^ 36) { stack with counter := stack.counter + 64 } }) ∧
    (die < 4 → slice < 16 → s.inMain pa = true → tumbler.counter < tumbler.limit →
      exec (.patrolScrub (.slice die slice pa bad)) s = .next { t with
        budgets := mapSet s.budgets (16 * die + slice) { tumbler with counter := tumbler.counter + Config.scrubCycles } })) ∧
  (∀ (s : State) (pa : Nat) (bad : Bool), onChip pa = true → ocDie pa < 4 → ocType pa = 3 →
    (bad = false → pa / 8 ∉ s.scratchBad → exec (.patrolScrub (.scratch pa bad)) s = .next s) ∧
    (bad = true ∨ pa / 8 ∈ s.scratchBad →
      (∃ t, exec (.patrolScrub (.scratch pa bad)) s = .next t ∧ pa / 8 ∉ t.scratchBad) ∧
      ((∀ e ∈ s.strands, e.1 < 4096 → coversWord pa e.2 = false) → exec (.patrolScrub (.scratch pa bad)) s = .next { s with
        mem := putBytes s.mem (pa / 8 * 8) (List.replicate 8 0), scratchBad := s.scratchBad.filter fun w => w ≠ pa / 8 }))) ∧
  (∀ (s : State) (core part idx : Nat) (bad : Bool),
    let it := fun (o : Overlay) => o.core = core && o.part = part && o.idx = idx && o.routine = decide (256 ≤ core)
    ∀ x, s.overlays.find? it = some x → x.stale = false →
    let copy := fun (o : Overlay) => decide (o = x) || o.core = core && !o.routine && !x.routine && o.slots = x.slots
    exec (.patrolScrub (.code core part idx bad)) s = .next (if bad then { s with overlays := s.overlays.map fun o => if copy o then { o with stale := true } else o } else s)) ∧
  (∀ (s : State), s.period < s.now / 108800 → keysRise s.budgets = true → exec .budgetPeriodStart s = .next { s with
    period := s.now / 108800, droops := [], droopsPrev := s.droops,
    budgets := s.budgets.map fun e => (e.1, { e.2 with prev := e.2.counter, counter := 0 }) }) ∧
  (∀ (s : State) (core : Nat), core < 256 →
    exec (.voltageDroopEvent core) s = .next { s with droops := mapSet s.droops core ((mapGet s.droops core).getD 0 + 1) }) ∧
  (∀ (s : State) (die temp : Nat), die < 4 →
    let halved := (mapGet s.halved die).getD false
    (105 ≤ temp → halved = false → exec (.thermalThrottle die temp) s = .next { s with halved := mapSet s.halved die true, dieTemps := mapSet s.dieTemps die temp }) ∧
    (temp ≤ 100 → halved = true → exec (.thermalRestore die temp) s = .next { s with halved := mapSet s.halved die false, dieTemps := mapSet s.dieTemps die temp }) ∧
    (115 ≤ temp → (∃ t, exec (.thermalShutdown die temp) s = .next t ∧ t.powered = false) ∧
      ∀ t, packageFaulted { s with dieTemps := mapSet s.dieTemps die temp } = some t → exec (.thermalShutdown die temp) s = .next { t with powered := false })) ∧
  (∀ (s : State) (f : Flash), exec (.powerOnReset f) s = .next (poweredOn s f)) ∧
  (∀ (s : State) (v : Nat), s.bootedVersion = some v → exec .antiRollbackRaise s = .next { s with antiRollback := max s.antiRollback v }) ∧
  (∀ (s : State) (part slot : Nat) (wrapped : List Word), part < 64 → slot < 64 →
    exec (.keySlotLoad true part slot wrapped) s = .next (match s.identity.bind fun d => Config.unwrapKey d wrapped with
      | some k => { s with feedKeys := mapSet s.feedKeys (64 * part + slot) k }
      | none => s)) ∧
  (∀ (s : State) (part slot : Nat) (wrapped : List Word), 1 ≤ slot → slot ≤ 1023 →
    let used := s.parts.any fun e => e.2.enabled && decide (e.2.keyFirst ≤ slot) && decide (slot < e.2.keyFirst + e.2.keyCount)
    exec (.keySlotLoad false part slot wrapped) s = .next (match s.identity.bind fun d => Config.unwrapKey d wrapped with
      | some k => if used then s else { s with keySlots := mapSet s.keySlots slot k }
      | none => s)) ∧
  ∀ (s : State) (index : Nat), exec (.spdmRequest index) s = .next { s with answers := s.answers ++ [
    if index = 0 then s.flash.certificate ++ (s.identity.map Config.publicKey).getD [] else
      BitVec.ofNat 64 index :: match mapGet s.measured index with
        | some m => (List.range 6).map fun i => m.extractLsb' (64 * i) 64
        | none => []] }

/-- R110, R352, R358, R377, R378: a peer's request is performed at its home and answered, refused, or waits for its page; its queue push and timeline feed act or are refused; a reserved packet is refused. The answer to a request of this package settles the lane that awaits it, and an answer nothing awaits does nothing. Rests on choices of the model: logs 35, 36, 67, 94, 95. -/
def Obligations.PeerEvents : Prop :=
  (∀ (i : Instr) (s t : State), peerEvent i s = some t → exec i s = .next t) ∧
  (∀ (s : State) (p : Packet) (x : Sent) (o : Op) (m : MemOp) (r : LaneReq),
    let done := fun (v : Nat) (q : LaneReq) => { q with st := .done, val := BitVec.ofNat 64 v }
    (peerArrives s p 4 → Awaited s p [0, 2] x o m r → (∀ q ∈ m.reqs, q.refusedCause = none) →
      let v := match m.kind with
        | .atom _ => payloadN p.payload 0 r.bytes
        | _ => payloadN p.payload (if r.bytes < 4 then r.va % 4 else 0) r.bytes
      exec (.peerReply p) s = .next ((laneSettled s x o m r (done v)).applyL o.owner (resultUpd m r v))) ∧
    (peerArrives s p 6 → Awaited s p [1, 3] x o m r → (∀ q ∈ m.reqs, q.refusedCause = none) →
      exec (.peerAcknowledgement p) s = .next (laneSettled s x o m r (done 0))) ∧
    (peerArrives s p 5 → Awaited s p [0, 1, 2, 3] x o m r → OthersOpen m r →
      exec (.peerRefusal p) s = .next (laneSettled s x o m r fun q => { q with st := .refused 0x08 }))) ∧
  ∀ (s : State) (p : Packet), s.sent.find? (fun y => y.dev = p.w0.toNat / 2 ^ 44 % 2 ^ 10 && y.tag = p.w0.toNat % 2 ^ 16) = none →
    (peerArrives s p 4 → exec (.peerReply p) s = .next s) ∧ (peerArrives s p 5 → exec (.peerRefusal p) s = .next s) ∧
    (peerArrives s p 6 → exec (.peerAcknowledgement p) s = .next s)

/-- R383, R384: what a datagram of the queue feed leaves: its records in the next ring slots and linked in body order, its body at its target, or its chain timeline raised, its sequence the last accepted and its answer returned; any other is discarded and counted, and nothing is applied. Rests on choices of the model: logs 57, 66, 94, 101. -/
def Obligations.FeedEvents : Prop := ∀ (i : Instr) (s t : State), feedEvent i s = some t → exec i s = .next t

/-- R87, R93, R280, R301: a header whose waits hold takes its split into the clause, with every latch unspecified, after the writes of the instructions it waited for; one whose waits do not hold lets a cycle pass; a level-K strand in an overlay that is none for level K raises privilege. Rests on choices of the model: logs 6, 10, 91. -/
def Obligations.ClauseEnters : Prop :=
  ∀ (h : Header) (s : State) (st : Strand), mapGet s.strands s.cur.1 = some st →
    let sp := st.splitOf s.cur.2
    let zero := fun (f : Nat) => st.flagZeroAt f s.now = true
    let barred := st.level ≠ 0 ∧ ∃ o, s.codeOf st sp.ovl = some o ∧ o.kbit = false
    let waited := ((List.range 12).filter fun f => h.wait.getLsbD f && st.flagZeroAt f s.now).foldl (fun a f => joinDeps a ((mapGet st.flagDeps f).getD [])) []
    let holds := if h.any = 1#1 then h.wait ≠ 0 → ∃ f < 12, h.wait.getLsbD f = true ∧ zero f else ∀ f < 12, h.wait.getLsbD f = true → zero f
    (¬ barred → holds → exec (.clauseIssue h) s = .next { s with
      fresh := s.fresh + 1,
      strands := mapSet s.strands s.cur.1 { st with
        splits := putSplit st.splits { sp with clause := some { at_ := sp.pc, hdr := h, idx := 0, yielded := h.yield = 1#1 }, pc := sp.pc + 1, yielded := false, dep := s.stillPending (joinDeps sp.dep waited) },
        latS := [], latL := [], latSeed := s.fresh,
        delayed := st.delayed.filter fun d => match d.2 with | .latS .. => false | .latL .. => false | _ => true } }) ∧
    (¬ barred → ¬ holds → keysRise s.strands = true → keysRise s.launches = true →
      (∀ e ∈ s.strands, (∀ d ∈ e.2.delayed, s.now + 1 < d.1) ∧ (∀ f ∈ e.2.frame.toList ++ e.2.pending, ∀ d ∈ f.latOn, s.now + 1 < d.1) ∧ ∃ y ∈ e.2.splits, y.run ≠ .exiting) →
      exec (.clauseIssue h) s = .next { s with
        now := s.now + 1,
        launches := s.launches.map fun e => (e.1, if e.2.ended || wdogCounts s e.1 e.2 then e.2 else { e.2 with wdog := s.now + 1 }) }) ∧
    (barred → st.isRoutine = false → st.frame = none → sp.num = s.cur.2 →
      ∃ f : Trap, exec (.clauseIssue h) s = .next (withTrap (withStrand s s.cur.1 (parkedStrand st sp f)) st.part (queued s st s.cur.1 f)) ∧ FrameOf st sp 0x18 0 f)

/-- R84 to R86: a step that issues a well-formed word runs exactly the instruction decoded from it, in the state of its issue cycle; one at a header runs the header; a step whose turn is an event runs that event. Rests on choices of the model: logs 7, 9, 103. -/
def Obligations.StepRunsDecoded : Prop :=
  (∀ (s : State) (k n : Nat) (r : List Turn) (w : Word) (cl : Clause) (i : Instr),
    let st := s.strand k
    Issues s k n r w → (st.splitOf n).clause = some cl → decodeTableWord 64 w.toNat = some i → i.wellFormed = true → gridHeld s st cl = false →
    wordCause ((atIssue s k n r w).strand k) cl w = none → st.isRoutine = false → ((atIssue s k n r w).strand k).isRoutine = false →
    step s = exec i (atIssue s k n r w)) ∧
  (∀ (s : State) (k n : Nat) (r : List Turn) (w : Word) (h : Header),
    Issues s k n r w → ((s.strand k).splitOf n).clause = none → decodeHeader w = some h →
    step s = exec (.clauseIssue h) { s with turns := r, cur := (k, n) }) ∧
  ∀ (s : State) (i : Instr) (r : List Turn), s.powered = true → s.turns = .event i :: r → Instr.isEvent i = true → step s = exec i { s with turns := r }

/-- R84, R156, R313, Table 8-11: a word with an active lane that fails a check of the issue unit parks its split before any effect, with the cause of the first check that fails; a word that is no header, where one is due, does so with cause 4, and a split past its overlay's end with cause 6. Nothing else changes. Rests on choices of the model: logs 7, 9, 103. -/
def Obligations.WordsChecked : Prop :=
  (∀ (s : State) (k n : Nat) (r : List Turn) (w : Word) (cl : Clause) (cause : Nat),
    let t := atIssue s k n r w
    let st := t.strand k
    let sp := st.splitOf n
    Issues s k n r w → ((s.strand k).splitOf n).clause = some cl → sp.clause = some cl → gridHeld s (s.strand k) cl = false →
    activeLanes st sp (Common.ofWord w) ≠ 0 → wordCause st cl w = some cause → st.isRoutine = false → st.frame = none → mapGet t.strands k = some st →
    sp.num = n →
    ∃ f : Trap, step s = .next (withTrap (withStrand t k (parkedStrand st sp f)) st.part (queued t st k f)) ∧ FrameOf st sp cause 0 f ∧
      f.tags = [] ∧ f.refused = [] ∧ f.posted = false ∧ f.needs = []) ∧
  ∀ (s : State) (k n : Nat) (r : List Turn) (cause : Nat),
    let u := { s with turns := r }
    let st := s.strand k
    let sp := st.splitOf n
    s.powered = true → s.turns = .issue k n :: r → (pickOn u st.core).map (fun c => (c.k, c.sp.num)) = some (k, n) →
    (s.codeWord st sp.ovl sp.pc = none ∧ cause = 6 ∨ ∃ w, s.codeWord st sp.ovl sp.pc = some w ∧ sp.clause = none ∧ decodeHeader w = none ∧ cause = 4) →
    st.isRoutine = false → st.frame = none → mapGet s.strands k = some st → sp.num = n →
    ∃ f : Trap, step s = .next (withTrap (withStrand u k (parkedStrand st sp f)) st.part (queued u st k f)) ∧ FrameOf st sp cause 0 f ∧
      f.tags = [] ∧ f.refused = [] ∧ f.posted = false ∧ f.needs = []

/-- R156 to R160: decoding the word that encodes a well-formed instruction, or a clause header, gives it back, with every operand; only the events have no word. Rests on choices of the model: log 69. -/
def Obligations.DecodeEncode : Prop := ∀ (i : Instr), i.wellFormed = true → Instr.isEvent i = false → decodeTableWord 64 (encode i).toNat = some i

/-- The invariant is the model's own (its memory list and maps): memory in its canonical form, and the maps of slots, saved strands, launches and lane words in order. Every step keeps it. -/
def Obligations.StepKeepsInv : Prop := ∀ (s t : State), s.Inv → step s = .next t → t.Inv

/-- The model's own invariant holds right after reset. -/
def Obligations.ResetInv : Prop := State.reset.Inv

/-- R156, R157, R159: the worked words of Tables 8-12, 10-11, 11-8 and 18-3 and of R188 decode to the instructions their tables give. Rests on choices of the model: log 69. -/
def Obligations.DecodeSamples : Prop :=
  let c := fun (dist : BitVec 3) (setf : BitVec 4) (lat : BitVec 2) => (⟨dist, setf, 0, lat, 0, 0⟩ : Common)
  decodeTableWord 64 0xFF20004000000000 = some (.clauseIssue ⟨1, 0, 2, 0, 0, 0⟩) ∧
  decodeTableWord 64 0x2A000002FFFFFFFA = some (.loop (c 0 0 0) (.reg 5) 0x7FFFFFFA) ∧
  decodeTableWord 64 0x4040404880600400 = some (.fadd (c 2 0 1) (.lane 1 0 0 (.reg 9) (.reg 8) (.reg 3))) ∧
  decodeTableWord 64 0x420001D900040001 = some (.fmul (c 0 0 0) (.planeS 0 0 0 7 6 4)) ∧
  decodeTableWord 64 0x4E80002820005002 = some (.fcvt (c 4 0 0) 1 1 (.lane 4 0 0 (.reg 5) (.reg 2))) ∧
  decodeTableWord 64 0x700800841406FFFF = some (.shift (c 0 4 0) 0 1 .const 2 1 5 0xFFFF) ∧
  decodeTableWord 64 0xA004004081000010 = some (.ld (c 0 2 0) ⟨1, .reg 8, 1, .reg 1, 0⟩) ∧
  decodeTableWord 64 0xAB0A003101200318 = some (.red (c 0 5 0) ⟨.max, 1, .package, 0, .reg 6, 2, .reg 1, 3⟩) ∧
  decodeTableWord 64 0xB000001000000006 = some (.fence (c 0 0 0) .rel .die) ∧
  decodeTableWord 64 0xB206001041460000 = some (.cpy (c 0 3 0) (.reg 10) (.reg 2) (.reg 4) (some 1)) ∧
  decodeTableWord 64 0xD006001051200001 = some (.xbmv (c 0 3 0) 1 9 2 (.reg 5) none) ∧
  decodeTableWord 64 0xD70C0018018A0000 = some (.nmcall (c 0 6 0) (.reg 12) (.reg 3) (some 2)) ∧
  decodeTableWord 64 0xF50A000004000480 = some (.ctxsave (c 0 5 0) (.reg 9) (.reg 8))
end

