-- ==== Sys2Proof/Laws/State.lean ====
section
/-! SUPPORT. What each elementary update leaves of each field of the state: an update changes the fields it names and no other, and a list of updates the fields that its members name. -/

namespace Sys2Proof.Machine

/-- The fields of the state, by name. -/
inductive Field where
  | now | cur | mem | lanes | lanesBad | poison | scratchBad | accBad | lineKeys | pend | rels | strands | ghosts | saved | overlays | ops | tlb | queues | tiles | accTags | xbars | mergers | outDeps | slotWords | msgs | wilnum | launches | tls | chains | cts | parts | regs | budgets | blocks | period | temps | dieTemps | droops | droopsPrev | ports | parkLevel | parkDelay | wakeFlits | sent | out | peerWaits | d2dFails | mesh | meshNext | meshSeen | keySlots | feedKeys | discards | flash | antiRollback | bootedVersion | identity | measured | answers | faults | reports | lpddr | mappedOut | halved | powered | turns | fresh | nextOp | nextLaunch | nextWrite
  deriving DecidableEq, Repr

/-- The fields an update may change. -/
def Upd.touches : Upd → List Field
  | .tick .. => [.now]
  | .cur .. => [.cur]
  | .loc .. => [.strands, .ghosts, .lanes, .lanesBad, .saved]
  | .mem .. | .memClear .. => [.mem]
  | .strand .. | .strandDel .. => [.strands]
  | .ghost .. | .ghostDel .. => [.ghosts]
  | .split .. | .splits .. | .trap .. | .pendTrap .. | .delay .. | .delayed .. | .issued .. | .moves .. | .flagUp .. | .latches .. | .seg .. | .gang .. | .gangAt .. | .keys .. | .tgt .. | .handler .. | .marks .. | .dep .. | .fenced .. | .flagDeps .. | .endCode .. => [.strands, .ghosts]
  | .after .. => [.strands, .ghosts, .ops]
  | .outDep .. => [.outDeps]
  | .slotWord .. => [.slotWords]
  | .saved .. => [.saved]
  | .lanesClear .. => [.lanes]
  | .bad .. => [.lanesBad, .scratchBad, .accBad]
  | .poison .. => [.poison]
  | .lineKey .. => [.lineKeys]
  | .pend .. | .pendAdd .. | .cover .. => [.pend]
  | .fire .. | .opAdd .. | .opSet .. | .opDel .. => [.ops]
  | .relAdd .. | .overwrite .. => [.rels]
  | .overlays .. => [.overlays]
  | .tlb .. => [.tlb]
  | .queue .. => [.queues]
  | .tile .. => [.tiles]
  | .accTag .. => [.accTags]
  | .xbar .. => [.xbars]
  | .merger .. => [.mergers]
  | .msgs .. => [.msgs]
  | .wilnum .. => [.wilnum]
  | .launch .. => [.launches]
  | .arrive .. => [.tls]
  | .ctAdvance .. => [.cts]
  | .chain .. => [.chains]
  | .part .. => [.parts]
  | .regs .. => [.regs]
  | .budget .. => [.budgets]
  | .blocks .. => [.blocks]
  | .period .. => [.period]
  | .temp .. => [.temps]
  | .dieTemp .. => [.dieTemps]
  | .droop .. => [.droops, .droopsPrev]
  | .port .. => [.ports]
  | .parkAt .. => [.parkLevel, .parkDelay, .wakeFlits]
  | .sent .. => [.sent]
  | .emit .. => [.out]
  | .peerWaits .. => [.peerWaits]
  | .d2d .. => [.d2dFails]
  | .mesh .. => [.mesh]
  | .meshNext .. => [.meshNext]
  | .meshSeen .. => [.meshSeen]
  | .keySlot .. => [.keySlots]
  | .feedKey .. => [.feedKeys]
  | .discard .. => [.discards]
  | .antiRollback .. => [.antiRollback]
  | .booted .. => [.bootedVersion]
  | .identity .. => [.identity]
  | .measure .. => [.measured]
  | .answer .. => [.answers]
  | .faulted .. => [.faults]
  | .report .. => [.reports]
  | .lpddr .. => [.lpddr]
  | .mappedOut .. => [.mappedOut]
  | .halved .. => [.halved]
  | .powered .. => [.powered]
  | .turns .. => [.turns]
  | .fresh .. => [.fresh]
  | .nextOp .. => [.nextOp]
  | .nextLaunch .. => [.nextLaunch]
  | .nextWrite .. => [.nextWrite]
  | .powerOn _ => [.now, .cur, .mem, .lanes, .lanesBad, .poison, .scratchBad, .accBad, .lineKeys, .pend, .rels, .strands, .ghosts, .saved, .overlays, .ops, .tlb, .queues, .tiles, .accTags, .xbars, .mergers, .outDeps, .slotWords, .msgs, .wilnum, .launches, .tls, .chains, .cts, .parts, .regs, .budgets, .blocks, .period, .temps, .dieTemps, .droops, .droopsPrev, .ports, .parkLevel, .parkDelay, .wakeFlits, .sent, .out, .peerWaits, .d2dFails, .mesh, .meshNext, .meshSeen, .keySlots, .feedKeys, .discards, .flash, .antiRollback, .bootedVersion, .identity, .measured, .answers, .faults, .reports, .lpddr, .mappedOut, .halved, .powered, .turns, .fresh, .nextOp, .nextLaunch, .nextWrite]

/-- No update of a list may change a field. -/
def Field.free (f : Field) (us : List Upd) : Bool := us.all fun u => !u.touches.contains f

@[simp] theorem State.onStrand_now (s : State) (k : Nat) (g : Strand → Strand) : (s.onStrand k g).now = s.now := by
  unfold State.onStrand; split
  · rfl
  · split <;> rfl
@[simp] theorem State.onStrand_cur (s : State) (k : Nat) (g : Strand → Strand) : (s.onStrand k g).cur = s.cur := by
  unfold State.onStrand; split
  · rfl
  · split <;> rfl
@[simp] theorem State.onStrand_mem (s : State) (k : Nat) (g : Strand → Strand) : (s.onStrand k g).mem = s.mem := by
  unfold State.onStrand; split
  · rfl
  · split <;> rfl
@[simp] theorem State.onStrand_lanes (s : State) (k : Nat) (g : Strand → Strand) : (s.onStrand k g).lanes = s.lanes := by
  unfold State.onStrand; split
  · rfl
  · split <;> rfl
@[simp] theorem State.onStrand_lanesBad (s : State) (k : Nat) (g : Strand → Strand) : (s.onStrand k g).lanesBad = s.lanesBad := by
  unfold State.onStrand; split
  · rfl
  · split <;> rfl
@[simp] theorem State.onStrand_poison (s : State) (k : Nat) (g : Strand → Strand) : (s.onStrand k g).poison = s.poison := by
  unfold State.onStrand; split
  · rfl
  · split <;> rfl
@[simp] theorem State.onStrand_scratchBad (s : State) (k : Nat) (g : Strand → Strand) : (s.onStrand k g).scratchBad = s.scratchBad := by
  unfold State.onStrand; split
  · rfl
  · split <;> rfl
@[simp] theorem State.onStrand_accBad (s : State) (k : Nat) (g : Strand → Strand) : (s.onStrand k g).accBad = s.accBad := by
  unfold State.onStrand; split
  · rfl
  · split <;> rfl
@[simp] theorem State.onStrand_lineKeys (s : State) (k : Nat) (g : Strand → Strand) : (s.onStrand k g).lineKeys = s.lineKeys := by
  unfold State.onStrand; split
  · rfl
  · split <;> rfl
@[simp] theorem State.onStrand_pend (s : State) (k : Nat) (g : Strand → Strand) : (s.onStrand k g).pend = s.pend := by
  unfold State.onStrand; split
  · rfl
  · split <;> rfl
@[simp] theorem State.onStrand_rels (s : State) (k : Nat) (g : Strand → Strand) : (s.onStrand k g).rels = s.rels := by
  unfold State.onStrand; split
  · rfl
  · split <;> rfl
@[simp] theorem State.onStrand_saved (s : State) (k : Nat) (g : Strand → Strand) : (s.onStrand k g).saved = s.saved := by
  unfold State.onStrand; split
  · rfl
  · split <;> rfl
@[simp] theorem State.onStrand_overlays (s : State) (k : Nat) (g : Strand → Strand) : (s.onStrand k g).overlays = s.overlays := by
  unfold State.onStrand; split
  · rfl
  · split <;> rfl
@[simp] theorem State.onStrand_ops (s : State) (k : Nat) (g : Strand → Strand) : (s.onStrand k g).ops = s.ops := by
  unfold State.onStrand; split
  · rfl
  · split <;> rfl
@[simp] theorem State.onStrand_tlb (s : State) (k : Nat) (g : Strand → Strand) : (s.onStrand k g).tlb = s.tlb := by
  unfold State.onStrand; split
  · rfl
  · split <;> rfl
@[simp] theorem State.onStrand_queues (s : State) (k : Nat) (g : Strand → Strand) : (s.onStrand k g).queues = s.queues := by
  unfold State.onStrand; split
  · rfl
  · split <;> rfl
@[simp] theorem State.onStrand_tiles (s : State) (k : Nat) (g : Strand → Strand) : (s.onStrand k g).tiles = s.tiles := by
  unfold State.onStrand; split
  · rfl
  · split <;> rfl
@[simp] theorem State.onStrand_accTags (s : State) (k : Nat) (g : Strand → Strand) : (s.onStrand k g).accTags = s.accTags := by
  unfold State.onStrand; split
  · rfl
  · split <;> rfl
@[simp] theorem State.onStrand_xbars (s : State) (k : Nat) (g : Strand → Strand) : (s.onStrand k g).xbars = s.xbars := by
  unfold State.onStrand; split
  · rfl
  · split <;> rfl
@[simp] theorem State.onStrand_mergers (s : State) (k : Nat) (g : Strand → Strand) : (s.onStrand k g).mergers = s.mergers := by
  unfold State.onStrand; split
  · rfl
  · split <;> rfl
@[simp] theorem State.onStrand_outDeps (s : State) (k : Nat) (g : Strand → Strand) : (s.onStrand k g).outDeps = s.outDeps := by
  unfold State.onStrand; split
  · rfl
  · split <;> rfl
@[simp] theorem State.onStrand_slotWords (s : State) (k : Nat) (g : Strand → Strand) : (s.onStrand k g).slotWords = s.slotWords := by
  unfold State.onStrand; split
  · rfl
  · split <;> rfl
@[simp] theorem State.onStrand_msgs (s : State) (k : Nat) (g : Strand → Strand) : (s.onStrand k g).msgs = s.msgs := by
  unfold State.onStrand; split
  · rfl
  · split <;> rfl
@[simp] theorem State.onStrand_wilnum (s : State) (k : Nat) (g : Strand → Strand) : (s.onStrand k g).wilnum = s.wilnum := by
  unfold State.onStrand; split
  · rfl
  · split <;> rfl
@[simp] theorem State.onStrand_launches (s : State) (k : Nat) (g : Strand → Strand) : (s.onStrand k g).launches = s.launches := by
  unfold State.onStrand; split
  · rfl
  · split <;> rfl
@[simp] theorem State.onStrand_tls (s : State) (k : Nat) (g : Strand → Strand) : (s.onStrand k g).tls = s.tls := by
  unfold State.onStrand; split
  · rfl
  · split <;> rfl
@[simp] theorem State.onStrand_chains (s : State) (k : Nat) (g : Strand → Strand) : (s.onStrand k g).chains = s.chains := by
  unfold State.onStrand; split
  · rfl
  · split <;> rfl
@[simp] theorem State.onStrand_cts (s : State) (k : Nat) (g : Strand → Strand) : (s.onStrand k g).cts = s.cts := by
  unfold State.onStrand; split
  · rfl
  · split <;> rfl
@[simp] theorem State.onStrand_parts (s : State) (k : Nat) (g : Strand → Strand) : (s.onStrand k g).parts = s.parts := by
  unfold State.onStrand; split
  · rfl
  · split <;> rfl
@[simp] theorem State.onStrand_regs (s : State) (k : Nat) (g : Strand → Strand) : (s.onStrand k g).regs = s.regs := by
  unfold State.onStrand; split
  · rfl
  · split <;> rfl
@[simp] theorem State.onStrand_budgets (s : State) (k : Nat) (g : Strand → Strand) : (s.onStrand k g).budgets = s.budgets := by
  unfold State.onStrand; split
  · rfl
  · split <;> rfl
@[simp] theorem State.onStrand_blocks (s : State) (k : Nat) (g : Strand → Strand) : (s.onStrand k g).blocks = s.blocks := by
  unfold State.onStrand; split
  · rfl
  · split <;> rfl
@[simp] theorem State.onStrand_period (s : State) (k : Nat) (g : Strand → Strand) : (s.onStrand k g).period = s.period := by
  unfold State.onStrand; split
  · rfl
  · split <;> rfl
@[simp] theorem State.onStrand_temps (s : State) (k : Nat) (g : Strand → Strand) : (s.onStrand k g).temps = s.temps := by
  unfold State.onStrand; split
  · rfl
  · split <;> rfl
@[simp] theorem State.onStrand_dieTemps (s : State) (k : Nat) (g : Strand → Strand) : (s.onStrand k g).dieTemps = s.dieTemps := by
  unfold State.onStrand; split
  · rfl
  · split <;> rfl
@[simp] theorem State.onStrand_droops (s : State) (k : Nat) (g : Strand → Strand) : (s.onStrand k g).droops = s.droops := by
  unfold State.onStrand; split
  · rfl
  · split <;> rfl
@[simp] theorem State.onStrand_droopsPrev (s : State) (k : Nat) (g : Strand → Strand) : (s.onStrand k g).droopsPrev = s.droopsPrev := by
  unfold State.onStrand; split
  · rfl
  · split <;> rfl
@[simp] theorem State.onStrand_ports (s : State) (k : Nat) (g : Strand → Strand) : (s.onStrand k g).ports = s.ports := by
  unfold State.onStrand; split
  · rfl
  · split <;> rfl
@[simp] theorem State.onStrand_parkLevel (s : State) (k : Nat) (g : Strand → Strand) : (s.onStrand k g).parkLevel = s.parkLevel := by
  unfold State.onStrand; split
  · rfl
  · split <;> rfl
@[simp] theorem State.onStrand_parkDelay (s : State) (k : Nat) (g : Strand → Strand) : (s.onStrand k g).parkDelay = s.parkDelay := by
  unfold State.onStrand; split
  · rfl
  · split <;> rfl
@[simp] theorem State.onStrand_wakeFlits (s : State) (k : Nat) (g : Strand → Strand) : (s.onStrand k g).wakeFlits = s.wakeFlits := by
  unfold State.onStrand; split
  · rfl
  · split <;> rfl
@[simp] theorem State.onStrand_sent (s : State) (k : Nat) (g : Strand → Strand) : (s.onStrand k g).sent = s.sent := by
  unfold State.onStrand; split
  · rfl
  · split <;> rfl
@[simp] theorem State.onStrand_out (s : State) (k : Nat) (g : Strand → Strand) : (s.onStrand k g).out = s.out := by
  unfold State.onStrand; split
  · rfl
  · split <;> rfl
@[simp] theorem State.onStrand_peerWaits (s : State) (k : Nat) (g : Strand → Strand) : (s.onStrand k g).peerWaits = s.peerWaits := by
  unfold State.onStrand; split
  · rfl
  · split <;> rfl
@[simp] theorem State.onStrand_d2dFails (s : State) (k : Nat) (g : Strand → Strand) : (s.onStrand k g).d2dFails = s.d2dFails := by
  unfold State.onStrand; split
  · rfl
  · split <;> rfl
@[simp] theorem State.onStrand_mesh (s : State) (k : Nat) (g : Strand → Strand) : (s.onStrand k g).mesh = s.mesh := by
  unfold State.onStrand; split
  · rfl
  · split <;> rfl
@[simp] theorem State.onStrand_meshNext (s : State) (k : Nat) (g : Strand → Strand) : (s.onStrand k g).meshNext = s.meshNext := by
  unfold State.onStrand; split
  · rfl
  · split <;> rfl
@[simp] theorem State.onStrand_meshSeen (s : State) (k : Nat) (g : Strand → Strand) : (s.onStrand k g).meshSeen = s.meshSeen := by
  unfold State.onStrand; split
  · rfl
  · split <;> rfl
@[simp] theorem State.onStrand_keySlots (s : State) (k : Nat) (g : Strand → Strand) : (s.onStrand k g).keySlots = s.keySlots := by
  unfold State.onStrand; split
  · rfl
  · split <;> rfl
@[simp] theorem State.onStrand_feedKeys (s : State) (k : Nat) (g : Strand → Strand) : (s.onStrand k g).feedKeys = s.feedKeys := by
  unfold State.onStrand; split
  · rfl
  · split <;> rfl
@[simp] theorem State.onStrand_discards (s : State) (k : Nat) (g : Strand → Strand) : (s.onStrand k g).discards = s.discards := by
  unfold State.onStrand; split
  · rfl
  · split <;> rfl
@[simp] theorem State.onStrand_flash (s : State) (k : Nat) (g : Strand → Strand) : (s.onStrand k g).flash = s.flash := by
  unfold State.onStrand; split
  · rfl
  · split <;> rfl
@[simp] theorem State.onStrand_antiRollback (s : State) (k : Nat) (g : Strand → Strand) : (s.onStrand k g).antiRollback = s.antiRollback := by
  unfold State.onStrand; split
  · rfl
  · split <;> rfl
@[simp] theorem State.onStrand_bootedVersion (s : State) (k : Nat) (g : Strand → Strand) : (s.onStrand k g).bootedVersion = s.bootedVersion := by
  unfold State.onStrand; split
  · rfl
  · split <;> rfl
@[simp] theorem State.onStrand_identity (s : State) (k : Nat) (g : Strand → Strand) : (s.onStrand k g).identity = s.identity := by
  unfold State.onStrand; split
  · rfl
  · split <;> rfl
@[simp] theorem State.onStrand_measured (s : State) (k : Nat) (g : Strand → Strand) : (s.onStrand k g).measured = s.measured := by
  unfold State.onStrand; split
  · rfl
  · split <;> rfl
@[simp] theorem State.onStrand_answers (s : State) (k : Nat) (g : Strand → Strand) : (s.onStrand k g).answers = s.answers := by
  unfold State.onStrand; split
  · rfl
  · split <;> rfl
@[simp] theorem State.onStrand_faults (s : State) (k : Nat) (g : Strand → Strand) : (s.onStrand k g).faults = s.faults := by
  unfold State.onStrand; split
  · rfl
  · split <;> rfl
@[simp] theorem State.onStrand_reports (s : State) (k : Nat) (g : Strand → Strand) : (s.onStrand k g).reports = s.reports := by
  unfold State.onStrand; split
  · rfl
  · split <;> rfl
@[simp] theorem State.onStrand_lpddr (s : State) (k : Nat) (g : Strand → Strand) : (s.onStrand k g).lpddr = s.lpddr := by
  unfold State.onStrand; split
  · rfl
  · split <;> rfl
@[simp] theorem State.onStrand_mappedOut (s : State) (k : Nat) (g : Strand → Strand) : (s.onStrand k g).mappedOut = s.mappedOut := by
  unfold State.onStrand; split
  · rfl
  · split <;> rfl
@[simp] theorem State.onStrand_halved (s : State) (k : Nat) (g : Strand → Strand) : (s.onStrand k g).halved = s.halved := by
  unfold State.onStrand; split
  · rfl
  · split <;> rfl
@[simp] theorem State.onStrand_powered (s : State) (k : Nat) (g : Strand → Strand) : (s.onStrand k g).powered = s.powered := by
  unfold State.onStrand; split
  · rfl
  · split <;> rfl
@[simp] theorem State.onStrand_turns (s : State) (k : Nat) (g : Strand → Strand) : (s.onStrand k g).turns = s.turns := by
  unfold State.onStrand; split
  · rfl
  · split <;> rfl
@[simp] theorem State.onStrand_fresh (s : State) (k : Nat) (g : Strand → Strand) : (s.onStrand k g).fresh = s.fresh := by
  unfold State.onStrand; split
  · rfl
  · split <;> rfl
@[simp] theorem State.onStrand_nextOp (s : State) (k : Nat) (g : Strand → Strand) : (s.onStrand k g).nextOp = s.nextOp := by
  unfold State.onStrand; split
  · rfl
  · split <;> rfl
@[simp] theorem State.onStrand_nextLaunch (s : State) (k : Nat) (g : Strand → Strand) : (s.onStrand k g).nextLaunch = s.nextLaunch := by
  unfold State.onStrand; split
  · rfl
  · split <;> rfl
@[simp] theorem State.onStrand_nextWrite (s : State) (k : Nat) (g : Strand → Strand) : (s.onStrand k g).nextWrite = s.nextWrite := by
  unfold State.onStrand; split
  · rfl
  · split <;> rfl

/-! ## One lemma an update -/

@[simp] theorem State.apply_tick_now (s : State) (t : Nat) : (s.apply (.tick t)).now = max s.now t := rfl
@[simp] theorem State.apply_cur_cur (s : State) (k split : Nat) : (s.apply (.cur k split)).cur = (k, split) := rfl
@[simp] theorem State.apply_mem_mem (s : State) (a : Nat) (b : Byte) : (s.apply (.mem a b)).mem = Memory.write s.mem a b := rfl
@[simp] theorem State.apply_memClear_mem (s : State) (lo hi : Nat) : (s.apply (.memClear lo hi)).mem = s.mem.filter fun e => !(lo ≤ e.1 && e.1 < hi) := rfl
@[simp] theorem State.apply_strand_strands (s : State) (k : Nat) (st : Strand) : (s.apply (.strand k st)).strands = mapSet s.strands k st := rfl
@[simp] theorem State.apply_strandDel_strands (s : State) (k : Nat) : (s.apply (.strandDel k)).strands = mapDel s.strands k := rfl
@[simp] theorem State.apply_ghost_ghosts (s : State) (k : Nat) (st : Strand) : (s.apply (.ghost k st)).ghosts = mapSet s.ghosts k st := rfl
@[simp] theorem State.apply_ghostDel_ghosts (s : State) (k : Nat) : (s.apply (.ghostDel k)).ghosts = mapDel s.ghosts k := rfl
@[simp] theorem State.apply_slotWord_slotWords (s : State) (k : Nat) (v : Word) : (s.apply (.slotWord k v)).slotWords = mapSet s.slotWords k v := rfl
@[simp] theorem State.apply_outDep_outDeps (s : State) (who : Nat) (d : List Nat) : (s.apply (.outDep who d)).outDeps = mapSet s.outDeps who d := rfl
@[simp] theorem State.apply_saved_saved (s : State) (l : List Saved) : (s.apply (.saved l)).saved = l := rfl
@[simp] theorem State.apply_lanesClear_lanes (s : State) (core : Nat) : (s.apply (.lanesClear core)).lanes = s.lanes.filter fun e => e.1 / 262144 ≠ core := rfl
@[simp] theorem State.apply_poison_poison (s : State) (l : List Nat) : (s.apply (.poison l)).poison = l := rfl
@[simp] theorem State.apply_lineKey_lineKeys (s : State) (line key : Nat) : (s.apply (.lineKey line key)).lineKeys = mapSet s.lineKeys line key := rfl
@[simp] theorem State.apply_pend_pend (s : State) (l : List Pend) : (s.apply (.pend l)).pend = l := rfl
@[simp] theorem State.apply_pendAdd_pend (s : State) (l : List Pend) : (s.apply (.pendAdd l)).pend = s.pend ++ l := rfl
@[simp] theorem State.apply_relAdd_rels (s : State) (l : List Release) : (s.apply (.relAdd l)).rels = s.rels ++ l := rfl
@[simp] theorem State.apply_overlays_overlays (s : State) (l : List Overlay) : (s.apply (.overlays l)).overlays = l := rfl
@[simp] theorem State.apply_opAdd_ops (s : State) (o : Op) : (s.apply (.opAdd o)).ops = s.ops ++ [o] := rfl
@[simp] theorem State.apply_opSet_ops (s : State) (o : Op) : (s.apply (.opSet o)).ops = s.ops.map fun x => if x.id = o.id then o else x := rfl
@[simp] theorem State.apply_opDel_ops (s : State) (id : Nat) : (s.apply (.opDel id)).ops = s.ops.filter fun x => x.id ≠ id := rfl
@[simp] theorem State.apply_tlb_tlb (s : State) (l : List Tlb) : (s.apply (.tlb l)).tlb = l := rfl
@[simp] theorem State.apply_queue_queues (s : State) (k : Nat) (q : Queue) : (s.apply (.queue k q)).queues = mapSet s.queues k q := rfl
@[simp] theorem State.apply_tile_tiles (s : State) (k : Nat) (t : TileSched) : (s.apply (.tile k t)).tiles = mapSet s.tiles k t := rfl
@[simp] theorem State.apply_accTag_accTags (s : State) (k : Nat) (v : BitVec 39) : (s.apply (.accTag k v)).accTags = mapSet s.accTags k v := rfl
@[simp] theorem State.apply_xbar_xbars (s : State) (k : Nat) (x : Xbar) : (s.apply (.xbar k x)).xbars = mapSet s.xbars k x := rfl
@[simp] theorem State.apply_merger_mergers (s : State) (k : Nat) (l : List OpenLaunch) : (s.apply (.merger k l)).mergers = mapSet s.mergers k l := rfl
@[simp] theorem State.apply_msgs_msgs (s : State) (k n : Nat) : (s.apply (.msgs k n)).msgs = mapSet s.msgs k n := rfl
@[simp] theorem State.apply_wilnum_wilnum (s : State) (k : Nat) (w : Wilnum) : (s.apply (.wilnum k w)).wilnum = mapSet s.wilnum k w := rfl
@[simp] theorem State.apply_launch_launches (s : State) (k : Nat) (l : Launch) : (s.apply (.launch k l)).launches = mapSet s.launches k l := rfl
@[simp] theorem State.apply_chain_chains (s : State) (k : Nat) (c : Chain) : (s.apply (.chain k c)).chains = mapSet s.chains k c := rfl
@[simp] theorem State.apply_part_parts (s : State) (k : Nat) (p : Part) : (s.apply (.part k p)).parts = mapSet s.parts k p := rfl
@[simp] theorem State.apply_regs_regs (s : State) (r : RegionRegs) : (s.apply (.regs r)).regs = r := rfl
@[simp] theorem State.apply_budget_budgets (s : State) (k : Nat) (b : Budget) : (s.apply (.budget k b)).budgets = mapSet s.budgets k b := rfl
@[simp] theorem State.apply_blocks_blocks (s : State) (l : List Block) : (s.apply (.blocks l)).blocks = l := rfl
@[simp] theorem State.apply_period_period (s : State) (n : Nat) : (s.apply (.period n)).period = n := rfl
@[simp] theorem State.apply_temp_temps (s : State) (core t : Nat) : (s.apply (.temp core t)).temps = mapSet s.temps core t := rfl
@[simp] theorem State.apply_dieTemp_dieTemps (s : State) (die t : Nat) : (s.apply (.dieTemp die t)).dieTemps = mapSet s.dieTemps die t := rfl
@[simp] theorem State.apply_port_ports (s : State) (k : Nat) (p : Port) : (s.apply (.port k p)).ports = mapSet s.ports k p := rfl
@[simp] theorem State.apply_sent_sent (s : State) (l : List Sent) : (s.apply (.sent l)).sent = l := rfl
@[simp] theorem State.apply_emit_out (s : State) (p : Packet) : (s.apply (.emit p)).out = s.out ++ [p] := rfl
@[simp] theorem State.apply_peerWaits_peerWaits (s : State) (l : List PeerWait) : (s.apply (.peerWaits l)).peerWaits = l := rfl
@[simp] theorem State.apply_d2d_d2dFails (s : State) (link n : Nat) : (s.apply (.d2d link n)).d2dFails = mapSet s.d2dFails link n := rfl
@[simp] theorem State.apply_mesh_mesh (s : State) (l : List MeshFlight) : (s.apply (.mesh l)).mesh = l := rfl
@[simp] theorem State.apply_meshNext_meshNext (s : State) (k n : Nat) : (s.apply (.meshNext k n)).meshNext = mapSet s.meshNext k n := rfl
@[simp] theorem State.apply_meshSeen_meshSeen (s : State) (k n : Nat) : (s.apply (.meshSeen k n)).meshSeen = mapSet s.meshSeen k n := rfl
@[simp] theorem State.apply_keySlot_keySlots (s : State) (k : Nat) (v : BitVec 256) : (s.apply (.keySlot k v)).keySlots = mapSet s.keySlots k v := rfl
@[simp] theorem State.apply_feedKey_feedKeys (s : State) (k : Nat) (v : BitVec 256) : (s.apply (.feedKey k v)).feedKeys = mapSet s.feedKeys k v := rfl
@[simp] theorem State.apply_discard_discards (s : State) : (s.apply (.discard)).discards = s.discards + 1 := rfl
@[simp] theorem State.apply_antiRollback_antiRollback (s : State) (v : Nat) : (s.apply (.antiRollback v)).antiRollback = v := rfl
@[simp] theorem State.apply_booted_bootedVersion (s : State) (v : Option Nat) : (s.apply (.booted v)).bootedVersion = v := rfl
@[simp] theorem State.apply_identity_identity (s : State) (v : BitVec 384) : (s.apply (.identity v)).identity = some v := rfl
@[simp] theorem State.apply_measure_measured (s : State) (k : Nat) (v : BitVec 384) : (s.apply (.measure k v)).measured = mapSet s.measured k v := rfl
@[simp] theorem State.apply_answer_answers (s : State) (l : List Word) : (s.apply (.answer l)).answers = s.answers ++ [l] := rfl
@[simp] theorem State.apply_faulted_faults (s : State) (code : Nat) : (s.apply (.faulted code)).faults = s.faults ++ [(code, s.now)] := rfl
@[simp] theorem State.apply_report_reports (s : State) (r : Report) : (s.apply (.report r)).reports = s.reports ++ [r] := rfl
@[simp] theorem State.apply_lpddr_lpddr (s : State) (n : Nat) : (s.apply (.lpddr n)).lpddr = n := rfl
@[simp] theorem State.apply_mappedOut_mappedOut (s : State) (l : List Nat) : (s.apply (.mappedOut l)).mappedOut = l := rfl
@[simp] theorem State.apply_halved_halved (s : State) (die : Nat) (b : Bool) : (s.apply (.halved die b)).halved = mapSet s.halved die (if b then true else false) := rfl
@[simp] theorem State.apply_powered_powered (s : State) (b : Bool) : (s.apply (.powered b)).powered = b := rfl
@[simp] theorem State.apply_turns_turns (s : State) (l : List Turn) : (s.apply (.turns l)).turns = l := rfl
@[simp] theorem State.apply_fresh_fresh (s : State) : (s.apply (.fresh)).fresh = s.fresh + 1 := rfl
@[simp] theorem State.apply_nextOp_nextOp (s : State) : (s.apply (.nextOp)).nextOp = s.nextOp + 1 := rfl
@[simp] theorem State.apply_nextLaunch_nextLaunch (s : State) : (s.apply (.nextLaunch)).nextLaunch = s.nextLaunch + 1 := rfl
@[simp] theorem State.apply_nextWrite_nextWrite (s : State) : (s.apply (.nextWrite)).nextWrite = s.nextWrite + 1 := rfl
@[simp] theorem State.apply_cover_pend (s : State) (dies : List Nat) (pa n : Nat) : (s.apply (.cover dies pa n)).pend = (s.cover dies pa n).pend := rfl
@[simp] theorem State.apply_fire_ops (s : State) (home : Bool) (dies : List Nat) (pa n : Nat) : (s.apply (.fire home dies pa n)).ops = (s.fire home dies pa n).ops := rfl
@[simp] theorem State.apply_overwrite_rels (s : State) (id : Nat) (atomic : Bool) (pa n : Nat) : (s.apply (.overwrite id atomic pa n)).rels = (s.overwrite id atomic pa n).rels := rfl
@[simp] theorem State.apply_after_ops (s : State) (k id : Nat) (d : List Nat) (seen : List Release) : (s.apply (.after k id d seen)).ops = s.ops.map fun o => Op.leads o id d := rfl
@[simp] theorem State.apply_bad (s : State) (l c a : List Nat) : s.apply (.bad l c a) = { s with lanesBad := l, scratchBad := c, accBad := a } := rfl
@[simp] theorem State.apply_droop (s : State) (a b : Map Nat) : s.apply (.droop a b) = { s with droops := a, droopsPrev := b } := rfl

/-! ## What lists of updates keep -/

@[simp] theorem State.applyL_now (s : State) (k : Nat) (u : LUpd) : (s.applyL k u).now = s.now := by
  cases u <;> first | rfl | exact State.onStrand_now s k _
theorem State.apply_keeps_now (s : State) (u : Upd) (h : Field.now ∉ u.touches) : (s.apply u).now = s.now := by
  cases u <;> first | rfl | exact State.onStrand_now s _ _ | exact State.applyL_now s _ _ | (simp only [State.apply]; split <;> rfl) | exact absurd (by simp [Upd.touches]) h
theorem State.applyAll_keeps_now (us : List Upd) (s : State) (h : Field.now.free us = true) : (s.applyAll us).now = s.now := by
  induction us generalizing s with
  | nil => rfl
  | cons u r ih =>
    simp only [Field.free, List.all_cons, Bool.and_eq_true, Bool.not_eq_true', List.contains_eq_mem, decide_eq_false_iff_not] at h
    exact (ih (s.apply u) (by simpa [Field.free] using h.2)).trans (State.apply_keeps_now s u h.1)
@[simp] theorem State.applyL_cur (s : State) (k : Nat) (u : LUpd) : (s.applyL k u).cur = s.cur := by
  cases u <;> first | rfl | exact State.onStrand_cur s k _
theorem State.apply_keeps_cur (s : State) (u : Upd) (h : Field.cur ∉ u.touches) : (s.apply u).cur = s.cur := by
  cases u <;> first | rfl | exact State.onStrand_cur s _ _ | exact State.applyL_cur s _ _ | (simp only [State.apply]; split <;> rfl) | exact absurd (by simp [Upd.touches]) h
theorem State.applyAll_keeps_cur (us : List Upd) (s : State) (h : Field.cur.free us = true) : (s.applyAll us).cur = s.cur := by
  induction us generalizing s with
  | nil => rfl
  | cons u r ih =>
    simp only [Field.free, List.all_cons, Bool.and_eq_true, Bool.not_eq_true', List.contains_eq_mem, decide_eq_false_iff_not] at h
    exact (ih (s.apply u) (by simpa [Field.free] using h.2)).trans (State.apply_keeps_cur s u h.1)
@[simp] theorem State.applyL_mem (s : State) (k : Nat) (u : LUpd) : (s.applyL k u).mem = s.mem := by
  cases u <;> first | rfl | exact State.onStrand_mem s k _
theorem State.apply_keeps_mem (s : State) (u : Upd) (h : Field.mem ∉ u.touches) : (s.apply u).mem = s.mem := by
  cases u <;> first | rfl | exact State.onStrand_mem s _ _ | exact State.applyL_mem s _ _ | (simp only [State.apply]; split <;> rfl) | exact absurd (by simp [Upd.touches]) h
theorem State.applyAll_keeps_mem (us : List Upd) (s : State) (h : Field.mem.free us = true) : (s.applyAll us).mem = s.mem := by
  induction us generalizing s with
  | nil => rfl
  | cons u r ih =>
    simp only [Field.free, List.all_cons, Bool.and_eq_true, Bool.not_eq_true', List.contains_eq_mem, decide_eq_false_iff_not] at h
    exact (ih (s.apply u) (by simpa [Field.free] using h.2)).trans (State.apply_keeps_mem s u h.1)
theorem State.apply_keeps_lanes (s : State) (u : Upd) (h : Field.lanes ∉ u.touches) : (s.apply u).lanes = s.lanes := by
  cases u <;> first | rfl | exact State.onStrand_lanes s _ _ | (simp only [State.apply]; split <;> rfl) | exact absurd (by simp [Upd.touches]) h
theorem State.applyAll_keeps_lanes (us : List Upd) (s : State) (h : Field.lanes.free us = true) : (s.applyAll us).lanes = s.lanes := by
  induction us generalizing s with
  | nil => rfl
  | cons u r ih =>
    simp only [Field.free, List.all_cons, Bool.and_eq_true, Bool.not_eq_true', List.contains_eq_mem, decide_eq_false_iff_not] at h
    exact (ih (s.apply u) (by simpa [Field.free] using h.2)).trans (State.apply_keeps_lanes s u h.1)
theorem State.apply_keeps_lanesBad (s : State) (u : Upd) (h : Field.lanesBad ∉ u.touches) : (s.apply u).lanesBad = s.lanesBad := by
  cases u <;> first | rfl | exact State.onStrand_lanesBad s _ _ | (simp only [State.apply]; split <;> rfl) | exact absurd (by simp [Upd.touches]) h
theorem State.applyAll_keeps_lanesBad (us : List Upd) (s : State) (h : Field.lanesBad.free us = true) : (s.applyAll us).lanesBad = s.lanesBad := by
  induction us generalizing s with
  | nil => rfl
  | cons u r ih =>
    simp only [Field.free, List.all_cons, Bool.and_eq_true, Bool.not_eq_true', List.contains_eq_mem, decide_eq_false_iff_not] at h
    exact (ih (s.apply u) (by simpa [Field.free] using h.2)).trans (State.apply_keeps_lanesBad s u h.1)
@[simp] theorem State.applyL_poison (s : State) (k : Nat) (u : LUpd) : (s.applyL k u).poison = s.poison := by
  cases u <;> first | rfl | exact State.onStrand_poison s k _
theorem State.apply_keeps_poison (s : State) (u : Upd) (h : Field.poison ∉ u.touches) : (s.apply u).poison = s.poison := by
  cases u <;> first | rfl | exact State.onStrand_poison s _ _ | exact State.applyL_poison s _ _ | (simp only [State.apply]; split <;> rfl) | exact absurd (by simp [Upd.touches]) h
theorem State.applyAll_keeps_poison (us : List Upd) (s : State) (h : Field.poison.free us = true) : (s.applyAll us).poison = s.poison := by
  induction us generalizing s with
  | nil => rfl
  | cons u r ih =>
    simp only [Field.free, List.all_cons, Bool.and_eq_true, Bool.not_eq_true', List.contains_eq_mem, decide_eq_false_iff_not] at h
    exact (ih (s.apply u) (by simpa [Field.free] using h.2)).trans (State.apply_keeps_poison s u h.1)
@[simp] theorem State.applyL_scratchBad (s : State) (k : Nat) (u : LUpd) : (s.applyL k u).scratchBad = s.scratchBad := by
  cases u <;> first | rfl | exact State.onStrand_scratchBad s k _
theorem State.apply_keeps_scratchBad (s : State) (u : Upd) (h : Field.scratchBad ∉ u.touches) : (s.apply u).scratchBad = s.scratchBad := by
  cases u <;> first | rfl | exact State.onStrand_scratchBad s _ _ | exact State.applyL_scratchBad s _ _ | (simp only [State.apply]; split <;> rfl) | exact absurd (by simp [Upd.touches]) h
theorem State.applyAll_keeps_scratchBad (us : List Upd) (s : State) (h : Field.scratchBad.free us = true) : (s.applyAll us).scratchBad = s.scratchBad := by
  induction us generalizing s with
  | nil => rfl
  | cons u r ih =>
    simp only [Field.free, List.all_cons, Bool.and_eq_true, Bool.not_eq_true', List.contains_eq_mem, decide_eq_false_iff_not] at h
    exact (ih (s.apply u) (by simpa [Field.free] using h.2)).trans (State.apply_keeps_scratchBad s u h.1)
@[simp] theorem State.applyL_accBad (s : State) (k : Nat) (u : LUpd) : (s.applyL k u).accBad = s.accBad := by
  cases u <;> first | rfl | exact State.onStrand_accBad s k _
theorem State.apply_keeps_accBad (s : State) (u : Upd) (h : Field.accBad ∉ u.touches) : (s.apply u).accBad = s.accBad := by
  cases u <;> first | rfl | exact State.onStrand_accBad s _ _ | exact State.applyL_accBad s _ _ | (simp only [State.apply]; split <;> rfl) | exact absurd (by simp [Upd.touches]) h
theorem State.applyAll_keeps_accBad (us : List Upd) (s : State) (h : Field.accBad.free us = true) : (s.applyAll us).accBad = s.accBad := by
  induction us generalizing s with
  | nil => rfl
  | cons u r ih =>
    simp only [Field.free, List.all_cons, Bool.and_eq_true, Bool.not_eq_true', List.contains_eq_mem, decide_eq_false_iff_not] at h
    exact (ih (s.apply u) (by simpa [Field.free] using h.2)).trans (State.apply_keeps_accBad s u h.1)
@[simp] theorem State.applyL_lineKeys (s : State) (k : Nat) (u : LUpd) : (s.applyL k u).lineKeys = s.lineKeys := by
  cases u <;> first | rfl | exact State.onStrand_lineKeys s k _
theorem State.apply_keeps_lineKeys (s : State) (u : Upd) (h : Field.lineKeys ∉ u.touches) : (s.apply u).lineKeys = s.lineKeys := by
  cases u <;> first | rfl | exact State.onStrand_lineKeys s _ _ | exact State.applyL_lineKeys s _ _ | (simp only [State.apply]; split <;> rfl) | exact absurd (by simp [Upd.touches]) h
theorem State.applyAll_keeps_lineKeys (us : List Upd) (s : State) (h : Field.lineKeys.free us = true) : (s.applyAll us).lineKeys = s.lineKeys := by
  induction us generalizing s with
  | nil => rfl
  | cons u r ih =>
    simp only [Field.free, List.all_cons, Bool.and_eq_true, Bool.not_eq_true', List.contains_eq_mem, decide_eq_false_iff_not] at h
    exact (ih (s.apply u) (by simpa [Field.free] using h.2)).trans (State.apply_keeps_lineKeys s u h.1)
@[simp] theorem State.applyL_pend (s : State) (k : Nat) (u : LUpd) : (s.applyL k u).pend = s.pend := by
  cases u <;> first | rfl | exact State.onStrand_pend s k _
theorem State.apply_keeps_pend (s : State) (u : Upd) (h : Field.pend ∉ u.touches) : (s.apply u).pend = s.pend := by
  cases u <;> first | rfl | exact State.onStrand_pend s _ _ | exact State.applyL_pend s _ _ | (simp only [State.apply]; split <;> rfl) | exact absurd (by simp [Upd.touches]) h
theorem State.applyAll_keeps_pend (us : List Upd) (s : State) (h : Field.pend.free us = true) : (s.applyAll us).pend = s.pend := by
  induction us generalizing s with
  | nil => rfl
  | cons u r ih =>
    simp only [Field.free, List.all_cons, Bool.and_eq_true, Bool.not_eq_true', List.contains_eq_mem, decide_eq_false_iff_not] at h
    exact (ih (s.apply u) (by simpa [Field.free] using h.2)).trans (State.apply_keeps_pend s u h.1)
@[simp] theorem State.applyL_rels (s : State) (k : Nat) (u : LUpd) : (s.applyL k u).rels = s.rels := by
  cases u <;> first | rfl | exact State.onStrand_rels s k _
theorem State.apply_keeps_rels (s : State) (u : Upd) (h : Field.rels ∉ u.touches) : (s.apply u).rels = s.rels := by
  cases u <;> first | rfl | exact State.onStrand_rels s _ _ | exact State.applyL_rels s _ _ | (simp only [State.apply]; split <;> rfl) | exact absurd (by simp [Upd.touches]) h
theorem State.applyAll_keeps_rels (us : List Upd) (s : State) (h : Field.rels.free us = true) : (s.applyAll us).rels = s.rels := by
  induction us generalizing s with
  | nil => rfl
  | cons u r ih =>
    simp only [Field.free, List.all_cons, Bool.and_eq_true, Bool.not_eq_true', List.contains_eq_mem, decide_eq_false_iff_not] at h
    exact (ih (s.apply u) (by simpa [Field.free] using h.2)).trans (State.apply_keeps_rels s u h.1)
theorem State.apply_keeps_strands (s : State) (u : Upd) (h : Field.strands ∉ u.touches) : (s.apply u).strands = s.strands := by
  cases u <;> first | rfl | (simp only [State.apply]; split <;> rfl) | exact absurd (by simp [Upd.touches]) h
theorem State.applyAll_keeps_strands (us : List Upd) (s : State) (h : Field.strands.free us = true) : (s.applyAll us).strands = s.strands := by
  induction us generalizing s with
  | nil => rfl
  | cons u r ih =>
    simp only [Field.free, List.all_cons, Bool.and_eq_true, Bool.not_eq_true', List.contains_eq_mem, decide_eq_false_iff_not] at h
    exact (ih (s.apply u) (by simpa [Field.free] using h.2)).trans (State.apply_keeps_strands s u h.1)
theorem State.apply_keeps_ghosts (s : State) (u : Upd) (h : Field.ghosts ∉ u.touches) : (s.apply u).ghosts = s.ghosts := by
  cases u <;> first | rfl | (simp only [State.apply]; split <;> rfl) | exact absurd (by simp [Upd.touches]) h
theorem State.applyAll_keeps_ghosts (us : List Upd) (s : State) (h : Field.ghosts.free us = true) : (s.applyAll us).ghosts = s.ghosts := by
  induction us generalizing s with
  | nil => rfl
  | cons u r ih =>
    simp only [Field.free, List.all_cons, Bool.and_eq_true, Bool.not_eq_true', List.contains_eq_mem, decide_eq_false_iff_not] at h
    exact (ih (s.apply u) (by simpa [Field.free] using h.2)).trans (State.apply_keeps_ghosts s u h.1)
theorem State.apply_keeps_saved (s : State) (u : Upd) (h : Field.saved ∉ u.touches) : (s.apply u).saved = s.saved := by
  cases u <;> first | rfl | exact State.onStrand_saved s _ _ | (simp only [State.apply]; split <;> rfl) | exact absurd (by simp [Upd.touches]) h
theorem State.applyAll_keeps_saved (us : List Upd) (s : State) (h : Field.saved.free us = true) : (s.applyAll us).saved = s.saved := by
  induction us generalizing s with
  | nil => rfl
  | cons u r ih =>
    simp only [Field.free, List.all_cons, Bool.and_eq_true, Bool.not_eq_true', List.contains_eq_mem, decide_eq_false_iff_not] at h
    exact (ih (s.apply u) (by simpa [Field.free] using h.2)).trans (State.apply_keeps_saved s u h.1)
@[simp] theorem State.applyL_overlays (s : State) (k : Nat) (u : LUpd) : (s.applyL k u).overlays = s.overlays := by
  cases u <;> first | rfl | exact State.onStrand_overlays s k _
theorem State.apply_keeps_overlays (s : State) (u : Upd) (h : Field.overlays ∉ u.touches) : (s.apply u).overlays = s.overlays := by
  cases u <;> first | rfl | exact State.onStrand_overlays s _ _ | exact State.applyL_overlays s _ _ | (simp only [State.apply]; split <;> rfl) | exact absurd (by simp [Upd.touches]) h
theorem State.applyAll_keeps_overlays (us : List Upd) (s : State) (h : Field.overlays.free us = true) : (s.applyAll us).overlays = s.overlays := by
  induction us generalizing s with
  | nil => rfl
  | cons u r ih =>
    simp only [Field.free, List.all_cons, Bool.and_eq_true, Bool.not_eq_true', List.contains_eq_mem, decide_eq_false_iff_not] at h
    exact (ih (s.apply u) (by simpa [Field.free] using h.2)).trans (State.apply_keeps_overlays s u h.1)
@[simp] theorem State.applyL_ops (s : State) (k : Nat) (u : LUpd) : (s.applyL k u).ops = s.ops := by
  cases u <;> first | rfl | exact State.onStrand_ops s k _
theorem State.apply_keeps_ops (s : State) (u : Upd) (h : Field.ops ∉ u.touches) : (s.apply u).ops = s.ops := by
  cases u <;> first | rfl | exact State.onStrand_ops s _ _ | exact State.applyL_ops s _ _ | (simp only [State.apply]; split <;> rfl) | exact absurd (by simp [Upd.touches]) h
theorem State.applyAll_keeps_ops (us : List Upd) (s : State) (h : Field.ops.free us = true) : (s.applyAll us).ops = s.ops := by
  induction us generalizing s with
  | nil => rfl
  | cons u r ih =>
    simp only [Field.free, List.all_cons, Bool.and_eq_true, Bool.not_eq_true', List.contains_eq_mem, decide_eq_false_iff_not] at h
    exact (ih (s.apply u) (by simpa [Field.free] using h.2)).trans (State.apply_keeps_ops s u h.1)
@[simp] theorem State.applyL_tlb (s : State) (k : Nat) (u : LUpd) : (s.applyL k u).tlb = s.tlb := by
  cases u <;> first | rfl | exact State.onStrand_tlb s k _
theorem State.apply_keeps_tlb (s : State) (u : Upd) (h : Field.tlb ∉ u.touches) : (s.apply u).tlb = s.tlb := by
  cases u <;> first | rfl | exact State.onStrand_tlb s _ _ | exact State.applyL_tlb s _ _ | (simp only [State.apply]; split <;> rfl) | exact absurd (by simp [Upd.touches]) h
theorem State.applyAll_keeps_tlb (us : List Upd) (s : State) (h : Field.tlb.free us = true) : (s.applyAll us).tlb = s.tlb := by
  induction us generalizing s with
  | nil => rfl
  | cons u r ih =>
    simp only [Field.free, List.all_cons, Bool.and_eq_true, Bool.not_eq_true', List.contains_eq_mem, decide_eq_false_iff_not] at h
    exact (ih (s.apply u) (by simpa [Field.free] using h.2)).trans (State.apply_keeps_tlb s u h.1)
@[simp] theorem State.applyL_queues (s : State) (k : Nat) (u : LUpd) : (s.applyL k u).queues = s.queues := by
  cases u <;> first | rfl | exact State.onStrand_queues s k _
theorem State.apply_keeps_queues (s : State) (u : Upd) (h : Field.queues ∉ u.touches) : (s.apply u).queues = s.queues := by
  cases u <;> first | rfl | exact State.onStrand_queues s _ _ | exact State.applyL_queues s _ _ | (simp only [State.apply]; split <;> rfl) | exact absurd (by simp [Upd.touches]) h
theorem State.applyAll_keeps_queues (us : List Upd) (s : State) (h : Field.queues.free us = true) : (s.applyAll us).queues = s.queues := by
  induction us generalizing s with
  | nil => rfl
  | cons u r ih =>
    simp only [Field.free, List.all_cons, Bool.and_eq_true, Bool.not_eq_true', List.contains_eq_mem, decide_eq_false_iff_not] at h
    exact (ih (s.apply u) (by simpa [Field.free] using h.2)).trans (State.apply_keeps_queues s u h.1)
@[simp] theorem State.applyL_tiles (s : State) (k : Nat) (u : LUpd) : (s.applyL k u).tiles = s.tiles := by
  cases u <;> first | rfl | exact State.onStrand_tiles s k _
theorem State.apply_keeps_tiles (s : State) (u : Upd) (h : Field.tiles ∉ u.touches) : (s.apply u).tiles = s.tiles := by
  cases u <;> first | rfl | exact State.onStrand_tiles s _ _ | exact State.applyL_tiles s _ _ | (simp only [State.apply]; split <;> rfl) | exact absurd (by simp [Upd.touches]) h
theorem State.applyAll_keeps_tiles (us : List Upd) (s : State) (h : Field.tiles.free us = true) : (s.applyAll us).tiles = s.tiles := by
  induction us generalizing s with
  | nil => rfl
  | cons u r ih =>
    simp only [Field.free, List.all_cons, Bool.and_eq_true, Bool.not_eq_true', List.contains_eq_mem, decide_eq_false_iff_not] at h
    exact (ih (s.apply u) (by simpa [Field.free] using h.2)).trans (State.apply_keeps_tiles s u h.1)
@[simp] theorem State.applyL_accTags (s : State) (k : Nat) (u : LUpd) : (s.applyL k u).accTags = s.accTags := by
  cases u <;> first | rfl | exact State.onStrand_accTags s k _
theorem State.apply_keeps_accTags (s : State) (u : Upd) (h : Field.accTags ∉ u.touches) : (s.apply u).accTags = s.accTags := by
  cases u <;> first | rfl | exact State.onStrand_accTags s _ _ | exact State.applyL_accTags s _ _ | (simp only [State.apply]; split <;> rfl) | exact absurd (by simp [Upd.touches]) h
theorem State.applyAll_keeps_accTags (us : List Upd) (s : State) (h : Field.accTags.free us = true) : (s.applyAll us).accTags = s.accTags := by
  induction us generalizing s with
  | nil => rfl
  | cons u r ih =>
    simp only [Field.free, List.all_cons, Bool.and_eq_true, Bool.not_eq_true', List.contains_eq_mem, decide_eq_false_iff_not] at h
    exact (ih (s.apply u) (by simpa [Field.free] using h.2)).trans (State.apply_keeps_accTags s u h.1)
@[simp] theorem State.applyL_xbars (s : State) (k : Nat) (u : LUpd) : (s.applyL k u).xbars = s.xbars := by
  cases u <;> first | rfl | exact State.onStrand_xbars s k _
theorem State.apply_keeps_xbars (s : State) (u : Upd) (h : Field.xbars ∉ u.touches) : (s.apply u).xbars = s.xbars := by
  cases u <;> first | rfl | exact State.onStrand_xbars s _ _ | exact State.applyL_xbars s _ _ | (simp only [State.apply]; split <;> rfl) | exact absurd (by simp [Upd.touches]) h
theorem State.applyAll_keeps_xbars (us : List Upd) (s : State) (h : Field.xbars.free us = true) : (s.applyAll us).xbars = s.xbars := by
  induction us generalizing s with
  | nil => rfl
  | cons u r ih =>
    simp only [Field.free, List.all_cons, Bool.and_eq_true, Bool.not_eq_true', List.contains_eq_mem, decide_eq_false_iff_not] at h
    exact (ih (s.apply u) (by simpa [Field.free] using h.2)).trans (State.apply_keeps_xbars s u h.1)
@[simp] theorem State.applyL_mergers (s : State) (k : Nat) (u : LUpd) : (s.applyL k u).mergers = s.mergers := by
  cases u <;> first | rfl | exact State.onStrand_mergers s k _
theorem State.apply_keeps_mergers (s : State) (u : Upd) (h : Field.mergers ∉ u.touches) : (s.apply u).mergers = s.mergers := by
  cases u <;> first | rfl | exact State.onStrand_mergers s _ _ | exact State.applyL_mergers s _ _ | (simp only [State.apply]; split <;> rfl) | exact absurd (by simp [Upd.touches]) h
theorem State.applyAll_keeps_mergers (us : List Upd) (s : State) (h : Field.mergers.free us = true) : (s.applyAll us).mergers = s.mergers := by
  induction us generalizing s with
  | nil => rfl
  | cons u r ih =>
    simp only [Field.free, List.all_cons, Bool.and_eq_true, Bool.not_eq_true', List.contains_eq_mem, decide_eq_false_iff_not] at h
    exact (ih (s.apply u) (by simpa [Field.free] using h.2)).trans (State.apply_keeps_mergers s u h.1)
@[simp] theorem State.applyL_outDeps (s : State) (k : Nat) (u : LUpd) : (s.applyL k u).outDeps = s.outDeps := by
  cases u <;> first | rfl | exact State.onStrand_outDeps s k _
theorem State.apply_keeps_outDeps (s : State) (u : Upd) (h : Field.outDeps ∉ u.touches) : (s.apply u).outDeps = s.outDeps := by
  cases u <;> first | rfl | exact State.onStrand_outDeps s _ _ | exact State.applyL_outDeps s _ _ | (simp only [State.apply]; split <;> rfl) | exact absurd (by simp [Upd.touches]) h
theorem State.applyAll_keeps_outDeps (us : List Upd) (s : State) (h : Field.outDeps.free us = true) : (s.applyAll us).outDeps = s.outDeps := by
  induction us generalizing s with
  | nil => rfl
  | cons u r ih =>
    simp only [Field.free, List.all_cons, Bool.and_eq_true, Bool.not_eq_true', List.contains_eq_mem, decide_eq_false_iff_not] at h
    exact (ih (s.apply u) (by simpa [Field.free] using h.2)).trans (State.apply_keeps_outDeps s u h.1)
@[simp] theorem State.applyL_slotWords (s : State) (k : Nat) (u : LUpd) : (s.applyL k u).slotWords = s.slotWords := by
  cases u <;> first | rfl | exact State.onStrand_slotWords s k _
theorem State.apply_keeps_slotWords (s : State) (u : Upd) (h : Field.slotWords ∉ u.touches) : (s.apply u).slotWords = s.slotWords := by
  cases u <;> first | rfl | exact State.onStrand_slotWords s _ _ | exact State.applyL_slotWords s _ _ | (simp only [State.apply]; split <;> rfl) | exact absurd (by simp [Upd.touches]) h
theorem State.applyAll_keeps_slotWords (us : List Upd) (s : State) (h : Field.slotWords.free us = true) : (s.applyAll us).slotWords = s.slotWords := by
  induction us generalizing s with
  | nil => rfl
  | cons u r ih =>
    simp only [Field.free, List.all_cons, Bool.and_eq_true, Bool.not_eq_true', List.contains_eq_mem, decide_eq_false_iff_not] at h
    exact (ih (s.apply u) (by simpa [Field.free] using h.2)).trans (State.apply_keeps_slotWords s u h.1)
@[simp] theorem State.applyL_msgs (s : State) (k : Nat) (u : LUpd) : (s.applyL k u).msgs = s.msgs := by
  cases u <;> first | rfl | exact State.onStrand_msgs s k _
theorem State.apply_keeps_msgs (s : State) (u : Upd) (h : Field.msgs ∉ u.touches) : (s.apply u).msgs = s.msgs := by
  cases u <;> first | rfl | exact State.onStrand_msgs s _ _ | exact State.applyL_msgs s _ _ | (simp only [State.apply]; split <;> rfl) | exact absurd (by simp [Upd.touches]) h
theorem State.applyAll_keeps_msgs (us : List Upd) (s : State) (h : Field.msgs.free us = true) : (s.applyAll us).msgs = s.msgs := by
  induction us generalizing s with
  | nil => rfl
  | cons u r ih =>
    simp only [Field.free, List.all_cons, Bool.and_eq_true, Bool.not_eq_true', List.contains_eq_mem, decide_eq_false_iff_not] at h
    exact (ih (s.apply u) (by simpa [Field.free] using h.2)).trans (State.apply_keeps_msgs s u h.1)
@[simp] theorem State.applyL_wilnum (s : State) (k : Nat) (u : LUpd) : (s.applyL k u).wilnum = s.wilnum := by
  cases u <;> first | rfl | exact State.onStrand_wilnum s k _
theorem State.apply_keeps_wilnum (s : State) (u : Upd) (h : Field.wilnum ∉ u.touches) : (s.apply u).wilnum = s.wilnum := by
  cases u <;> first | rfl | exact State.onStrand_wilnum s _ _ | exact State.applyL_wilnum s _ _ | (simp only [State.apply]; split <;> rfl) | exact absurd (by simp [Upd.touches]) h
theorem State.applyAll_keeps_wilnum (us : List Upd) (s : State) (h : Field.wilnum.free us = true) : (s.applyAll us).wilnum = s.wilnum := by
  induction us generalizing s with
  | nil => rfl
  | cons u r ih =>
    simp only [Field.free, List.all_cons, Bool.and_eq_true, Bool.not_eq_true', List.contains_eq_mem, decide_eq_false_iff_not] at h
    exact (ih (s.apply u) (by simpa [Field.free] using h.2)).trans (State.apply_keeps_wilnum s u h.1)
@[simp] theorem State.applyL_launches (s : State) (k : Nat) (u : LUpd) : (s.applyL k u).launches = s.launches := by
  cases u <;> first | rfl | exact State.onStrand_launches s k _
theorem State.apply_keeps_launches (s : State) (u : Upd) (h : Field.launches ∉ u.touches) : (s.apply u).launches = s.launches := by
  cases u <;> first | rfl | exact State.onStrand_launches s _ _ | exact State.applyL_launches s _ _ | (simp only [State.apply]; split <;> rfl) | exact absurd (by simp [Upd.touches]) h
theorem State.applyAll_keeps_launches (us : List Upd) (s : State) (h : Field.launches.free us = true) : (s.applyAll us).launches = s.launches := by
  induction us generalizing s with
  | nil => rfl
  | cons u r ih =>
    simp only [Field.free, List.all_cons, Bool.and_eq_true, Bool.not_eq_true', List.contains_eq_mem, decide_eq_false_iff_not] at h
    exact (ih (s.apply u) (by simpa [Field.free] using h.2)).trans (State.apply_keeps_launches s u h.1)
@[simp] theorem State.applyL_tls (s : State) (k : Nat) (u : LUpd) : (s.applyL k u).tls = s.tls := by
  cases u <;> first | rfl | exact State.onStrand_tls s k _
theorem State.apply_keeps_tls (s : State) (u : Upd) (h : Field.tls ∉ u.touches) : (s.apply u).tls = s.tls := by
  cases u <;> first | rfl | exact State.onStrand_tls s _ _ | exact State.applyL_tls s _ _ | (simp only [State.apply]; split <;> rfl) | exact absurd (by simp [Upd.touches]) h
theorem State.applyAll_keeps_tls (us : List Upd) (s : State) (h : Field.tls.free us = true) : (s.applyAll us).tls = s.tls := by
  induction us generalizing s with
  | nil => rfl
  | cons u r ih =>
    simp only [Field.free, List.all_cons, Bool.and_eq_true, Bool.not_eq_true', List.contains_eq_mem, decide_eq_false_iff_not] at h
    exact (ih (s.apply u) (by simpa [Field.free] using h.2)).trans (State.apply_keeps_tls s u h.1)
@[simp] theorem State.applyL_chains (s : State) (k : Nat) (u : LUpd) : (s.applyL k u).chains = s.chains := by
  cases u <;> first | rfl | exact State.onStrand_chains s k _
theorem State.apply_keeps_chains (s : State) (u : Upd) (h : Field.chains ∉ u.touches) : (s.apply u).chains = s.chains := by
  cases u <;> first | rfl | exact State.onStrand_chains s _ _ | exact State.applyL_chains s _ _ | (simp only [State.apply]; split <;> rfl) | exact absurd (by simp [Upd.touches]) h
theorem State.applyAll_keeps_chains (us : List Upd) (s : State) (h : Field.chains.free us = true) : (s.applyAll us).chains = s.chains := by
  induction us generalizing s with
  | nil => rfl
  | cons u r ih =>
    simp only [Field.free, List.all_cons, Bool.and_eq_true, Bool.not_eq_true', List.contains_eq_mem, decide_eq_false_iff_not] at h
    exact (ih (s.apply u) (by simpa [Field.free] using h.2)).trans (State.apply_keeps_chains s u h.1)
@[simp] theorem State.applyL_cts (s : State) (k : Nat) (u : LUpd) : (s.applyL k u).cts = s.cts := by
  cases u <;> first | rfl | exact State.onStrand_cts s k _
theorem State.apply_keeps_cts (s : State) (u : Upd) (h : Field.cts ∉ u.touches) : (s.apply u).cts = s.cts := by
  cases u <;> first | rfl | exact State.onStrand_cts s _ _ | exact State.applyL_cts s _ _ | (simp only [State.apply]; split <;> rfl) | exact absurd (by simp [Upd.touches]) h
theorem State.applyAll_keeps_cts (us : List Upd) (s : State) (h : Field.cts.free us = true) : (s.applyAll us).cts = s.cts := by
  induction us generalizing s with
  | nil => rfl
  | cons u r ih =>
    simp only [Field.free, List.all_cons, Bool.and_eq_true, Bool.not_eq_true', List.contains_eq_mem, decide_eq_false_iff_not] at h
    exact (ih (s.apply u) (by simpa [Field.free] using h.2)).trans (State.apply_keeps_cts s u h.1)
@[simp] theorem State.applyL_parts (s : State) (k : Nat) (u : LUpd) : (s.applyL k u).parts = s.parts := by
  cases u <;> first | rfl | exact State.onStrand_parts s k _
theorem State.apply_keeps_parts (s : State) (u : Upd) (h : Field.parts ∉ u.touches) : (s.apply u).parts = s.parts := by
  cases u <;> first | rfl | exact State.onStrand_parts s _ _ | exact State.applyL_parts s _ _ | (simp only [State.apply]; split <;> rfl) | exact absurd (by simp [Upd.touches]) h
theorem State.applyAll_keeps_parts (us : List Upd) (s : State) (h : Field.parts.free us = true) : (s.applyAll us).parts = s.parts := by
  induction us generalizing s with
  | nil => rfl
  | cons u r ih =>
    simp only [Field.free, List.all_cons, Bool.and_eq_true, Bool.not_eq_true', List.contains_eq_mem, decide_eq_false_iff_not] at h
    exact (ih (s.apply u) (by simpa [Field.free] using h.2)).trans (State.apply_keeps_parts s u h.1)
@[simp] theorem State.applyL_regs (s : State) (k : Nat) (u : LUpd) : (s.applyL k u).regs = s.regs := by
  cases u <;> first | rfl | exact State.onStrand_regs s k _
theorem State.apply_keeps_regs (s : State) (u : Upd) (h : Field.regs ∉ u.touches) : (s.apply u).regs = s.regs := by
  cases u <;> first | rfl | exact State.onStrand_regs s _ _ | exact State.applyL_regs s _ _ | (simp only [State.apply]; split <;> rfl) | exact absurd (by simp [Upd.touches]) h
theorem State.applyAll_keeps_regs (us : List Upd) (s : State) (h : Field.regs.free us = true) : (s.applyAll us).regs = s.regs := by
  induction us generalizing s with
  | nil => rfl
  | cons u r ih =>
    simp only [Field.free, List.all_cons, Bool.and_eq_true, Bool.not_eq_true', List.contains_eq_mem, decide_eq_false_iff_not] at h
    exact (ih (s.apply u) (by simpa [Field.free] using h.2)).trans (State.apply_keeps_regs s u h.1)
@[simp] theorem State.applyL_budgets (s : State) (k : Nat) (u : LUpd) : (s.applyL k u).budgets = s.budgets := by
  cases u <;> first | rfl | exact State.onStrand_budgets s k _
theorem State.apply_keeps_budgets (s : State) (u : Upd) (h : Field.budgets ∉ u.touches) : (s.apply u).budgets = s.budgets := by
  cases u <;> first | rfl | exact State.onStrand_budgets s _ _ | exact State.applyL_budgets s _ _ | (simp only [State.apply]; split <;> rfl) | exact absurd (by simp [Upd.touches]) h
theorem State.applyAll_keeps_budgets (us : List Upd) (s : State) (h : Field.budgets.free us = true) : (s.applyAll us).budgets = s.budgets := by
  induction us generalizing s with
  | nil => rfl
  | cons u r ih =>
    simp only [Field.free, List.all_cons, Bool.and_eq_true, Bool.not_eq_true', List.contains_eq_mem, decide_eq_false_iff_not] at h
    exact (ih (s.apply u) (by simpa [Field.free] using h.2)).trans (State.apply_keeps_budgets s u h.1)
@[simp] theorem State.applyL_blocks (s : State) (k : Nat) (u : LUpd) : (s.applyL k u).blocks = s.blocks := by
  cases u <;> first | rfl | exact State.onStrand_blocks s k _
theorem State.apply_keeps_blocks (s : State) (u : Upd) (h : Field.blocks ∉ u.touches) : (s.apply u).blocks = s.blocks := by
  cases u <;> first | rfl | exact State.onStrand_blocks s _ _ | exact State.applyL_blocks s _ _ | (simp only [State.apply]; split <;> rfl) | exact absurd (by simp [Upd.touches]) h
theorem State.applyAll_keeps_blocks (us : List Upd) (s : State) (h : Field.blocks.free us = true) : (s.applyAll us).blocks = s.blocks := by
  induction us generalizing s with
  | nil => rfl
  | cons u r ih =>
    simp only [Field.free, List.all_cons, Bool.and_eq_true, Bool.not_eq_true', List.contains_eq_mem, decide_eq_false_iff_not] at h
    exact (ih (s.apply u) (by simpa [Field.free] using h.2)).trans (State.apply_keeps_blocks s u h.1)
@[simp] theorem State.applyL_period (s : State) (k : Nat) (u : LUpd) : (s.applyL k u).period = s.period := by
  cases u <;> first | rfl | exact State.onStrand_period s k _
theorem State.apply_keeps_period (s : State) (u : Upd) (h : Field.period ∉ u.touches) : (s.apply u).period = s.period := by
  cases u <;> first | rfl | exact State.onStrand_period s _ _ | exact State.applyL_period s _ _ | (simp only [State.apply]; split <;> rfl) | exact absurd (by simp [Upd.touches]) h
theorem State.applyAll_keeps_period (us : List Upd) (s : State) (h : Field.period.free us = true) : (s.applyAll us).period = s.period := by
  induction us generalizing s with
  | nil => rfl
  | cons u r ih =>
    simp only [Field.free, List.all_cons, Bool.and_eq_true, Bool.not_eq_true', List.contains_eq_mem, decide_eq_false_iff_not] at h
    exact (ih (s.apply u) (by simpa [Field.free] using h.2)).trans (State.apply_keeps_period s u h.1)
@[simp] theorem State.applyL_temps (s : State) (k : Nat) (u : LUpd) : (s.applyL k u).temps = s.temps := by
  cases u <;> first | rfl | exact State.onStrand_temps s k _
theorem State.apply_keeps_temps (s : State) (u : Upd) (h : Field.temps ∉ u.touches) : (s.apply u).temps = s.temps := by
  cases u <;> first | rfl | exact State.onStrand_temps s _ _ | exact State.applyL_temps s _ _ | (simp only [State.apply]; split <;> rfl) | exact absurd (by simp [Upd.touches]) h
theorem State.applyAll_keeps_temps (us : List Upd) (s : State) (h : Field.temps.free us = true) : (s.applyAll us).temps = s.temps := by
  induction us generalizing s with
  | nil => rfl
  | cons u r ih =>
    simp only [Field.free, List.all_cons, Bool.and_eq_true, Bool.not_eq_true', List.contains_eq_mem, decide_eq_false_iff_not] at h
    exact (ih (s.apply u) (by simpa [Field.free] using h.2)).trans (State.apply_keeps_temps s u h.1)
@[simp] theorem State.applyL_dieTemps (s : State) (k : Nat) (u : LUpd) : (s.applyL k u).dieTemps = s.dieTemps := by
  cases u <;> first | rfl | exact State.onStrand_dieTemps s k _
theorem State.apply_keeps_dieTemps (s : State) (u : Upd) (h : Field.dieTemps ∉ u.touches) : (s.apply u).dieTemps = s.dieTemps := by
  cases u <;> first | rfl | exact State.onStrand_dieTemps s _ _ | exact State.applyL_dieTemps s _ _ | (simp only [State.apply]; split <;> rfl) | exact absurd (by simp [Upd.touches]) h
theorem State.applyAll_keeps_dieTemps (us : List Upd) (s : State) (h : Field.dieTemps.free us = true) : (s.applyAll us).dieTemps = s.dieTemps := by
  induction us generalizing s with
  | nil => rfl
  | cons u r ih =>
    simp only [Field.free, List.all_cons, Bool.and_eq_true, Bool.not_eq_true', List.contains_eq_mem, decide_eq_false_iff_not] at h
    exact (ih (s.apply u) (by simpa [Field.free] using h.2)).trans (State.apply_keeps_dieTemps s u h.1)
@[simp] theorem State.applyL_droops (s : State) (k : Nat) (u : LUpd) : (s.applyL k u).droops = s.droops := by
  cases u <;> first | rfl | exact State.onStrand_droops s k _
theorem State.apply_keeps_droops (s : State) (u : Upd) (h : Field.droops ∉ u.touches) : (s.apply u).droops = s.droops := by
  cases u <;> first | rfl | exact State.onStrand_droops s _ _ | exact State.applyL_droops s _ _ | (simp only [State.apply]; split <;> rfl) | exact absurd (by simp [Upd.touches]) h
theorem State.applyAll_keeps_droops (us : List Upd) (s : State) (h : Field.droops.free us = true) : (s.applyAll us).droops = s.droops := by
  induction us generalizing s with
  | nil => rfl
  | cons u r ih =>
    simp only [Field.free, List.all_cons, Bool.and_eq_true, Bool.not_eq_true', List.contains_eq_mem, decide_eq_false_iff_not] at h
    exact (ih (s.apply u) (by simpa [Field.free] using h.2)).trans (State.apply_keeps_droops s u h.1)
@[simp] theorem State.applyL_droopsPrev (s : State) (k : Nat) (u : LUpd) : (s.applyL k u).droopsPrev = s.droopsPrev := by
  cases u <;> first | rfl | exact State.onStrand_droopsPrev s k _
theorem State.apply_keeps_droopsPrev (s : State) (u : Upd) (h : Field.droopsPrev ∉ u.touches) : (s.apply u).droopsPrev = s.droopsPrev := by
  cases u <;> first | rfl | exact State.onStrand_droopsPrev s _ _ | exact State.applyL_droopsPrev s _ _ | (simp only [State.apply]; split <;> rfl) | exact absurd (by simp [Upd.touches]) h
theorem State.applyAll_keeps_droopsPrev (us : List Upd) (s : State) (h : Field.droopsPrev.free us = true) : (s.applyAll us).droopsPrev = s.droopsPrev := by
  induction us generalizing s with
  | nil => rfl
  | cons u r ih =>
    simp only [Field.free, List.all_cons, Bool.and_eq_true, Bool.not_eq_true', List.contains_eq_mem, decide_eq_false_iff_not] at h
    exact (ih (s.apply u) (by simpa [Field.free] using h.2)).trans (State.apply_keeps_droopsPrev s u h.1)
@[simp] theorem State.applyL_ports (s : State) (k : Nat) (u : LUpd) : (s.applyL k u).ports = s.ports := by
  cases u <;> first | rfl | exact State.onStrand_ports s k _
theorem State.apply_keeps_ports (s : State) (u : Upd) (h : Field.ports ∉ u.touches) : (s.apply u).ports = s.ports := by
  cases u <;> first | rfl | exact State.onStrand_ports s _ _ | exact State.applyL_ports s _ _ | (simp only [State.apply]; split <;> rfl) | exact absurd (by simp [Upd.touches]) h
theorem State.applyAll_keeps_ports (us : List Upd) (s : State) (h : Field.ports.free us = true) : (s.applyAll us).ports = s.ports := by
  induction us generalizing s with
  | nil => rfl
  | cons u r ih =>
    simp only [Field.free, List.all_cons, Bool.and_eq_true, Bool.not_eq_true', List.contains_eq_mem, decide_eq_false_iff_not] at h
    exact (ih (s.apply u) (by simpa [Field.free] using h.2)).trans (State.apply_keeps_ports s u h.1)
@[simp] theorem State.applyL_parkLevel (s : State) (k : Nat) (u : LUpd) : (s.applyL k u).parkLevel = s.parkLevel := by
  cases u <;> first | rfl | exact State.onStrand_parkLevel s k _
theorem State.apply_keeps_parkLevel (s : State) (u : Upd) (h : Field.parkLevel ∉ u.touches) : (s.apply u).parkLevel = s.parkLevel := by
  cases u <;> first | rfl | exact State.onStrand_parkLevel s _ _ | exact State.applyL_parkLevel s _ _ | (simp only [State.apply]; split <;> rfl) | exact absurd (by simp [Upd.touches]) h
theorem State.applyAll_keeps_parkLevel (us : List Upd) (s : State) (h : Field.parkLevel.free us = true) : (s.applyAll us).parkLevel = s.parkLevel := by
  induction us generalizing s with
  | nil => rfl
  | cons u r ih =>
    simp only [Field.free, List.all_cons, Bool.and_eq_true, Bool.not_eq_true', List.contains_eq_mem, decide_eq_false_iff_not] at h
    exact (ih (s.apply u) (by simpa [Field.free] using h.2)).trans (State.apply_keeps_parkLevel s u h.1)
@[simp] theorem State.applyL_parkDelay (s : State) (k : Nat) (u : LUpd) : (s.applyL k u).parkDelay = s.parkDelay := by
  cases u <;> first | rfl | exact State.onStrand_parkDelay s k _
theorem State.apply_keeps_parkDelay (s : State) (u : Upd) (h : Field.parkDelay ∉ u.touches) : (s.apply u).parkDelay = s.parkDelay := by
  cases u <;> first | rfl | exact State.onStrand_parkDelay s _ _ | exact State.applyL_parkDelay s _ _ | (simp only [State.apply]; split <;> rfl) | exact absurd (by simp [Upd.touches]) h
theorem State.applyAll_keeps_parkDelay (us : List Upd) (s : State) (h : Field.parkDelay.free us = true) : (s.applyAll us).parkDelay = s.parkDelay := by
  induction us generalizing s with
  | nil => rfl
  | cons u r ih =>
    simp only [Field.free, List.all_cons, Bool.and_eq_true, Bool.not_eq_true', List.contains_eq_mem, decide_eq_false_iff_not] at h
    exact (ih (s.apply u) (by simpa [Field.free] using h.2)).trans (State.apply_keeps_parkDelay s u h.1)
@[simp] theorem State.applyL_wakeFlits (s : State) (k : Nat) (u : LUpd) : (s.applyL k u).wakeFlits = s.wakeFlits := by
  cases u <;> first | rfl | exact State.onStrand_wakeFlits s k _
theorem State.apply_keeps_wakeFlits (s : State) (u : Upd) (h : Field.wakeFlits ∉ u.touches) : (s.apply u).wakeFlits = s.wakeFlits := by
  cases u <;> first | rfl | exact State.onStrand_wakeFlits s _ _ | exact State.applyL_wakeFlits s _ _ | (simp only [State.apply]; split <;> rfl) | exact absurd (by simp [Upd.touches]) h
theorem State.applyAll_keeps_wakeFlits (us : List Upd) (s : State) (h : Field.wakeFlits.free us = true) : (s.applyAll us).wakeFlits = s.wakeFlits := by
  induction us generalizing s with
  | nil => rfl
  | cons u r ih =>
    simp only [Field.free, List.all_cons, Bool.and_eq_true, Bool.not_eq_true', List.contains_eq_mem, decide_eq_false_iff_not] at h
    exact (ih (s.apply u) (by simpa [Field.free] using h.2)).trans (State.apply_keeps_wakeFlits s u h.1)
@[simp] theorem State.applyL_sent (s : State) (k : Nat) (u : LUpd) : (s.applyL k u).sent = s.sent := by
  cases u <;> first | rfl | exact State.onStrand_sent s k _
theorem State.apply_keeps_sent (s : State) (u : Upd) (h : Field.sent ∉ u.touches) : (s.apply u).sent = s.sent := by
  cases u <;> first | rfl | exact State.onStrand_sent s _ _ | exact State.applyL_sent s _ _ | (simp only [State.apply]; split <;> rfl) | exact absurd (by simp [Upd.touches]) h
theorem State.applyAll_keeps_sent (us : List Upd) (s : State) (h : Field.sent.free us = true) : (s.applyAll us).sent = s.sent := by
  induction us generalizing s with
  | nil => rfl
  | cons u r ih =>
    simp only [Field.free, List.all_cons, Bool.and_eq_true, Bool.not_eq_true', List.contains_eq_mem, decide_eq_false_iff_not] at h
    exact (ih (s.apply u) (by simpa [Field.free] using h.2)).trans (State.apply_keeps_sent s u h.1)
@[simp] theorem State.applyL_out (s : State) (k : Nat) (u : LUpd) : (s.applyL k u).out = s.out := by
  cases u <;> first | rfl | exact State.onStrand_out s k _
theorem State.apply_keeps_out (s : State) (u : Upd) (h : Field.out ∉ u.touches) : (s.apply u).out = s.out := by
  cases u <;> first | rfl | exact State.onStrand_out s _ _ | exact State.applyL_out s _ _ | (simp only [State.apply]; split <;> rfl) | exact absurd (by simp [Upd.touches]) h
theorem State.applyAll_keeps_out (us : List Upd) (s : State) (h : Field.out.free us = true) : (s.applyAll us).out = s.out := by
  induction us generalizing s with
  | nil => rfl
  | cons u r ih =>
    simp only [Field.free, List.all_cons, Bool.and_eq_true, Bool.not_eq_true', List.contains_eq_mem, decide_eq_false_iff_not] at h
    exact (ih (s.apply u) (by simpa [Field.free] using h.2)).trans (State.apply_keeps_out s u h.1)
@[simp] theorem State.applyL_peerWaits (s : State) (k : Nat) (u : LUpd) : (s.applyL k u).peerWaits = s.peerWaits := by
  cases u <;> first | rfl | exact State.onStrand_peerWaits s k _
theorem State.apply_keeps_peerWaits (s : State) (u : Upd) (h : Field.peerWaits ∉ u.touches) : (s.apply u).peerWaits = s.peerWaits := by
  cases u <;> first | rfl | exact State.onStrand_peerWaits s _ _ | exact State.applyL_peerWaits s _ _ | (simp only [State.apply]; split <;> rfl) | exact absurd (by simp [Upd.touches]) h
theorem State.applyAll_keeps_peerWaits (us : List Upd) (s : State) (h : Field.peerWaits.free us = true) : (s.applyAll us).peerWaits = s.peerWaits := by
  induction us generalizing s with
  | nil => rfl
  | cons u r ih =>
    simp only [Field.free, List.all_cons, Bool.and_eq_true, Bool.not_eq_true', List.contains_eq_mem, decide_eq_false_iff_not] at h
    exact (ih (s.apply u) (by simpa [Field.free] using h.2)).trans (State.apply_keeps_peerWaits s u h.1)
@[simp] theorem State.applyL_d2dFails (s : State) (k : Nat) (u : LUpd) : (s.applyL k u).d2dFails = s.d2dFails := by
  cases u <;> first | rfl | exact State.onStrand_d2dFails s k _
theorem State.apply_keeps_d2dFails (s : State) (u : Upd) (h : Field.d2dFails ∉ u.touches) : (s.apply u).d2dFails = s.d2dFails := by
  cases u <;> first | rfl | exact State.onStrand_d2dFails s _ _ | exact State.applyL_d2dFails s _ _ | (simp only [State.apply]; split <;> rfl) | exact absurd (by simp [Upd.touches]) h
theorem State.applyAll_keeps_d2dFails (us : List Upd) (s : State) (h : Field.d2dFails.free us = true) : (s.applyAll us).d2dFails = s.d2dFails := by
  induction us generalizing s with
  | nil => rfl
  | cons u r ih =>
    simp only [Field.free, List.all_cons, Bool.and_eq_true, Bool.not_eq_true', List.contains_eq_mem, decide_eq_false_iff_not] at h
    exact (ih (s.apply u) (by simpa [Field.free] using h.2)).trans (State.apply_keeps_d2dFails s u h.1)
@[simp] theorem State.applyL_mesh (s : State) (k : Nat) (u : LUpd) : (s.applyL k u).mesh = s.mesh := by
  cases u <;> first | rfl | exact State.onStrand_mesh s k _
theorem State.apply_keeps_mesh (s : State) (u : Upd) (h : Field.mesh ∉ u.touches) : (s.apply u).mesh = s.mesh := by
  cases u <;> first | rfl | exact State.onStrand_mesh s _ _ | exact State.applyL_mesh s _ _ | (simp only [State.apply]; split <;> rfl) | exact absurd (by simp [Upd.touches]) h
theorem State.applyAll_keeps_mesh (us : List Upd) (s : State) (h : Field.mesh.free us = true) : (s.applyAll us).mesh = s.mesh := by
  induction us generalizing s with
  | nil => rfl
  | cons u r ih =>
    simp only [Field.free, List.all_cons, Bool.and_eq_true, Bool.not_eq_true', List.contains_eq_mem, decide_eq_false_iff_not] at h
    exact (ih (s.apply u) (by simpa [Field.free] using h.2)).trans (State.apply_keeps_mesh s u h.1)
@[simp] theorem State.applyL_meshNext (s : State) (k : Nat) (u : LUpd) : (s.applyL k u).meshNext = s.meshNext := by
  cases u <;> first | rfl | exact State.onStrand_meshNext s k _
theorem State.apply_keeps_meshNext (s : State) (u : Upd) (h : Field.meshNext ∉ u.touches) : (s.apply u).meshNext = s.meshNext := by
  cases u <;> first | rfl | exact State.onStrand_meshNext s _ _ | exact State.applyL_meshNext s _ _ | (simp only [State.apply]; split <;> rfl) | exact absurd (by simp [Upd.touches]) h
theorem State.applyAll_keeps_meshNext (us : List Upd) (s : State) (h : Field.meshNext.free us = true) : (s.applyAll us).meshNext = s.meshNext := by
  induction us generalizing s with
  | nil => rfl
  | cons u r ih =>
    simp only [Field.free, List.all_cons, Bool.and_eq_true, Bool.not_eq_true', List.contains_eq_mem, decide_eq_false_iff_not] at h
    exact (ih (s.apply u) (by simpa [Field.free] using h.2)).trans (State.apply_keeps_meshNext s u h.1)
@[simp] theorem State.applyL_meshSeen (s : State) (k : Nat) (u : LUpd) : (s.applyL k u).meshSeen = s.meshSeen := by
  cases u <;> first | rfl | exact State.onStrand_meshSeen s k _
theorem State.apply_keeps_meshSeen (s : State) (u : Upd) (h : Field.meshSeen ∉ u.touches) : (s.apply u).meshSeen = s.meshSeen := by
  cases u <;> first | rfl | exact State.onStrand_meshSeen s _ _ | exact State.applyL_meshSeen s _ _ | (simp only [State.apply]; split <;> rfl) | exact absurd (by simp [Upd.touches]) h
theorem State.applyAll_keeps_meshSeen (us : List Upd) (s : State) (h : Field.meshSeen.free us = true) : (s.applyAll us).meshSeen = s.meshSeen := by
  induction us generalizing s with
  | nil => rfl
  | cons u r ih =>
    simp only [Field.free, List.all_cons, Bool.and_eq_true, Bool.not_eq_true', List.contains_eq_mem, decide_eq_false_iff_not] at h
    exact (ih (s.apply u) (by simpa [Field.free] using h.2)).trans (State.apply_keeps_meshSeen s u h.1)
@[simp] theorem State.applyL_keySlots (s : State) (k : Nat) (u : LUpd) : (s.applyL k u).keySlots = s.keySlots := by
  cases u <;> first | rfl | exact State.onStrand_keySlots s k _
theorem State.apply_keeps_keySlots (s : State) (u : Upd) (h : Field.keySlots ∉ u.touches) : (s.apply u).keySlots = s.keySlots := by
  cases u <;> first | rfl | exact State.onStrand_keySlots s _ _ | exact State.applyL_keySlots s _ _ | (simp only [State.apply]; split <;> rfl) | exact absurd (by simp [Upd.touches]) h
theorem State.applyAll_keeps_keySlots (us : List Upd) (s : State) (h : Field.keySlots.free us = true) : (s.applyAll us).keySlots = s.keySlots := by
  induction us generalizing s with
  | nil => rfl
  | cons u r ih =>
    simp only [Field.free, List.all_cons, Bool.and_eq_true, Bool.not_eq_true', List.contains_eq_mem, decide_eq_false_iff_not] at h
    exact (ih (s.apply u) (by simpa [Field.free] using h.2)).trans (State.apply_keeps_keySlots s u h.1)
@[simp] theorem State.applyL_feedKeys (s : State) (k : Nat) (u : LUpd) : (s.applyL k u).feedKeys = s.feedKeys := by
  cases u <;> first | rfl | exact State.onStrand_feedKeys s k _
theorem State.apply_keeps_feedKeys (s : State) (u : Upd) (h : Field.feedKeys ∉ u.touches) : (s.apply u).feedKeys = s.feedKeys := by
  cases u <;> first | rfl | exact State.onStrand_feedKeys s _ _ | exact State.applyL_feedKeys s _ _ | (simp only [State.apply]; split <;> rfl) | exact absurd (by simp [Upd.touches]) h
theorem State.applyAll_keeps_feedKeys (us : List Upd) (s : State) (h : Field.feedKeys.free us = true) : (s.applyAll us).feedKeys = s.feedKeys := by
  induction us generalizing s with
  | nil => rfl
  | cons u r ih =>
    simp only [Field.free, List.all_cons, Bool.and_eq_true, Bool.not_eq_true', List.contains_eq_mem, decide_eq_false_iff_not] at h
    exact (ih (s.apply u) (by simpa [Field.free] using h.2)).trans (State.apply_keeps_feedKeys s u h.1)
@[simp] theorem State.applyL_discards (s : State) (k : Nat) (u : LUpd) : (s.applyL k u).discards = s.discards := by
  cases u <;> first | rfl | exact State.onStrand_discards s k _
theorem State.apply_keeps_discards (s : State) (u : Upd) (h : Field.discards ∉ u.touches) : (s.apply u).discards = s.discards := by
  cases u <;> first | rfl | exact State.onStrand_discards s _ _ | exact State.applyL_discards s _ _ | (simp only [State.apply]; split <;> rfl) | exact absurd (by simp [Upd.touches]) h
theorem State.applyAll_keeps_discards (us : List Upd) (s : State) (h : Field.discards.free us = true) : (s.applyAll us).discards = s.discards := by
  induction us generalizing s with
  | nil => rfl
  | cons u r ih =>
    simp only [Field.free, List.all_cons, Bool.and_eq_true, Bool.not_eq_true', List.contains_eq_mem, decide_eq_false_iff_not] at h
    exact (ih (s.apply u) (by simpa [Field.free] using h.2)).trans (State.apply_keeps_discards s u h.1)
@[simp] theorem State.applyL_flash (s : State) (k : Nat) (u : LUpd) : (s.applyL k u).flash = s.flash := by
  cases u <;> first | rfl | exact State.onStrand_flash s k _
theorem State.apply_keeps_flash (s : State) (u : Upd) (h : Field.flash ∉ u.touches) : (s.apply u).flash = s.flash := by
  cases u <;> first | rfl | exact State.onStrand_flash s _ _ | exact State.applyL_flash s _ _ | (simp only [State.apply]; split <;> rfl) | exact absurd (by simp [Upd.touches]) h
theorem State.applyAll_keeps_flash (us : List Upd) (s : State) (h : Field.flash.free us = true) : (s.applyAll us).flash = s.flash := by
  induction us generalizing s with
  | nil => rfl
  | cons u r ih =>
    simp only [Field.free, List.all_cons, Bool.and_eq_true, Bool.not_eq_true', List.contains_eq_mem, decide_eq_false_iff_not] at h
    exact (ih (s.apply u) (by simpa [Field.free] using h.2)).trans (State.apply_keeps_flash s u h.1)
@[simp] theorem State.applyL_antiRollback (s : State) (k : Nat) (u : LUpd) : (s.applyL k u).antiRollback = s.antiRollback := by
  cases u <;> first | rfl | exact State.onStrand_antiRollback s k _
theorem State.apply_keeps_antiRollback (s : State) (u : Upd) (h : Field.antiRollback ∉ u.touches) : (s.apply u).antiRollback = s.antiRollback := by
  cases u <;> first | rfl | exact State.onStrand_antiRollback s _ _ | exact State.applyL_antiRollback s _ _ | (simp only [State.apply]; split <;> rfl) | exact absurd (by simp [Upd.touches]) h
theorem State.applyAll_keeps_antiRollback (us : List Upd) (s : State) (h : Field.antiRollback.free us = true) : (s.applyAll us).antiRollback = s.antiRollback := by
  induction us generalizing s with
  | nil => rfl
  | cons u r ih =>
    simp only [Field.free, List.all_cons, Bool.and_eq_true, Bool.not_eq_true', List.contains_eq_mem, decide_eq_false_iff_not] at h
    exact (ih (s.apply u) (by simpa [Field.free] using h.2)).trans (State.apply_keeps_antiRollback s u h.1)
@[simp] theorem State.applyL_bootedVersion (s : State) (k : Nat) (u : LUpd) : (s.applyL k u).bootedVersion = s.bootedVersion := by
  cases u <;> first | rfl | exact State.onStrand_bootedVersion s k _
theorem State.apply_keeps_bootedVersion (s : State) (u : Upd) (h : Field.bootedVersion ∉ u.touches) : (s.apply u).bootedVersion = s.bootedVersion := by
  cases u <;> first | rfl | exact State.onStrand_bootedVersion s _ _ | exact State.applyL_bootedVersion s _ _ | (simp only [State.apply]; split <;> rfl) | exact absurd (by simp [Upd.touches]) h
theorem State.applyAll_keeps_bootedVersion (us : List Upd) (s : State) (h : Field.bootedVersion.free us = true) : (s.applyAll us).bootedVersion = s.bootedVersion := by
  induction us generalizing s with
  | nil => rfl
  | cons u r ih =>
    simp only [Field.free, List.all_cons, Bool.and_eq_true, Bool.not_eq_true', List.contains_eq_mem, decide_eq_false_iff_not] at h
    exact (ih (s.apply u) (by simpa [Field.free] using h.2)).trans (State.apply_keeps_bootedVersion s u h.1)
@[simp] theorem State.applyL_identity (s : State) (k : Nat) (u : LUpd) : (s.applyL k u).identity = s.identity := by
  cases u <;> first | rfl | exact State.onStrand_identity s k _
theorem State.apply_keeps_identity (s : State) (u : Upd) (h : Field.identity ∉ u.touches) : (s.apply u).identity = s.identity := by
  cases u <;> first | rfl | exact State.onStrand_identity s _ _ | exact State.applyL_identity s _ _ | (simp only [State.apply]; split <;> rfl) | exact absurd (by simp [Upd.touches]) h
theorem State.applyAll_keeps_identity (us : List Upd) (s : State) (h : Field.identity.free us = true) : (s.applyAll us).identity = s.identity := by
  induction us generalizing s with
  | nil => rfl
  | cons u r ih =>
    simp only [Field.free, List.all_cons, Bool.and_eq_true, Bool.not_eq_true', List.contains_eq_mem, decide_eq_false_iff_not] at h
    exact (ih (s.apply u) (by simpa [Field.free] using h.2)).trans (State.apply_keeps_identity s u h.1)
@[simp] theorem State.applyL_measured (s : State) (k : Nat) (u : LUpd) : (s.applyL k u).measured = s.measured := by
  cases u <;> first | rfl | exact State.onStrand_measured s k _
theorem State.apply_keeps_measured (s : State) (u : Upd) (h : Field.measured ∉ u.touches) : (s.apply u).measured = s.measured := by
  cases u <;> first | rfl | exact State.onStrand_measured s _ _ | exact State.applyL_measured s _ _ | (simp only [State.apply]; split <;> rfl) | exact absurd (by simp [Upd.touches]) h
theorem State.applyAll_keeps_measured (us : List Upd) (s : State) (h : Field.measured.free us = true) : (s.applyAll us).measured = s.measured := by
  induction us generalizing s with
  | nil => rfl
  | cons u r ih =>
    simp only [Field.free, List.all_cons, Bool.and_eq_true, Bool.not_eq_true', List.contains_eq_mem, decide_eq_false_iff_not] at h
    exact (ih (s.apply u) (by simpa [Field.free] using h.2)).trans (State.apply_keeps_measured s u h.1)
@[simp] theorem State.applyL_answers (s : State) (k : Nat) (u : LUpd) : (s.applyL k u).answers = s.answers := by
  cases u <;> first | rfl | exact State.onStrand_answers s k _
theorem State.apply_keeps_answers (s : State) (u : Upd) (h : Field.answers ∉ u.touches) : (s.apply u).answers = s.answers := by
  cases u <;> first | rfl | exact State.onStrand_answers s _ _ | exact State.applyL_answers s _ _ | (simp only [State.apply]; split <;> rfl) | exact absurd (by simp [Upd.touches]) h
theorem State.applyAll_keeps_answers (us : List Upd) (s : State) (h : Field.answers.free us = true) : (s.applyAll us).answers = s.answers := by
  induction us generalizing s with
  | nil => rfl
  | cons u r ih =>
    simp only [Field.free, List.all_cons, Bool.and_eq_true, Bool.not_eq_true', List.contains_eq_mem, decide_eq_false_iff_not] at h
    exact (ih (s.apply u) (by simpa [Field.free] using h.2)).trans (State.apply_keeps_answers s u h.1)
@[simp] theorem State.applyL_faults (s : State) (k : Nat) (u : LUpd) : (s.applyL k u).faults = s.faults := by
  cases u <;> first | rfl | exact State.onStrand_faults s k _
theorem State.apply_keeps_faults (s : State) (u : Upd) (h : Field.faults ∉ u.touches) : (s.apply u).faults = s.faults := by
  cases u <;> first | rfl | exact State.onStrand_faults s _ _ | exact State.applyL_faults s _ _ | (simp only [State.apply]; split <;> rfl) | exact absurd (by simp [Upd.touches]) h
theorem State.applyAll_keeps_faults (us : List Upd) (s : State) (h : Field.faults.free us = true) : (s.applyAll us).faults = s.faults := by
  induction us generalizing s with
  | nil => rfl
  | cons u r ih =>
    simp only [Field.free, List.all_cons, Bool.and_eq_true, Bool.not_eq_true', List.contains_eq_mem, decide_eq_false_iff_not] at h
    exact (ih (s.apply u) (by simpa [Field.free] using h.2)).trans (State.apply_keeps_faults s u h.1)
@[simp] theorem State.applyL_reports (s : State) (k : Nat) (u : LUpd) : (s.applyL k u).reports = s.reports := by
  cases u <;> first | rfl | exact State.onStrand_reports s k _
theorem State.apply_keeps_reports (s : State) (u : Upd) (h : Field.reports ∉ u.touches) : (s.apply u).reports = s.reports := by
  cases u <;> first | rfl | exact State.onStrand_reports s _ _ | exact State.applyL_reports s _ _ | (simp only [State.apply]; split <;> rfl) | exact absurd (by simp [Upd.touches]) h
theorem State.applyAll_keeps_reports (us : List Upd) (s : State) (h : Field.reports.free us = true) : (s.applyAll us).reports = s.reports := by
  induction us generalizing s with
  | nil => rfl
  | cons u r ih =>
    simp only [Field.free, List.all_cons, Bool.and_eq_true, Bool.not_eq_true', List.contains_eq_mem, decide_eq_false_iff_not] at h
    exact (ih (s.apply u) (by simpa [Field.free] using h.2)).trans (State.apply_keeps_reports s u h.1)
@[simp] theorem State.applyL_lpddr (s : State) (k : Nat) (u : LUpd) : (s.applyL k u).lpddr = s.lpddr := by
  cases u <;> first | rfl | exact State.onStrand_lpddr s k _
theorem State.apply_keeps_lpddr (s : State) (u : Upd) (h : Field.lpddr ∉ u.touches) : (s.apply u).lpddr = s.lpddr := by
  cases u <;> first | rfl | exact State.onStrand_lpddr s _ _ | exact State.applyL_lpddr s _ _ | (simp only [State.apply]; split <;> rfl) | exact absurd (by simp [Upd.touches]) h
theorem State.applyAll_keeps_lpddr (us : List Upd) (s : State) (h : Field.lpddr.free us = true) : (s.applyAll us).lpddr = s.lpddr := by
  induction us generalizing s with
  | nil => rfl
  | cons u r ih =>
    simp only [Field.free, List.all_cons, Bool.and_eq_true, Bool.not_eq_true', List.contains_eq_mem, decide_eq_false_iff_not] at h
    exact (ih (s.apply u) (by simpa [Field.free] using h.2)).trans (State.apply_keeps_lpddr s u h.1)
@[simp] theorem State.applyL_mappedOut (s : State) (k : Nat) (u : LUpd) : (s.applyL k u).mappedOut = s.mappedOut := by
  cases u <;> first | rfl | exact State.onStrand_mappedOut s k _
theorem State.apply_keeps_mappedOut (s : State) (u : Upd) (h : Field.mappedOut ∉ u.touches) : (s.apply u).mappedOut = s.mappedOut := by
  cases u <;> first | rfl | exact State.onStrand_mappedOut s _ _ | exact State.applyL_mappedOut s _ _ | (simp only [State.apply]; split <;> rfl) | exact absurd (by simp [Upd.touches]) h
theorem State.applyAll_keeps_mappedOut (us : List Upd) (s : State) (h : Field.mappedOut.free us = true) : (s.applyAll us).mappedOut = s.mappedOut := by
  induction us generalizing s with
  | nil => rfl
  | cons u r ih =>
    simp only [Field.free, List.all_cons, Bool.and_eq_true, Bool.not_eq_true', List.contains_eq_mem, decide_eq_false_iff_not] at h
    exact (ih (s.apply u) (by simpa [Field.free] using h.2)).trans (State.apply_keeps_mappedOut s u h.1)
@[simp] theorem State.applyL_halved (s : State) (k : Nat) (u : LUpd) : (s.applyL k u).halved = s.halved := by
  cases u <;> first | rfl | exact State.onStrand_halved s k _
theorem State.apply_keeps_halved (s : State) (u : Upd) (h : Field.halved ∉ u.touches) : (s.apply u).halved = s.halved := by
  cases u <;> first | rfl | exact State.onStrand_halved s _ _ | exact State.applyL_halved s _ _ | (simp only [State.apply]; split <;> rfl) | exact absurd (by simp [Upd.touches]) h
theorem State.applyAll_keeps_halved (us : List Upd) (s : State) (h : Field.halved.free us = true) : (s.applyAll us).halved = s.halved := by
  induction us generalizing s with
  | nil => rfl
  | cons u r ih =>
    simp only [Field.free, List.all_cons, Bool.and_eq_true, Bool.not_eq_true', List.contains_eq_mem, decide_eq_false_iff_not] at h
    exact (ih (s.apply u) (by simpa [Field.free] using h.2)).trans (State.apply_keeps_halved s u h.1)
@[simp] theorem State.applyL_powered (s : State) (k : Nat) (u : LUpd) : (s.applyL k u).powered = s.powered := by
  cases u <;> first | rfl | exact State.onStrand_powered s k _
theorem State.apply_keeps_powered (s : State) (u : Upd) (h : Field.powered ∉ u.touches) : (s.apply u).powered = s.powered := by
  cases u <;> first | rfl | exact State.onStrand_powered s _ _ | exact State.applyL_powered s _ _ | (simp only [State.apply]; split <;> rfl) | exact absurd (by simp [Upd.touches]) h
theorem State.applyAll_keeps_powered (us : List Upd) (s : State) (h : Field.powered.free us = true) : (s.applyAll us).powered = s.powered := by
  induction us generalizing s with
  | nil => rfl
  | cons u r ih =>
    simp only [Field.free, List.all_cons, Bool.and_eq_true, Bool.not_eq_true', List.contains_eq_mem, decide_eq_false_iff_not] at h
    exact (ih (s.apply u) (by simpa [Field.free] using h.2)).trans (State.apply_keeps_powered s u h.1)
@[simp] theorem State.applyL_turns (s : State) (k : Nat) (u : LUpd) : (s.applyL k u).turns = s.turns := by
  cases u <;> first | rfl | exact State.onStrand_turns s k _
theorem State.apply_keeps_turns (s : State) (u : Upd) (h : Field.turns ∉ u.touches) : (s.apply u).turns = s.turns := by
  cases u <;> first | rfl | exact State.onStrand_turns s _ _ | exact State.applyL_turns s _ _ | (simp only [State.apply]; split <;> rfl) | exact absurd (by simp [Upd.touches]) h
theorem State.applyAll_keeps_turns (us : List Upd) (s : State) (h : Field.turns.free us = true) : (s.applyAll us).turns = s.turns := by
  induction us generalizing s with
  | nil => rfl
  | cons u r ih =>
    simp only [Field.free, List.all_cons, Bool.and_eq_true, Bool.not_eq_true', List.contains_eq_mem, decide_eq_false_iff_not] at h
    exact (ih (s.apply u) (by simpa [Field.free] using h.2)).trans (State.apply_keeps_turns s u h.1)
@[simp] theorem State.applyL_fresh (s : State) (k : Nat) (u : LUpd) : (s.applyL k u).fresh = s.fresh := by
  cases u <;> first | rfl | exact State.onStrand_fresh s k _
theorem State.apply_keeps_fresh (s : State) (u : Upd) (h : Field.fresh ∉ u.touches) : (s.apply u).fresh = s.fresh := by
  cases u <;> first | rfl | exact State.onStrand_fresh s _ _ | exact State.applyL_fresh s _ _ | (simp only [State.apply]; split <;> rfl) | exact absurd (by simp [Upd.touches]) h
theorem State.applyAll_keeps_fresh (us : List Upd) (s : State) (h : Field.fresh.free us = true) : (s.applyAll us).fresh = s.fresh := by
  induction us generalizing s with
  | nil => rfl
  | cons u r ih =>
    simp only [Field.free, List.all_cons, Bool.and_eq_true, Bool.not_eq_true', List.contains_eq_mem, decide_eq_false_iff_not] at h
    exact (ih (s.apply u) (by simpa [Field.free] using h.2)).trans (State.apply_keeps_fresh s u h.1)
@[simp] theorem State.applyL_nextOp (s : State) (k : Nat) (u : LUpd) : (s.applyL k u).nextOp = s.nextOp := by
  cases u <;> first | rfl | exact State.onStrand_nextOp s k _
theorem State.apply_keeps_nextOp (s : State) (u : Upd) (h : Field.nextOp ∉ u.touches) : (s.apply u).nextOp = s.nextOp := by
  cases u <;> first | rfl | exact State.onStrand_nextOp s _ _ | exact State.applyL_nextOp s _ _ | (simp only [State.apply]; split <;> rfl) | exact absurd (by simp [Upd.touches]) h
theorem State.applyAll_keeps_nextOp (us : List Upd) (s : State) (h : Field.nextOp.free us = true) : (s.applyAll us).nextOp = s.nextOp := by
  induction us generalizing s with
  | nil => rfl
  | cons u r ih =>
    simp only [Field.free, List.all_cons, Bool.and_eq_true, Bool.not_eq_true', List.contains_eq_mem, decide_eq_false_iff_not] at h
    exact (ih (s.apply u) (by simpa [Field.free] using h.2)).trans (State.apply_keeps_nextOp s u h.1)
@[simp] theorem State.applyL_nextLaunch (s : State) (k : Nat) (u : LUpd) : (s.applyL k u).nextLaunch = s.nextLaunch := by
  cases u <;> first | rfl | exact State.onStrand_nextLaunch s k _
theorem State.apply_keeps_nextLaunch (s : State) (u : Upd) (h : Field.nextLaunch ∉ u.touches) : (s.apply u).nextLaunch = s.nextLaunch := by
  cases u <;> first | rfl | exact State.onStrand_nextLaunch s _ _ | exact State.applyL_nextLaunch s _ _ | (simp only [State.apply]; split <;> rfl) | exact absurd (by simp [Upd.touches]) h
theorem State.applyAll_keeps_nextLaunch (us : List Upd) (s : State) (h : Field.nextLaunch.free us = true) : (s.applyAll us).nextLaunch = s.nextLaunch := by
  induction us generalizing s with
  | nil => rfl
  | cons u r ih =>
    simp only [Field.free, List.all_cons, Bool.and_eq_true, Bool.not_eq_true', List.contains_eq_mem, decide_eq_false_iff_not] at h
    exact (ih (s.apply u) (by simpa [Field.free] using h.2)).trans (State.apply_keeps_nextLaunch s u h.1)
@[simp] theorem State.applyL_nextWrite (s : State) (k : Nat) (u : LUpd) : (s.applyL k u).nextWrite = s.nextWrite := by
  cases u <;> first | rfl | exact State.onStrand_nextWrite s k _
theorem State.apply_keeps_nextWrite (s : State) (u : Upd) (h : Field.nextWrite ∉ u.touches) : (s.apply u).nextWrite = s.nextWrite := by
  cases u <;> first | rfl | exact State.onStrand_nextWrite s _ _ | exact State.applyL_nextWrite s _ _ | (simp only [State.apply]; split <;> rfl) | exact absurd (by simp [Upd.touches]) h
theorem State.applyAll_keeps_nextWrite (us : List Upd) (s : State) (h : Field.nextWrite.free us = true) : (s.applyAll us).nextWrite = s.nextWrite := by
  induction us generalizing s with
  | nil => rfl
  | cons u r ih =>
    simp only [Field.free, List.all_cons, Bool.and_eq_true, Bool.not_eq_true', List.contains_eq_mem, decide_eq_false_iff_not] at h
    exact (ih (s.apply u) (by simpa [Field.free] using h.2)).trans (State.apply_keeps_nextWrite s u h.1)

end Sys2Proof.Machine
end

