-- ==== Sys2Proof/Laws/Memory.lean ====
section
/-! SUPPORT. Sparse maps and memory: reading what was written, leaving the rest, and the canonical form under every operation. -/

namespace Sys2Proof.Machine

/-! ## Sparse maps -/

@[simp] theorem mapGet_nil {α : Type} (k : Nat) : mapGet ([] : Map α) k = none := rfl

theorem mapGet_mapSet_same {α : Type} (m : Map α) (k : Nat) (v : α) : mapGet (mapSet m k v) k = some v := by
  induction m with
  | nil => simp [mapSet, mapGet]
  | cons e r ih =>
    obtain ⟨k', v'⟩ := e
    simp only [mapSet]
    split
    · simp [mapGet]
    · split
      · simp [mapGet]
      · simpa [mapGet, *] using ih

theorem mapGet_mapSet_other {α : Type} (m : Map α) (k j : Nat) (v : α) (h : j ≠ k) : mapGet (mapSet m k v) j = mapGet m j := by
  induction m with
  | nil => simp [mapSet, mapGet, Ne.symm h]
  | cons e r ih =>
    obtain ⟨k', v'⟩ := e
    simp only [mapSet]
    split
    · rename_i e; subst e; simp [mapGet, Ne.symm h]
    · split
      · simp [mapGet, Ne.symm h]
      · simp only [mapGet]; split <;> simp_all

/-- A key below every key of a rising list is absent. -/
theorem keysRise_cons {α : Type} (a : Nat × α) (r : List (Nat × α)) :
    keysRise (a :: r) = true ↔ (∀ b ∈ r, a.1 < b.1) ∧ keysRise r = true := by
  induction r generalizing a with
  | nil => simp [keysRise]
  | cons b r ih =>
    simp only [keysRise, Bool.and_eq_true, decide_eq_true_eq, ih b, List.mem_cons, forall_eq_or_imp]
    constructor
    · rintro ⟨h, h1, h2⟩; exact ⟨⟨h, fun c hc => Nat.lt_trans h (h1 c hc)⟩, h1, h2⟩
    · rintro ⟨⟨h, _⟩, h1, h2⟩; exact ⟨h, h1, h2⟩

theorem mem_mapSet {α : Type} {m : Map α} {k : Nat} {v : α} {e : Nat × α} (h : e ∈ mapSet m k v) : e = (k, v) ∨ e ∈ m := by
  induction m with
  | nil => left; simp [mapSet] at h; exact h
  | cons a r ih =>
    simp only [mapSet] at h
    split at h
    · rcases List.mem_cons.1 h with h | h
      · exact .inl h
      · exact .inr (List.mem_cons_of_mem _ h)
    · split at h
      · rcases List.mem_cons.1 h with h | h
        · exact .inl h
        · exact .inr h
      · rcases List.mem_cons.1 h with h | h
        · exact .inr (h ▸ List.mem_cons_self)
        · exact (ih h).imp id (List.mem_cons_of_mem _)

theorem keysRise_mapSet {α : Type} (m : Map α) (k : Nat) (v : α) (h : keysRise m = true) : keysRise (mapSet m k v) = true := by
  induction m with
  | nil => rfl
  | cons e r ih =>
    obtain ⟨k', v'⟩ := e
    obtain ⟨h1, h2⟩ := (keysRise_cons _ _).1 h
    simp only [mapSet]
    split
    · rename_i e; subst e; exact (keysRise_cons _ _).2 ⟨h1, h2⟩
    · split
      · rename_i hk
        exact (keysRise_cons _ _).2 ⟨fun b hb => by
          rcases List.mem_cons.1 hb with hb | hb
          · exact hb ▸ hk
          · exact Nat.lt_trans hk (h1 b hb), h⟩
      · rename_i hne hlt
        exact (keysRise_cons _ _).2 ⟨fun b hb => by
          rcases mem_mapSet hb with hb | hb
          · subst hb; show k' < k; omega
          · exact h1 b hb, ih h2⟩

theorem keysRise_filter {α : Type} (m : Map α) (p : Nat × α → Bool) (h : keysRise m = true) : keysRise (m.filter p) = true := by
  induction m with
  | nil => rfl
  | cons e r ih =>
    obtain ⟨h1, h2⟩ := (keysRise_cons _ _).1 h
    simp only [List.filter_cons]
    split
    · exact (keysRise_cons _ _).2 ⟨fun b hb => h1 b (List.mem_filter.1 hb).1, ih h2⟩
    · exact ih h2

theorem keysRise_mapDel {α : Type} (m : Map α) (k : Nat) (h : keysRise m = true) : keysRise (mapDel m k) = true :=
  keysRise_filter m _ h

theorem mapGet_mapDel_same {α : Type} (m : Map α) (k : Nat) : mapGet (mapDel m k) k = none := by
  unfold mapDel
  induction m with
  | nil => rfl
  | cons e r ih =>
    by_cases h : e.1 = k
    · simpa [List.filter_cons, h] using ih
    · simpa [List.filter_cons, h, mapGet] using ih

theorem mapGet_mapDel_other {α : Type} (m : Map α) (k j : Nat) (h : j ≠ k) : mapGet (mapDel m k) j = mapGet m j := by
  unfold mapDel
  induction m with
  | nil => rfl
  | cons e r ih =>
    by_cases he : e.1 = k
    · simp only [List.filter_cons, he, ne_eq, not_true, decide_false, Bool.false_eq_true, if_false, ih]
      simp [mapGet, he, Ne.symm h]
    · by_cases hj : e.1 = j <;> simp_all [List.filter_cons, mapGet]

/-! ## Memory -/

/-- A read after a write of the same byte. -/
theorem Memory.read_write_same (m : List Host.Cell) (a : Nat) (b : Byte) : Memory.read (Memory.write m a b) a = b := by
  unfold Memory.read Memory.write
  split
  · rename_i h; rw [mapGet_mapDel_same]; exact h.symm
  · rw [mapGet_mapSet_same]; rfl

/-- A write leaves every other byte. -/
theorem Memory.read_write_other (m : List Host.Cell) (a c : Nat) (b : Byte) (h : c ≠ a) :
    Memory.read (Memory.write m a b) c = Memory.read m c := by
  unfold Memory.read Memory.write
  split
  · rw [mapGet_mapDel_other _ _ _ h]
  · rw [mapGet_mapSet_other _ _ _ _ h]

theorem Memory.wf_iff (m : List Host.Cell) :
    Memory.wf m = true ↔ keysRise m = true ∧ ∀ e ∈ m, e.2 ≠ Memory.unlisted := by
  simp [Memory.wf, List.all_eq_true]

/-- A write keeps the canonical form. -/
theorem Memory.wf_write (m : List Host.Cell) (a : Nat) (b : Byte) (h : Memory.wf m = true) : Memory.wf (Memory.write m a b) = true := by
  obtain ⟨h1, h2⟩ := (Memory.wf_iff m).1 h
  unfold Memory.write
  split
  · exact (Memory.wf_iff _).2 ⟨keysRise_mapDel m a h1, fun e he => h2 e (List.mem_filter.1 he).1⟩
  · rename_i hb
    exact (Memory.wf_iff _).2 ⟨keysRise_mapSet m a b h1, fun e he => by
      rcases mem_mapSet he with rfl | he
      · exact hb
      · exact h2 e he⟩

/-- Clearing a range keeps the canonical form. -/
theorem Memory.wf_filter (m : List Host.Cell) (p : Host.Cell → Bool) (h : Memory.wf m = true) : Memory.wf (m.filter p) = true := by
  obtain ⟨h1, h2⟩ := (Memory.wf_iff m).1 h
  exact (Memory.wf_iff _).2 ⟨keysRise_filter m p h1, fun e he => h2 e (List.mem_filter.1 he).1⟩

/-- The one update that stores a byte, and the one that clears a range, keep the canonical form. -/
theorem State.apply_mem_wf (s : State) (a : Nat) (b : Byte) (h : Memory.wf s.mem = true) :
    Memory.wf (s.apply (.mem a b)).mem = true := Memory.wf_write s.mem a b h
theorem State.apply_memClear_wf (s : State) (lo hi : Nat) (h : Memory.wf s.mem = true) :
    Memory.wf (s.apply (.memClear lo hi)).mem = true := Memory.wf_filter s.mem _ h

/-- Reset memory is in canonical form. -/
theorem Memory.reset_wf : Memory.wf State.reset.mem = true := rfl

end Sys2Proof.Machine
end

