-- ==== Sys2Proof/Laws/Ops.lean ====
section
/-! SUPPORT. What each shared operation can do: effects and outcomes, one strand's record, the words that act and the words that pass, results and operations issued, traps. -/

namespace Sys2Proof.Machine

/-! ## Effects and outcomes -/

@[simp] theorem State.applyAll_nil (s : State) : s.applyAll [] = s := rfl
@[simp] theorem State.applyAll_cons (s : State) (u : Upd) (r : List Upd) : s.applyAll (u :: r) = (s.apply u).applyAll r := rfl
theorem State.applyAll_append (s : State) (a b : List Upd) : s.applyAll (a ++ b) = (s.applyAll a).applyAll b :=
  List.foldl_append

/-- A meaning that always completes. -/
@[simp] theorem Eff.next_eq (e : Eff) (s : State) : e.next s = .next (s.applyAll (e s)) := rfl

/-- An event completes exactly where its conditions hold. -/
theorem Eff.when_eq_next (name : String) (ok : State → Bool) (e : Eff) (s t : State) :
    Eff.when name ok e s = .next t ↔ ok s = true ∧ s.applyAll (e s) = t := by
  unfold Eff.when Eff.run
  by_cases h : ok s = true <;> simp [h]
theorem Eff.when_ok {name : String} {ok : State → Bool} {e : Eff} {s : State} (h : ok s = true) :
    Eff.when name ok e s = .next (s.applyAll (e s)) := by
  unfold Eff.when Eff.run; simp [h]
theorem Eff.when_not {name : String} {ok : State → Bool} {e : Eff} {s : State} (h : ok s = false) :
    Eff.when name ok e s = .fault (.notEnabled name) := by
  unfold Eff.when; simp [h]

theorem Eff.run_andThen (e f : Eff) (s : State) : (e.andThen f).run s = f.run (e.run s) := by
  simp [Eff.run, Eff.andThen, State.applyAll_append]
theorem Eff.run_seq_cons (e : Eff) (r : List Eff) (s : State) : (Eff.seq (e :: r)).run s = (Eff.seq r).run (e.run s) :=
  Eff.run_andThen e (Eff.seq r) s
@[simp] theorem Eff.run_seq_nil (s : State) : (Eff.seq []).run s = s := rfl

/-- Every update keeps the canonical form of memory. -/
theorem State.apply_wf (s : State) (u : Upd) (h : Memory.wf s.mem = true) : Memory.wf (s.apply u).mem = true := by
  by_cases hu : Field.mem ∈ u.touches
  · cases u <;> simp_all [Upd.touches]
    case mem a b => exact Memory.wf_write s.mem a b h
    case memClear lo hi => exact Memory.wf_filter s.mem _ h
    case powerOn f => rfl
  · rw [State.apply_keeps_mem s u hu]; exact h
theorem State.applyAll_wf (us : List Upd) (s : State) (h : Memory.wf s.mem = true) : Memory.wf (s.applyAll us).mem = true := by
  induction us generalizing s with
  | nil => exact h
  | cons u r ih => exact ih _ (s.apply_wf u h)

/-! ## One strand's record -/

/-- A strand in a slot, after a change of its record. -/
theorem State.strand_onStrand_same (s : State) (k : Nat) (st : Strand) (f : Strand → Strand) (h : mapGet s.strands k = some st) :
    (s.onStrand k f).strand k = f st := by
  unfold State.onStrand State.strand
  simp [h, mapGet_mapSet_same]
theorem State.slot_onStrand_same (s : State) (k : Nat) (st : Strand) (f : Strand → Strand) (h : mapGet s.strands k = some st) :
    mapGet (s.onStrand k f).strands k = some (f st) := by
  unfold State.onStrand
  simp [h, mapGet_mapSet_same]
/-- The other strands stand as they did. -/
theorem State.slot_onStrand_other (s : State) (k j : Nat) (f : Strand → Strand) (h : j ≠ k) :
    mapGet (s.onStrand k f).strands j = mapGet s.strands j := by
  unfold State.onStrand
  split
  · simp [mapGet_mapSet_other _ _ _ _ h]
  · split <;> rfl
theorem State.strand_of_slot (s : State) (k : Nat) (st : Strand) (h : mapGet s.strands k = some st) : s.strand k = st := by
  unfold State.strand; simp [h]

/-- s0 reads zero and m0 reads all ones, whatever is written to them (Table 4-1). -/
@[simp] theorem Strand.sreg_zero (st : Strand) : st.sreg 0 = 0 := rfl
@[simp] theorem Strand.mreg_zero (st : Strand) : st.mreg 0 = BitVec.allOnes 16384 := rfl
theorem Strand.applyL_s_zero (st : Strand) (v : Word) : st.applyL (.s 0 v) = st := rfl
theorem Strand.applyL_m_zero (st : Strand) (on v : Lanes) : st.applyL (.m 0 on v) = st := rfl
theorem Strand.sreg_applyL_same (st : Strand) (r : Nat) (v : Word) (h : r ≠ 0) : (st.applyL (.s r v)).sreg r = v := by
  simp [Strand.applyL, Strand.sreg, h, mapGet_mapSet_same]
theorem Strand.sreg_applyL_other (st : Strand) (r q : Nat) (v : Word) (h : q ≠ r) : (st.applyL (.s r v)).sreg q = st.sreg q := by
  unfold Strand.applyL Strand.sreg
  by_cases h0 : r = 0 <;> simp [h0, mapGet_mapSet_other _ _ _ _ h]

/-! ## Words that act and words that pass (R84, R92) -/

/-- The flag a word names has a use left, or the word is a replay. -/
def flagRoom (s : State) (c : Common) : Prop :=
  ∀ f, setfFlag c = some f → ((s.ctx c).st.flag f < 8 ∨ (s.ctx c).sp.replay.isSome = true)

theorem onWord_acts (c : Common) (len : Ctx → Nat) (body : Ctx → Eff) (s : State) (h : (s.ctx c).act ≠ 0) (hf : flagRoom s c) :
    onWord c len body s = body (s.ctx c) s := by
  unfold onWord
  simp only [h, if_false]
  cases hs : setfFlag c with
  | none => rfl
  | some f =>
    rcases hf f hs with h8 | hr
    · have : ¬ 8 ≤ (s.ctx c).st.flag f := by omega
      simp [this]
    · have : (s.ctx c).sp.replay.isNone = false := by
        cases hh : (s.ctx c).sp.replay <;> simp_all
      simp [this]

theorem onWord_passes (c : Common) (len : Ctx → Nat) (body : Ctx → Eff) (s : State) (h : (s.ctx c).act = 0) :
    onWord c len body s = finish (s.ctx c) s (len (s.ctx c)) (s.ctx c).sp.past := by
  unfold onWord; simp [h]

/-- Checks that all hold leave the effect. -/
theorem firstFail_all (l : List (Bool × Nat)) (h : l.all (·.1) = true) : firstFail l = none := by
  induction l with
  | nil => rfl
  | cons p r ih =>
    simp only [List.all_cons, Bool.and_eq_true] at h
    simp [firstFail, h.1, ih h.2]
theorem checked_ok (x : Ctx) (l : List (Bool × Nat)) (e : Eff) (s : State) (h : l.all (·.1) = true) : checked x l e s = e s := by
  unfold checked; simp [firstFail_all l h]

/-! ## Results and operations issued -/

/-- What a fixed-latency result touches: the strand's own record alone. -/
theorem fixedResult_fields (x : Ctx) (s : State) (len lat : Nat) (regs lats : List LUpd) (st : Status) :
    ∀ u ∈ fixedResult x s len lat regs lats st, u.touches = [.strands, .ghosts] := by
  intro u hu
  simp only [fixedResult, finish, List.mem_append, List.mem_map] at hu
  rcases hu with (((⟨a, _, rfl⟩ | hu) | hu) | hu) | hu
  · rfl
  · split at hu
    · simp at hu
    · obtain ⟨a, _, rfl⟩ := List.mem_map.1 hu; rfl
  · split at hu
    · simp at hu
    · rcases List.mem_singleton.1 hu with rfl; rfl
  · split at hu
    · simp at hu
    · rcases List.mem_cons.1 hu with rfl | hu
      · rfl
      · rcases List.mem_singleton.1 hu with rfl; rfl
  · rcases List.mem_cons.1 hu with rfl | hu
    · rfl
    · rcases List.mem_singleton.1 hu with rfl; rfl

/-- An issued operation is outstanding with its kind; the other operations stand as they did. -/
theorem issueOp_ops (x : Ctx) (s : State) (len : Nat) (tl : TlArg) (kind : OpKind) :
    ∃ o : Op, (s.applyAll (issueOp x s len tl kind)).ops = s.ops ++ [o] ∧ o.id = s.nextOp ∧ o.owner = x.k ∧ o.split = x.sp.num ∧
      o.kind = kind ∧ o.issued = s.now ∧ o.tl = tl.map (·.toNat) ∧ o.prior = s.before x.sp ∧ o.leader = x.leader ∧ o.parked = false := by
  refine ⟨{ id := s.nextOp, owner := x.k, split := x.sp.num, ovl := x.sp.ovl, pc := x.sp.pc, clause := x.sp.clause,
            flag := ((setfFlag x.c).map (· + 1)).getD 0, tl := tl.map (·.toNat), issued := s.now, prior := s.before x.sp, dep := s.stillPending x.sp.dep,
            fences := x.sp.fences, leader := x.leader, parked := false, tags := [], killed := false, kind := kind }, ?_, rfl, rfl, rfl, rfl, rfl, rfl, rfl, rfl, rfl⟩
  unfold issueOp
  simp only [List.cons_append, List.nil_append, State.applyAll_cons]
  rw [State.applyAll_keeps_ops]
  · rfl
  · cases setfFlag x.c with
    | none => rfl
    | some f => by_cases h : x.sp.replay.isSome = true <;> simp [h] <;> rfl

/-! ## Writes the device makes and shows (R120, R135) -/

/-- The device's own write changes memory, what the dies have still to apply, the waits that it fires and the releases it stands after. -/
theorem putBytes_touches (pa : Nat) (bs : List Byte) : ∀ u ∈ putBytes pa bs, u.touches = [.mem] ∨ u.touches = [.pend] ∨ u.touches = [.ops] ∨ u.touches = [.rels] := by
  intro u hu
  simp only [putBytes, List.mem_append, List.mem_map, List.mem_cons, List.not_mem_nil, or_false] at hu
  rcases hu with ⟨a, _, rfl⟩ | rfl | rfl | rfl <;> simp [Upd.touches]

/-- A fired wait keeps its operation's number, owner and place. -/
theorem State.fire_ids (s : State) (home : Bool) (dies : List Nat) (pa n : Nat) :
    (s.fire home dies pa n).ops.map (fun o => (o.id, o.owner, o.split)) = s.ops.map fun o => (o.id, o.owner, o.split) := by
  simp [State.fire, Function.comp_def]

/-- Covering bytes adds no write that a die has to apply. -/
theorem State.cover_pend (s : State) (dies : List Nat) (pa n : Nat) :
    ∀ p ∈ (s.cover dies pa n).pend, ∃ q ∈ s.pend, q.id = p.id ∧ q.die = p.die ∧ q.deps = p.deps ∧ ∀ c ∈ p.old, c ∈ q.old := by
  intro p hp
  obtain ⟨q, hq, rfl⟩ := List.mem_map.1 (List.mem_filter.1 hp).1
  refine ⟨q, hq, ?_⟩
  split
  · exact ⟨rfl, rfl, rfl, fun c hc => (List.mem_filter.1 hc).1⟩
  · exact ⟨rfl, rfl, rfl, fun c hc => hc⟩

/-- No byte covered on a die is one that the die has still to apply. -/
theorem State.cover_free (s : State) (dies : List Nat) (pa n : Nat) :
    ∀ p ∈ (s.cover dies pa n).pend, p.die ∈ dies → ∀ c ∈ p.old, ¬ (pa ≤ c.1 ∧ c.1 < pa + n) := by
  intro p hp hd c hc
  obtain ⟨q, _, rfl⟩ := List.mem_map.1 (List.mem_filter.1 hp).1
  by_cases h : dies.contains q.die = true
  · simp only [h, if_true] at hc
    have := (List.mem_filter.1 hc).2
    simp only [Bool.not_eq_true', Bool.and_eq_false_iff, decide_eq_false_iff_not] at this
    omega
  · simp only [h] at hd
    exact absurd hd (by simpa using h)

/-! ## Traps (R310 to R314) -/

/-- A strand with no frame in use parks its split with the trap as its frame, and the trap then takes its route. -/
theorem takeTrap_parks (k n : Nat) (i : TrapInfo) (needs : List PageNeed) (s : State)
    (hr : (s.strand k).isRoutine = false) (hf : (s.strand k).frame = none) :
    (takeTrap k n i needs).run s =
      (routeTrap k).run (s.applyAll
        [.split k { (s.strand k).splitOf n with run := if i.cause = cOverlayMiss then .overlay i.detail.toNat else .parked },
         .trap k (some { mkTrap (s.strand k) ((s.strand k).splitOf n) i with
           needs := needs.map fun m => (m.stage, m.access, m.page, m.va) })]) := by
  unfold Eff.run takeTrap
  simp [hr, hf]

/-- A routine ends with its code, and never parks (R137). -/
theorem takeTrap_routine (k n : Nat) (i : TrapInfo) (needs : List PageNeed) (s : State) (hr : (s.strand k).isRoutine = true) :
    takeTrap k n i needs s =
      [.endCode k (some (if needs.any fun m => m.access ≠ 0 &&
          (translate s (s.strand k).core (s.strand k).part (s.strand k).asid (s.strand k).level m.va 0).isOk then 6 else routineCode i.cause)),
       .splits k ((s.strand k).splits.map fun x => { x with run := .parked })] ++ dropAfter k i.op s := by
  unfold takeTrap; simp [hr]

end Sys2Proof.Machine
end

