-- ==== Sys2Proof/Tests/Slice0.lean ====
section
/-! SUPPORT. Tests: words written out from the encodings, ill-formed terms, single steps, and a witness for each statement's hypotheses. -/

namespace Sys2Proof.Tests

open Sys2Proof.Machine Sys2Proof.Claims

set_option Elab.async false

/-! ## Words written out from the encodings -/

/-- Common fields of the words below: no result; variable latency with flag 2; fixed latency with a latch. -/
def cA : Common := ⟨5, 0, 0, 0, 2, 1⟩
def cV : Common := ⟨5, 3, 0, 0, 2, 1⟩
def cF : Common := ⟨5, 0, 1, 2, 2, 1⟩

/-- Table 8-1: a header of class 2. -/
theorem test_decode_header : decodeTableWord 64 0xFF20004000000000 = some (.clauseIssue ⟨1, 0, 2, 0, 0, 0⟩) := by decide +kernel

/-- Tables 8-2, 8-4 and 9-2: the instruction of each word. -/
theorem test_decode_scalar_1 :
    ([(0x00A0140000000000, .nop cA),
      (0x01A1944C10100000, .mov cF 8 (.reg 9) (.bl 1)),
      (0x01A1944800004000, .movGetst cF (.reg 9)),
      (0x01A0140070008000, .movSetst cA (.reg 7)),
      (0x02A194480789ABCD, .movi cF (.reg 9) 0x789ABCD),
      (0x03A1944870123456, .movhi cF (.reg 9) (.reg 7) 0x0123456),
      (0x04A19448806E0000, .add cF 7 (.reg 9) (.reg 8) (.reg 3)),
      (0x06A19448806E0000, .sub cF 7 (.reg 9) (.reg 8) (.reg 3)),
      (0x08A19448806E0000, .div cF 7 (.reg 9) (.reg 8) (.reg 3)),
      (0x09A19448806E0000, .rem cF 7 (.reg 9) (.reg 8) (.reg 3)),
      (0x0AA19448806E0000, .and cF 7 (.reg 9) (.reg 8) (.reg 3)),
      (0x0BA19448806E0000, .or cF 7 (.reg 9) (.reg 8) (.reg 3)),
      (0x0CA19448806E0000, .xor cF 7 (.reg 9) (.reg 8) (.reg 3)),
      (0x10A19448806E0000, .shl cF 7 (.reg 9) (.reg 8) (.reg 3)),
      (0x11A19448806E0000, .shr cF 7 (.reg 9) (.reg 8) (.reg 3)),
      (0x19A19448806E0000, .min cF 7 (.reg 9) (.reg 8) (.reg 3))] : List (Nat × Instr)).all fun p => decodeTableWord 64 p.1 = some p.2 := by decide +kernel

/-- Tables 8-2, 8-4 and 9-2: the instruction of each word. -/
theorem test_decode_scalar_2 :
    ([(0x1AA19448806E0000, .max cF 7 (.reg 9) (.reg 8) (.reg 3)),
      (0x07A19448806E4000, .mul cF 7 1 (.reg 9) (.reg 8) (.reg 3))] : List (Nat × Instr)).all fun p => decodeTableWord 64 p.1 = some p.2 := by decide +kernel

/-- Tables 8-2, 8-4, 9-2 and 9-3: the instruction of each word. -/
theorem test_decode_scalar_imm_1 :
    ([(0x05A194488FFFFFF6, .addi cF (.reg 9) (.reg 8) 0xFFFFFF6),
      (0x0DA194488FFFFFF6, .andi cF (.reg 9) (.reg 8) 0xFFFFFF6),
      (0x0EA194488FFFFFF6, .ori cF (.reg 9) (.reg 8) 0xFFFFFF6),
      (0x0FA194488FFFFFF6, .xori cF (.reg 9) (.reg 8) 0xFFFFFF6),
      (0x12A1944880000023, .shli cF (.reg 9) (.reg 8) 35),
      (0x13A1944880000063, .shri cF 1 (.reg 9) (.reg 8) 35),
      (0x14A1944880704000, .rot cF 8 1 (.reg 9) (.reg 8) (.reg 3)),
      (0x15A1944880100000, .clz cF 8 (.reg 9) (.reg 8)),
      (0x16A1944880100000, .popc cF 8 (.reg 9) (.reg 8)),
      (0x17A1944880714000, .cmp cF 8 5 (.reg 9) (.reg 8) (.reg 3)),
      (0x18A1944880600300, .sel cF (.reg 9) (.reg 8) (.reg 3) (.reg 6)),
      (0x1BA1944880161178, .extr cF 11 (.reg 9) (.reg 8) 17 30),
      (0x1CA1944880001178, .ins cF (.reg 9) (.reg 8) 17 30),
      (0x1DA19448C0600003, .lea cF 3 (.reg 9) 12 (.reg 3)),
      (0x1EA19448C0008000, .seglim cF .attr (.reg 9) 12),
      (0x1FA1944800000028, .lparam cF (.reg 9) 40)] : List (Nat × Instr)).all fun p => decodeTableWord 64 p.1 = some p.2 := by decide +kernel

/-- Tables 8-2, 8-4, 9-2 and 9-3: the instruction of each word. -/
theorem test_decode_scalar_imm_2 :
    ([(0x20A1944800000006, .getid cF (.reg 9) 6),
      (0x21A6144800000000, .clockCore cV (.reg 9)),
      (0x21A6144800004000, .clockPkg cV (.reg 9)),
      (0x22A61400C0000000, .wintr cV 12)] : List (Nat × Instr)).all fun p => decodeTableWord 64 p.1 = some p.2 := by decide +kernel

/-- Tables 8-2, 8-4 and 9-5 and R187 to R199: the instruction of each word. -/
theorem test_decode_control_1 :
    ([(0x28A014007FFFFFFA, .br cA 0x7FFFFFFA),
      (0x29A015828000000C, .brc cA 6 (.reg 5) 12),
      (0x2AA01402FFFFFFFA, .loop cA (.reg 5) 0x7FFFFFFA),
      (0x2BA014000000000C, .call cA 12),
      (0x2CA01401E0000000, .ret cA (.reg 30)),
      (0x2DA016AF048D0000, .callo cA 0xABC 0x1234),
      (0x2EA015E80BF90001, .split cA 3 6 0x101 0x0FE 0x080 0x001),
      (0x2FA0140000000000, .merge cA),
      (0x30A0140000000000, .exit cA),
      (0x31A0140000000000, .yield cA),
      (0x32A014000000BEEF, .trap cA 0xBEEF),
      (0x33A0140000000000, .nmret cA),
      (0x34A616AF00000480, .ovld cV (.reg 9) 0xABC),
      (0x35A6144800000ABC, .ovlq cV (.reg 9) 0xABC),
      (0x36A016AF00000000, .ovlpin cA 0xABC),
      (0x37A016AF00000000, .ovlunpin cA 0xABC)] : List (Nat × Instr)).all fun p => decodeTableWord 64 p.1 = some p.2 := by decide +kernel

/-- Tables 8-2, 8-4 and 9-5 and R187 to R199: the instruction of each word. -/
theorem test_decode_control_2 :
    ([(0x38A6140080000000, .join cV (.reg 8)),
      (0x39A6140000000000, .leave cV),
      (0x3AA6140000000000, .gbar cV),
      (0x3BA6144800000000, .ginfo cV (.reg 9)),
      (0x3CA6144880600000, .spawn cV (.reg 9) (.reg 8) (.reg 3)),
      (0x3DA6144880601400, .msgsend cV 5 (.reg 9) (.reg 8) (.reg 3))] : List (Nat × Instr)).all fun p => decodeTableWord 64 p.1 = some p.2 := by decide +kernel

/-- Tables 8-2, 8-4, 8-5, 8-12 and 10-3: the instruction of each word. -/
theorem test_decode_floating_1 :
    ([(0x4040404880600400, .fadd ⟨2, 0, 0, 1, 0, 0⟩ (.lane 1 0 0 (.reg 9) (.reg 8) (.reg 3))),
      (0x41A195E088600E00, .fsub cF (.lane 3 2 0 (.reg 60) (.reg 8) (.bl 3))),
      (0x42A195E088600E00, .fmul cF (.lane 3 2 0 (.reg 60) (.reg 8) (.bl 3))),
      (0x420001D900040001, .fmul ⟨0, 0, 0, 0, 0, 0⟩ (.planeS 0 0 0 7 6 4)),
      (0x43A195E080684E00, .fma cF (.lane 3 2 0 (.reg 60) (.reg 8) (.reg 3) (.reg 33))),
      (0x43A6165158900001, .fma cV (.plane 2 1 0 9 4 5 6)),
      (0x44A6165140400001, .fmin cV (.plane 1 0 0 9 4 5)),
      (0x45A6165140400001, .fmax cV (.plane 1 0 0 9 4 5)),
      (0x46A195E080600C20, .fsgn cF .copy (.lane 3 0 0 (.reg 60) (.reg 8) (.reg 3))),
      (0x46A6165004400001, .fsgn cV .neg (.plane 1 0 0 9 4 0)),
      (0x47A6143080600451, .fcmp cV 5 1 1 (.reg 6) (.reg 8) (.reg 3)),
      (0x48A6165000000001, .fclass cV (.plane 0 0 0 9 4)),
      (0x49A195E080000600, .frcp cF (.lane 1 2 0 (.reg 60) (.reg 8))),
      (0x4AA195E080000600, .frsq cF (.lane 1 2 0 (.reg 60) (.reg 8))),
      (0x4BA195E080000600, .fsqrt cF (.lane 1 2 0 (.reg 60) (.reg 8))),
      (0x4CA195E080000600, .fexp2 cF (.lane 1 2 0 (.reg 60) (.reg 8)))] : List (Nat × Instr)).all fun p => decodeTableWord 64 p.1 = some p.2 := by decide +kernel

/-- Tables 8-2, 8-4, 8-5, 8-12 and 10-3: the instruction of each word. -/
theorem test_decode_floating_2 :
    ([(0x4DA195E080000600, .flog2 cF (.lane 1 2 0 (.reg 60) (.reg 8))),
      (0x4FA195E080000600, .frint cF (.lane 1 2 0 (.reg 60) (.reg 8))),
      (0x4E80002820005002, .fcvt ⟨4, 0, 0, 0, 0, 0⟩ 1 1 (.lane 4 0 0 (.reg 5) (.reg 2)))] : List (Nat × Instr)).all fun p => decodeTableWord 64 p.1 = some p.2 := by decide +kernel

/-- Tables 8-2, 8-4, 8-5 and 10-5: the instruction of each word. -/
theorem test_decode_integer_1 :
    ([(0x50A195E080601480, .iadd cF (.lane 5 0 1 (.reg 60) (.reg 8) (.reg 3))),
      (0x51A195E080601480, .isub cF (.lane 5 0 1 (.reg 60) (.reg 8) (.reg 3))),
      (0x52A195E080601410, .imul cF 1 (.lane 5 0 0 (.reg 60) (.reg 8) (.reg 3))),
      (0x53A195E080685480, .imad cF (.lane 5 0 1 (.reg 60) (.reg 8) (.reg 3) (.reg 33))),
      (0x54A61653C2840001, .imin cV (.planeS 10 0 0 9 4 15)),
      (0x55A61653C2840001, .imax cV (.planeS 10 0 0 9 4 15)),
      (0x56A61653C2840001, .iand cV (.planeS 10 0 0 9 4 15)),
      (0x57A61653C2840001, .ior cV (.planeS 10 0 0 9 4 15)),
      (0x58A61653C2840001, .ixor cV (.planeS 10 0 0 9 4 15)),
      (0x59A61653C2840001, .ishl cV (.planeS 10 0 0 9 4 15)),
      (0x5AA61653C2840001, .ishr cV (.planeS 10 0 0 9 4 15)),
      (0x5BA6143080601443, .icmp cV 4 5 3 (.reg 6) (.reg 8) (.reg 3)),
      (0x5CA195E080001410, .ibits cF 1 (.lane 5 0 0 (.reg 60) (.reg 8))),
      (0x5DA195E088418000, .select cF (.reg 60) (.reg 8) (.bl 2) (.reg 6)),
      (0x5EA6165000000001, .move cV (.plane 0 0 0 9 4)),
      (0x5FA195E080001400, .fill cF (.lane 5 0 0 (.reg 60) (.reg 8)))] : List (Nat × Instr)).all fun p => decodeTableWord 64 p.1 = some p.2 := by decide +kernel

/-- Tables 8-2, 8-4, 8-5 and 10-5: the instruction of each word. -/
theorem test_decode_integer_2 :
    ([(0x60A195E083F00001, .iaddi cF (.reg 60) (.reg 8) 0x3F00001),
      (0x61A195E083F00001, .fmuli cF (.reg 60) (.reg 8) 0x3F00001),
      (0x62A195E083F00001, .faddi cF (.reg 60) (.reg 8) 0x3F00001)] : List (Nat × Instr)).all fun p => decodeTableWord 64 p.1 = some p.2 := by decide +kernel

/-- Tables 8-2, 8-4, 8-5 and 10-6: the instruction of each word. -/
theorem test_decode_mask :
    ([(0x63A6143050600000, .mand cV (.reg 6) (.reg 5) (.reg 3)),
      (0x64A6143050600000, .mor cV (.reg 6) (.reg 5) (.reg 3)),
      (0x65A6143050600000, .mxor cV (.reg 6) (.reg 5) (.reg 3)),
      (0x66A6143050000000, .mnot cV (.reg 6) (.reg 5)),
      (0x67A6143320000000, .mfrom cV (.reg 6) (.reg 50)),
      (0x68A195E050000010, .mtov cF 1 (.reg 60) (.reg 5)),
      (0x69A194A050000030, .mred cF .first (.reg 20) (.reg 5)),
      (0x6AA6143050000000, .mlead cV (.reg 6) (.reg 5)),
      (0x6BA195E0807FC00C, .nbr cF 1 .const (.reg 60) (.reg 8) (.reg 3) 0x7F),
      (0x6CA195E000000020, .laneidx cF .col (.reg 60)),
      (0x7EA6144880600000, .zskip cV (.reg 9) (.reg 8) (.reg 3))] : List (Nat × Instr)).all fun p => decodeTableWord 64 p.1 = some p.2 := by decide +kernel

/-- Tables 8-2, 8-4, 8-5, 10-7 and 8-12: the instruction of each word. -/
theorem test_decode_movement :
    ([(0x700800841406FFFF, .shift ⟨0, 4, 0, 0, 0, 0⟩ 0 1 .const 2 1 5 0xFFFF),
      (0x71A616500047FFFE, .rotPlane cV 1 1 3 9 4 0xFFFE),
      (0x72A6165000440000, .spread cV 1 1 9 4),
      (0x73A6165000740000, .fold cV 1 1 .add 3 0 9 4),
      (0x74A6165001440004, .scan cV 5 1 .or 0 0 9 4),
      (0x75A6165000400000, .refold cV 1 9 4),
      (0x76A6165000400000, .transp cV 1 9 4),
      (0x77A6165001400001, .index cV 5 .row 9 4),
      (0x78A6165000000000, .pdset cV 9 4),
      (0x79A6165000000001, .pdget cV 1 9 4),
      (0x7AA6141000000000, .winset cV 4),
      (0x7BA6165159000003, .quant cV 4 .l64 9 4 5 6),
      (0x7CA6165158400001, .accept cV 1 .mask 9 4 5 6),
      (0x7DA6165143400000, .bound cV 13 9 4 5),
      (0x7304010C00000000, .fold ⟨0, 2, 0, 0, 0, 0⟩ 0 0 .add 0 0 4 3)] : List (Nat × Instr)).all fun p => decodeTableWord 64 p.1 = some p.2 := by decide +kernel

/-- Tables 8-2, 8-4, 11-1 and 11-8: the instruction of each word. -/
theorem test_decode_access_1 :
    ([(0xA0A6144D88FFFD70, .ld cV ⟨7, .reg 9, 11, .reg 8, 0xFFFD⟩),
      (0xA1A6144D88FFFD70, .st cV ⟨7, .reg 9, 11, .reg 8, 0xFFFD⟩),
      (0xA4A6144D88FFFD70, .lds cV ⟨7, .reg 9, 11, .reg 8, 0xFFFD⟩),
      (0xA5A6144D88FFFD70, .sts cV ⟨7, .reg 9, 11, .reg 8, 0xFFFD⟩),
      (0xADA6144D88FFFD70, .matchAddr cV ⟨7, .reg 9, 11, .reg 8, 0xFFFD⟩),
      (0xAEA6144D88FFFD70, .ldx cV ⟨7, .reg 9, 11, .reg 8, 0xFFFD⟩),
      (0xA2A6144D88FFFD40, .ldp cV ⟨4, 9, 11, .reg 8, 0xFFFD⟩),
      (0xA3A6144D88FFFD40, .stp cV ⟨4, 9, 11, .reg 8, 0xFFFD⟩),
      (0xA8A6144D88FFFD40, .qst cV ⟨4, 9, 11, .reg 8, 0xFFFD⟩),
      (0xA6A6144D88FFFD78, .ldacq cV .package ⟨7, .reg 9, 11, .reg 8, 0xFFFD⟩),
      (0xA7A6144D88FFFD78, .strel cV .package ⟨7, .reg 9, 11, .reg 8, 0xFFFD⟩),
      (0xA9A6144D887FFD77, .atom cV ⟨.cas, 7, .die, 1, .reg 9, 11, .reg 8, 0xFFD⟩),
      (0xAAA6144D887FFD77, .atoms cV ⟨.cas, 7, .die, 1, .reg 9, 11, .reg 8, 0xFFD⟩),
      (0xABA6144D885FFD77, .red cV ⟨.xor, 7, .die, 1, .reg 9, 11, .reg 8, 0xFFD⟩),
      (0xACA6144D885FFD77, .reds cV ⟨.xor, 7, .die, 1, .reg 9, 11, .reg 8, 0xFFD⟩),
      (0xA004004081000010, .ld ⟨0, 2, 0, 0, 0, 0⟩ ⟨1, .reg 8, 1, .reg 1, 0⟩)] : List (Nat × Instr)).all fun p => decodeTableWord 64 p.1 = some p.2 := by decide +kernel

/-- Tables 8-2, 8-4, 11-1 and 11-8: the instruction of each word. -/
theorem test_decode_access_2 :
    ([(0xAB0A003101200318, .red ⟨0, 5, 0, 0, 0, 0⟩ ⟨.max, 1, .package, 0, .reg 6, 2, .reg 1, 3⟩)] : List (Nat × Instr)).all fun p => decodeTableWord 64 p.1 = some p.2 := by decide +kernel

/-- Tables 8-2, 8-4, 11-1 and 11-8: the instruction of each word. -/
theorem test_decode_sync :
    ([(0xAFA6144D88FFFD00, .lapw cV (.reg 9) 11 (.reg 8) 0xFFFD),
      (0xB000001000000006, .fence ⟨0, 0, 0, 0, 0, 0⟩ .rel .die),
      (0xB1A6144D88FFFD01, .waita cV 1 (.reg 9) 11 (.reg 8) 0xFFFD),
      (0xB206001041460000, .cpy ⟨0, 3, 0, 0, 0, 0⟩ (.reg 10) (.reg 2) (.reg 4) (some 1)),
      (0xB3A0140588FFFD70, .pref cA 7 11 (.reg 8) 0xFFFD),
      (0xB404004980000000, .qpush ⟨0, 2, 0, 0, 0, 0⟩ 0 (.reg 9) 3 (.reg 0)),
      (0xB5A6144D88000001, .qpop cV 1 (.reg 9) 11 (.reg 8)),
      (0xB6A6144D80000000, .qstat cV (.reg 9) 11),
      (0xB706006900000000, .tlwait ⟨0, 3, 0, 0, 0, 0⟩ (.reg 13) 2),
      (0xB8A6144A80000000, .tlread cV (.reg 9) 5),
      (0xB9A6144A80000000, .tladv cV (.reg 9) 5),
      (0xBAA6144808000000, .chadv cV (.reg 9) (.reg 8))] : List (Nat × Instr)).all fun p => decodeTableWord 64 p.1 = some p.2 := by decide +kernel

/-- Tables 8-2, 8-4 and 12-1 and the worked encodings of chapter 12: the instruction of each word. -/
theorem test_decode_engine :
    ([(0xD006001051200001, .xbmv ⟨0, 3, 0, 0, 0, 0⟩ 1 9 2 (.reg 5) none),
      (0xD1A61440013A0002, .xbprog cV 2 (.reg 9) (.reg 8) (some 6)),
      (0xD2A6140001200002, .xbcal cV 2 (.reg 9) none),
      (0xD3A61400013A0016, .xbstat cV 2 .cals (.reg 9) (some 6)),
      (0xD4A6140001200002, .xbbind cV 2 (.reg 9) none),
      (0xD4A6140001200006, .xbbindRel cV 2 (.reg 9) none),
      (0xD508000000C00003, .accmov ⟨0, 4, 0, 0, 0, 0⟩ 3 6 (.reg 0) none),
      (0xD5A61400813A0033, .accmovIn cV 19 9 (.reg 8) (some 6)),
      (0xD6A61400001A0013, .acczero cV 19 (some 6)),
      (0xD70C0018018A0000, .nmcall ⟨0, 6, 0, 0, 0, 0⟩ (.reg 12) (.reg 3) (some 2))] : List (Nat × Instr)).all fun p => decodeTableWord 64 p.1 = some p.2 := by decide +kernel

/-- Tables 8-2, 8-4 and 18-3: the instruction of each word. -/
theorem test_decode_system :
    ([(0xF004004002800000, .sysrd ⟨0, 2, 0, 0, 0, 0⟩ 0x100 (.reg 5)),
      (0xF1A6144FC4800000, .syswr cV 0x13F (.reg 9)),
      (0xF200000001800000, .genup ⟨0, 0, 0, 0, 0, 0⟩ (.reg 3)),
      (0xF306000000000000, .resume ⟨0, 3, 0, 0, 0, 0⟩),
      (0xF3A6140000000001, .resumeEnd cV),
      (0xF4A6140000000000, .tret cV),
      (0xF50A000004000480, .ctxsave ⟨0, 5, 0, 0, 0, 0⟩ (.reg 9) (.reg 8)),
      (0xF6A6140004000480, .ctxload cV (.reg 9) (.reg 8)),
      (0xF708000003000385, .accspill ⟨0, 4, 0, 0, 0, 0⟩ (.reg 7) 5 (.reg 6)),
      (0xF8A614000300039E, .accfill cV (.reg 7) 30 (.reg 6))] : List (Nat × Instr)).all fun p => decodeTableWord 64 p.1 = some p.2 := by decide +kernel

/-! ## Ill-formed terms -/

/-- A result where none is delivered; a latch or NWB on variable latency; a flag above 11. -/
def cR : Common := ⟨0, 1, 0, 0, 0, 0⟩
def cN : Common := ⟨0, 1, 1, 0, 0, 0⟩
def cL : Common := ⟨0, 1, 0, 3, 0, 0⟩
def cX : Common := ⟨0, 13, 0, 0, 0, 0⟩
def cZ : Common := ⟨0, 0, 0, 0, 0, 0⟩

/-- Table 8-11, order 3: a term for each check on fields (R91, R93, R157, R203, R209, R219, Tables 9-1 to 11-6). -/
def badFields : List Instr :=
  let b := fun (ty : BitVec 4) (r : BitVec 2) (s : BitVec 1) => Bin.lane ty r s (.reg 4) (.reg 5) (.reg 6)
  let u := fun (ty : BitVec 4) (r : BitVec 2) (s : BitVec 1) => Un.lane ty r s (.reg 4) (.reg 5)
  let a := fun (op : AtomOp) (ty : BitVec 4) => (⟨op, ty, .die, 0, .reg 4, 2, .reg 5, 0⟩ : AtomArgs)
  [.nop cR, .nop cN, .nop cL, .br cR 0, .brc cZ 0 (.reg 1) 0, .brc cZ 8 (.reg 1) 0, .brc cZ 5 (.reg 8) 0, .mov cX 7 (.reg 1) (.reg 2),
   .clockPkg cN (.reg 1), .clockPkg cL (.reg 1), .msgsend cZ 9 (.reg 1) (.reg 2) (.reg 3), .fadd cX (b 1 0 0), .fadd cN (.plane 0 0 0 1 2 3),
   .fadd cL (.planeS 0 0 0 1 2 3), .fsub cZ (b 1 0 1), .fmul cZ (b 1 0 1), .fma cZ (.lane 1 0 1 (.reg 1) (.reg 2) (.reg 3) (.reg 4)), .fmin cZ (b 1 1 0),
   .fmax cZ (b 1 0 1), .fsgn cZ .abs (b 1 0 0), .fsgn cZ .neg (.plane 0 0 0 1 2 3), .fsgn cZ .copy (.planeS 0 0 0 1 2 3), .fsgn cZ .copy (b 1 1 0),
   .fcmp cN 0 1 0 (.reg 1) (.reg 2) (.reg 3), .icmp cL 0 7 0 (.reg 1) (.reg 2) (.reg 3), .fclass cZ (u 1 1 0), .frcp cZ (u 1 0 1), .fcvt cZ 0 7 (u 1 0 1),
   .fcvt cZ 1 0 (.plane 0 0 0 1 2), .iadd cZ (b 7 1 0), .imul cZ 1 (b 7 0 1), .imad cZ (.lane 7 1 0 (.reg 1) (.reg 2) (.reg 3) (.reg 4)), .iand cZ (b 7 0 1),
   .ibits cZ 0 (u 7 1 0), .select cX (.reg 1) (.reg 2) (.reg 3) (.reg 4), .move cZ (u 7 0 0), .fill cZ (u 7 1 0), .iaddi cX (.reg 1) (.reg 2) 0,
   .mand cN (.reg 1) (.reg 2) (.reg 3), .mtov cX 0 (.reg 1) (.reg 2), .nbr cZ 0 .zero (.reg 1) (.reg 2) (.reg 3) 1, .shift cZ 0 0 .zero 1 2 3 1,
   .rotPlane cN 0 0 0 1 2 1, .fold cZ 7 0 .add 1 0 1 2, .fold cZ 1 0 .add 0 1 1 2, .scan cZ 0 0 .max 1 0 1 2, .accept cZ 0 .plain 1 2 3 0,
   .accept cZ 0 .mask 1 2 3 8, .accept cZ 0 .flag 1 2 3 1, .bound cL 0 1 2 3, .zskip cN (.reg 1) (.reg 2) (.reg 3), .ld cN ⟨7, .reg 1, 2, .reg 3, 0⟩,
   .atom cZ (a .and 1), .red cZ (a .exch 7), .reds cZ (a .cas 7), .pref cR 7 2 (.reg 3) 0, .qpush cZ 0 (.reg 1) 0 (.reg 2), .qpop cZ 0 (.reg 1) 0 (.reg 2),
   .xbcal cN 0 (.reg 1) none, .sysrd cN 0 (.reg 1)]

theorem test_fields_refused : badFields.all (fun i => !i.fieldsOk && !i.wellFormed) = true := by decide +kernel

/-- Their words are refused, but for the one whose field the plane encoding does not hold. -/
theorem test_fields_not_decoded : (badFields.filter fun i => i ≠ .fcvt cZ 1 0 (.plane 0 0 0 1 2)).all (fun i => decodeTableWord 64 (encode i).toNat = none) = true := by decide +kernel

/-- A header of class 5 (Table 8-1). -/
theorem test_header_refused : (Instr.clauseIssue ⟨5, 0, 0, 0, 0, 0⟩).wellFormed = false ∧ decodeTableWord 64 (encode (.clauseIssue ⟨5, 0, 0, 0, 0, 0⟩)).toNat = none := by
  decide +kernel

/-- Table 8-11, order 6, Table 8-3: a term for each position a selector may not name. -/
def badSels : List Instr :=
  let b := fun (d x y : Sel) => Bin.lane 1 0 0 d x y
  let m := fun (d x : Sel) => (⟨7, d, 2, x, 0⟩ : MemArgs)
  let a := fun (d x : Sel) => (⟨.add, 7, .die, 0, d, 2, x, 0⟩ : AtomArgs)
  [.mov cZ 7 (.bl 1) (.reg 2), .mov cZ 7 (.reg 1) (.reg 32), .movGetst cZ (.reg 32), .movSetst cZ (.bad 68), .movhi cZ (.reg 1) (.reg 40) 0, .add cZ 7 (.reg 1) (.reg 2) (.reg 63),
   .sel cZ (.reg 1) (.reg 2) (.reg 3) (.reg 40), .lea cZ 0 (.reg 1) 0 (.reg 40), .brc cZ 1 (.reg 40) 0, .loop cZ (.bl 0) 0, .fadd cZ (b (.bl 0) (.reg 1) (.reg 2)),
   .fadd cZ (b (.reg 1) (.bad 100) (.reg 2)), .fma cZ (.lane 1 0 0 (.reg 1) (.reg 2) (.reg 3) (.bad 127)), .frcp cZ (.lane 1 0 0 (.bl 1) (.reg 2)),
   .fill cZ (.lane 7 0 0 (.reg 1) (.reg 32)), .fcmp cZ 0 1 0 (.reg 8) (.reg 2) (.reg 3), .select cZ (.reg 1) (.reg 2) (.reg 3) (.reg 8), .iaddi cZ (.bl 3) (.reg 1) 0,
   .mand cZ (.reg 1) (.reg 8) (.reg 2), .mnot cZ (.bl 0) (.reg 1), .mfrom cZ (.reg 8) (.reg 1), .mtov cZ 0 (.reg 1) (.reg 8), .mred cZ .any (.reg 32) (.reg 1),
   .nbr cZ 0 .const (.reg 1) (.reg 2) (.reg 32) 1, .laneidx cZ .whole (.bl 0), .zskip cZ (.reg 1) (.bl 0) (.reg 2), .ld cZ (m (.bl 0) (.reg 1)), .st cZ (m (.bad 70) (.reg 1)),
   .lds cZ (m (.reg 32) (.reg 1)), .sts cZ (m (.reg 1) (.reg 32)), .ldp cZ ⟨1, 1, 2, .reg 32, 0⟩, .atom cZ (a (.bl 0) (.reg 1)), .atoms cZ (a (.reg 32) (.reg 1)),
   .red cZ (a (.bad 70) (.reg 1)), .reds cZ (a (.reg 1) (.reg 40)), .lapw cZ (.reg 32) 2 (.reg 1) 0, .waita cZ 0 (.bl 0) 2 (.reg 1) 0, .cpy cZ (.bl 0) (.reg 1) (.reg 2) none,
   .pref cZ 7 2 (.bad 70) 0, .qpush cZ 1 (.reg 1) 0 (.bl 0), .qpop cZ 0 (.reg 32) 0 (.reg 0), .qstat cZ (.reg 32) 0, .tlwait cZ (.reg 32) 0,
   .chadv cZ (.reg 1) (.reg 32), .xbmv cZ 0 1 2 (.reg 32) none, .xbprog cZ 0 (.bl 0) (.reg 1) none, .xbcal cZ 0 (.reg 32) none, .nmcall cZ (.bl 0) (.reg 1) none, .sysrd cZ 0 (.reg 32),
   .syswr cZ 0 (.reg 32), .genup cZ (.bl 0), .ctxsave cZ (.reg 32) (.reg 1), .accspill cZ (.reg 1) 0 (.reg 32)]

theorem test_selectors_refused : badSels.all (fun i => i.fieldsOk && !i.selsOk && !i.wellFormed) = true := by decide +kernel

/-- Their words are refused by the decoder. -/
theorem test_selectors_not_decoded : badSels.all (fun i => decodeTableWord 64 (encode i).toNat = none) = true := by decide +kernel

/-! ## A small machine -/

/-- No predicate, no flag; and the same with flag 1. -/
def c0 : Common := ⟨0, 0, 0, 0, 0, 0⟩
def c2 : Common := ⟨0, 2, 0, 0, 0, 0⟩

/-- A plane descriptor: base word, height, width, type, depth (Table 3-2). -/
def desc (base h w ty d : Nat) : Word := BitVec.ofNat 64 (base + (h - 1) * 2 ^ 8 + (w - 1) * 2 ^ 20 + ty * 2 ^ 32 + (d - 1) * 2 ^ 38)

/-- A clause of class 0 with four words. -/
def clause0 : Clause := { at_ := 0, hdr := ⟨0, 3, 0, 0, 0, 0⟩, idx := 0, yielded := false }

/-- A strand of level K in core 0, slot 0, with a window of one lane. -/
def strand0 : Strand :=
  { Strand.empty with
    level := 1, fpCount := 64, entryKey := some 0,
    s := [(5, 7), (6, 3), (7, 64)], m := [(1, 1)],
    pd := [(1, desc 16 1 1 1 1), (2, desc 17 1 1 1 1), (3, desc 18 1 1 7 1), (4, desc 19 1 1 7 1), (5, desc 20 1 1 13 1), (6, desc 21 1 1 10 1)],
    splits := [{ Split.none_ with mask := 1, pc := 1, clause := some clause0 }] }

/-- Overlay 0 of core 0: a header and seven NOP words. -/
def overlay0 : Overlay :=
  { core := 0, part := 0, idx := 0, routine := false, granules := 1, hash := 0, kbit := true,
    code := [Header.toWord ⟨0, 3, 0, 0, 0, 0⟩, 0, 0, 0, 0, 0, 0, 0], slots := [0], lastCall := 0, stale := false }

/-- A machine with one strand. -/
def machine (st : Strand) : State := { State.reset with strands := [(0, st)], overlays := [overlay0] }

/-- A word of any common part below acts in a machine whose strand's split has lane 0 and uses no flag. -/
theorem acts_of (s : State) (h : mapGet s.strands s.cur.1 = some (s.ctx c0).st ∧ (∀ x ∈ s.saved, x.key ≠ s.cur.1) ∧ (s.ctx c0).act ≠ 0) : Acts s c0 where
  slot := h.1
  here := h.2.1
  act := h.2.2
  room _ e := by simp [c0, setfFlag] at e

/-- One that names flag 1 acts where the flag can count it. -/
theorem acts2_of (s : State) (h : mapGet s.strands s.cur.1 = some (s.ctx c2).st ∧ (∀ x ∈ s.saved, x.key ≠ s.cur.1) ∧ (s.ctx c2).act ≠ 0 ∧ (s.ctx c2).st.flag 1 < 8) :
    Acts s c2 where
  slot := h.1
  here := h.2.1
  act := h.2.2.1
  room f e := .inl (by
    have : f = 1 := by simpa [c2, setfFlag] using e.symm
    subst this; exact h.2.2.2)

/-- A word without a flag acts. -/
theorem acts0 : Acts (machine strand0) c0 := acts_of _ (by decide +kernel)

/-- A word that names flag 1 acts. -/
theorem acts2 : Acts (machine strand0) c2 := acts2_of _ (by decide +kernel)

/-! ## Witnesses: the hypotheses of each statement hold together -/

/-- Scalar words for `ScalarResult`. -/
def scalarWords (c : Common) : List Instr :=
  [.mov c 7 (.reg 9) (.reg 5), .movGetst c (.reg 9), .movi c (.reg 9) 5, .movhi c (.reg 9) (.reg 5) 5, .add c 7 (.reg 9) (.reg 5) (.reg 6),
   .addi c (.reg 9) (.reg 5) 1, .sub c 7 (.reg 9) (.reg 5) (.reg 6), .mul c 7 1 (.reg 9) (.reg 5) (.reg 6), .div c 7 (.reg 9) (.reg 5) (.reg 0),
   .rem c 7 (.reg 9) (.reg 5) (.reg 6), .and c 7 (.reg 9) (.reg 5) (.reg 6), .or c 7 (.reg 9) (.reg 5) (.reg 6), .xor c 7 (.reg 9) (.reg 5) (.reg 6),
   .andi c (.reg 9) (.reg 5) 1, .ori c (.reg 9) (.reg 5) 1, .xori c (.reg 9) (.reg 5) 1, .shl c 7 (.reg 9) (.reg 5) (.reg 6),
   .shr c 7 (.reg 9) (.reg 5) (.reg 6), .shli c (.reg 9) (.reg 5) 63, .shri c 1 (.reg 9) (.reg 5) 63, .rot c 7 1 (.reg 9) (.reg 5) (.reg 6),
   .clz c 7 (.reg 9) (.reg 0), .popc c 7 (.reg 9) (.reg 5), .cmp c 7 2 (.reg 9) (.reg 5) (.reg 6), .sel c (.reg 9) (.reg 5) (.reg 6) (.reg 0),
   .min c 7 (.reg 9) (.reg 5) (.reg 6), .max c 7 (.reg 9) (.reg 5) (.reg 6), .extr c 11 (.reg 9) (.reg 5) 0 63, .ins c (.reg 9) (.reg 5) 60 3,
   .lea c 3 (.reg 9) 0 (.reg 5), .seglim c .lim (.reg 9) 0, .seglim c .base (.reg 9) 0, .seglim c .attr (.reg 9) 0, .seglim c .win (.reg 9) 0,
   .lparam c (.reg 9) 504, .getid c (.reg 9) 0, .getid c (.reg 9) 7, .mov c 11 (.reg 0) (.reg 5)]

theorem wit_scalar_result : Acts (machine strand0) c0 ∧
    (scalarWords c0).all (fun i => (scalarRule i (machine strand0) strand0).any fun r => r.1 = c0) = true := ⟨acts0, by decide +kernel⟩

theorem wit_scalar_result_flag : Acts (machine strand0) c2 ∧
    (scalarWords c2).all (fun i => (scalarRule i (machine strand0) strand0).any fun r => r.1 = c2) = true := ⟨acts2, by decide +kernel⟩

/-- A strand that has called overlay 0 across overlays and pinned it; s8 and s9 hold links, s10 holds 1. -/
def strandCalled : Strand := { strand0 with s := [(8, link true 0 2), (9, link false 0 2), (10, 1)], callKeys := [(0, 1)], pins := [(0, 1)] }

theorem wit_control_transfers : Acts (machine strandCalled) c0 ∧
    ([.nop c0, .yield c0, .br c0 1, .br c0 0x7FFFFFFF, .brc c0 1 (.reg 0) 1, .brc c0 2 (.reg 0) 1, .brc c0 3 (.reg 0) 1,
      .brc c0 4 (.reg 0) 1, .brc c0 5 (.reg 1) 1, .brc c0 6 (.reg 0) 1, .brc c0 7 (.reg 1) 1, .loop c0 (.reg 10) 1, .loop c0 (.reg 11) 1,
      .call c0 6, .ret c0 (.reg 8), .ret c0 (.reg 9), .callo c0 0 7, .ovlpin c0 0, .ovlunpin c0 0] : List Instr).all
      (fun i => (controlRule i (machine strandCalled) strandCalled (strandCalled.splitOf 0)).any fun r => r.1 = c0) = true :=
  ⟨acts_of _ (by decide +kernel), by decide +kernel⟩

/-- SPLIT of one lane: the group of its mask bits, and the group of inactive lanes. -/
theorem wit_split_divides : Acts (machine strand0) c0 ∧
    let x := (machine strand0).ctx c0
    numbered x.st.splits ∧ x.sp ∈ x.st.splits ∧
      x.st.splits.length - 1 + (liveGroups x.sp.mask x.act (x.st.mreg 1) (x.st.mreg 2)).length ≤ 4 :=
  ⟨acts0, by unfold numbered; decide +kernel⟩

/-- Two siblings of one SPLIT, the second at a MERGE or not. -/
def strandPair (run : Run) : Strand :=
  { strand0 with
    splits := [{ Split.none_ with mask := 1, pc := 2, clause := some clause0, origin := [1] },
               { Split.none_ with num := 1, mask := 2, pc := 2, clause := some clause0, origin := [1], run := run }] }

theorem wit_merges_alone : Acts (machine strand0) c0 ∧ ((machine strand0).ctx c0).sp.origin = [] := ⟨acts0, by decide +kernel⟩
theorem wit_merges_waits : Acts (machine (strandPair .ready)) c0 ∧
    let x := (machine (strandPair .ready)).ctx c0
    x.sp.origin ≠ [] ∧ (∀ y ∈ x.st.splits, y.num ≠ x.sp.num → (match y.run with | .merge .. => false | _ => true) = true) ∧
      (∃ y ∈ x.st.splits, y.num ≠ x.sp.num ∧ y.origin = x.sp.origin) :=
  ⟨acts_of _ (by decide +kernel), by decide +kernel⟩
theorem wit_merges_unites : Acts (machine (strandPair (.merge 0 2))) c0 ∧
    let x := (machine (strandPair (.merge 0 2))).ctx c0
    ∃ y ∈ x.st.splits, x.st.splits = (if y.num < x.sp.num then [y, x.sp] else [x.sp, y]) ∧ y.num ≠ x.sp.num ∧ x.sp.origin ≠ [] ∧
      y.origin = x.sp.origin ∧ y.run = .merge x.sp.ovl x.sp.pc :=
  ⟨acts_of _ (by decide +kernel), by decide +kernel⟩

theorem wit_exit_one_of_two : Acts (machine (strandPair .ready)) c0 ∧
    let x := (machine (strandPair .ready)).ctx c0
    x.st.gang = none ∧ 1 < x.st.splits.length ∧ ∀ y ∈ x.st.splits, (match y.run with | .merge .. => false | _ => true) = true :=
  ⟨acts_of _ (by decide +kernel), by decide +kernel⟩

/-- A launch of two strands. -/
def launch0 : Launch :=
  { ident := 0, part := 0, chain := 0, asid := 0, recAddr := 0, rec_ := [], level := 1, prio := 0, mask := 0, count := 2, placed := 2, retired := 0,
    ended := false, ext := 0, idempotent := false, record := false, coresident := false, start := [], params := [], asids := [], spawnDeps := [], payload := [],
    message := false, dep := [], waitSince := none, failedAt := none, wdog := 0, again := [], segs := [], withhold := false, replay := false }

/-- What it takes to retire, as one fact. -/
theorem retires_of (s : State) (k : Nat) (st : Strand) (l : Launch)
    (h : mapGet s.strands k = some st ∧ st.gang = none ∧ (∀ o ∈ s.ops, o.owner ≠ k) ∧ (∀ e ∈ s.xbars, e.2.bound ≠ some k) ∧
      State.remains { s with strands := mapDel s.strands k } st = none ∧ (∀ q ∈ st.handler, q.tret = false) ∧ mapGet s.launches st.launch = some l ∧
      l.retired + 1 < l.count) : Retires s k st l :=
  have ⟨slot, gang, ops, arrays, gone, handler, launch, more⟩ := h
  { slot, gang, ops, arrays, gone, handler, launch, more }

theorem wit_exit_last : Acts { machine strand0 with launches := [(0, launch0)] } c0 ∧
    let s := { machine strand0 with launches := [(0, launch0)] }
    let x := s.ctx c0
    Retires s s.cur.1 x.st launch0 ∧ x.st.splits = [x.sp] ∧ ∀ f < 12, x.st.flag f = 0 :=
  ⟨acts_of _ (by decide +kernel), retires_of _ _ _ _ (by decide +kernel), by decide +kernel⟩

/-! ### Class 0 of variable latency -/

/-- s11 is 64: the address of a spawn record of zeros. -/
def strandGang (g : Option Nat) : Strand := { strand0 with gang := g, s := [(5, 7), (11, 64)] }

theorem wit_scalar_issues : Acts (machine (strandGang (some 1))) c2 ∧
    ([.clockCore c2 (.reg 9), .clockPkg c2 (.reg 9), .wintr c2 0, .ovld c2 (.reg 9) 0, .ovlq c2 (.reg 9) 0, .ginfo c2 (.reg 9), .leave c2] :
      List Instr).all (fun i => (issueRule0 i (machine (strandGang (some 1))) (strandGang (some 1))).any fun r => r.1 = c2) = true ∧
    ([.join c2 (.reg 5), .gbar c2, .leave c2] : List Instr).all
      (fun i => (issueRule0 i (machine (strandGang none)) (strandGang none)).any fun r => r.1 = c2) = true :=
  ⟨acts2_of _ (by decide +kernel), by decide +kernel, by decide +kernel⟩

/-! ### Results held by operations -/

/-- Operation 1 of the strand of slot 0. -/
def op1 (kind : OpKind) : Op :=
  { id := 1, owner := 0, split := 0, ovl := 0, pc := 1, clause := some clause0, flag := 2, tl := none, issued := 0, prior := [], dep := [], fences := [], leader := 0,
    parked := false, tags := [], killed := false, kind := kind }

/-- A strand with flag 1 in use, and its machine with operation 1 outstanding. -/
def strandOp : Strand := { strand0 with cf := [(1, 1)] }
def withOp (s : State) (kind : OpKind) : State := { s with ops := [op1 kind], nextOp := 2 }

theorem outstanding_of (s : State) (o : Op) (st : Strand)
    (h : s.op? o.id = some o ∧ (o.parked || o.killed) = false ∧ keysRise s.strands = true ∧ mapGet s.strands o.owner = some st ∧
      mapGet s.ghosts o.owner = none ∧ s.saved = [] ∧ o.owner < 2 ^ 20 ∧ ∃ sp ∈ st.splits, sp.run ≠ .exiting) : Outstanding s o st :=
  have ⟨op, on, slots, slot, alone, saved, near, live⟩ := h
  have on := Bool.or_eq_false_iff.mp on
  { op, slots, slot, alone, near, live, active := on.1, spared := on.2, here := fun x hx => nomatch saved ▸ hx }

/-- The operation is outstanding in a machine of one strand. -/
theorem outstanding_op1 (kind : OpKind) : Outstanding (withOp (machine strandOp) kind) (op1 kind) strandOp :=
  outstanding_of _ _ _ ⟨rfl, rfl, rfl, rfl, rfl, rfl, Nat.zero_lt_succ _, _, List.mem_cons_self .., by decide⟩

theorem unlogged0 (kind : OpKind) : Unlogged (withOp (machine strandOp) kind) strandOp.launch := (fun _ h => nomatch h)

theorem wit_held_results (kind : OpKind) : Outstanding (withOp (machine strandOp) kind) (op1 kind) strandOp ∧ (op1 kind).tl = none ∧
    Unlogged (withOp (machine strandOp) kind) strandOp.launch := ⟨outstanding_op1 kind, rfl, unlogged0 kind⟩

theorem wit_held_scalar_results :
    ([.clock 9 5, .wintr 0, .ovlq 0 9, .results false [.s 9 5] none, .results false [] none, .gbar none 0 [] false] : List OpKind).all
      (fun k => (resultRule0 (withOp (machine strandOp) k) (op1 k) strandOp).isSome) = true := by decide +kernel

theorem wit_held_plane_results :
    let k := OpKind.results true [.lane 16 0xFFFFFFFF#32 5] none
    Outstanding (withOp (machine strandOp) k) (op1 k) strandOp ∧ (op1 k).tl = none ∧ networkBusy (withOp (machine strandOp) k) (op1 k) = false :=
  ⟨outstanding_op1 _, rfl, by decide +kernel⟩

/-! ### Lane, mask and plane forms -/

/-- Lane forms of a common part. -/
def laneWords : List Instr :=
  let b := fun (ty : BitVec 4) => Bin.lane ty 0 0 (.reg 4) (.reg 5) (.reg 6)
  let u := fun (ty : BitVec 4) => Un.lane ty 0 0 (.reg 4) (.reg 5)
  [.fadd c0 (b 1), .fsub c0 (b 2), .fmul c0 (b 3), .fma c0 (.lane 1 1 0 (.reg 4) (.reg 5) (.reg 6) (.reg 7)), .fmin c0 (b 1), .fmax c0 (b 1),
   .fsgn c0 .abs (.lane 1 0 0 (.reg 4) (.reg 5) (.reg 0)), .fsgn c0 .neg (.lane 1 0 0 (.reg 4) (.reg 5) (.reg 0)), .fsgn c0 .copy (b 1),
   .fclass c0 (u 1), .frcp c0 (u 1), .frsq c0 (u 1), .fsqrt c0 (u 1), .fexp2 c0 (u 1), .flog2 c0 (u 1), .fcvt c0 1 1 (u 2), .frint c0 (u 1),
   .iadd c0 (b 7), .isub c0 (b 5), .imul c0 1 (b 9), .imad c0 (.lane 7 0 1 (.reg 4) (.reg 5) (.reg 6) (.reg 7)), .imin c0 (b 6), .imax c0 (b 8),
   .iand c0 (b 10), .ior c0 (b 10), .ixor c0 (b 10), .ishl c0 (b 5), .ishr c0 (b 5), .ibits c0 1 (u 7), .ibits c0 0 (u 7),
   .select c0 (.reg 4) (.reg 5) (.reg 6) (.reg 1), .move c0 (u 0), .fill c0 (u 7), .iaddi c0 (.reg 4) (.reg 5) 1, .fmuli c0 (.reg 4) (.reg 5) 1,
   .faddi c0 (.reg 4) (.reg 5) 1, .mtov c0 1 (.reg 4) (.reg 1), .laneidx c0 .row (.reg 4), .nbr c0 1 .wrap (.reg 4) (.reg 5) (.reg 0) 1]

theorem wit_lane_result : Acts (machine strand0) c0 ∧ (machine strand0).lanesBad = [] ∧
    laneWords.all (fun i => (laneRule i (machine strand0) strand0).any fun r => r.c = c0) = true := ⟨acts0, rfl, by decide +kernel⟩

theorem wit_mask_result : Acts (machine strand0) c0 ∧ (machine strand0).lanesBad = [] ∧
    ([.mand c0 (.reg 2) (.reg 1) (.reg 0), .mor c0 (.reg 2) (.reg 1) (.reg 0), .mxor c0 (.reg 2) (.reg 1) (.reg 0), .mnot c0 (.reg 2) (.reg 1),
      .mlead c0 (.reg 2) (.reg 1), .mfrom c0 (.reg 2) (.reg 5), .fcmp c0 1 1 0 (.reg 2) (.reg 5) (.reg 6), .icmp c0 1 5 3 (.reg 2) (.reg 5) (.reg 6)] :
      List Instr).all (fun i => i.common? = some c0 && (maskRule i (machine strand0) ((machine strand0).ctx c0)).isSome) = true :=
  ⟨acts0, rfl, by decide +kernel⟩

theorem wit_register_result : Acts (machine strand0) c0 ∧
    ([.mred c0 .any (.reg 9) (.reg 1), .mred c0 .all (.reg 9) (.reg 1), .mred c0 .count (.reg 9) (.reg 1), .mred c0 .first (.reg 9) (.reg 1),
      .pdset c0 7 5, .pdget c0 0 9 1, .pdget c0 1 9 1, .winset c0 0] : List Instr).all
      (fun i => (registerRule i ((machine strand0).ctx c0)).any fun r => r.1 = c0) = true := ⟨acts0, by decide +kernel⟩

/-- Plane forms of fixed latency, on planes of one element; p5 is bounded. -/
def planeWords : List Instr :=
  let b := fun (d a : BitVec 4) => Bin.plane 0 0 0 d a a
  let u := fun (d a : BitVec 4) => Un.plane 0 0 0 d a
  [.fadd c0 (b 1 2), .fsub c0 (b 1 2), .fmul c0 (b 1 2), .fmul c0 (.planeS 0 0 0 1 2 5), .fma c0 (.plane 0 0 0 1 2 1 2), .fmin c0 (b 1 2), .fmax c0 (b 1 2),
   .fsgn c0 .neg (.plane 0 0 0 1 2 0), .fsgn c0 .copy (b 1 2), .fclass c0 (u 6 1), .fcvt c0 0 0 (u 3 1), .frint c0 (u 1 2), .iadd c0 (b 3 4), .isub c0 (b 3 4),
   .imul c0 0 (b 3 4), .imad c0 (.plane 0 0 0 3 4 3 4), .imin c0 (b 3 4), .imax c0 (b 3 4), .iand c0 (b 3 4), .ior c0 (b 3 4), .ixor c0 (b 3 4), .ishl c0 (b 3 4),
   .ishr c0 (b 3 4), .ibits c0 1 (u 3 4), .move c0 (u 1 2), .fill c0 (.plane 0 0 0 3 5), .fsqrt c0 (u 1 2), .fadd c0 (b 5 5), .move c0 (u 5 5),
   .shift c0 0 1 .clamp 1 2 0 1, .rotPlane c0 0 1 0 1 2 1, .spread c0 0 1 1 2, .refold c0 0 1 2, .transp c0 0 1 2, .fold c0 0 1 .add 0 0 1 2,
   .scan c0 0 1 .max 0 0 1 2]

theorem wit_plane_result : Acts (machine strand0) c0 ∧ (machine strand0).lanesBad = [] ∧
    planeWords.all (fun i => i.common? = some c0 && (planeRule i (machine strand0) ((machine strand0).ctx c0)).any fun r => r.lat.isSome) = true :=
  ⟨acts0, rfl, by decide +kernel⟩

/-- Planes of two elements in the one lane, the second of two planes of depth 1. -/
def strandWide : Strand := { strand0 with pd := [(1, desc 16 1 2 1 1), (2, desc 18 1 2 1 1), (3, desc 20 1 2 7 1), (5, desc 24 1 1 13 1), (6, desc 25 1 1 1 1)] }

theorem wit_plane_issues : Acts (machine strandWide) c2 ∧ (machine strandWide).lanesBad = [] ∧
    ([.frcp c2 (.plane 0 0 0 1 2), .frsq c2 (.plane 0 0 0 1 2), .fexp2 c2 (.plane 0 0 0 1 2), .flog2 c2 (.plane 0 0 0 1 2),
      .shift c2 0 1 .zero 1 2 0 1, .rotPlane c2 0 0 0 1 2 1, .refold c2 0 1 2, .scan c2 0 0 .add 0 0 1 2, .index c2 0 .whole 3 5,
      .accept c2 0 .plain 6 5 0 0, .accept c2 0 .mask 6 5 0 2, .bound c2 0 5 6 0] : List Instr).all
      (fun i => i.common? = some c2 && (planeRule i (machine strandWide) ((machine strandWide).ctx c2)).any fun r => r.lat.isNone) = true :=
  ⟨acts2_of _ (by decide +kernel), rfl, by decide +kernel⟩

/-- A row of 16 f32 elements, its codes and its block scales. -/
def strandQuant : Strand := { strand0 with pd := [(1, desc 16 1 16 1 1), (2, desc 32 1 16 4 1), (3, desc 40 1 1 8 1)] }

theorem wit_quant_issues : Acts (machine strandQuant) c0 ∧ (machine strandQuant).lanesBad = [] ∧
    let st := strandQuant
    let g := planeOf st 2
    let a := planeOf st 1
    let b := planeOf st 3
    planeOk st (st.pdreg 2) = true ∧ planeOk st (st.pdreg 1) = true ∧ planeOk st (st.pdreg 3) = true ∧
    isFloat a.ty = true ∧ g.ty = 4 ∧ b.ty = 8 ∧ tyField 0 g = true ∧ a.W % 16 = 0 ∧ b.W * 16 = a.W ∧ b.H = a.H ∧ sameShape g a = true ∧
    sameFold a g = true ∧ sameFold b a = true ∧ sameDepth g a = true ∧ sameDepth b a = true :=
  ⟨acts_of _ (by decide +kernel), rfl, by decide +kernel⟩

/-! ### Memory words -/

/-- A page of the strand's space: virtual page, class, frame, format, geometry. -/
def page (vpage cls frame fmt geom : Nat) : Tlb :=
  { core := 0, part := 0, asid := 0, gen := 0, gen2 := 0, vpage := vpage, gpage := vpage, frame := frame, cls := cls, fmt := fmt, geom := geom,
    key := 0, rights := 127 }

/-- Segment 2 spans pages 8 to 10; segment 3 the codes page 9, segment 4 the swept page 10. s12 is an address in page 8; planes 7 and 8 hold codes and a scale. -/
def strandMem : Strand :=
  { strand0 with
    s := [(5, 7), (12, 65536), (13, 16)],
    pd := strand0.pd ++ [(7, desc 24 1 16 4 1), (8, desc 32 1 1 8 1)],
    g := [(2, { base := 65536, limit := 24576, attr := 0x1800, win := none }), (3, { base := 73728, limit := 8192, attr := 0x1800, win := none }),
          (4, { base := 81920, limit := 8192, attr := 0x1800, win := none })] }

/-- Pages 8 (plain), 9 (4-bit codes in blocks of 16) and 10 (swept, in region 1), and queue 0 of cluster 0. -/
def memory (st : Strand) : State :=
  { machine st with
    tlb := [page 8 0 100 0 0, page 9 0 101 4 1, page 10 1 8192 0 0],
    parts := [(0, { Part.blank with enabled := true, regions := [(1, { Region.blank with active := true, base := 0x4000000, len := 8192, mask := 0xFFFF })] })],
    queues := [(0, { Queue.empty with w0 := 1, w1 := 2 })] }

theorem actsMem : Acts (memory strandMem) c0 := acts_of _ (by decide +kernel)
theorem unfencedMem : Unfenced (memory strandMem) ((memory strandMem).ctx c0).sp := (fun _ h => nomatch h)

/-- Spawn records are read from page 8. -/
theorem wit_scalar_issues_records : Acts (memory strandMem) c0 ∧
    ([.spawn c0 (.reg 9) (.reg 12) (.reg 5), .msgsend c0 2 (.reg 9) (.reg 12) (.reg 5)] : List Instr).all
      (fun i => (issueRule0 i (memory strandMem) strandMem).any fun r => r.1 = c0) = true := ⟨actsMem, by decide +kernel⟩

/-- All accesses of a list that pass. -/
def allOk {ε α : Type} : List (Except ε α) → Option (List α)
  | [] => some []
  | .ok a :: r => (allOk r).map (a :: ·)
  | .error _ :: _ => none

theorem allOk_spec {ε α : Type} (l : List (Except ε α)) (v : List α) (h : allOk l = some v) : l = v.map .ok := by
  induction l generalizing v with
  | nil => simp [allOk] at h; simp [h]
  | cons a r ih =>
    cases a with
    | error e => simp [allOk] at h
    | ok a =>
      simp only [allOk, Option.map_eq_some_iff] at h
      obtain ⟨w, hw, rfl⟩ := h
      simp [ih w hw]

/-- The accesses of a word that all pass, with its check on them. -/
def formed (s : State) (r : AccessOut) : Option (List (LaneReq × Option Tlb)) :=
  match allOk (r.accs.map (access s (s.ctx c0).st r.seg r.ty r.size r.kind)) with
  | some rs => if r.ok (rs.map (·.1)) = true then some rs else none
  | none => none

/-- The word's own checks and its accesses pass. -/
def passes (s : State) (i : Instr) : Bool :=
  i.common? = some c0 && (s.ctx c0).sp.replay.isNone && (accessRule i s (s.ctx c0)).any fun r => (formed s r).isSome

theorem passes_spec (s : State) (i : Instr) (h : passes s i = true) : i.common? = some c0 ∧ (s.ctx c0).sp.replay = none ∧ ∃ (r : AccessOut) (rs : List (LaneReq × Option Tlb)),
    accessRule i s (s.ctx c0) = some r ∧ r.accs.map (access s (s.ctx c0).st r.seg r.ty r.size r.kind) = rs.map .ok ∧ r.ok (rs.map (·.1)) = true := by
  simp only [passes, Bool.and_eq_true, decide_eq_true_eq, Option.isNone_iff_eq_none, Option.any_eq_true, Option.isSome_iff_exists] at h
  obtain ⟨⟨hc, hr⟩, r, h1, rs, h2⟩ := h
  refine ⟨hc, hr, r, rs, h1, ?_⟩
  unfold formed at h2
  split at h2
  · rename_i v hv
    split at h2
    · cases h2; exact ⟨allOk_spec _ _ hv, ‹_›⟩
    · cases h2
  · cases h2

def memArgs (ty : BitVec 4) (d : BitVec 6) (seg : BitVec 4) (x : BitVec 6) : MemArgs := ⟨ty, .reg d, seg, .reg x, 0⟩
def atomArgs (op : AtomOp) (ord : BitVec 1) (d x : BitVec 6) : AtomArgs := ⟨op, 10, .die, ord, .reg d, 2, .reg x, 0⟩

/-- Words that form addresses. -/
def accessWords : List Instr :=
  [.ld c0 (memArgs 7 4 2 8), .st c0 (memArgs 7 4 2 8), .lds c0 (memArgs 12 9 2 1), .sts c0 (memArgs 12 5 2 1), .ldacq c0 .die (memArgs 12 9 2 1),
   .strel c0 .package (memArgs 12 5 2 1), .ldx c0 (memArgs 10 4 4 8), .ldp c0 ⟨1, 1, 2, .reg 1, 0⟩, .stp c0 ⟨1, 1, 2, .reg 1, 0⟩,
   .atom c0 (atomArgs .add 1 4 8), .atom c0 (atomArgs .cas 0 4 8), .atoms c0 (atomArgs .exch 0 9 1), .red c0 (atomArgs .max 1 4 8), .reds c0 (atomArgs .add 0 5 1),
   .lapw c0 (.reg 5) 4 (.reg 1) 0, .waita c0 0 (.reg 9) 2 (.reg 1) 0, .waita c0 1 (.reg 9) 2 (.reg 1) 0, .qst c0 ⟨4, 7, 3, .reg 1, 0⟩]

theorem wit_access_issues : Acts (memory strandMem) c0 ∧ Unfenced (memory strandMem) ((memory strandMem).ctx c0).sp ∧ (memory strandMem).lanesBad = [] ∧
    accessWords.all (passes (memory strandMem)) = true := ⟨actsMem, unfencedMem, rfl, by decide +kernel⟩

theorem wit_word_passes : mapGet (machine { strand0 with m := [] }).strands 0 = some { strand0 with m := [] } ∧
    ((machine { strand0 with m := [] }).ctx ⟨0, 0, 0, 0, 1, 0⟩).act = 0 ∧
    Acts (machine strand0) c0 ∧ Unfenced (machine strand0) ((machine strand0).ctx c0).sp ∧ strand0.laneOk (.reg 8) = true :=
  ⟨by decide +kernel, by decide +kernel, acts0, (fun _ h => nomatch h), by decide +kernel⟩

theorem wit_sync_issues : Acts (memory strandMem) c0 ∧ Unfenced (memory strandMem) ((memory strandMem).ctx c0).sp ∧ (memory strandMem).lanesBad = [] ∧
    ([.fence c0 .acq .die, .qpush c0 0 (.reg 5) 0 (.reg 0), .qpush c0 1 (.reg 5) 0 (.reg 9), .qpop c0 0 (.reg 9) 0 (.reg 0), .qstat c0 (.reg 9) 0,
      .tlwait c0 (.reg 5) 7, .tlread c0 (.reg 9) 0, .tladv c0 (.reg 9) 0, .chadv c0 (.reg 0) (.reg 12), .matchAddr c0 (memArgs 7 4 2 8),
      .cpy c0 (.reg 4) (.reg 6) (.reg 8) (some 1)] : List Instr).all
      (fun i => (issueRule2 i (memory strandMem) ((memory strandMem).ctx c0)).any fun r => r.1 = c0) = true :=
  ⟨actsMem, unfencedMem, rfl, by decide +kernel⟩

/-! ### Memory operations that perform -/

/-- One lane's access of four bytes at the start of page 8. -/
def req0 : LaneReq := { LaneReq.blank with lane := 0, va := 65536, pa := 819200, bytes := 4, data := 5, dst := 16 }
def memOp0 (kind : MemKind) : MemOp :=
  { kind := kind, ty := 10, scalar := false, plane := false, status := 0, pinned := false, gate := false, fails := [], acq := false, rel := false, scope := 0, reqs := [req0] }
def memoryOp0 (kind : MemKind) : State := withOp { memory strandOp with mem := [(819200, 9)] } (.mem (memOp0 kind))

theorem outstanding_mem (s : State) (kind : OpKind) (h : s.strands = [(0, strandOp)]) (hg : mapGet s.ghosts 0 = none) (hv : s.saved = []) :
    Outstanding (withOp s kind) (op1 kind) strandOp :=
  outstanding_of _ _ _ ⟨rfl, rfl, by show keysRise s.strands = true; rw [h]; rfl, by show mapGet s.strands 0 = some strandOp; rw [h]; rfl,
    hg, hv, Nat.zero_lt_succ _, _, List.mem_cons_self .., by decide⟩

theorem wit_load_completes : Performs (memoryOp0 .load) (op1 (.mem (memOp0 .load))) strandOp (memOp0 .load) :=
  ⟨outstanding_mem _ _ rfl rfl rfl, rfl, rfl, (fun _ h => nomatch h), rfl, rfl, by decide, by decide +kernel, by decide +kernel, by decide +kernel, by decide⟩

theorem wit_store_completes : Performs (memoryOp0 .store) (op1 (.mem (memOp0 .store))) strandOp (memOp0 .store) :=
  ⟨outstanding_mem _ _ rfl rfl rfl, rfl, rfl, (fun _ h => nomatch h), rfl, rfl, by decide, by decide +kernel, by decide +kernel, by decide, by decide +kernel⟩

theorem wit_atomic_performs (kind : MemKind) (h : kind = .atom 0 ∨ kind = .red 0) :
    Outstanding (memoryOp0 kind) (op1 (.mem (memOp0 kind))) strandOp ∧ Unlogged (memoryOp0 kind) strandOp.launch ∧
    (memOp0 kind).reqs.find? (fun q => q.lane = req0.lane && laneReady (memoryOp0 kind) (op1 (.mem (memOp0 kind))) (memOp0 kind) q) = some req0 ∧
    badOnChip (memoryOp0 kind) req0.pa req0.bytes false = none :=
  ⟨outstanding_mem _ _ rfl rfl rfl, (fun _ h => nomatch h), by rcases h with rfl | rfl <;> decide +kernel, by rcases h with rfl | rfl <;> decide +kernel⟩

theorem wit_sync_completes (kind : OpKind) : Outstanding (withOp (memory strandOp) kind) (op1 kind) strandOp ∧ (op1 kind).tl = none ∧
    Unlogged (withOp (memory strandOp) kind) strandOp.launch := ⟨outstanding_mem _ _ rfl rfl rfl, rfl, (fun _ h => nomatch h)⟩

/-- Every kind has its effect in some state: the queue empty or with an entry, the timeline reached. -/
theorem wit_sync_results :
    let q := fun (s : State) => { s with queues := [(0, { Queue.empty with w0 := 1, w1 := 2, tail := 1 })] }
    ([.results false [.lane 16 0xFFFFFFFF#32 5] none, .fence .acq 3, .fence .rel 3, .fence .full 3, .lapw 0 1 0, .waita 9 [(819200, false)] (some 0) 0 false, .qpush 0 5 none,
      .qpop 0 9 (some 10), .qstat 0 9, .tlwait 0 0, .tlread 0 9, .tladv 0 9, .chadv 0 65536] : List OpKind).all
      (fun k => (resultRule2 (withOp (memory strandOp) k) (op1 k) strandOp).isSome) = true ∧
    ([.qpop 0 9 none, .qpush 0 5 (some 10)] : List OpKind).all (fun k => (resultRule2 (q (withOp (memory strandOp) k)) (op1 k) strandOp).isSome) = true := by
  decide +kernel

theorem wit_waita_timeout : let k := OpKind.waita 9 [(819200, false)] none 10 false
    let s := { withOp (memory strandOp) k with now := 10 }
    Outstanding s (op1 k) strandOp ∧ Unlogged s strandOp.launch ∧ strandOp.suspended = false ∧ 10 ≤ s.now :=
  ⟨outstanding_of _ _ _ ⟨rfl, rfl, rfl, rfl, rfl, rfl, Nat.zero_lt_succ _, _, List.mem_cons_self .., by decide⟩, (fun _ h => nomatch h), rfl, Nat.le_refl _⟩

/-! ### Memory events -/

/-- A swept access of page 10, and its machine with a region and an earlier admission. -/
def sweptReq0 (st : LaneSt) : LaneReq := { req0 with va := 81920, pa := 0x4000000, cls := 1, st := st }
def sweptOp (st : LaneSt) : OpKind := .mem { memOp0 .load with reqs := [sweptReq0 st] }
def region0 (queue : List Admit) : Region :=
  { Region.blank with active := true, base := 0x4000000, len := 8192, mask := 0xFFFF, lap := 1, queue := queue }
def sweptMachine (st : LaneSt) (queue : List Admit) : State :=
  withOp { memory strandOp with now := 1000, parts := [(0, { Part.blank with enabled := true, regions := [(1, region0 queue)] })] } (sweptOp st)

theorem wit_memory_events :
    (memoryEvent (.visitorWriteApply 1 1) { machine strand0 with pend := [{ die := 1, id := 1, old := [(819200, 7)], deps := [] }] }).isSome = true ∧
    (memoryEvent (.sweptAdmission 1 0) { sweptMachine .todo [] with now := 10 }).isSome = true ∧
    (memoryEvent (.lapStart 0 1) (sweptMachine .todo [])).isSome = true ∧
    (memoryEvent (.tumblerRowService 0 1 0 0) (sweptMachine (.admitted 0) [{ op := 1, lane := 0, slice := 0, row := 0, lap := 0 }])).isSome = true := by
  decide +kernel

/-! ### Copies and engines -/

/-- Words put at a scratch offset of cluster 0. -/
def scratchWords (off : Nat) (l : List Word) : List Host.Cell :=
  putBytes [] (scratchPA 0 off) (l.flatMap wordBytes)

def copyDone : CopyEnd → Bool
  | .done .. => true
  | .wait .. => false

theorem copyDone_spec (e : CopyEnd) (h : copyDone e = true) : ∃ code r sig, e = .done code r sig := by
  cases e with
  | done code r sig => exact ⟨code, r, sig, rfl⟩
  | wait b n => cases h

/-- A copy of one f32 element: from memory at page 8 to plane 1, or from plane 1 to scratch. -/
def copy0 (dir : Nat) : CopyOp :=
  { rec_ := [BitVec.ofNat 64 (dir + 256), if dir = 0 then 65536 else 1, if dir = 0 then 1 else 4096, if dir = 0 then 1 else 0, 0, 0, 0, 0, 1, 0, 0, 0, 0, 0, 0, 0],
    origin := [0, 0, 0, 0], crc := 0, pd := desc 16 1 1 1 1, window := 0, leader := 0, dKey := 64, crcKey := 65, vals := [], words := [], wrote := [] }
def copyMachine (dir : Nat) : State :=
  withOp { memory strandOp with tlb := [page 8 0 100 0 0, { page 8 0 100 0 0 with core := 256 }], mem := [(819200, 9)] } (.copy (copy0 dir))

theorem wit_copy_completes (dir : Nat) (h : dir = 0 ∨ dir = 5) :
    Outstanding (copyMachine dir) (op1 (.copy (copy0 dir))) strandOp ∧ Unlogged (copyMachine dir) strandOp.launch ∧
    (copyMachine dir).lanesBad = [] ∧
    (op1 (.copy (copy0 dir))).idle = true ∧ startReady (copyMachine dir) (op1 (.copy (copy0 dir))) strandOp.die = true ∧ (copy0 dir).still (copyMachine dir) strandOp = true ∧
    (copyMachine dir).scratchBad = [] ∧ copyDone ((copy0 dir).outcome (copyMachine dir) strandOp false false) = true :=
  ⟨outstanding_mem _ _ rfl rfl rfl, (fun _ h => nomatch h), rfl, by rcases h with rfl | rfl <;> decide +kernel⟩

/-- With nothing bad in the scratch store, no word a copy reads there is bad; the box of a copy to scratch fits. -/
theorem wit_copy_good (x : CopyOp) (s : State) (st : Strand) (r : CopyRun) (h : s.scratchBad = []) : x.badScratch s st r = none := by
  simp [CopyOp.badScratch, scratchBadAt, h]
theorem wit_copy_fits : (copy0 5).badLane (copyMachine 5) strandOp = none ∧ (copy0 5).refused strandOp = false ∧ (copy0 5).signal = false ∧
    ∀ e ∈ boxElems (copy0 5).box, (copy0 5).scratchOff false + (boxIndex (copy0 5).box e + 1) * fmtBytes (copy0 5).geo.ty ≤ 2 ^ 22 := by decide +kernel

/-- An array of cluster 0 as system software allocated it, bound to the strand, calibrated. -/
def xbar0 : Xbar := { Xbar.blank with allocated := true, bound := some 0, calibrated := true }
def engines (st : Strand) : State := { machine st with xbars := [(0, xbar0)] }

theorem wit_engine_issues : Acts (engines strand0) c0 ∧ Unfenced (engines strand0) ((engines strand0).ctx c0).sp ∧ (engines strand0).lanesBad = [] ∧
    arrayFree (engines strand0) ((engines strand0).ctx c0) ∧
    ([.xbmv c0 0 5 1 (.reg 0) (some 1), .xbprog c0 0 (.reg 9) (.reg 0) none, .xbcal c0 0 (.reg 9) none, .xbstat c0 0 .state (.reg 9) none,
      .xbbind c0 0 (.reg 9) none, .xbbindRel c0 0 (.reg 9) none, .accmov c0 31 1 (.reg 0) none, .accmovIn c0 31 1 (.reg 0) none,
      .acczero c0 31 (some 7)] : List Instr).all
      (fun i => i.common? = some c0 && (engineRule i (engines strand0) ((engines strand0).ctx c0)).isSome) = true :=
  ⟨acts_of _ (by decide +kernel), (fun _ h => nomatch h), rfl, by unfold arrayFree; decide +kernel, by decide +kernel⟩

/-- A packet of routine 3 for page 8, at scratch offset 512 of cluster 0; s14 names it. -/
def strandCall : Strand := { strandMem with s := [(14, 512)] }
def callMachine (fifo : List Cmd) : State :=
  { memory strandCall with mem := scratchWords 512 [3, 65536, 64, 0, 0, 0, 0, 0], wilnum := [(0, { Wilnum.idle with fifo := fifo })] }
def cmd0 : Cmd := { op := 77, packet := [3, 65536, 64, 0, 0, 0, 0, 0], a4 := [], slice := [], pa := 819200 }

theorem wit_nmcall_issues (n : Nat) (h : n = 0 ∨ n = 32) :
    let s := callMachine (List.replicate n cmd0)
    let x := s.ctx c0
    Acts s c0 ∧ Unfenced s (s.ctx c0).sp ∧ s.lanesBad = [] ∧ Unlogged s x.st.launch ∧ s.ops = [] ∧ (∀ sp ∈ x.st.splits, sp.run ≠ .hold s.nextOp) ∧
    (∀ o ∈ s.ops, o.id < s.nextOp) ∧ (commandOf s x (.reg 4) (.reg 14)).any (fun r => (s.wil (r.2.pa / 2 ^ 32 % 128)).fifo.length = n && (waitingCmds s (r.2.pa / 2 ^ 32 % 128)).isEmpty &&
      (s.wil (r.2.pa / 2 ^ 32 % 128)).running.isNone) = true ∧ (∀ q ∈ List.replicate n cmd0, q.op ≠ s.nextOp) := by
  rcases h with rfl | rfl <;>
    exact ⟨acts_of _ (by decide +kernel), (fun _ h => nomatch h), rfl, (fun _ h => nomatch h), rfl, by decide +kernel, (fun _ h => nomatch h), by decide +kernel, by decide +kernel⟩

def engineOp (kind : OpKind) : State :=
  withOp { machine strandOp with now := 60, xbars := [(0, xbar0)] } kind

theorem wit_engine_completes (kind : OpKind) : Outstanding (engineOp kind) (op1 kind) strandOp ∧ Unlogged (engineOp kind) strandOp.launch ∧
    (∀ slot, ∀ t ∈ ((engineOp kind).tile 0).running, t.slot ≠ slot) := ⟨outstanding_mem _ _ rfl rfl rfl, (fun _ h => nomatch h), (fun _ _ h => nomatch h)⟩

theorem wit_xbmv_completes :
    let kind := OpKind.xbmv 0 5 (desc 20 1 1 13 1) 0 1 0 [[0x3F800000]] 1 0
    arrayAhead (engineOp kind) (op1 kind) 0 = false ∧ max (op1 kind).issued ((engineOp kind).xbar 0).freeAt + 55 * (Geo.of 0 (desc 20 1 1 13 1)).D ≤ (engineOp kind).now ∧
      ((engineOp kind).xbar 0).drift = false ∧ ((engineOp kind).xbar 0).calibrated = true := by decide +kernel

theorem wit_crossbar_completes :
    ([.xbprog 0 9 0 none, .xbcal 0 9, .xbstat 0 9 .alpha, .xbstat 0 9 .gamma, .xbstat 0 9 .g, .xbstat 0 9 .sigma, .xbstat 0 9 .state, .xbstat 0 9 .cals,
      .xbbind 0 9 false, .xbbind 0 9 true, .xbbind 1 9 false] : List OpKind).all
      (fun k => (arrayResult (engineOp k) (op1 k) strandOp).isSome) = true := by decide +kernel

/-- The engines with partition 0 enabled, and something left of the array's budget. -/
def tended : State :=
  { engines strand0 with parts := [(0, { Part.blank with enabled := true })], budgets := [(512, { cap := 9, limit := 9, counter := 0, prev := 0 })] }

theorem wit_array_events :
    ([.crossbarDriftPending 0 0, .xbDriftInject 0 0, .crossbarRetirement 0 0, .crossbarAllocation 0 0 63, .backgroundCalibration 0 0, .nmInjectParity 0 0 1] :
      List Instr).all (fun i => (arrayEvent i tended).isSome) = true := by decide +kernel

/-! ### Spawns, gangs, traps -/

/-- Pages 8 to 27 of the strand's space, for cores and for engines. -/
def areas : List Tlb :=
  (List.range 20).flatMap fun i => [page (8 + i) 0 (100 + i) 0 0, { page (8 + i) 0 (100 + i) 0 0 with core := 256 }]
/-- A launch record: one strand of one lane with eight words, its segments and parameters in page 8, its cores in page 10. -/
def record0 : List Word := [BitVec.ofNat 64 (2 ^ 40 + 2 ^ 48 + 8 * 2 ^ 56), BitVec.ofNat 64 (1 + 128 * 2 ^ 32), 65536, 65536, 0, 0, 81920, 0]
/-- Page 9 holds the overlay table (entry 0: one granule), page 10 a core mask, page 11 the table of spaces, page 12 the handler's record. -/
def tables : List Host.Cell :=
  putBytes (putBytes (putBytes (putBytes [] (104 * 8192) (record0.flatMap wordBytes)) (103 * 8192) [1]) (102 * 8192) (List.replicate 32 0xFF)) (101 * 8192) ([90112, 0x101].flatMap wordBytes)
/-- Partition 0 with those tables; chain 0 enabled, for all cores and levels. -/
def world (st : Strand) : State :=
  { machine st with
    tlb := areas, mem := tables,
    parts := [(0, { Part.blank with enabled := true, asidCount := 1, asidTab := 103 * 8192, ovltab := 73728, rtntab := 73728, ktempl := 98304 })],
    launches := [(0, launch0)], chains := [(0, { Chain.blank with enabled := true, ceiling := 2, grant := true, mask := BitVec.allOnes 256 })] }
def spawning (kind : OpKind) : State := withOp (world strandOp) kind

theorem unlogged_launch0 (s : State) (h : s.launches = [(0, launch0)]) : Unlogged s 0 := by
  intro l hl
  rw [h] at hl
  have e : launch0 = l := Option.some.inj hl
  subst e; exact ⟨rfl, rfl⟩

theorem wit_spawns_merge (msg : Option (Nat × List Word)) (h : msg = none ∨ msg = some (63, [5])) :
    let k := OpKind.spawn 9 record0 65536 65600 msg
    let s := spawning k
    Outstanding s (op1 k) strandOp ∧ (op1 k).tl = none ∧ Unlogged s strandOp.launch ∧ releaseReady s (op1 k) 4 = true ∧ spawnStatus s strandOp record0 msg = 0 ∧
    mergerTakes s 0 65536 0 = true ∧ linkOk s 0 (chainNumber s strandOp) = true ∧
    (madeLinked s (launchOf 0 0 0 0 0 0 (launchWords record0 1 65536) (0xF#256 <<< 252) [] s.now)).isSome = true := by
  rcases h with rfl | rfl <;> exact ⟨outstanding_mem _ _ rfl rfl rfl, rfl, unlogged_launch0 _ rfl, by decide +kernel⟩

/-- An open launch whose 1700 cycles are over. -/
theorem wit_merger_closes :
    let m : OpenLaunch := { template := 65536, part := 0, asid := 0, chain := 0, level := 0, rec_ := record0, opened := 0, spawns := [(65600, 0, [])] }
    let s := { spawning (.results false [] none) with now := 1700, mergers := [(0, [m])] }
    (s.merger 0)[0]? = some m ∧ m.opened + 1700 ≤ s.now ∧ linkOk s m.part m.chain = true ∧
    (madeLinked { s with mergers := mapSet s.mergers 0 ((s.merger 0).eraseIdx 0) }
      { launchOf m.part m.chain m.asid 0 m.level 0 (launchWords m.rec_ m.spawns.length 0) (BitVec.allOnes 256) [] s.now with
        params := m.spawns.map (·.1), asids := m.spawns.map (·.2.1), spawnDeps := m.spawns.map (·.2.2) }).isSome = true := by decide +kernel

theorem wit_gang_arrives : Acts (machine (strandGang (some 1))) c0 ∧
    let s := machine (strandGang (some 1))
    let x := s.ctx c0
    let t := issued { x with sp := { x.sp with gbars := 1 } } s 1 none (.gbar (some 1) 0 [] false)
    x.st.gang = some 1 ∧ gangSaved s x.st.launch 1 = [] ∧ gangOpen s x.st.launch 1 = x.sp.gbars ∧ (∀ k ∈ gangKeys s x.st.launch 1, gangArrived t k 1 0 = true) ∧
    gangKeys s x.st.launch 1 ≠ [] ∧
    (t.ops.map (·.id)).Nodup := ⟨acts_of _ (by decide +kernel), by decide +kernel⟩

theorem wit_gang_completes :
    let k := OpKind.gbar (some 1) 0 [1] false
    let st := { strandOp with gang := some 1 }
    let s := withOp (machine st) k
    Outstanding s (op1 k) st ∧ [(op1 k, st)].map (fun p => p.1.id) = [1] ∧ keysRise s.strands = true ∧ (op1 k).tl = none ∧
      releaseReady s (op1 k) (gangScope s st.launch 1 ([1].filterMap fun i => (s.op? i).map fun p => (s.strand p.owner).core)) = true :=
  ⟨outstanding_of _ _ _ ⟨rfl, rfl, rfl, rfl, rfl, rfl, Nat.zero_lt_succ _, _, List.mem_cons_self .., by decide⟩, by decide +kernel⟩

/-- Words that trap at level U, and at level K; s5 is 7 and s20 is 2^40. -/
def strandU : Strand := { strand0 with level := 0, s := [(5, 7), (8, link true 0 2), (9, link false 0 20000), (20, BitVec.ofNat 64 (2 ^ 40))] }
def trapWords (c : Common) : List Instr :=
  [.mov c 1 (.reg 9) (.reg 5), .add c 1 (.reg 9) (.reg 5) (.reg 6), .sub c 2 (.reg 9) (.reg 5) (.reg 6), .mul c 3 0 (.reg 9) (.reg 5) (.reg 6),
   .div c 4 (.reg 9) (.reg 5) (.reg 6), .rem c 13 (.reg 9) (.reg 5) (.reg 6), .and c 14 (.reg 9) (.reg 5) (.reg 6), .or c 15 (.reg 9) (.reg 5) (.reg 6),
   .xor c 0 (.reg 9) (.reg 5) (.reg 6), .shl c 1 (.reg 9) (.reg 5) (.reg 6), .shr c 1 (.reg 9) (.reg 5) (.reg 6), .rot c 1 0 (.reg 9) (.reg 5) (.reg 6),
   .clz c 1 (.reg 9) (.reg 5), .popc c 1 (.reg 9) (.reg 5), .cmp c 1 0 (.reg 9) (.reg 5) (.reg 6), .min c 1 (.reg 9) (.reg 5) (.reg 6),
   .max c 1 (.reg 9) (.reg 5) (.reg 6), .br c 255, .call c 0x7FFFFFFE, .nmret c, .zskip c (.reg 9) (.reg 5) (.reg 6), .ovlunpin c 5, .join c (.reg 20),
   .brc c 2 (.reg 5) 255, .loop c (.reg 5) 255, .ret c (.reg 8), .ret c (.reg 9), .ret c (.reg 20), .callo c 0 9999, .extr c 1 (.reg 9) (.reg 5) 0 3,
   .ins c (.reg 9) (.reg 5) 63 1, .lparam c (.reg 9) 4, .getid c (.reg 9) 8,
   .spawn c (.reg 9) (.reg 5) (.reg 6), .msgsend c 0 (.reg 9) (.reg 5) (.reg 6)]

theorem wit_word_traps : Acts (machine strandU) c0 ∧ strandU.isRoutine = false ∧ strandU.frame = none ∧
    (trapWords c0 ++ ([.sysrd c0 0 (.reg 9), .syswr c0 16 (.reg 5), .genup c0 (.reg 9), .resume c0, .resumeEnd c0, .tret c0, .ctxsave c0 (.reg 9) (.reg 5),
        .ctxload c0 (.reg 9) (.reg 5), .accspill c0 (.reg 9) 0 (.reg 5), .accfill c0 (.reg 9) 0 (.reg 5)] : List Instr)).all
      (fun i => (trapRule i (machine strandU) ((machine strandU).ctx c0)).any fun r => r.1 = c0) = true ∧
    Acts (machine strand0) c0 ∧ (trapRule (.trap c0 5) (machine strand0) ((machine strand0).ctx c0)).isSome = true :=
  ⟨acts_of _ (by decide +kernel), rfl, rfl, by decide +kernel, acts0, by decide +kernel⟩

/-- Pins at the limit; returns through both kinds of link. -/
theorem wit_pin_traps :
    let st := { strandU with pins := [(5, 65535)] }
    Acts (machine st) c0 ∧ (trapRule (.ovlpin c0 5) (machine st) ((machine st).ctx c0)).isSome = true :=
  ⟨acts_of _ (by decide +kernel), by decide +kernel⟩
theorem wit_returns : Acts (machine strandCalled) c0 ∧
    ([8, 9] : List (BitVec 6)).all (fun n => (trapRule (.ret c0 (.reg n)) (machine strandCalled) ((machine strandCalled).ctx c0)).isNone) = true :=
  ⟨acts_of _ (by decide +kernel), by decide +kernel⟩

/-- Three splits besides one that divides into two. -/
theorem wit_split_traps :
    let st := { strandU with m := [(1, 1)], splits := [{ Split.none_ with mask := 0x11, pc := 1, clause := some clause0 }, { Split.none_ with num := 1, mask := 2 },
                               { Split.none_ with num := 2, mask := 4 }, { Split.none_ with num := 3, mask := 8 }] }
    Acts (machine st) c0 ∧ (trapRule (.split c0 1 2 0 0 0 0) (machine st) ((machine st).ctx c0)).isSome = true :=
  ⟨acts_of _ (by decide +kernel), by decide +kernel⟩

/-! ### Handlers and class 4 -/

/-- A handler starts: no other footprint lies in the way. -/
theorem wit_trap_starts_handler :
    let s := world { strandU with fpCount := 8 }
    let x := s.ctx c0
    Acts s c0 ∧ x.st.level = 0 ∧ x.st.isRoutine = false ∧ x.st.frame = none ∧ x.st.core * 16 + x.st.slot = s.cur.1 ∧
    (withHandler s x.st.core x.st.part x.st.asid 0 false [(1, 0x13), (2, 0)]).isSome = true :=
  ⟨acts_of _ (by decide +kernel), by decide +kernel⟩

theorem notMerge (r : Run) (h : (match r with | .merge .. => false | _ => true) = true) (o w : Nat) : r ≠ .merge o w := by
  rintro rfl; exact Bool.noConfusion h

/-- A frame of split 0: cause 0x13. -/
def frame0 : Trap :=
  { split := 0, cause := 0x13, addrs := [], more := false, hdrSat := true, idx := 0, clauseOvl := 0, clausePc := 0, w2 := 0, detail := 5, unfinished := 0, op := 0,
    tags := [], refused := [], posted := false, needs := [], was := .ready, latS := [], latL := [], latSeed := 0, latOn := [], flag := 0 }
/-- A parked strand in slot 1, and a K strand in slot 0 whose TGT names it. -/
def strandParked : Strand := { strand0 with slot := 1, number := 1, level := 0, fpBase := 64, fpCount := 8, frame := some frame0, splits := [{ Split.none_ with mask := 1, pc := 1, clause := some clause0, run := .parked }] }
def strandK : Strand := { strand0 with tgt := 1, handler := some { target := 1, resumed := false, tile := false, tret := false }, s := [(5, 1), (11, 65536)] }
def twoStrands : State := { world strandK with strands := [(0, strandK), (1, strandParked)] }

theorem acts_two : Acts twoStrands c0 := acts_of _ (by decide +kernel)

/-- The machine with RESUME or RESUME.end issued. -/
def resuming (kind : OpKind) : State :=
  let x := twoStrands.ctx c0
  { issued x twoStrands 1 none kind with strands := mapSet twoStrands.strands 0 { afterIssue x twoStrands 1 with handler := handlerMarked x.st } }

theorem wit_resume :
    let x := twoStrands.ctx c0
    x.st.level ≠ 0 ∧ x.st.tgt ≠ 0 ∧ Parked (resuming .resume) x.st.tgt strandParked frame0 :=
  ⟨by decide +kernel, by decide +kernel, ⟨by decide +kernel, rfl, rfl, by decide +kernel⟩⟩

theorem wit_resume_end :
    let x := twoStrands.ctx c0
    x.st.tgt ≠ 0 ∧ strandParked.frame = some frame0 ∧ strandParked.splits ≠ [] ∧ Retires (resuming (.resumeEnd x.st.tgt)) x.st.tgt strandParked launch0 :=
  ⟨by decide +kernel, rfl, by decide, retires_of _ _ _ _ (by decide +kernel)⟩

theorem wit_tret :
    let x := twoStrands.ctx c0
    (Acts twoStrands c0 ∧ Retires twoStrands 0 x.st launch0) ∧ x.st.level ≠ 0 ∧ x.st.splits = [x.sp] ∧ ∀ f < 12, x.st.flag f = 0 :=
  ⟨⟨acts_two, retires_of _ _ _ _ (by decide +kernel)⟩, by decide +kernel⟩

theorem wit_system_issues : Acts twoStrands c0 ∧
    ([.sysrd c0 0 (.reg 9), .sysrd c0 1 (.reg 9), .sysrd c0 0x13F (.reg 9), .sysrd c0 0x21F (.reg 9), .syswr c0 0x010 (.reg 5), .syswr c0 0x020 (.reg 5),
      .syswr c0 0x102 (.reg 5), .syswr c0 0x103 (.reg 5), .genup c0 (.reg 9), .ctxsave c0 (.reg 9) (.reg 11), .ctxload c0 (.reg 9) (.reg 11),
      .accspill c0 (.reg 9) 31 (.reg 11), .accfill c0 (.reg 9) 31 (.reg 11)] : List Instr).all
      (fun i => (systemRule i twoStrands (twoStrands.ctx c0)).any fun r => r.1 = c0) = true := ⟨acts_two, by decide +kernel⟩

/-- Operation 1 of the K strand. -/
def kernel (kind : OpKind) : State :=
  let st := { strandK with cf := [(1, 1)] }
  withOp { world strandK with strands := [(0, st), (1, strandParked)] } kind
theorem outstanding_kernel (kind : OpKind) : Outstanding (kernel kind) (op1 kind) { strandK with cf := [(1, 1)] } :=
  outstanding_of _ _ _ ⟨rfl, rfl, rfl, rfl, rfl, rfl, Nat.zero_lt_succ _, _, List.mem_cons_self .., by decide⟩

theorem wit_system_completes (kind : OpKind) (h : kind ∈ [OpKind.sysrd 0x21 9, .syswr 0x102 5, .genup 0 9, .resume, .resumeEnd 1, .ctxsave 9 65536, .accspill 0 9 65536, .accfill 0 9 65536]) :
    let s := kernel kind
    let st := { strandK with cf := [(1, 1)] }
    Outstanding s (op1 kind) st ∧ (op1 kind).tl = none ∧ (s.ops.map (·.id)).Nodup ∧ keysRise s.xbars = true ∧ keysRise s.parts = true ∧
    listedReg 0x21 = true ∧ kernelReg 0x102 = true ∧ st.tgt ≠ (op1 kind).owner ∧ (∀ p ∈ s.ops, p.owner ≠ st.tgt) ∧ (s.tile 0).running = [] ∧ (s.tile 0).held = [] ∧
    (∀ e ∈ s.strands, e.2.frame = none ∨ e.2.frame = some frame0) ∧ frame0.cause ≠ 0x11 ∧ s.poison = [] ∧
    startReady s (op1 kind) st.die = true ∧ (s.strand 1).endCode ≠ some 0 ∧
    ∀ p ∈ [(65536, 0), (65536, 1), (saveBytes (s.strand st.tgt), 1)], areaStill s (agentOf st) 65536 p.2 p.1 = true ∧ (areaOf s st 65536 p.1 p.2).isSome = true := by
  simp only [List.mem_cons, List.not_mem_nil, or_false] at h
  rcases h with rfl | rfl | rfl | rfl | rfl | rfl | rfl | rfl <;> exact ⟨outstanding_kernel _, by decide +kernel⟩

/-- An area whose pages can all be reached stands. -/
theorem areaStands_of (s : State) (st : Strand) (va n acc : Nat) (h : areaStill s (agentOf st) va acc n = true ∧ (areaOf s st va n acc).isSome = true) :
    areaStands s st va n acc := ⟨h.1, fun p e => by simp [areaOf, e] at h⟩
theorem wit_areas_stand (kind : OpKind) (h : kind ∈ [OpKind.ctxsave 9 65536, .accspill 0 9 65536, .accfill 0 9 65536]) :
    let s := kernel kind
    let st := { strandK with cf := [(1, 1)] }
    areaStands s st 65536 65536 0 ∧ areaStands s st 65536 65536 1 ∧ areaStands s st 65536 (saveBytes (s.strand st.tgt)) 1 := by
  simp only [List.mem_cons, List.not_mem_nil, or_false] at h
  rcases h with rfl | rfl | rfl <;> exact ⟨areaStands_of _ _ _ _ _ (by decide +kernel), areaStands_of _ _ _ _ _ (by decide +kernel), areaStands_of _ _ _ _ _ (by decide +kernel)⟩

/-- An image of zeros in page 8 on, of the strand with token 0 that stands off its slot. -/
def ghost0 : Strand := { strandParked with frame := none, suspended := true, fpBase := 128 }
def saved0 : Saved := { token := 0, addr := 65536, key := 2 ^ 20 + 1, pool := none, late := [] }
def loading (q : Strand) : State := { kernel (.ctxload 9 65536) with mem := [], saved := [saved0], ghosts := [(2 ^ 20 + 1, q)] }

theorem outstanding_kernel' (q : Strand) : Outstanding (loading q) (op1 (.ctxload 9 65536)) { strandK with cf := [(1, 1)] } :=
  { op := rfl, active := rfl, spared := rfl, slots := rfl, slot := rfl, alone := rfl, near := Nat.zero_lt_succ _,
    here := fun x hx => by have : x = saved0 := by simpa [loading] using hx
                           subst this; decide
    live := ⟨_, List.mem_cons_self .., by decide⟩ }

theorem wit_context_loads :
    let st := { strandK with cf := [(1, 1)] }
    let s := loading ghost0
    let full := { s with strands := (List.range 16).map fun i => (i, { strandParked with slot := i }) }
    (Outstanding s (op1 (.ctxload 9 65536)) st ∧ areaStands s st 65536 (loadSize s st 65536) 0) ∧ s.poison = [] ∧ startReady s (op1 (.ctxload 9 65536)) st.die = true ∧
    saved0.late.all lateKind = true ∧ (areaOf s st 65536 imageBytes 0).any (fun frames =>
      let u := (noteLines ((areaSpan frames 65536 imageBytes).map fun p => (p.1.key, p.2))).run s
      let w := areaWord u st.die frames 65536
      BitVec.ofNat 64 saved0.token = w 0x1C0 && fieldOf (w 0xEC) 24 8 = st.core && fieldOf (w 0xEC) 32 6 = st.part && (areaOf u st 65536 (saveBytes ghost0) 0).isSome) = true ∧
    (s.strand saved0.key).core = st.core ∧ (s.strand saved0.key).part = st.part ∧ s.freeSlot st.core = some 2 ∧
    s.footFree st.core ghost0.launchWin ghost0.fpBase ghost0.fpCount = true ∧
    (op1 (.ctxload 9 65536)).owner < 4096 ∧ saved0.key ∉ s.strands.map (·.1) ∧ 2 ^ 20 ≤ saved0.key ∧
    s.footFree st.core strandParked.launchWin strandParked.fpBase strandParked.fpCount = false ∧ full.freeSlot 0 = none :=
  ⟨⟨outstanding_kernel' ghost0, areaStands_of _ _ _ _ _ (by decide +kernel)⟩, by decide +kernel⟩

/-! ### Routines, tile tasks, overlays -/

/-- An access that is made. -/
def okE {ε α : Type} : Except ε α → Bool
  | .ok _ => true
  | .error _ => false

theorem okE_spec {ε α : Type} (e : Except ε α) (h : okE e = true) : ∃ v, e = .ok v := by
  cases e with
  | ok v => exact ⟨v, rfl⟩
  | error x => cases h

/-- A strand that is a routine on 64 bytes of page 8. -/
def strandRoutine : Strand :=
  { strand0 with level := 0, routine := some (65536, 64, true), g := [(0, { base := 65536, limit := 64, attr := 0x1800, win := none })], s := [(5, 8)] }

theorem wit_routine_words : Acts (world strandRoutine) c0 ∧
    let x := (world strandRoutine).ctx c0
    x.st.isRoutine = true ∧ (x.st.scalar (.reg 20)).toNat ≤ (x.st.scalar (.reg 5)).toNat ∧
    ¬ (x.st.scalar (.reg 5)).toNat ≤ (x.st.scalar (.reg 20)).toNat ∧ (x.st.scalar (.reg 20)).toNat % 4 = 0 ∧
    (x.st.scalar (.reg 20)).toNat + 4 ≤ (x.st.segreg 0).limit.toNat ∧
    (match engineSpan (world strandRoutine) { part := 0, asid := 0, level := 0, cluster := 0, die := x.st.die } 65536 0 4 with
     | .ok l => l.all fun p => !recordBlocked (world strandRoutine) x p.1.cls p.2 1
     | .error _ => false) = true :=
  ⟨acts_of _ (by decide +kernel), by decide +kernel⟩
theorem wit_zskip_completes (v : Word) : Outstanding (withOp (machine strandOp) (.zskip 9 5 v 4)) (op1 (.zskip 9 5 v 4)) strandOp := outstanding_mem _ _ rfl rfl rfl

/-- The command of operation 1, in the FIFO or running. -/
def cmd1 : Cmd := { cmd0 with op := 1 }
def callWaiting : State := { withOp (world strandOp) (.nmcall 64 cmd1) with wilnum := [(0, { Wilnum.idle with fifo := [cmd1] })] }
def callRunning : State :=
  { withOp (world strandOp) (.nmcall 64 cmd1) with
    wilnum := [(0, { Wilnum.idle with running := some cmd1 })], strands := [(0, strandOp), (4096, { strandRoutine with core := 256, endCode := some 0 })] }

theorem wit_routines_run :
    (callWaiting.wil 0).running = none ∧ (callWaiting.wil 0).fifo = [cmd1] ∧ callWaiting.op? 1 = some (op1 (.nmcall 64 cmd1)) ∧ waitingCmds callWaiting 0 = [] ∧
    (callRunning.wil 0).running = some cmd1 ∧ (∃ st, mapGet callRunning.strands 4096 = some st ∧ st.endCode = some 0) ∧
    (∀ p ∈ callRunning.ops, p.owner ≠ 4096) ∧ waitingCmds callRunning 0 = [] ∧ Outstanding callRunning (op1 (.nmcall 64 cmd1)) strandOp ∧
    Unlogged callRunning strandOp.launch := by
  refine ⟨?_, ?_, ?_, ?_, ?_, ?_, ?_, ?_, outstanding_of _ _ _ ⟨rfl, rfl, rfl, rfl, rfl, rfl, Nat.zero_lt_succ _, _, List.mem_cons_self .., by decide⟩, unlogged_launch0 _ rfl⟩ <;> decide +kernel

/-- A link to a record at an address; a record of one element for slot 0; a machine with a record of zeros in page 8 and one of operation 3 in page 13. -/
def tileLink (addr : Nat) : TileLink := { addr := addr, owner := 0, number := 0, launch := 0, part := 0, asid := 0, level := 1, dep := [], tags := [] }
def tileRec (op : Nat) : List Word :=
  [BitVec.ofNat 64 (op + (if op = 1 then 2 ^ 52 + 2 ^ 56 else if op = 4 then 2 ^ 60 else 0)), if op = 1 then 65536 else 0, 0,
   if op = 1 then 69632 else 0, if op = 4 then 73728 else 0, 0, 0, 0]
def tileTask (op : Nat) : TileTask := { link := tileLink 65536, rec_ := tileRec op, slot := 0, engine := 0, held := false }
def tiles (x : TileSched) : State := { world strand0 with mem := putBytes tables (105 * 8192) ((tileRec 3).flatMap wordBytes), tiles := [(0, x)] }

theorem wit_tile_records_taken (addr : Nat) (h : addr = 65536 ∨ addr = 106496 ∨ addr = 2 ^ 60) :
    let s := tiles { TileSched.empty with chain := [tileLink addr] }
    (s.tile 0).chain = [tileLink addr] ∧ (s.tile 0).held.length < 16 ∧ (tileLink addr).idle = true ∧ spanStill s (tileSpan s 0 (tileLink addr)) = true ∧ depsVisible s [] [0] = true ∧ Unlogged s 0 ∧
    (match tileRead s 0 (tileLink addr) with
     | .ok r => decide (tkRefused r = decide (addr = 65536)) && okE (tkDoneAt s 0 (tileLink addr))
     | .error e => decide (addr = 2 ^ 60) && decide (e = .perm)) = true := by
  rcases h with rfl | rfl | rfl <;> refine ⟨rfl, Nat.zero_lt_succ 15, rfl, ?_, ?_, unlogged_launch0 _ rfl, ?_⟩ <;> decide +kernel

theorem wit_tile_records_issued :
    let s := tiles { TileSched.empty with held := [tileTask 3] }
    let taken := { s with accTags := [(0, ownerTag 0 5)] }
    (s.tile 0).held[0]? = some (tileTask 3) ∧ slotFor (s.tile 0) 0 0 (tileTask 3) = some 0 ∧ (recordWait s (tileTask 3)).isSome = true ∧ (tileTask 3).held = false ∧
    energySpent s 4 0 = false ∧ Unlogged s 0 ∧ (s.accTag 0).getLsbD 38 = false ∧
    (taken.accTag 0).getLsbD 38 = true ∧ taken.accTag 0 ≠ ownerTag 0 (launchIdent taken 0) ∧ (taken.accTag 0).toNat / 2 ^ 32 % 64 = 0 ∧
    slotFor (taken.tile 0) 0 0 (tileTask 3) = some 0 ∧ energySpent taken 4 0 = false :=
  ⟨rfl, by decide +kernel, rfl, rfl, by decide +kernel, unlogged_launch0 _ rfl, by decide +kernel⟩

theorem wit_tile_tasks (op : Nat) (h : op = 1 ∨ op = 3 ∨ op = 4) :
    let s := tiles { TileSched.empty with running := [tileTask op] }
    let r := tileRec op
    (s.tile 0).running[0]? = some (tileTask op) ∧ (tileLink 65536).idle = true ∧ (tileTask op).still s 0 = true ∧ depsVisible s [] [0] = true ∧ Unlogged s 0 ∧ okE (tkDoneAt s 0 (tileLink 65536)) = true ∧ tkOp r = op ∧ s.accBad = [] ∧
    (op = 1 → (∀ m < tkM r, ∀ k < tkK r, okE (tileElem s ((tileLink 65536).agent 0) (recWord r 1) (tkFmtA r) (tkPitchA r) m k) = true) ∧
      ∀ n < tkN r, ∀ k < tkK r, okE (tileElem s ((tileLink 65536).agent 0) (recWord r 3) (tkFmtB r) (tkPitchB r) n k) = true) ∧
    (op = 4 → ∀ m < tkM r, ∀ n < tkN r, okE (outElem s 0 (tileTask op) m n) = true) := by
  rcases h with rfl | rfl | rfl <;> refine ⟨rfl, rfl, ?_, ?_, unlogged_launch0 _ rfl, ?_⟩ <;> decide +kernel

/-- A strand whose split waits for an overlay: after a CALLO with its frame, or as placed. -/
def strandWaits (idx : Nat) (frame : Option Trap) : Strand :=
  { strand0 with frame := frame, splits := [{ Split.none_ with mask := 1, ovl := idx, pc := 1, run := .overlay idx }] }
def missFrame : Trap := { frame0 with cause := 0x05, detail := 0 }

theorem overlay_inj (i j : Nat) (h : Run.overlay i = .overlay j) : i = j := by cases h; rfl

theorem wit_overlay_loads_ovld :
    let k := OpKind.ovld 0 9 98304 []
    Outstanding (withOp (world strandOp) k) (op1 k) strandOp ∧ LoadsFor (withOp (world strandOp) k) 0 0 0 [op1 k] none :=
  ⟨outstanding_mem _ _ rfl rfl rfl, by decide +kernel, by decide +kernel, fun e he _ _ sp hs hr => by
    have : ∀ e ∈ (withOp (world strandOp) (.ovld 0 9 98304 [])).strands, ∀ sp ∈ e.2.splits, sp.run ≠ .overlay 0 := by decide +kernel
    exact absurd hr (this e he sp hs)⟩

theorem wit_overlay_loads_callo (idx : Nat) (h : idx = 0 ∨ idx = 5) :
    let st := strandWaits idx (some missFrame)
    let s := world st
    let r := overlayLoad s 0 0 0 idx
    mapGet s.strands 0 = some st ∧ (st.splitOf 0).run = .overlay idx ∧ (st.splitOf 0).num = 0 ∧ st.frame = some missFrame ∧ missFrame.split = 0 ∧ missFrame.cause = 0x05 ∧
    joinedLoads s 0 0 idx = [] ∧ loadReady s 0 0 idx = true ∧ (∀ e ∈ s.strands, ∀ sp ∈ e.2.splits, (0, 0) = (e.1, sp.num)) ∧
    (idx = 0 → r.1 ≤ 1 ∧ (overlayLoaded s 0 0 0 idx r).resident 0 0 idx false ≠ none) ∧ (idx = 5 → 1 < r.1 ∧ s.resident 0 0 idx false = none) := by
  rcases h with rfl | rfl <;> decide +kernel

theorem wit_overlay_loads_parked (idx : Nat) (h : idx = 0 ∨ idx = 5) :
    Parked (world (strandWaits idx (some missFrame))) 0 (strandWaits idx (some missFrame)) missFrame ∧ (∀ i, missFrame.was ≠ .overlay i) ∧ ∀ o w, missFrame.was ≠ .merge o w := by
  have w : (∀ i, missFrame.was ≠ .overlay i) ∧ ∀ o w, missFrame.was ≠ .merge o w := And.intro (fun _ h => nomatch h) (fun _ _ h => nomatch h)
  rcases h with rfl | rfl
  · exact ⟨⟨rfl, rfl, rfl, by decide +kernel⟩, w⟩
  · exact ⟨⟨rfl, rfl, rfl, by decide +kernel⟩, w⟩

theorem wit_overlay_loads_entry (idx : Nat) (h : idx = 0 ∨ idx = 5) :
    let st := strandWaits idx none
    let s := world st
    let r := overlayLoad s 0 0 0 idx
    mapGet s.strands 0 = some st ∧ st.frame = none ∧ st.splits.length = 1 ∧ (∀ sp ∈ st.splits, sp.run = .overlay idx ∧ sp.clause = none ∧ sp.num = 0) ∧
    joinedLoads s 0 0 idx = [] ∧ loadReady s 0 0 idx = true ∧
    (idx = 0 → r.1 ≤ 1 ∧ (overlayLoaded s 0 0 0 idx r).resident 0 0 idx false ≠ none) ∧ (idx = 5 → 1 < r.1 ∧ s.resident 0 0 idx false = none) := by
  rcases h with rfl | rfl <;> decide +kernel

/-! ### Chains, placement, suspension -/

/-- The world with chain 0 at a head record, a launch current or none, and no strand but the one given, if any. -/
def chained (head : Nat) (current : Option Nat) (strands : Map Strand) : State :=
  { world strand0 with
    strands := strands,
    chains := [(0, { Chain.blank with enabled := true, ceiling := 3, mask := BitVec.allOnes 256, head := head, tail := head, current := current })] }

theorem wit_schedule_events :
    (scheduleEvent (.launchAppendPort 0 0 65600) (chained 0 none [])).isSome = true ∧ (scheduleEvent (.launchAppendPort 0 0 65600) (chained 98304 none [])).isSome = true ∧
    (scheduleEvent (.chainTimelineWrite 0 15 7 5) (chained 0 none [])).isSome = true ∧ (scheduleEvent (.launchDispatch 0 0) (chained 65536 none [])).isSome = true ∧
    (scheduleEvent (.launchDispatch 0 0) (chained 98304 none [])).isSome = true ∧ (scheduleEvent (.launchDispatch 0 0) (chained 98304 (some 0) [])).isSome = true ∧
    (scheduleEvent (.launchEndRequest 0) (chained 0 none [])).isSome = true := by decide +kernel

/-- A launch of priority 3 that core 0 alone may take, waiting since cycle 0. -/
def launchWaits : Launch :=
  { launch0 with rec_ := [BitVec.ofNat 64 (2 ^ 40 + 2 ^ 48 + 8 * 2 ^ 56), 2, 65536, 65536, 0, 0, 81920, 0], prio := 3, mask := 1, placed := 0, waitSince := some 0 }
/-- Its machine, with the strand of slot 0 in its way, past the threshold. -/
def waiting (st : Strand) (placedToo : Bool) : State :=
  let s := chained 98304 (some 1) (if placedToo then [(0, st)] else [])
  { s with now := 1000, launches := [(0, launch0), (1, launchWaits)], parts := s.parts.map fun e => (e.1, { e.2 with sched := 0x10000, poolBase := 2 ^ 20, poolEntries := 1 }) }

theorem wit_preempt_request : (scheduleEvent (.preemptRequest 0 0) (waiting { strand0 with fpCount := 64 } true)).isSome = true := by decide +kernel

theorem wit_strand_places :
    let s := waiting strand0 false
    ((s.part 0).enabled = true ∧ (s.part 0).busy = false ∧ (s.chain 0).enabled = true ∧ (s.chain 0).halted = false) ∧ (s.chain 0).tags = [] ∧
    (s.chain 0).current = some 1 ∧ mapGet s.launches 1 = some launchWaits ∧ launchWaits.part = 0 ∧ launchWaits.placed < launchWaits.count ∧ launchWaits.coresident = false ∧
    (∀ e ∈ s.launches, e.2.record = false ∧ e.2.replay = false ∧ e.2.again = []) ∧ (∀ e ∈ s.chains, e.1 ≠ 0 → e.2.current = none) ∧
    (∀ e ∈ s.strands, e.2.suspended = false) ∧ s.saved = [] ∧ chosenCore s launchWaits (s.chain 0).pointer = some 0 ∧ s.freeSlot 0 = some 0 ∧
    okE (snapWords s { part := 0, asid := launchWaits.asid, level := launchWaits.level, cluster := 0, die := 0 } (launchWaits.params.getD launchWaits.placed (recWord launchWaits.rec_ 2).toNat) 64) = true ∧
    spanStill s (snapSpan s launchWaits launchWaits.placed) = true := by decide +kernel

theorem alone_launch0 (s : State) (st : Strand) (h : s.launches = [(0, launch0)]) (k : st.launch = 0) : Alone s st := by
  intro l hl
  rw [h, k] at hl
  have e : launch0 = l := Option.some.inj hl
  subst e; rfl

/-- A strand between clauses; its machine with a pool of some entries. -/
def strandIdle (preempt suspended : Bool) (run : Run) : Strand :=
  { strand0 with fpCount := 8, splits := [{ Split.none_ with mask := 1, pc := 0, run := run }], preempt := preempt, suspended := suspended }
def pooled (st : Strand) (entries : Nat) : State :=
  let s := world st
  { s with parts := s.parts.map fun e => (e.1, { e.2 with poolBase := 2 ^ 20, poolEntries := entries }) }

theorem wit_strand_suspends (entries : Nat) (h : entries = 0 ∨ entries = 1) :
    let st := strandIdle true false .ready
    let s := pooled st entries
    mapGet s.strands 0 = some st ∧ st.preempt = true ∧ st.suspended = false ∧ (∀ sp ∈ st.splits, Stops s sp) ∧ (∀ o ∈ s.ops, o.owner = 0 → engineHolds o = false) ∧
    (∀ f < 12, st.flag f = replayUses s 0 f) ∧ s.ops = [] ∧ st.delayed = [] ∧ Alone s st ∧ keysRise s.xbars = true ∧ keysRise s.parts = true := by
  rcases h with rfl | rfl <;> exact ⟨rfl, rfl, rfl, fun sp h => .inl (by
    have : ∀ sp ∈ (strandIdle true false .ready).splits, sp.run = .ready ∧ sp.clause = none := by decide
    exact this sp h), (fun _ h => nomatch h), by decide +kernel, rfl, rfl, alone_launch0 _ _ rfl rfl, rfl, rfl⟩

/-- A TLWAIT withdrawn at a suspension. -/
def opWithdrawn : Op := { op1 (.tlwait 0 5) with flag := 0, parked := true }

theorem wit_strand_resumes (ops : List Op) (h : ops = [] ∨ ops = [opWithdrawn]) :
    let st := strandIdle false true (if ops = [] then .ready else .hold 1)
    let s := { pooled st 0 with ops := ops }
    let s' := { s with chains := [] }
    mapGet s'.strands 0 = some st ∧ st.suspended = true ∧ Alone s' st ∧ s'.saved = [] ∧ (∀ e ∈ s'.chains, e.2.current = none) ∧ st.gang = none ∧
    (ops = [] → ∀ o ∈ s'.ops, o.owner = 0 → o.parked = false ∨ withdrawn o = false) ∧
    (ops ≠ [] → (s'.ops.filter fun p => p.owner = 0 && p.parked && withdrawn p) = [opWithdrawn]) := by
  rcases h with rfl | rfl <;> exact ⟨rfl, rfl, alone_launch0 _ _ rfl rfl, rfl, by decide +kernel⟩

theorem wit_strand_resumes_from_pool :
    let st := { strandIdle false true .ready with fpBase := 64 }
    let x : Saved := { token := 1, addr := 2 ^ 20, key := 2 ^ 20 + 1, pool := some 0, late := [.s 5 7] }
    let s := { pooled strand0 1 with saved := [x], ghosts := [(2 ^ 20 + 1, st)], chains := [] }
    mapGet s.strands x.key = none ∧ mapGet s.ghosts x.key = some st ∧ st.suspended = true ∧ Alone s st ∧ (∀ e ∈ s.chains, e.2.current = none) ∧ st.gang = none ∧
    s.ops = [] ∧ s.freeSlot st.core = some 1 ∧ st.core < 256 ∧ s.footFree st.core st.launchWin st.fpBase st.fpCount = true ∧ x.late.all lateKind = true :=
  ⟨by decide +kernel, by decide +kernel, rfl, alone_launch0 _ _ rfl rfl, by decide +kernel⟩

/-- A TLWAIT that holds its split, and an access of which one lane has performed. -/
def holding (kind : OpKind) : State :=
  let st := { strand0 with level := 0, splits := [{ Split.none_ with mask := 1, pc := 2, run := .hold 1 }] }
  { world st with now := 2 ^ 24, ops := [{ op1 kind with flag := 0 }] }

theorem wit_watchdog_withdraws (kind : OpKind) (h : kind = .tlwait 0 5 ∨ kind = .qpush 0 5 none) :
    let s := holding kind
    let st := s.strand 0
    wdogCounts s 0 launch0 = true ∧ launch0.wdog + 2 ^ 24 ≤ s.now ∧ lowestStrand s 0 = some (0, st) ∧ mapGet s.strands 0 = some st ∧ st.splits.length = 1 ∧
    (∀ sp ∈ st.splits, sp.run = .hold 1) ∧ s.op? 1 = some { op1 kind with flag := 0 } ∧ (∀ p ∈ s.parts, p.2.regions = []) ∧ st.isRoutine = false ∧ st.frame = none := by
  rcases h with rfl | rfl <;> decide +kernel

theorem wit_watchdog_fires :
    let st := { strand0 with level := 0, splits := [{ Split.none_ with mask := 1, pc := 2, origin := [1], run := .merge 0 2 }] }
    let s := { world st with now := 2 ^ 24 }
    mapGet s.launches 0 = some launch0 ∧ wdogCounts s 0 launch0 = true ∧ launch0.wdog + 2 ^ 24 ≤ s.now ∧ lowestStrand s 0 = some (0, st) ∧ st.splits.length = 1 ∧
    mapGet s.strands 0 = some st ∧ (∀ sp ∈ st.splits, sp.run = .merge 0 2) ∧ st.isRoutine = false ∧ st.frame = none ∧ 0 ≠ s.nextLaunch := by decide +kernel

/-! ### The Drevar side -/

/-- The world with partition 0 changed. -/
def partWorld (f : Part → Part) : State :=
  let s := world strand0
  { s with parts := s.parts.map fun e => (e.1, f e.2) }
/-- A usable queue 0 of cluster 0 that the host and peers may feed. -/
def fedQueue (s : State) : State := { s with queues := [(0, { Queue.empty with w0 := 7, w1 := 2 })] }
def region1 (active busy : Bool) : Map Region := [(1, { region0 [] with active := active, busy := busy })]
def trapRec0 : TrapRec := { w0 := 0x13, w1 := 0, w2 := 5, w3 := 0, w4 := 0, strand := none }
def pageReq0 (strand : Option Nat) (posted : Bool) : PageReq := { tag := 1, w0 := 0, w1 := 0, w2 := 0, w3 := 0, posted := posted, strand := strand }

theorem wit_drevar_events :
    (drevarEvent (.partitionEnable 1) (world strand0)).isSome = true ∧ (drevarEvent (.partitionEnable 0) (world strand0)).isSome = true ∧
    (drevarEvent (.stage2GenerationRaise 0) (world strand0)).isSome = true ∧
    (drevarEvent (.translationInvalidateComplete 0) (partWorld fun p => { p with invBusy := true })).isSome = true ∧
    (drevarEvent (.sweptCreate 0 3 0 0x4000000 0xFFFF 8192) (world strand0)).isSome = true ∧
    (drevarEvent (.sweptCreateComplete 0 1) (partWorld fun p => { p with regions := region1 true true })).isSome = true ∧
    (drevarEvent (.sweptDestroy 0 1) (partWorld fun p => { p with regions := region1 true false })).isSome = true ∧
    (drevarEvent (.sweptDestroyComplete 0 1) (partWorld fun p => { p with regions := region1 false true })).isSome = true := by decide +kernel

theorem wit_drevar_feeds :
    (drevarEvent (.timelineFeed 0 0x1000000000000) { world strand0 with launches := [(0, { launch0 with ext := 1 })] }).isSome = true ∧
    (drevarEvent (.timelineFeed 0 5) (world strand0)).isSome = true ∧
    (drevarEvent (.queueFeed 0 5) (fedQueue (world strand0))).isSome = true ∧ (drevarEvent (.queueFeed 0 5) (world strand0)).isSome = true ∧
    (drevarEvent (.trapQueuePost 0) (partWorld fun p => { p with trapq := 0x40001, traps := [trapRec0] })).isSome = true ∧
    (drevarEvent (.pageRequestPost 0) (partWorld fun p => { p with pageq := 0x40001, reqs := [pageReq0 none false] })).isSome = true ∧
    (drevarEvent (.drevarMemoryWrite 819200 [1, 2]) (world strand0)).isSome = true := by decide +kernel

theorem wit_translations_removed :
    let s := partWorld fun p => { p with busy := true }
    let u := { s with launches := [] }
    keysRise s.xbars = true ∧ keysRise s.accTags = true ∧ (¬ ∃ e ∈ u.launches, e.2.part = 0 ∧ e.2.ended = false) ∧ (u.part 0).enabled = true ∧ (u.part 0).busy = true ∧
    (∀ e ∈ s.strands ++ s.ghosts, ∀ g ∈ e.2.g, g.2.win = none) ∧ keysRise s.strands = true ∧ ∀ e ∈ s.strands, keysRise e.2.g = true := by decide +kernel

/-- Every writable offset of the control window, each within it; no descriptor of a region in use. -/
theorem wit_registers_written : regionHeld State.reset 0 0x0408 = false ∧ regionHeld (partWorld fun p => { p with regions := region1 true false }) 0 0x0428 = true ∧
    ([0x0400, 0x0408, 0x0470, 0x0008, 0x0010, 0x0018, 0x0020, 0x0040, 0x0048, 0x0050, 0x0058, 0x0068, 0x0078, 0x0080, 0x0088, 0x00A0, 0x0100, 0x0178, 0x0200, 0x03F8, 0x3F00] : List Nat).all
      (fun off => decide (off % 8 = 0) && decide (off < 0x10000) && (storedBits off).isSome) = true := by decide +kernel

theorem wit_region_registers :
    let legal := fun (s : State) (n : Nat) (v : Word) =>
      let r := regionRegWrite s.regs n v
      let populated := fun (a : Nat) => a = 0 ∨ (2 ^ 40 ≤ a ∧ a ≤ 2 ^ 40 + s.lpddr)
      populated r.drevarBase ∧ populated r.drevarLimit ∧ populated r.logBase ∧ populated r.logLimit ∧ ¬ (r.drevarBase < r.logLimit ∧ r.logBase < r.drevarLimit)
    let s := { State.reset with lpddr := 2 ^ 30 }
    (∀ n < 5, s.regs.lock = false ∧ legal s n (BitVec.ofNat 64 (2 ^ 40))) ∧ ¬ legal s 0 8192 := by decide +kernel

/-- A posted frame in slot 1, and one that waits for the page of tag 1. -/
def postedFrame : Trap := { frame0 with posted := true }
def pageFrame (refused : List Nat) (tags : List Nat) : Trap := { frame0 with cause := 0x08, tags := tags, refused := refused, detail := 1 }
def answered (f : Trap) : State :=
  { world strandK with
    strands := [(0, strandK), (1, { strandParked with frame := some f })],
    parts := [(0, { Part.blank with enabled := true, reqs := [pageReq0 (some 1) true] })] }

theorem wit_drevar_resume :
    let s := answered postedFrame
    let st := { strandParked with frame := some postedFrame }
    postedFrame.posted = true ∧ mapGet s.strands 1 = some st ∧ st.frame = some postedFrame ∧ st.splits ≠ [] ∧ Retires s 1 st launch0 ∧ Parked s 1 st postedFrame :=
  ⟨rfl, rfl, rfl, by decide, retires_of _ _ _ _ (by decide +kernel), ⟨rfl, rfl, rfl, by decide +kernel⟩⟩

theorem wit_page_replies :
    let s := answered (pageFrame [] [1, 2])
    let p := s.part 0
    s.peerWaits = [] ∧ (pageFrame [] [1]).cause = 0x08 ∧ (∀ r ∈ (partWorld id).parts, ∀ q ∈ r.2.reqs, q.tag ≠ 1) ∧ (p.reqs.find? fun q => q.tag = 1) = some (pageReq0 (some 1) true) ∧
    mapGet s.strands 1 = some { strandParked with frame := some (pageFrame [] [1, 2]) } ∧ 1 ∈ (pageFrame [] [1, 2]).tags ∧
    ((pageFrame [] [1, 2]).tags.filter fun x => x ≠ 1) ≠ [] ∧ ((pageFrame [] [1]).tags.filter fun x => x ≠ 1) = [] ∧
    (∀ first ∈ [2, 1], first = 1 → ∀ x ∈ [2, 1], (first + 2 ^ 32 - (pageFrame [2] [1]).detail.toNat) % 2 ^ 32 ≤ (x + 2 ^ 32 - (pageFrame [2] [1]).detail.toNat) % 2 ^ 32) := by
  decide +kernel

theorem wit_page_reply_last :
    let s := answered (pageFrame [] [1])
    let p := s.part 0
    let rest := { s with parts := mapSet s.parts 0 { p with reqs := p.reqs.filter fun q => q.tag ≠ 1 } }
    let t1 := pageFrame [] []
    let st1 := repliedStrand s { strandParked with frame := some (pageFrame [] [1]) } t1
    Parked { withStrand rest 1 st1 with ops := repliedOps s t1 } 1 st1 t1 :=
  ⟨rfl, rfl, rfl, by decide +kernel⟩

theorem wit_page_reply_engine :
    let s := partWorld fun p => { p with reqs := [pageReq0 none true] }
    ((s.part 0).reqs.find? fun q => q.tag = 1) = some (pageReq0 none true) ∧ s.peerWaits = [] ∧ keysRise s.tiles = true ∧ keysRise s.chains = true ∧ (s.ops.map (·.id)).Nodup := by
  decide +kernel

/-! ### Links, upkeep, peers, feeds, the issue unit -/

/-- A port with a frame that has failed n times again. -/
def badPort (n : Nat) : State := { State.reset with ports := [(0, { Port.up with bad := true, fails := n })] }
/-- A mesh packet of a type in flight from router 0, at a router; as it arrives at router 1. -/
def flight (kind dst seq at_ : Nat) : MeshFlight :=
  { src := 0, dst := dst, seq := seq, kind := kind, tag := 0, escape := false, at_ := some at_, via := 0, since := 0, sentAt := 0, resends := 0 }
def meshed (kind resends now : Nat) : State := { State.reset with now := now, mesh := [{ flight kind 1 0 1 with resends := resends }], meshNext := [(1, 1)] }
def meshPacket (kind : Nat) (ok : Bool) : MeshPacket := { dst := 1, src := 0, escape := false, kind := kind, seq := 0, tag := 0, payload := [], crcOk := ok }

/-- A packet on its way down a column whose next router's buffers are full. -/
theorem wit_mesh_escape :
    let s := { State.reset with now := 32, mesh := flight 0 4 0 0 :: List.replicate (Config.meshBuffers + 1) (flight 0 4 1 2) }
    hopOf s (flight 0 4 0 0) = none ∧ (linkEvent (.meshEscape 0 4 0) s).isSome = true := by
  have h : hopOf { State.reset with now := 32, mesh := flight 0 4 0 0 :: List.replicate (Config.meshBuffers + 1) (flight 0 4 1 2) } (flight 0 4 0 0) = none := by
    simp [hopOf, nextRouter, colHop, rowHop, routerCol, routerRow, freeBuffers, flight]
  exact ⟨h, congrArg Option.isSome (if_pos ⟨rfl, by decide, by decide, by decide, h⟩)⟩

theorem wit_link_events :
    ([.fabricFrameReceive 63 true, .fabricFrameReceive 63 false, .d2dFlitReplay 0 false, .d2dFlitReplay 63 true, .portDown 64] : List Instr).map (fun i => (linkEvent i State.reset).isSome) = [true, true, true, true, false] ∧
    ([.frameRetransmit 0 true, .frameRetransmit 0 false] : List Instr).all (fun i => (linkEvent i (badPort 0)).isSome) = true ∧
    (linkEvent (.portDown 0) (badPort 16)).isSome = true ∧ (linkEvent (.wavelengthPark 0) { State.reset with now := 8500 }).isSome = true ∧
    (linkEvent (.wavelengthWake 0) { State.reset with ports := [(0, { Port.up with width := 4, emptyAt := 1000 })] }).isSome = true ∧
    (linkEvent .packageFault { State.reset with d2dFails := [(0, 64)] }).isSome = true ∧ (linkEvent .packageFault (meshed 0 16 3400)).isSome = true ∧
    ([true, false].all fun ok => (linkEvent (.meshCommand (meshPacket 0 ok)) (meshed 0 0 32)).isSome && (linkEvent (.meshCompletion (meshPacket 1 ok)) (meshed 1 0 32)).isSome &&
      (linkEvent (.meshOverlayRead (meshPacket 2 ok)) (meshed 2 0 32)).isSome && (linkEvent (.meshOverlayData (meshPacket 3 ok)) (meshed 3 0 32)).isSome &&
      (linkEvent (.meshMaintenance (meshPacket 4 ok)) (meshed 4 0 32)).isSome) = true ∧
    (linkEvent (.meshResend 0 1 0) (meshed 0 15 3400)).isSome = true := by decide +kernel

/-- Lines of both stores of a stack, a scratch word with and without an error, an overlay; a new period, a hot die and a cool one, firmware booted. -/
theorem wit_upkeep_events :
    let s := { machine strand0 with budgets := [(0, { cap := 9, limit := 9, counter := 0, prev := 0 }), (256, { cap := 9, limit := 9, counter := 0, prev := 0 })] }
    let pa := scratchPA 0 64
    s.inMain 819200 = true ∧ (s.budget 0 0).counter < (s.budget 0 0).limit ∧ (s.budget 1 0).counter < (s.budget 1 0).limit ∧ ({ s with lpddr := 2 ^ 30 } : State).inMain (2 ^ 40) = true ∧
    onChip pa = true ∧ ocDie pa < 4 ∧ ocType pa = 3 ∧ pa / 8 ∉ s.scratchBad ∧ pa / 8 ∈ ({ s with scratchBad := [pa / 8] } : State).scratchBad ∧
    (∀ e ∈ s.strands, e.1 < 4096 → coversWord pa e.2 = false) ∧ (∃ o ∈ s.overlays, o.core = 0 ∧ o.part = 0 ∧ o.idx = 0 ∧ o.routine = false ∧ o.stale = false) ∧
    ({ s with now := 108800 } : State).period < 108800 / 108800 ∧ keysRise s.budgets = true ∧ (mapGet s.halved 0).getD false = false ∧
    (mapGet ({ s with halved := [(0, true)] } : State).halved 0).getD false = true ∧ ({ s with bootedVersion := some 5 } : State).bootedVersion = some 5 ∧
    (packageFaulted State.reset).isSome = true := by decide +kernel

/-- A peer's packet of a kind: from device 2, in the space the import entry names; and a machine with that entry, a queue that takes it and a launch of identity 0 that it may feed. -/
def packet (kind len : Nat) (w1 w2 : Word) (payload : List Byte) : Packet :=
  { port := 0, w0 := BitVec.ofNat 64 (2 * 2 ^ 44 + kind * 2 ^ 40 + len * 2 ^ 32), w1 := w1, w2 := w2, rest := [], payload := payload }
def peerWorld : State :=
  let s := fedQueue (partWorld fun p => { p with imports := [(0, BitVec.ofNat 64 (1 + 2 * 2))] })
  { s with launches := [(0, { launch0 with ext := 1 })] }

theorem wit_peer_events :
    ([.peerRead (packet 0 0 65536 0 []), .peerWrite (packet 1 1 65536 0 [1, 2, 3, 4]), .peerAtomic (packet 2 0 65536 10 [1, 0, 0, 0]),
      .peerReduction (packet 3 0 65536 10 [1, 0, 0, 0]), .peerReservedPacket (packet 9 0 0 0 []), .peerQueuePush (packet 7 1 0 0 [1, 0, 0, 0, 0, 0, 0, 0]),
      .peerTimelineFeed (packet 8 0 0x1000000000000 0 [])] : List Instr).all
      (fun i => (peerEvent i peerWorld).isSome && (peerEvent i State.reset).isSome) = true ∧
    importFor peerWorld (packet 0 0 65536 0 []) = some (0, 0) := by decide +kernel

/-- A lane that waits for a peer's answer under tag 5, and another of the same operation. -/
def awaitedReq (lane tag : Nat) : LaneReq := { req0 with lane := lane, remote := some (2 * 65536), st := .sent tag }
def awaitedOp : MemOp := { memOp0 .load with pinned := true, reqs := [awaitedReq 0 5, awaitedReq 1 6] }
def sentPacket : Sent := { dev := 2, tag := 5, op := 1, lane := 0, packet := packet 0 0 65536 0 [], port := 0 }
def awaiting (x : Sent) (m : MemOp) : State := { withOp (machine strandOp) (.mem m) with sent := [x] }
def answerTo (kind len : Nat) (payload : List Byte) : Packet := { packet kind len 65536 0 payload with w0 := BitVec.ofNat 64 (2 * 2 ^ 44 + kind * 2 ^ 40 + len * 2 ^ 32 + 5) }

theorem wit_peer_answers :
    let s := awaiting sentPacket awaitedOp
    let st := { awaitedOp with kind := .store }
    let x := { sentPacket with packet := packet 1 0 65536 0 [1, 2, 3, 4] }
    peerArrives s (answerTo 4 0 [1, 2, 3, 4]) 4 ∧ Awaited s (answerTo 4 0 [1, 2, 3, 4]) [0, 2] sentPacket (op1 (.mem awaitedOp)) awaitedOp (awaitedReq 0 5) ∧
    (∀ q ∈ awaitedOp.reqs, q.refusedCause = none) ∧ peerArrives s (answerTo 5 0 []) 5 ∧
    Awaited s (answerTo 5 0 []) [0, 1, 2, 3] sentPacket (op1 (.mem awaitedOp)) awaitedOp (awaitedReq 0 5) ∧ OthersOpen awaitedOp (awaitedReq 0 5) ∧
    peerArrives (awaiting x st) (answerTo 6 0 []) 6 ∧ Awaited (awaiting x st) (answerTo 6 0 []) [1, 3] x (op1 (.mem st)) st (awaitedReq 0 5) := by
  refine ⟨by unfold peerArrives; decide +kernel, ⟨by decide +kernel, by decide +kernel, rfl, rfl, by decide +kernel⟩, by decide +kernel,
    by unfold peerArrives; decide +kernel, ⟨by decide +kernel, by decide +kernel, rfl, rfl, by decide +kernel⟩, ⟨awaitedReq 1 6, by decide +kernel, by decide +kernel, by decide +kernel⟩,
    by unfold peerArrives; decide +kernel, ⟨by decide +kernel, by decide +kernel, rfl, rfl, by decide +kernel⟩⟩

theorem wit_peer_answers_nothing : State.reset.sent = [] ∧ peerArrives State.reset (answerTo 4 0 [1, 2, 3, 4]) 4 ∧ peerArrives State.reset (answerTo 5 0 []) 5 ∧
    peerArrives State.reset (answerTo 6 0 []) 6 := by unfold peerArrives; decide +kernel

/-- A datagram of a kind for partition 0, chain 0 under key 0, and a machine that has its key and its entry. -/
def datagram (kind n : Nat) (w2 : Word) : Datagram :=
  { w0 := BitVec.ofNat 64 (2 ^ 56 + kind * 2 ^ 48 + n * 2 ^ 16), w1 := 1, w2 := w2, w3 := 0, body := List.replicate (8 * n) 0, tag := [0, 0] }
def feeding : State :=
  let s := partWorld fun p => { p with feedEntries := [(0, (true, 73728, 4))] }
  { s with feedKeys := [(0, 5)] }

theorem gramOk_feeding (kind n : Nat) (w2 : Word) (h : (kind = 1 ∧ n = 1 ∧ w2 = 0) ∨ (kind = 2 ∧ n = 1 ∧ w2 = 65536) ∨ (kind = 3 ∧ n = 0 ∧ w2 = 5)) :
    gramOk feeding (datagram kind n w2) = Config.gcmVerifies 5 (gramNonce (datagram kind n w2)) (gramHeader (datagram kind n w2)) (datagram kind n w2).body [0, 0] := by
  rcases h with ⟨rfl, rfl, rfl⟩ | ⟨rfl, rfl, rfl⟩ | ⟨rfl, rfl, rfl⟩ <;> rfl

/-- Whatever a tag's verdict, the datagram acts or is discarded. -/
theorem wit_feed_events :
    ((feedEvent (.feedLaunchRecords (datagram 1 1 0)) feeding).isSome = true ∨ (feedEvent (.feedDatagramDiscard (datagram 1 1 0)) feeding).isSome = true) ∧
    ((feedEvent (.feedDataWrite (datagram 2 1 65536)) feeding).isSome = true ∨ (feedEvent (.feedDatagramDiscard (datagram 2 1 65536)) feeding).isSome = true) ∧
    ((feedEvent (.feedTimelineAdvance (datagram 3 0 5)) feeding).isSome = true ∨ (feedEvent (.feedDatagramDiscard (datagram 3 0 5)) feeding).isSome = true) ∧
    (feedEvent (.feedDatagramDiscard (datagram 4 0 5)) feeding).isSome = true := by
  refine ⟨?_, ?_, ?_, by decide +kernel⟩
  · cases h : gramOk feeding (datagram 1 1 0)
    · right; simp only [feedEvent, h]; rfl
    · left; simp only [feedEvent, h, Bool.true_and]; decide +kernel
  · cases h : gramOk feeding (datagram 2 1 65536)
    · right; simp only [feedEvent, h]; rfl
    · left; simp only [feedEvent, h, Bool.true_and]; decide +kernel
  · cases h : gramOk feeding (datagram 3 0 5)
    · right; simp only [feedEvent, h]; rfl
    · left; simp only [feedEvent, h, Bool.true_and]; decide +kernel

/-- At a header: waits that hold, and a flag in use; an overlay that is none for level K. -/
theorem wit_clause_enters :
    let barred := { machine strand0 with overlays := [{ overlay0 with kbit := false }] }
    ((machine strandOp).codeOf strandOp 0).any (fun o => o.kbit) = true ∧ ((barred).codeOf strand0 0).any (fun o => !o.kbit) = true ∧ strand0.level ≠ 0 ∧ strand0.isRoutine = false ∧
    strand0.frame = none ∧ (strand0.splitOf 0).num = 0 ∧ keysRise (machine strandOp).launches = true ∧
    mapGet (machine strandOp).strands 0 = some strandOp ∧ (∀ f < 12, (2 : BitVec 12).getLsbD f = true → f = 1) ∧ strandOp.flagZeroAt 1 0 = false ∧
    strandOp.flagZeroAt 0 0 = true ∧ keysRise (machine strandOp).strands = true ∧
    ∀ e ∈ (machine strandOp).strands, (∀ d ∈ e.2.delayed, 1 < d.1) ∧ (∀ f ∈ e.2.frame.toList ++ e.2.pending, ∀ d ∈ f.latOn, 1 < d.1) ∧ ∃ y ∈ e.2.splits, y.run ≠ .exiting := by decide +kernel

/-- A strand at a word, at a header, and past its overlay's end, with the turn that issues from it. -/
def issuing (w : Word) (pc : Nat) (cl : Option Clause) : State :=
  { machine { strand0 with splits := [{ Split.none_ with mask := 1, pc := pc, clause := cl }] } with
    turns := [.issue 0 0], overlays := [{ overlay0 with code := [Header.toWord ⟨0, 3, 0, 0, 0, 0⟩, w, 0, 0] }] }

theorem wit_step_issues :
    let s := issuing 0x02A194480789ABCD 1 (some clause0)
    Issues s 0 0 [] 0x02A194480789ABCD ∧ ((s.strand 0).splitOf 0).clause = some clause0 ∧
    decodeTableWord 64 0x02A194480789ABCD = some (.movi cF (.reg 9) 0x789ABCD) ∧ Instr.wellFormed (.movi cF (.reg 9) 0x789ABCD) = true ∧
    gridHeld s (s.strand 0) clause0 = false ∧ wordCause ((atIssue s 0 0 [] 0x02A194480789ABCD).strand 0) clause0 0x02A194480789ABCD = none ∧
    (s.strand 0).isRoutine = false ∧ ((atIssue s 0 0 [] 0x02A194480789ABCD).strand 0).isRoutine = false :=
  ⟨⟨by decide +kernel, by decide +kernel, by decide +kernel, by decide +kernel⟩, by decide +kernel⟩

theorem wit_step_header :
    let s := issuing 0 0 none
    Issues s 0 0 [] (Header.toWord ⟨0, 3, 0, 0, 0, 0⟩) ∧ ((s.strand 0).splitOf 0).clause = none ∧ decodeHeader (Header.toWord ⟨0, 3, 0, 0, 0, 0⟩) = some ⟨0, 3, 0, 0, 0, 0⟩ ∧
    Instr.isEvent (.chainTimelineWrite 0 0 0 0) = true ∧ State.reset.powered = true :=
  ⟨⟨by decide +kernel, by decide +kernel, by decide +kernel, by decide +kernel⟩, by decide +kernel⟩

/-- A word of each failing check: unassigned, of another class, a reserved field, a transfer that is not last, privileged, a selector. -/
theorem wit_words_checked (w : Word) (h : w ∈ ([0xFE00000000000000, 0x4000000000000000, 0x0000000000000001, 0x2800000000000001, 0x04000006800E0000] : List Word)) :
    let s := issuing w 1 (some clause0)
    let t := atIssue s 0 0 [] w
    Issues s 0 0 [] w ∧ ((s.strand 0).splitOf 0).clause = some clause0 ∧ ((t.strand 0).splitOf 0).clause = some clause0 ∧ gridHeld s (s.strand 0) clause0 = false ∧
    activeLanes (t.strand 0) ((t.strand 0).splitOf 0) (Common.ofWord w) ≠ 0 ∧ (wordCause (t.strand 0) clause0 w).isSome = true ∧ (t.strand 0).isRoutine = false ∧
    (t.strand 0).frame = none ∧ mapGet t.strands 0 = some (t.strand 0) ∧ ((t.strand 0).splitOf 0).num = 0 := by
  simp only [List.mem_cons, List.not_mem_nil, or_false] at h
  rcases h with rfl | rfl | rfl | rfl | rfl <;>
    exact ⟨⟨by decide +kernel, by decide +kernel, by decide +kernel, by decide +kernel⟩, by decide +kernel⟩

theorem wit_header_checked (pc : Nat) (h : pc = 1 ∨ pc = 256) :
    let s := issuing 0 pc none
    let st := s.strand 0
    s.powered = true ∧ s.turns = [.issue 0 0] ∧ (pickOn { s with turns := [] } st.core).map (fun c => (c.k, c.sp.num)) = some (0, 0) ∧
    (s.codeWord st (st.splitOf 0).ovl (st.splitOf 0).pc = none ∨ (∃ w, s.codeWord st (st.splitOf 0).ovl (st.splitOf 0).pc = some w ∧ decodeHeader w = none)) ∧
    (st.splitOf 0).clause = none ∧ st.isRoutine = false ∧ st.frame = none ∧ mapGet s.strands 0 = some st ∧ (st.splitOf 0).num = 0 := by
  rcases h with rfl | rfl
  · exact ⟨by decide +kernel, by decide +kernel, by decide +kernel, .inr ⟨0, by decide +kernel⟩, by decide +kernel⟩
  · exact ⟨by decide +kernel, by decide +kernel, by decide +kernel, .inl (by decide +kernel), by decide +kernel⟩

/-- A state that meets the invariant from which a step goes on. -/
theorem wit_step_keeps_inv : (issuing 0 1 (some clause0)).Inv ∧ (match step (issuing 0 1 (some clause0)) with | .next _ => true | _ => false) = true :=
  ⟨⟨by decide +kernel, by decide +kernel, by decide +kernel, by decide +kernel, by decide +kernel⟩, by decide +kernel⟩

/-- Well-formed words of each class. -/
theorem wit_decode_encode :
    (.clauseIssue ⟨1, 0, 2, 0, 0, 0⟩ :: (scalarWords c0 ++ laneWords ++ planeWords ++ accessWords)).all (fun i => i.wellFormed && !Instr.isEvent i && (decodeTableWord 64 (encode i).toNat = some i)) = true := by
  decide +kernel

/-! ## Single steps -/

/-- The value a word will give scalar register 9. -/
def scalarOf (i : Instr) (s : Map Word) : Option Word :=
  match exec i (machine { strand0 with s := s }) with
  | .next t => (t.strand 0).delayed.findSome? fun d => match d.2 with | .s 9 v => some v | _ => none
  | _ => none
/-- The word a lane form will give lane 0 of a register, with the status bits it will set. -/
def laneOf (i : Instr) (v : Map LWord) : Option (LWord × Status) :=
  match exec i { machine strand0 with lanes := v } with
  | .next t => ((t.strand 0).delayed.findSome? fun d => match d.2 with | .lane _ _ v => some v | _ => none).map fun v =>
      (v, (t.strand 0).delayed.foldl (fun a d => match d.2 with | .status x => a ||| x | _ => a) 0)
  | _ => none
/-- What the next state of an event shows. -/
def after {α : Type} (i : Instr) (s : State) (f : State → α) : Option α := match exec i s with | .next t => some (f t) | _ => none

/-- Examples of R179. -/
theorem test_div_min : scalarOf (.div c0 7 (.reg 9) (.reg 5) (.reg 6)) [(5, 0x80000000), (6, 0xFFFFFFFFFFFFFFFF)] = some 0xFFFFFFFF80000000 := by decide +kernel
theorem test_div_zero : scalarOf (.div c0 8 (.reg 9) (.reg 5) (.reg 0)) [(5, 7)] = some 0xFF := by decide +kernel
theorem test_rem_min : scalarOf (.rem c0 7 (.reg 9) (.reg 5) (.reg 6)) [(5, 0x80000000), (6, 0xFFFFFFFFFFFFFFFF)] = some 0 := by decide +kernel
theorem test_rem_zero : scalarOf (.rem c0 7 (.reg 9) (.reg 5) (.reg 0)) [(5, 0xFFFFFFFB)] = some 0xFFFFFFFFFFFFFFFB := by decide +kernel
theorem test_shr_signed : scalarOf (.shr c0 6 (.reg 9) (.reg 5) (.reg 6)) [(5, 0x8001), (6, 1)] = some 0xFFFFFFFFFFFFC000 := by decide +kernel
/-- R180: MOVHI keeps the low 36 bits; MOVI extends its sign. -/
theorem test_movhi : scalarOf (.movhi c0 (.reg 9) (.reg 5) 0x0123456) [(5, 0xFFFFFFF9ABCDEF01)] = some 0x01234569ABCDEF01 := by decide +kernel
theorem test_movi_negative : scalarOf (.movi c0 (.reg 9) 0xFFFFFFE) [] = some 0xFFFFFFFFFFFFFFFE := by decide +kernel
/-- R176: results wrap to the type and extend. -/
theorem test_add_wraps : scalarOf (.add c0 5 (.reg 9) (.reg 5) (.reg 6)) [(5, 0x7F), (6, 1)] = some 0xFFFFFFFFFFFFFF80 := by decide +kernel
theorem test_mul_high : scalarOf (.mul c0 12 1 (.reg 9) (.reg 5) (.reg 6)) [(5, 0xFFFFFFFFFFFFFFFF), (6, 2)] = some 1 := by decide +kernel
theorem test_sel_zero : scalarOf (.sel c0 (.reg 9) (.reg 5) (.reg 6) (.reg 0)) [(5, 1), (6, 2)] = some 2 := by decide +kernel

/-- R190, R186: LOOP at 1 goes on past its end, at 2 it transfers. -/
theorem test_loop_ends : after (.loop c0 (.reg 5) 0x7FFFFFFF) (machine { strand0 with s := [(5, 1)] }) (fun t => ((t.strand 0).sreg 5, ((t.strand 0).splitOf 0).pc)) = some (0, 2) := by
  decide +kernel
theorem test_loop_transfers : after (.loop c0 (.reg 5) 3) (machine { strand0 with s := [(5, 2)] }) (fun t => ((t.strand 0).sreg 5, ((t.strand 0).splitOf 0).pc)) = some (1, 4) := by
  decide +kernel

/-- R29: 300.5 and 100.5 to i8, as the section's text gives them. -/
theorem test_fcvt_saturates : laneOf (.fcvt c0 0 1 (.lane 5 0 0 (.reg 4) (.reg 5))) [(5, 0x43964000)] = some (0x7F, 1) := by decide +kernel
theorem test_fcvt_inexact : laneOf (.fcvt c0 0 1 (.lane 5 0 0 (.reg 4) (.reg 5))) [(5, 0x42C90000)] = some (100, 16) := by decide +kernel
/-- Table 10-4: 700.0 into field 3 of 0x0050EA60, then the field back. -/
theorem test_fcvt_tapered : laneOf (.fcvt c0 3 1 (.lane 4 0 0 (.reg 5) (.reg 4))) [(4, 0x442F0000), (5, 0x0050EA60)] = some (0x0750EA60, 16) := by decide +kernel
theorem test_fcvt_widens : laneOf (.fcvt c0 3 4 (.lane 1 0 0 (.reg 6) (.reg 5))) [(5, 0x0750EA60)] = some (0x44000000, 0) := by decide +kernel
/-- R34: ties, and beyond 1,024. -/
theorem test_tapered_ties : (roundTB8 (.num false 3 (-12))).1 = 0x04 ∧ (roundTB8 (.num false 768 0)) = (0x03, 16) ∧ roundTB8 (.num false 1100 0) = (0x03, 32) := by decide +kernel
/-- R38: the block of the example: scale 128, its codes, one clipped. -/
theorem test_quant_example :
    let x := [decodeF 1 0x44BB8000, decodeF 1 0xC0533333, decodeF 1 0x3A83126F, decodeF 1 0x7F800000] ++ List.replicate 12 (decodeF 1 0)
    (quantBlock x).1 = 128 ∧ ((List.range 16).map fun j => (quantElem x j).1) = [0x07, 0xEA, 0x02, 0x03] ++ List.replicate 12 0 ∧
    ((List.range 16).map fun j => (quantElem x j).2.1) = [false, false, false, true] ++ List.replicate 12 false := by decide +kernel
/-- R28: integer lanes wrap field by field; saturation clamps. -/
theorem test_iadd_fields : laneOf (.iadd c0 (.lane 5 0 0 (.reg 4) (.reg 5) (.reg 6))) [(5, 0x7F0180FF), (6, 0x0101FF01)] = some (0x80027F00, 0) := by decide +kernel
theorem test_iadd_saturates : laneOf (.iadd c0 (.lane 5 0 1 (.reg 4) (.reg 5) (.reg 6))) [(5, 0x7F0180FF), (6, 0x0101FF01)] = some (0x7F028000, 0) := by decide +kernel
/-- R27: 1 + 2^-24 is a tie to even; a NaN result is canonical and invalid. -/
theorem test_fadd_tie : laneOf (.fadd c0 (.lane 1 0 0 (.reg 4) (.reg 5) (.reg 6))) [(5, 0x3F800000), (6, 0x33800000)] = some (0x3F800000, 16) := by decide +kernel
theorem test_fadd_invalid : laneOf (.fadd c0 (.lane 1 0 0 (.reg 4) (.reg 5) (.reg 6))) [(5, 0x7F800000), (6, 0xFF800000)] = some (0x7FC00000, 1) := by decide +kernel

/-- R231, R236: a load gives its register the bytes, a store its bytes to memory, an atomic the value found. -/
theorem test_load : after (.memoryAccessComplete 1) (memoryOp0 .load) (fun t => mapGet t.lanes 16) = some (some 9) := by decide +kernel
theorem test_store : after (.memoryAccessComplete 1) (memoryOp0 .store) (fun t => (List.range 5).map fun i => Memory.read t.mem (819200 + i)) = some [5, 0, 0, 0, 0] := by decide +kernel
theorem test_atom_add : after (.homeAtomicPerform 1 0) (memoryOp0 (.atom 0)) (fun t => (Memory.read t.mem 819200, mapGet t.lanes 16)) = some (14, some 9) := by decide +kernel
/-- R244's example: a region's lap 65 does not yet satisfy a LAPW for 66, lap 66 does. -/
theorem test_lapw :
    let s := fun (lap : Nat) => { withOp (memory strandOp) (.lapw 0 1 66) with parts := [(0, { Part.blank with regions := [(1, { region0 [] with lap := lap })] })] }
    (after (.memoryAccessComplete 1) (s 65) fun t => t.ops.length) = none ∧ (after (.memoryAccessComplete 1) (s 66) fun t => t.ops.length) = some 0 := by decide +kernel
/-- R133: a push takes the place at the tail; R253: a pop of an empty queue with a status register reports 1. -/
theorem test_qpush : after (.memoryAccessComplete 1) (withOp (memory strandOp) (.qpush 0 0x1122 none)) (fun t => ((t.queue 0).tail, Memory.read t.mem (scratchPA 0 0), Memory.read t.mem (scratchPA 0 1))) =
    some (1, 0x22, 0x11) := by decide +kernel
theorem test_qpop_empty : after (.memoryAccessComplete 1) (withOp (memory strandOp) (.qpop 0 9 (some 10))) (fun t => (t.strand 0).sreg 10) = some 1 := by decide +kernel
/-- R146's example: a stream of the indexes 1 and 6. -/
theorem test_zskip :
    let s := { world { strandRoutine with g := [(0, { base := 65536, limit := 4096, attr := 0x1800, win := none })], s := [(5, 2056), (6, 2048), (7, 2052)] } with
      mem := putBytes [] (100 * 8192 + 2048) [1, 0, 0, 0, 6, 0, 0, 0] }
    let out := fun (a : Sel) => after (.zskip c0 (.reg 9) a (.reg 5)) s fun t => t.ops.map (·.kind)
    out (.reg 6) = some [.zskip 9 6 1 2052] ∧ out (.reg 7) = some [.zskip 9 7 6 2056] ∧ out (.reg 5) = some [.zskip 9 5 0xFFFFFFFFFFFFFFFF 2056] := by decide +kernel
/-- R269, Table 12-6: XBBIND of an array bound to another strand is 1, of one not allocated 2. -/
theorem test_xbbind :
    (after (.crossbarOperationComplete 1) { withOp (machine strandOp) (.xbbind 0 9 false) with xbars := [(0, { xbar0 with bound := some 5 })] } fun t => (t.strand 0).sreg 9) = some 1 ∧
    (after (.crossbarOperationComplete 1) { withOp (machine strandOp) (.xbbind 1 9 false) with xbars := [(0, xbar0)] } fun t => (t.strand 0).sreg 9) = some 2 := by decide +kernel
/-- R311, R312: TRAP at level U starts a handler: s1 the cause, s2 FRAME0, TGT the strand. -/
theorem test_trap :
    after (.trap c0 0x1234) (world { strandU with fpCount := 8 }) (fun t =>
      ((t.strand 1).sreg 1, (t.strand 1).sreg 2, (t.strand 1).tgt, (t.strand 1).level, (t.strand 0).frame.map (·.word 3))) =
    some (0x13, 0x400000000013, 0, 1, some 0x1234) := by decide +kernel
/-- R304, Table 18-2: a system register read at level U traps; TSTAT of a parked target reads 3. -/
theorem test_sysrd_privileged : after (.sysrd c0 0 (.reg 9)) (machine strandU) (fun t => (t.strand 0).frame.map (·.cause)) = some (some 0x18) := by decide +kernel
theorem test_sysrd_tstat : after (.systemInstructionComplete 1) (kernel (.sysrd 0x21 9)) (fun t => (t.strand 0).sreg 9) = some 3 := by decide +kernel
/-- R321: a chain timeline never falls. -/
theorem test_timeline_raises : after (.chainTimelineWrite 0 0 3 5) State.reset (fun t => (t.ct 3).count) = some 5 ∧
    after (.chainTimelineWrite 0 0 3 4) { State.reset with cts := [(3, { count := 5, arr := [] })] } (fun t => (t.ct 3).count) = some 5 := by decide +kernel
/-- R84: a word that no lane is active for only issues. -/
theorem test_predicated_off : after (.addi ⟨0, 0, 0, 0, 2, 0⟩ (.reg 9) (.reg 5) 1) (machine strand0) (fun t => ((t.strand 0).delayed, ((t.strand 0).splitOf 0).pc)) = some ([], 2) := by decide +kernel
/-- The state a loaded word runs in: the very next step runs it. -/
theorem test_fetch_word : (match step (State.reset.withFetchWord 64 0x0200004800000005) with
    | .next t => (t.strand 0).delayed.findSome? fun d => match d.2 with | .s 9 v => some v | _ => none
    | _ => none) = some 5 := by decide +kernel

end Sys2Proof.Tests
end

namespace Sys2Proof.Claims

open Sys2Proof.Machine

/-! ## Sparse maps written twice -/

theorem mapSet_mapSet {α : Type} (m : Map α) (k : Nat) (v w : α) : mapSet (mapSet m k v) k w = mapSet m k w := by
  induction m with
  | nil => simp [mapSet]
  | cons e r ih =>
    obtain ⟨k', v'⟩ := e
    by_cases hk : k' = k
    · simp [mapSet, hk]
    · by_cases hlt : k < k' <;> simp [mapSet, hk, hlt, ih]

theorem mem_of_mapGet {α : Type} {m : Map α} {k : Nat} {v : α} (h : mapGet m k = some v) : (k, v) ∈ m := by
  induction m with
  | nil => simp at h
  | cons e r ih =>
    obtain ⟨k', v'⟩ := e
    by_cases hk : k' = k
    · simp_all [mapGet]
    · exact List.mem_cons_of_mem _ (ih (by simpa [mapGet, hk] using h))

/-- Setting a key of a rising list to the value it has changes nothing. -/
theorem mapSet_self {α : Type} {m : Map α} {k : Nat} {v : α} (hm : keysRise m = true) (h : mapGet m k = some v) :
    mapSet m k v = m := by
  induction m with
  | nil => simp at h
  | cons e r ih =>
    obtain ⟨k', v'⟩ := e
    obtain ⟨hlow, hr⟩ := (keysRise_cons _ _).1 hm
    by_cases hk : k' = k
    · simp_all [mapGet, mapSet]
    · have hget : mapGet r k = some v := by simpa [mapGet, hk] using h
      have hlt : k' < k := hlow _ (mem_of_mapGet hget)
      simp [mapSet, hk, Nat.lt_asymm hlt, ih hr hget]

/-! ## One strand's record replaced -/

@[simp] theorem withStrand_slot (s : State) (k : Nat) (a : Strand) : mapGet (withStrand s k a).strands k = some a :=
  mapGet_mapSet_same _ _ _
@[simp] theorem withStrand_strand (s : State) (k : Nat) (a : Strand) : (withStrand s k a).strand k = a :=
  State.strand_of_slot _ _ _ (withStrand_slot s k a)
@[simp] theorem withStrand_withStrand (s : State) (k : Nat) (a b : Strand) : withStrand (withStrand s k a) k b = withStrand s k b := by
  simp [withStrand, mapSet_mapSet]
@[simp] theorem withStrand_stillPending (s : State) (k : Nat) (a : Strand) (d : List Nat) :
    (withStrand s k a).stillPending d = s.stillPending d := rfl
theorem withStrand_self {s : State} {k : Nat} {st : Strand} (hs : keysRise s.strands = true) (h : mapGet s.strands k = some st) :
    withStrand s k st = s := by
  simp [withStrand, mapSet_self hs h]

/-- A change of the record of a strand in its slot, as the model and as the statements make it. -/
@[simp] theorem onStrand_withStrand (s : State) (k : Nat) (a : Strand) (f : Strand → Strand) :
    (withStrand s k a).onStrand k f = withStrand s k (f a) := by
  rw [State.onStrand, withStrand_slot]
  exact withStrand_withStrand s k a (f a)
theorem onStrand_eq_withStrand (s : State) (k : Nat) (st : Strand) (f : Strand → Strand) (h : mapGet s.strands k = some st) :
    onStrand s k f = withStrand s k (f st) := by
  rw [onStrand, State.strand_of_slot s k st h, withStrand]

@[simp] theorem apply_dep_withStrand (s : State) (k : Nat) (a : Strand) (d : List Nat) :
    (withStrand s k a).apply (.dep k d) = withStrand s k { a with dep := s.stillPending (joinDeps a.dep d) } :=
  onStrand_withStrand s k a _
@[simp] theorem apply_flagDeps_withStrand (s : State) (k : Nat) (a : Strand) (m : Map (List Nat)) :
    (withStrand s k a).apply (.flagDeps k m) = withStrand s k { a with flagDeps := m } :=
  onStrand_withStrand s k a _
@[simp] theorem apply_split_withStrand (s : State) (k : Nat) (a : Strand) (sp : Split) :
    (withStrand s k a).apply (.split k sp) = withStrand s k { a with splits := putSplit a.splits sp } :=
  onStrand_withStrand s k a _

/-- A local update that writes no lane word: the strand's record, and the images of the saved strands of its key. -/
theorem applyL_of_not_lane (s : State) (k : Nat) (u : LUpd) (hu : isLaneWrite (.loc k u) = false) :
    s.applyL k u = { s.onStrand k (·.applyL u) with
      saved := (s.onStrand k (·.applyL u)).saved.map fun x => if x.key = k then { x with late := x.late ++ [u] } else x } := by
  cases u with
  | lane => cases hu
  | _ => rfl

/-- A local update that writes no lane word reaches the strand's own record alone, where no saved strand has its key. -/
theorem apply_loc_withStrand {s : State} {k : Nat} (here : ∀ x ∈ s.saved, x.key ≠ k) (a : Strand) (u : LUpd)
    (hu : isLaneWrite (.loc k u) = false) : (withStrand s k a).apply (.loc k u) = withStrand s k (a.applyL u) := by
  have hsaved : (s.saved.map fun x => if x.key = k then { x with late := x.late ++ [u] } else x) = s.saved := by
    refine (List.map_congr_left fun x hx => ?_).trans (List.map_id' _)
    simp [here x hx]
  calc (withStrand s k a).apply (.loc k u)
      = { withStrand s k (a.applyL u) with
          saved := s.saved.map fun x => if x.key = k then { x with late := x.late ++ [u] } else x } := by
        rw [State.apply, applyL_of_not_lane _ _ _ hu, onStrand_withStrand]; rfl
    _ = withStrand s k (a.applyL u) := by rw [hsaved]; rfl

/-! ## The end of an operation -/

/-- The strand stands in a slot, alone under its key, and is not about to retire. -/
structure Standing (s : State) (k : Nat) (st : Strand) : Prop where
  slots : keysRise s.strands = true
  slot : mapGet s.strands k = some st
  alone : mapGet s.ghosts k = none
  here : ∀ x ∈ s.saved, x.key ≠ k
  live : ∃ sp ∈ st.splits, sp.run ≠ .exiting

theorem Outstanding.standing {s : State} {o : Op} {st : Strand} (h : Outstanding s o st) : Standing s o.owner st where
  slots := h.slots
  slot := h.slot
  alone := h.alone
  here := h.here
  live := h.live

theorem Standing.withStrand_self {s : State} {k : Nat} {st : Strand} (h : Standing s k st) : withStrand s k st = s :=
  Claims.withStrand_self h.slots h.slot

/-- Whatever its registers become, the strand stands. -/
theorem Standing.withStrand {s : State} {k : Nat} {st a : Strand} (h : Standing s k st) (ha : a.splits = st.splits) :
    Standing (withStrand s k a) k a where
  slots := keysRise_mapSet _ _ _ h.slots
  slot := withStrand_slot s k a
  alone := h.alone
  here := h.here
  live := ha ▸ h.live

/-- The strand stands as well in a state where no slot, no strand off its slot and no image differs. -/
theorem Standing.of_strands {s t : State} {k : Nat} {st : Strand} (h : Standing s k st)
    (ht : t.strands = s.strands ∧ t.ghosts = s.ghosts ∧ t.saved = s.saved) : Standing t k st := by
  obtain ⟨hstrands, hghosts, hsaved⟩ := ht
  exact ⟨hstrands ▸ h.slots, hstrands ▸ h.slot, hghosts ▸ h.alone, hsaved ▸ h.here, h.live⟩

theorem splits_applyL_s (st : Strand) (r : Nat) (v : Word) : (st.applyL (.s r v)).splits = st.splits := by
  simp only [Strand.applyL]; split <;> rfl

/-- A strand that stands does not retire, and leaves nothing to end. -/
theorem exitCheck_of_live {s : State} {k : Nat} {st : Strand} (h : mapGet s.strands k = some st)
    (live : ∃ sp ∈ st.splits, sp.run ≠ .exiting) : exitCheck k s = [] := by
  obtain ⟨sp, hmem, hrun⟩ := live
  have hall : (st.splits.all fun sp => sp.run = .exiting) = false :=
    List.all_eq_false.2 ⟨sp, hmem, by simpa using hrun⟩
  simp [exitCheck, h, exitReady, State.strand_of_slot s k st h, hall]
theorem ghostEnd_of_alone {s : State} {k : Nat} (h : mapGet s.ghosts k = none) : ghostEnd k s = [] := by
  simp [ghostEnd, h]

/-- The splits once those that an operation held are ready. -/
def heldReady (o : Op) (deps : List Nat) (held all : List Split) : List Split :=
  held.foldl (fun a sp => if sp.run = .hold o.id then putSplit a { sp with run := .ready, dep := joinDeps sp.dep deps } else a) all

theorem mem_putSplit (l : List Split) (sp : Split) : sp ∈ putSplit l sp := by
  induction l with
  | nil => simp [putSplit]
  | cons x r ih =>
    simp only [putSplit]
    by_cases hsame : x.num = sp.num
    · rw [if_pos hsame]; exact List.mem_cons_self
    · rw [if_neg hsame]
      by_cases hlt : sp.num < x.num
      · rw [if_pos hlt]; exact List.mem_cons_self
      · rw [if_neg hlt]; exact List.mem_cons_of_mem _ ih

theorem heldReady_live (o : Op) (deps : List Nat) (held all : List Split) (h : ∃ sp ∈ all, sp.run ≠ .exiting) :
    ∃ sp ∈ heldReady o deps held all, sp.run ≠ .exiting := by
  induction held generalizing all with
  | nil => exact h
  | cons x r ih =>
    by_cases hx : x.run = .hold o.id
    · exact ih _ (by simp only [hx, if_true]; exact ⟨_, mem_putSplit _ _, by simp⟩)
    · exact ih _ (by simpa only [hx, if_false] using h)

theorem opGone_live {s : State} {o : Op} {st : Strand} (deps : List Nat) (h : ∃ sp ∈ st.splits, sp.run ≠ .exiting) :
    ∃ sp ∈ (opGone s o st deps).splits, sp.run ≠ .exiting :=
  heldReady_live o deps st.splits st.splits h

section

variable {s u : State} {o : Op} {st : Strand}

/-- The stages of an operation's end, each a part of `opGone` on the strand's own record. -/
theorem applyAll_depOf (a : Strand) (deps : List Nat) (hpend : u.pend = s.pend) (ha : a.dep = st.dep) :
    (withStrand u o.owner a).applyAll (if deps.isEmpty then [] else [.dep o.owner deps]) =
      withStrand u o.owner { a with dep := (opGone s o st deps).dep } := by
  by_cases h : deps = []
  · simp [opGone, h, ← ha]
  · simp [opGone, h, ← ha, State.stillPending, hpend]
theorem applyAll_flagDepsOf (a : Strand) (deps : List Nat) (hst : s.strand o.owner = st) (ha : a.flagDeps = st.flagDeps) :
    (withStrand u o.owner a).applyAll (flagDepsOf s o deps) =
      withStrand u o.owner { a with flagDeps := (opGone s o st deps).flagDeps } := by
  by_cases h : o.flag = 0 ∨ deps = []
  · simp [flagDepsOf, opGone, h, ← ha]
  · simp [flagDepsOf, opGone, h, hst]
theorem applyAll_flagFallOf (here : ∀ x ∈ u.saved, x.key ≠ o.owner) (a : Strand) (deps : List Nat)
    (hcf : a.cf = st.cf) (hfall : a.cfFall = st.cfFall) :
    (withStrand u o.owner a).applyAll (flagFallOf s o) =
      withStrand u o.owner { a with cf := (opGone s o st deps).cf, cfFall := (opGone s o st deps).cfFall } := by
  by_cases h : o.flag = 0
  · simp [flagFallOf, opGone, h, ← hcf, ← hfall]
  · have hloc := apply_loc_withStrand here a (.flagFall (o.flag - 1) s.now) rfl
    simp [flagFallOf, opGone, h, hloc, Strand.applyL, Strand.flag, hcf, hfall]
theorem applyAll_releaseHold (a : Strand) (deps : List Nat) (hst : s.strand o.owner = st) :
    (withStrand u o.owner a).applyAll (releaseHold s o deps) =
      withStrand u o.owner { a with splits := heldReady o deps st.splits a.splits } := by
  rw [releaseHold, hst]
  induction st.splits generalizing a with
  | nil => rfl
  | cons x r ih =>
    by_cases hx : x.run = .hold o.id
    · simpa [hx, heldReady] using ih _
    · simpa [hx, heldReady] using ih a
theorem applyAll_arrivalOf (deps : List Nat) (hst : s.strand o.owner = st) (hu : u.tls = s.tls) :
    u.applyAll (arrivalOf s o deps) = { u with tls := arrived s st o deps } := by
  cases h : o.tl with
  | none => simp [arrivalOf, arrived, h, ← hu]
  | some t => simp [arrivalOf, arrived, h, hst, State.apply, State.tl, hu]

/-- The updates of an operation's end, where its strand stands. -/
theorem applyAll_endOp (h : Standing s o.owner st) (deps : List Nat) :
    s.applyAll (endOp s o deps) = ended s st o deps := by
  have hst : s.strand o.owner = st := State.strand_of_slot _ _ _ h.slot
  calc s.applyAll (endOp s o deps) = (withStrand s o.owner st).applyAll (endOp s o deps) := by rw [h.withStrand_self]
    _ = ended s st o deps := by
      rw [endOp]
      simp only [State.applyAll_append]
      rw [applyAll_depOf (s := s) (st := st), applyAll_flagDepsOf (hst := hst), applyAll_flagFallOf (st := st) (deps := deps) h.here,
        applyAll_releaseHold (hst := hst), applyAll_arrivalOf (hst := hst)]
      all_goals rfl

/-- The end of an operation leaves its strand standing: no EXIT goes on, and no strand that has gone is counted. -/
theorem run_completeOp_nil (h : Standing s o.owner st) (deps : List Nat) :
    (completeOp o [] deps).run s = ended s st o deps := by
  have hexit : exitCheck o.owner (ended s st o deps) = [] :=
    exitCheck_of_live (mapGet_mapSet_same _ _ _) (opGone_live deps h.live)
  have hghost : ghostEnd o.owner (ended s st o deps) = [] := ghostEnd_of_alone h.alone
  simp [completeOp, Eff.run, Eff.seq, Eff.andThen, applyAll_endOp h, hexit, hghost]

/-- A completion whose results are the strand's registers: they are written, and the operation ends. -/
theorem run_completeOp_loc (h : Standing s o.owner st) (hk : o.killed = false) (u : LUpd)
    (hu : isLaneWrite (.loc o.owner u) = false) (hs : (st.applyL u).splits = st.splits) (deps : List Nat) :
    (completeOp o [.loc o.owner u] deps).run s = ended (withStrand s o.owner (st.applyL u)) (st.applyL u) o deps := by
  have hloc : s.apply (.loc o.owner u) = withStrand s o.owner (st.applyL u) := by
    have hat := apply_loc_withStrand h.here st u hu
    rwa [h.withStrand_self] at hat
  calc (completeOp o [.loc o.owner u] deps).run s = (completeOp o [] deps).run (s.apply (.loc o.owner u)) := by
        simp only [completeOp, Eff.run_seq_cons, hk]
        rfl
    _ = _ := by rw [hloc]; exact run_completeOp_nil (h.withStrand hs) deps

end

/-! ## Linking a record (R255, R320) -/

theorem applyAll_mems (s : State) (l : List Nat) (a : Nat → Nat) (b : Nat → Byte) :
    s.applyAll (l.map fun i => .mem (a i) (b i)) = { s with mem := l.foldl (fun m i => Memory.write m (a i) (b i)) s.mem } := by
  induction l generalizing s with
  | nil => rfl
  | cons i r ih => simp only [List.map_cons, State.applyAll_cons, ih]; rfl

/-- The device's own write of bytes, as the model makes it. -/
theorem applyAll_putBytes (s : State) (pa : Nat) (bs : List Byte) : s.applyAll (Machine.putBytes pa bs) = deviceWrote s pa bs := by
  rw [Machine.putBytes, State.applyAll_append, applyAll_mems]
  rfl

theorem run_appendRecord {s t : State} {part chain addr cluster : Nat} {deps : List Nat}
    (h : linked s part chain addr cluster deps = some t) : (appendRecord part chain addr cluster deps).run s = t := by
  have hkey : 16 * part + chain = chainKey part chain := rfl
  simp only [linked, hkey] at h
  simp only [Eff.run, appendRecord, Chain.madeAt]
  by_cases hempty : (s.chain (chainKey part chain)).head = 0
  · simp only [hempty, if_true, Option.some.injEq] at h ⊢
    exact h
  · simp only [hempty, if_false] at h ⊢
    cases hmade : mapGet (s.chain (chainKey part chain)).made (s.chain (chainKey part chain)).tail with
    | some l =>
      simp only [hmade, Option.some.injEq] at h ⊢
      exact h
    | none =>
      cases htail : tailLink s part chain with
      | error f => simp [hmade, htail] at h
      | ok pa =>
        simp only [hmade, htail, Option.some.injEq] at h ⊢
        rw [State.applyAll_append, putWord, applyAll_putBytes]
        exact h

/-- Linking a record changes the chains, memory and what its write shows, and no strand. -/
theorem linked_strands {s t : State} {part chain addr cluster : Nat} {deps : List Nat}
    (h : linked s part chain addr cluster deps = some t) :
    t.strands = s.strands ∧ t.ghosts = s.ghosts ∧ t.saved = s.saved := by
  simp only [linked] at h
  split at h
  · cases h; exact ⟨rfl, rfl, rfl⟩
  · split at h
    · cases h; exact ⟨rfl, rfl, rfl⟩
    · split at h
      · cases h; exact ⟨rfl, rfl, rfl⟩
      · cases h

/-- A launch the device made, numbered and kept with its chain, before its record is linked. -/
def withMade (s : State) (l : Launch) : State :=
  let x := s.chain (chainKey l.part l.chain)
  { s with
    chains := mapSet s.chains (chainKey l.part l.chain) { x with made := mapSet x.made (madeBase + s.nextLaunch) l }
    nextLaunch := s.nextLaunch + 1 }

theorem madeLinked_eq (s : State) (l : Launch) :
    madeLinked s l = linked (withMade s l) l.part l.chain (madeBase + s.nextLaunch) 0 [] := rfl
theorem run_appendMade_eq (s : State) (l : Launch) :
    (appendMade l).run s = (appendRecord l.part l.chain (madeBase + s.nextLaunch) 0 []).run (withMade s l) := by
  simp only [appendMade, Eff.run, Eff.seq, Eff.andThen, List.append_nil]
  rfl

theorem run_appendMade {s t : State} {l : Launch} (h : madeLinked s l = some t) : (appendMade l).run s = t :=
  (run_appendMade_eq s l).trans (run_appendRecord (madeLinked_eq s l ▸ h))

theorem madeLinked_strands {s t : State} {l : Launch} (h : madeLinked s l = some t) :
    t.strands = s.strands ∧ t.ghosts = s.ghosts ∧ t.saved = s.saved :=
  linked_strands (s := withMade s l) (madeLinked_eq s l ▸ h)

/-- The record of a launch the device made, as the model and as the statements write it (R198). -/
theorem madeRecord_eq_launchWords (r : List Word) (count params : Nat) :
    madeRecord r count params = launchWords r count (BitVec.ofNat 64 params) := rfl

/-! ## Choices of a launch that is neither recorded nor replayed (R370, R372) -/

theorem Unlogged.verdict_plain {s : State} {id : Nat} (h : Unlogged s id) (c : Choice) : verdict s id c = .plain := by
  unfold verdict
  cases hl : mapGet s.launches id with
  | none => rfl
  | some l => simp [(h l hl).1]
theorem Unlogged.choiceOk {s : State} {id : Nat} (h : Unlogged s id) (c : Choice) : choiceOk s id c = true := by
  simp [Machine.choiceOk, h.verdict_plain c]
theorem Unlogged.withChoice_eq {s : State} {id : Nat} (h : Unlogged s id) (c : Choice) (e : Word → Eff) :
    withChoice id c e s = e (BitVec.ofNat 64 c.val) s := by
  simp [withChoice, h.verdict_plain c]

/-! ## SPAWN, MSGSEND and the merger (R198 to R200, R334, R335) -/

/-- What a SPAWN or a MSGSEND does as it arrives, before its own end. -/
def spawnArrives (st : Strand) (r : List Word) (template params : Nat) (deps : List Nat) : Option (Nat × List Word) → Eff
  | none => mergerAdd st r template params deps
  | some (cl, payload) => messageAdd st r cl payload deps

/-- The arrival has a place: the merger takes the spawn, or the message's launch can be linked. -/
def arrivalPlace (s : State) (st : Strand) (template : Nat) : Option (Nat × List Word) → Bool
  | none => mergerTakes s st.cluster template st.part
  | some _ => linkOk s st.part (s.chainOf st)

section

variable {s t : State} {o : Op} {st : Strand} {d template params : Nat} {r : List Word} {msg : Option (Nat × List Word)}

theorem scalarReady_spawn (hst : s.strand o.owner = st) (log : Unlogged s st.launch) (hk : o.kind = .spawn d r template params msg)
    (hrel : releaseReady s o 4 = true) (hplace : arrivalPlace s st template msg = true) : scalarReady s o = true := by
  cases msg with
  | none =>
    simp only [scalarReady, hk, hst, hrel, log.choiceOk, Bool.and_true, Bool.true_and, Bool.or_eq_true]
    exact .inr hplace
  | some m =>
    simp only [scalarReady, hk, hst, hrel, log.choiceOk, Bool.and_true, Bool.true_and, Bool.or_eq_true]
    exact .inr hplace

/-- Where the status is 0 and the launch logs no choice, the completion is the arrival and then the operation's end. -/
theorem exec_spawn_eq (h : Outstanding s o st) (log : Unlogged s st.launch) (hk : o.kind = .spawn d r template params msg)
    (hrel : releaseReady s o 4 = true) (hstatus : spawnStatus s st r msg = 0) (hplace : arrivalPlace s st template msg = true) :
    exec (.scalarInstructionComplete o.id) s =
      .next ((completeOp o [.loc o.owner (.s d 0)] []).run ((spawnArrives st r template params (s.stillPending o.dep) msg).run s)) := by
  have hst : s.strand o.owner = st := State.strand_of_slot _ _ _ h.slot
  have hready := scalarReady_spawn hst log hk hrel hplace
  have hrun : execScalarInstructionComplete o.id s =
      .next ((Eff.seq [spawnArrives st r template params (s.stillPending o.dep) msg, completeOp o [.loc o.owner (.s d 0)] []]).run s) := by
    rw [execScalarInstructionComplete, Eff.when_ok (by simp [h.op, h.active, hready])]
    simp only [h.op, hk, hst, hstatus, log.withChoice_eq]
    cases msg <;> rfl
  show execScalarInstructionComplete o.id s = _
  rw [hrun, Eff.run_seq_cons, Eff.run_seq_cons, Eff.run_seq_nil]

/-- The arrival changes no strand, and the operation's end is of the strand with its status. -/
theorem exec_spawn_of_arrives (h : Outstanding s o st) (log : Unlogged s st.launch) (hk : o.kind = .spawn d r template params msg)
    (hrel : releaseReady s o 4 = true) (hstatus : spawnStatus s st r msg = 0) (hplace : arrivalPlace s st template msg = true)
    (harrives : (spawnArrives st r template params (s.stillPending o.dep) msg).run s = t)
    (hkept : t.strands = s.strands ∧ t.ghosts = s.ghosts ∧ t.saved = s.saved) :
    let u := onStrand t o.owner fun q => q.applyL (.s d 0)
    exec (.scalarInstructionComplete o.id) s = .next (ended u (u.strand o.owner) o []) := by
  have ht : Standing t o.owner st := h.standing.of_strands hkept
  have hu : onStrand t o.owner (fun q => q.applyL (.s d 0)) = withStrand t o.owner (st.applyL (.s d 0)) :=
    onStrand_eq_withStrand t o.owner st _ ht.slot
  simp only [exec_spawn_eq h log hk hrel hstatus hplace, harrives, hu, withStrand_strand]
  exact congrArg _ (run_completeOp_loc ht h.spared (.s d 0) rfl (splits_applyL_s st d 0) [])

end

/-- A cluster's merger once a spawn has arrived: in the open launch it joins, or in one of its own (R334). -/
def mergerWith (s : State) (st : Strand) (r : List Word) (template params : Nat) (deps : List Nat) : List OpenLaunch :=
  let joins := fun (m : OpenLaunch) => m.takes s.now template st.part
  if (s.merger st.cluster).any joins then
    (s.merger st.cluster).map fun m => if joins m then { m with spawns := m.spawns ++ [(params, st.asid, deps)] } else m
  else s.merger st.cluster ++
    [{ template := template, part := st.part, asid := st.asid, chain := chainNumber s st, level := recLevel s st.part st.asid r,
       rec_ := r, opened := s.now, spawns := [(params, st.asid, deps)] }]

theorem run_mergerAdd (s : State) (st : Strand) (r : List Word) (template params : Nat) (deps : List Nat) :
    (mergerAdd st r template params deps).run s =
      { s with mergers := mapSet s.mergers st.cluster (mergerWith s st r template params deps) } := by
  simp only [Eff.run, mergerAdd, mergerWith]
  split <;> rfl

/-- One message more has arrived for a cluster. -/
def messageCounted (s : State) (cl : Nat) : State := { s with msgs := mapSet s.msgs cl ((mapGet s.msgs cl).getD 0 + 1) }

/-- The launch of one strand that a message links (R199, R335). -/
def messageLaunch (s : State) (st : Strand) (r : List Word) (cl : Nat) (payload : List Word) (deps : List Nat) : Launch :=
  { launchOf st.part (chainNumber s st) st.asid 0 (recLevel s st.part st.asid r) 0 (launchWords r 1 (r.getD 2 0)) (0xF#256 <<< (4 * cl)) [] s.now with
    payload := payload, message := true, spawnDeps := [deps] }

theorem run_messageAdd {s t : State} {st : Strand} {r : List Word} {cl : Nat} {payload : List Word} {deps : List Nat}
    (h : madeLinked (messageCounted s cl) (messageLaunch s st r cl payload deps) = some t) :
    (messageAdd st r cl payload deps).run s = t := by
  have hrec : madeRecord r 1 (recWord r 2).toNat = launchWords r 1 (r.getD 2 0) := by
    rw [madeRecord_eq_launchWords, BitVec.ofNat_toNat, BitVec.setWidth_eq]; rfl
  have hrun : (messageAdd st r cl payload deps).run s =
      (appendMade (messageLaunch s st r cl payload deps)).run (messageCounted s cl) := by
    simp only [Eff.run, messageAdd, Eff.seq, Eff.andThen, hrec, List.append_nil]
    rfl
  exact hrun.trans (run_appendMade h)

/-- The open launch that closes, as it is linked: one strand for each spawn (R334). -/
def mergedLaunch (m : OpenLaunch) (now : Nat) : Launch :=
  { launchOf m.part m.chain m.asid 0 m.level 0 (launchWords m.rec_ m.spawns.length 0) (BitVec.allOnes 256) [] now with
    params := m.spawns.map (·.1), asids := m.spawns.map (·.2.1), spawnDeps := m.spawns.map (·.2.2) }

theorem exec_merger_closes {cl index : Nat} {s t : State} {m : OpenLaunch} (hm : (s.merger cl)[index]? = some m)
    (hend : 64 ≤ m.spawns.length ∨ m.opened + 1700 ≤ s.now) (hlink : linkOk s m.part m.chain = true)
    (h : madeLinked { s with mergers := mapSet s.mergers cl ((s.merger cl).eraseIdx index) } (mergedLaunch m s.now) = some t) :
    exec (.spawnMergerClose cl index) s = .next t := by
  have hok : ((decide (64 ≤ m.spawns.length) || decide (m.opened + mergeCycles ≤ s.now)) && linkOk s m.part m.chain) = true := by
    simp only [Bool.and_eq_true, Bool.or_eq_true, decide_eq_true_eq]
    exact ⟨hend, hlink⟩
  show execSpawnMergerClose cl index s = _
  rw [execSpawnMergerClose, Eff.when_ok (by simp only [hm]; exact hok)]
  simp only [hm]
  refine congrArg _ (Eq.trans ?_ (run_appendMade h))
  simp only [Eff.run, Eff.seq, Eff.andThen, List.append_nil]
  rfl

/-- Settles O29: a spawn's or a message's arrival is run by its own lemma, and the completion then ends the operation; a merged launch that
closes is linked by the rule for launches the device makes (R334, R335). -/
theorem spawnsMerge : Obligations.SpawnsMerge := by
  refine ⟨?_, fun cl index s t m hm hend hlink h => exec_merger_closes hm hend hlink h⟩
  intro s t o st d template params r msg h _ log hk hrel hstatus cl deps fits harr
  cases msg with
  | none =>
    obtain ⟨htakes, ht⟩ := Option.ite_none_right_eq_some.1 harr
    refine exec_spawn_of_arrives h log hk hrel hstatus htakes ?_ ?_
    · exact (run_mergerAdd s st r template params deps).trans (Option.some.inj ht)
    · cases ht; exact ⟨rfl, rfl, rfl⟩
  | some m =>
    obtain ⟨c, payload⟩ := m
    obtain ⟨hlink, ht⟩ := Option.ite_none_right_eq_some.1 harr
    exact exec_spawn_of_arrives h log hk hrel hstatus hlink (run_messageAdd ht)
      (madeLinked_strands (s := messageCounted s c) ht)

end Sys2Proof.Claims
